-- ==== Sys2Proof/Word.lean ====
section
/-! DEFINITION. The word types of the block and the two extensions every file uses. -/
namespace Sys2Proof

/-- 32 bits: an instruction word, `pc`, a virtual or physical address (00_scope.md R9). -/
abbrev Word := BitVec 32

/-- 64 bits: a general-purpose register, `hi`, `lo` (00_scope.md R9, `XLEN`). -/
abbrev Dword := BitVec 64

/-- 8 bits: one byte of memory. -/
abbrev Byte := BitVec 8

/-- The 5-bit number of a general-purpose register or of a coprocessor register. -/
abbrev Reg := BitVec 5

/-- `sext_64` of a 32-bit value (00_scope.md R12). -/
abbrev sext64 (v : Word) : Dword := v.signExtend 64

/-- `v[31:0]` of a 64-bit value (00_scope.md R10). -/
abbrev low32 (v : Dword) : Word := v.setWidth 32

end Sys2Proof
end

