-- ==== Sys2Proof/Config.lean ====
section
/-! DEFINITION. The implementation parameters of 00_scope.md R9, the values they have at the model's
reset, and the free values: constants without a body, of which nothing can be proved. -/
namespace Sys2Proof

/-- `P_NONSEXT32` (R9, R109): a 32-bit operation on an operand that is not a sign-extended 32-bit value. -/
inductive NonSext32 where
  | truncate
  | draw
  deriving DecidableEq, Repr

/-- `P_LWR_UPPER` (R9, R203): bits 63-32 after LWR. -/
inductive LwrUpper where
  | signExtend
  | draw
  deriving DecidableEq, Repr

/-- `P_BRANCH_IN_DS` (R9, R100): a branch or jump executed in a delay slot. -/
inductive BranchInDs where
  | refuse
  | derived
  deriving DecidableEq, Repr

/-- MODEL: what a taken self-branch has written when its look-ahead fetch is refused. The writes of 44_branch.md R174
come before its probe; 60_exceptions.md R266 has a refusal made "before the refused instruction writes anything"; no
ruling of the spec says which holds, so that both are modelled (DESIGN CHOICE, safe, log entry 13). -/
inductive LookAheadRefusal where
  /-- The link, `jumpTarget` and `bstate`, in the order of R174. -/
  | afterWrites
  /-- Nothing, as R266 says. -/
  | beforeWrites
  deriving DecidableEq, Repr, Inhabited

/-- What a translation is for: `kind` of `P_TRANSLATE(va, kind)` (20_memory.md R54). -/
inductive AccessKind where
  | fetch
  | load
  | store
  deriving DecidableEq, Repr

/-- A run of doublewords of the virtual space that the MMU maps to a run of the physical space for the
listed kinds of access (20_memory.md R54). A finite list of windows can spell any translation that keeps
the low three bits of an address, which R55's "`pa` a multiple of n" asks of it (log entry 6). -/
structure Window where
  forFetch : Bool
  forLoad  : Bool
  forStore : Bool
  vbase    : BitVec 29
  count    : Nat
  pbase    : BitVec 29
  deriving DecidableEq, Repr

/-- A run of doublewords of the physical space that belongs to devices (20_memory.md R55, log entry 8). -/
structure DeviceRange where
  base  : BitVec 29
  count : Nat
  deriving DecidableEq, Repr

/-- The parameters of 00_scope.md R9 that are fixed for a launch, and one of the model's own. A state holds them, so that a statement
about every state is a statement about every value of them. -/
structure Params where
  /-- `P_CACHE_ENABLE`, the configuration key "instructioncache" (R38). -/
  cacheEnable  : Bool
  /-- `P_CACHE_A_BASE`, `P_CACHE_A_SIZE` (R37). -/
  cacheABase   : Word
  cacheASize   : Nat
  /-- `P_CACHE_B_BASE`, `P_CACHE_B_SIZE`, `P_CACHE_B_OFFSET` (R37). -/
  cacheBBase   : Word
  cacheBSize   : Nat
  cacheBOffset : Word
  /-- `P_CPI_RESET` (R52). -/
  cpiReset     : Word
  /-- `P_RESET_PC` (R283). -/
  resetPc      : Word
  /-- `P_IDLE_EXTRA`, "small fixed constant" (R104). -/
  idleExtra    : Nat
  /-- `P_COP0_BADVADDR`, `P_COP0_EXC`, `P_CODE_ADEL`, `P_CODE_ADES` (R263). -/
  cop0BadVAddr : Reg
  cop0Exc      : Reg
  codeAdel     : Word
  codeAdes     : Word
  /-- `P_INT_REG_A`, `P_INT_REG_B` (R46, R97). -/
  intRegA      : Reg
  intRegB      : Reg
  /-- `P_NONSEXT32` (R109). -/
  nonSext32    : NonSext32
  /-- `P_LWR_UPPER` (R203). -/
  lwrUpper     : LwrUpper
  /-- `P_BRANCH_IN_DS` (R100). -/
  branchInDs   : BranchInDs
  /-- MODEL: whether the refusal of a self-branch's look-ahead fetch follows R174 or R266 (log entry 13). -/
  lookAheadRefusal : LookAheadRefusal
  /-- `P_TIMER_CANCEL` (R104). -/
  timerCancel  : Word
  /-- Whether the model is given a `P_COP1_EXEC` (R8, R256). -/
  cop1Exec     : Bool
  /-- The device addresses of `P_BUS` (R55). -/
  devices      : List DeviceRange
  deriving DecidableEq, Repr

/-- FREE VALUE, UNVERIFIED by design: a `draw` (00_scope.md R14), "a value the model leaves free (any value
of the stated width, no law)". Applied to the counter `draws` of the state (log entry 7). -/
opaque Config.freeValue : Nat → BitVec 64

/-- FREE VALUE: the choice that 40_fetch_execute.md R92 calls a draw, applied to the counter `draws`. -/
opaque Config.freeChoice : Nat → Bool

/-- FREE VALUE: what an unscripted collaborator call returns (60_exceptions.md R269, log entry 1), applied
to the number of the call. -/
opaque Config.freeAnswer : Nat → BitVec 64

/-- FREE VALUE: `permanentLoop` of an unscripted `Cop0IdleSignals` (R269, log entry 1). -/
opaque Config.freePermanentLoop : Nat → Bool

/-- FREE VALUE: `safeIdle` of an unscripted `Cop0IdleSignals` (R269, log entry 1). -/
opaque Config.freeSafeIdle : Nat → Bool

/-- OPEN parameter without a default (R9): `P_IDLE_EXTRA` at reset (log entry 4). -/
opaque Config.idleExtra : Nat

/-- OPEN parameters without a default (R9): the address-error report's registers and codes at reset (log entry 4). -/
opaque Config.cop0BadVAddr : Reg
opaque Config.cop0Exc : Reg
opaque Config.codeAdel : Word
opaque Config.codeAdes : Word

/-- OPEN parameters without a default (R9): the two interrupt registers at reset (log entry 4). -/
opaque Config.intRegA : Reg
opaque Config.intRegB : Reg

/-- OPEN parameter without a default (R9): `P_TIMER_CANCEL` at reset (log entry 4). -/
opaque Config.timerCancel : Word

/-- FREE VALUE: which of R174 and R266 holds of a refused look-ahead fetch at reset (log entry 13). -/
opaque Config.lookAheadRefusal : LookAheadRefusal

/-- The parameters at the model's reset: the spec's defaults where R9 gives one; DESIGN CHOICE (unsafe, log
entry 4) for the cache switch, the cache geometry and `P_CPI_RESET`, taken from the configuration of
95_test_vectors.md 2.8 and 3; PRESUMED (unsafe, log entry 4) for `P_RESET_PC`, the family's reset vector. -/
def Config.launch : Params :=
  { cacheEnable := true
    cacheABase := 0x00000000#32, cacheASize := 0x2000
    cacheBBase := 0x00000000#32, cacheBSize := 0, cacheBOffset := 0x00000000#32
    cpiReset := 1#32
    resetPc := 0xBFC00000#32
    idleExtra := Config.idleExtra
    cop0BadVAddr := Config.cop0BadVAddr, cop0Exc := Config.cop0Exc
    codeAdel := Config.codeAdel, codeAdes := Config.codeAdes
    intRegA := Config.intRegA, intRegB := Config.intRegB
    nonSext32 := .truncate
    lwrUpper := .signExtend
    branchInDs := .refuse
    lookAheadRefusal := Config.lookAheadRefusal
    timerCancel := Config.timerCancel
    cop1Exec := false
    devices := [] }

/-- The translation at the model's reset: the identity for every kind of access, DESIGN CHOICE (unsafe, log
entry 6), as in 95_test_vectors.md 3. -/
def Config.identityMap : List Window :=
  [{ forFetch := true, forLoad := true, forStore := true, vbase := 0#29, count := 0x20000000, pbase := 0#29 }]

end Sys2Proof
end

