-- ==== Sys2Proof/Syntax.lean ====
section
/-! DEFINITION. The instruction set: one constructor for every row of spec/opcode_table.json, its operands in
the order of the row's assembler syntax (30_encoding.md R85), and what a word resolves to (R77, R83).

Operand fields are bit vectors as wide as the word's field (30_encoding.md R75). A shift amount is the NUMBER
the instruction shifts by (42_shift.md R137): 0 to 31 for the `sa` forms, 32 to 63 for the `sa32` forms;
WellFormed.lean checks the range. -/
namespace Sys2Proof

/-- The instructions of the block (30_encoding.md R78 to R81). -/
inductive Instr where
  -- Integer arithmetic, logical and set-on-less-than (41_alu.md)
  /-- R113: `ADD rd, rs, rt` -/
  | add (rd rs rt : Reg)
  /-- R114: `ADDU rd, rs, rt` -/
  | addu (rd rs rt : Reg)
  /-- R115: `SUB rd, rs, rt` -/
  | sub (rd rs rt : Reg)
  /-- R116: `SUBU rd, rs, rt` -/
  | subu (rd rs rt : Reg)
  /-- R117: `DADD rd, rs, rt` -/
  | dadd (rd rs rt : Reg)
  /-- R118: `DADDU rd, rs, rt` -/
  | daddu (rd rs rt : Reg)
  /-- R119: `DSUB rd, rs, rt` -/
  | dsub (rd rs rt : Reg)
  /-- R120: `DSUBU rd, rs, rt` -/
  | dsubu (rd rs rt : Reg)
  /-- R121: `AND rd, rs, rt` -/
  | and (rd rs rt : Reg)
  /-- R122: `OR rd, rs, rt` -/
  | or (rd rs rt : Reg)
  /-- R123: `XOR rd, rs, rt` -/
  | xor (rd rs rt : Reg)
  /-- R124: `NOR rd, rs, rt` -/
  | nor (rd rs rt : Reg)
  /-- R125: `SLT rd, rs, rt` -/
  | slt (rd rs rt : Reg)
  /-- R126: `SLTU rd, rs, rt` -/
  | sltu (rd rs rt : Reg)
  /-- R127: `ADDI rt, rs, imm` -/
  | addi (rt rs : Reg) (imm : BitVec 16)
  /-- R128: `ADDIU rt, rs, imm` -/
  | addiu (rt rs : Reg) (imm : BitVec 16)
  /-- R129: `DADDI rt, rs, imm` -/
  | daddi (rt rs : Reg) (imm : BitVec 16)
  /-- R130: `DADDIU rt, rs, imm` -/
  | daddiu (rt rs : Reg) (imm : BitVec 16)
  /-- R131: `SLTI rt, rs, imm` -/
  | slti (rt rs : Reg) (imm : BitVec 16)
  /-- R132: `SLTIU rt, rs, imm` -/
  | sltiu (rt rs : Reg) (imm : BitVec 16)
  /-- R133: `ANDI rt, rs, imm` -/
  | andi (rt rs : Reg) (imm : BitVec 16)
  /-- R134: `ORI rt, rs, imm` -/
  | ori (rt rs : Reg) (imm : BitVec 16)
  /-- R135: `XORI rt, rs, imm` -/
  | xori (rt rs : Reg) (imm : BitVec 16)
  /-- R136: `LUI rt, imm` -/
  | lui (rt : Reg) (imm : BitVec 16)
  -- Shifts (42_shift.md)
  /-- R139: `SLL rd, rt, sa` -/
  | sll (rd rt : Reg) (sa : Nat)
  /-- R140: `SRL rd, rt, sa` -/
  | srl (rd rt : Reg) (sa : Nat)
  /-- R141: `SRA rd, rt, sa` -/
  | sra (rd rt : Reg) (sa : Nat)
  /-- R142: `SLLV rd, rt, rs` -/
  | sllv (rd rt rs : Reg)
  /-- R143: `SRLV rd, rt, rs` -/
  | srlv (rd rt rs : Reg)
  /-- R144: `SRAV rd, rt, rs` -/
  | srav (rd rt rs : Reg)
  /-- R145: `DSLL rd, rt, sa` -/
  | dsll (rd rt : Reg) (sa : Nat)
  /-- R146: `DSRL rd, rt, sa` -/
  | dsrl (rd rt : Reg) (sa : Nat)
  /-- R147: `DSRA rd, rt, sa` -/
  | dsra (rd rt : Reg) (sa : Nat)
  /-- R148: `DSLL32 rd, rt, sa` -/
  | dsll32 (rd rt : Reg) (sa : Nat)
  /-- R149: `DSRL32 rd, rt, sa` -/
  | dsrl32 (rd rt : Reg) (sa : Nat)
  /-- R150: `DSRA32 rd, rt, sa` -/
  | dsra32 (rd rt : Reg) (sa : Nat)
  /-- R151: `DSLLV rd, rt, rs` -/
  | dsllv (rd rt rs : Reg)
  /-- R152: `DSRLV rd, rt, rs` -/
  | dsrlv (rd rt rs : Reg)
  /-- R153: `DSRAV rd, rt, rs` -/
  | dsrav (rd rt rs : Reg)
  -- Multiply, divide and HI/LO moves (43_muldiv.md)
  /-- R160: `MULT rs, rt` -/
  | mult (rs rt : Reg)
  /-- R161: `MULTU rs, rt` -/
  | multu (rs rt : Reg)
  /-- R162: `DIV rs, rt` -/
  | div (rs rt : Reg)
  /-- R163: `DIVU rs, rt` -/
  | divu (rs rt : Reg)
  /-- R164: `DMULT rs, rt` -/
  | dmult (rs rt : Reg)
  /-- R165: `DMULTU rs, rt` -/
  | dmultu (rs rt : Reg)
  /-- R166: `DDIV rs, rt` -/
  | ddiv (rs rt : Reg)
  /-- R167: `DDIVU rs, rt` -/
  | ddivu (rs rt : Reg)
  /-- R168: `MFHI rd` -/
  | mfhi (rd : Reg)
  /-- R169: `MFLO rd` -/
  | mflo (rd : Reg)
  /-- R170: `MTHI rs` -/
  | mthi (rs : Reg)
  /-- R171: `MTLO rs` -/
  | mtlo (rs : Reg)
  -- Branches and jumps (44_branch.md)
  /-- R178: `J target` -/
  | j (target : BitVec 26)
  /-- R179: `JAL target` -/
  | jal (target : BitVec 26)
  /-- R180: `JR rs` -/
  | jr (rs : Reg)
  /-- R181: `JALR rd, rs` -/
  | jalr (rd rs : Reg)
  /-- R182: `BEQ rs, rt, offset` -/
  | beq (rs rt : Reg) (offset : BitVec 16)
  /-- R183: `BNE rs, rt, offset` -/
  | bne (rs rt : Reg) (offset : BitVec 16)
  /-- R184: `BLEZ rs, offset` -/
  | blez (rs : Reg) (offset : BitVec 16)
  /-- R185: `BGTZ rs, offset` -/
  | bgtz (rs : Reg) (offset : BitVec 16)
  /-- R186: `BEQL rs, rt, offset` -/
  | beql (rs rt : Reg) (offset : BitVec 16)
  /-- R187: `BNEL rs, rt, offset` -/
  | bnel (rs rt : Reg) (offset : BitVec 16)
  /-- R188: `BLEZL rs, offset` -/
  | blezl (rs : Reg) (offset : BitVec 16)
  /-- R189: `BGTZL rs, offset` -/
  | bgtzl (rs : Reg) (offset : BitVec 16)
  /-- R190: `BLTZ rs, offset` -/
  | bltz (rs : Reg) (offset : BitVec 16)
  /-- R191: `BGEZ rs, offset` -/
  | bgez (rs : Reg) (offset : BitVec 16)
  /-- R192: `BLTZL rs, offset` -/
  | bltzl (rs : Reg) (offset : BitVec 16)
  /-- R193: `BGEZL rs, offset` -/
  | bgezl (rs : Reg) (offset : BitVec 16)
  /-- R194: `BLTZAL rs, offset` -/
  | bltzal (rs : Reg) (offset : BitVec 16)
  /-- R195: `BGEZAL rs, offset` -/
  | bgezal (rs : Reg) (offset : BitVec 16)
  /-- R196: `BLTZALL rs, offset` -/
  | bltzall (rs : Reg) (offset : BitVec 16)
  /-- R197: `BGEZALL rs, offset` -/
  | bgezall (rs : Reg) (offset : BitVec 16)
  -- Loads and stores (45_loadstore.md)
  /-- R205: `LB rt, offset(base)` -/
  | lb (rt : Reg) (offset : BitVec 16) (base : Reg)
  /-- R206: `LBU rt, offset(base)` -/
  | lbu (rt : Reg) (offset : BitVec 16) (base : Reg)
  /-- R207: `LH rt, offset(base)` -/
  | lh (rt : Reg) (offset : BitVec 16) (base : Reg)
  /-- R208: `LHU rt, offset(base)` -/
  | lhu (rt : Reg) (offset : BitVec 16) (base : Reg)
  /-- R209: `LW rt, offset(base)` -/
  | lw (rt : Reg) (offset : BitVec 16) (base : Reg)
  /-- R210: `LWU rt, offset(base)` -/
  | lwu (rt : Reg) (offset : BitVec 16) (base : Reg)
  /-- R211: `LD rt, offset(base)` -/
  | ld (rt : Reg) (offset : BitVec 16) (base : Reg)
  /-- R212: `LWL rt, offset(base)` -/
  | lwl (rt : Reg) (offset : BitVec 16) (base : Reg)
  /-- R213: `LWR rt, offset(base)` -/
  | lwr (rt : Reg) (offset : BitVec 16) (base : Reg)
  /-- R214: `LDL rt, offset(base)` -/
  | ldl (rt : Reg) (offset : BitVec 16) (base : Reg)
  /-- R215: `LDR rt, offset(base)` -/
  | ldr (rt : Reg) (offset : BitVec 16) (base : Reg)
  /-- R216: `LL rt, offset(base)` -/
  | ll (rt : Reg) (offset : BitVec 16) (base : Reg)
  /-- R217: `LLD rt, offset(base)` -/
  | lld (rt : Reg) (offset : BitVec 16) (base : Reg)
  /-- R218: `SB rt, offset(base)` -/
  | sb (rt : Reg) (offset : BitVec 16) (base : Reg)
  /-- R219: `SH rt, offset(base)` -/
  | sh (rt : Reg) (offset : BitVec 16) (base : Reg)
  /-- R220: `SW rt, offset(base)` -/
  | sw (rt : Reg) (offset : BitVec 16) (base : Reg)
  /-- R221: `SD rt, offset(base)` -/
  | sd (rt : Reg) (offset : BitVec 16) (base : Reg)
  /-- R222: `SWL rt, offset(base)` -/
  | swl (rt : Reg) (offset : BitVec 16) (base : Reg)
  /-- R223: `SWR rt, offset(base)` -/
  | swr (rt : Reg) (offset : BitVec 16) (base : Reg)
  /-- R224: `SDL rt, offset(base)` -/
  | sdl (rt : Reg) (offset : BitVec 16) (base : Reg)
  /-- R225: `SDR rt, offset(base)` -/
  | sdr (rt : Reg) (offset : BitVec 16) (base : Reg)
  /-- R226: `SC rt, offset(base)` -/
  | sc (rt : Reg) (offset : BitVec 16) (base : Reg)
  /-- R227: `SCD rt, offset(base)` -/
  | scd (rt : Reg) (offset : BitVec 16) (base : Reg)
  -- System, coprocessor and no-op (46_system.md)
  /-- R228: `SYNC` -/
  | sync
  /-- R229: `CACHE op, offset(base)` -/
  | cache (op : BitVec 5) (offset : BitVec 16) (base : Reg)
  /-- R230: `SYSCALL code` -/
  | syscall (code : BitVec 20)
  /-- R231: `BREAK code` -/
  | brk (code : BitVec 20)
  /-- R233: `TGE rs, rt` -/
  | tge (rs rt : Reg)
  /-- R234: `TGEU rs, rt` -/
  | tgeu (rs rt : Reg)
  /-- R235: `TLT rs, rt` -/
  | tlt (rs rt : Reg)
  /-- R236: `TLTU rs, rt` -/
  | tltu (rs rt : Reg)
  /-- R237: `TEQ rs, rt` -/
  | teq (rs rt : Reg)
  /-- R238: `TNE rs, rt` -/
  | tne (rs rt : Reg)
  /-- R239: `TGEI rs, imm` -/
  | tgei (rs : Reg) (imm : BitVec 16)
  /-- R240: `TGEIU rs, imm` -/
  | tgeiu (rs : Reg) (imm : BitVec 16)
  /-- R241: `TLTI rs, imm` -/
  | tlti (rs : Reg) (imm : BitVec 16)
  /-- R242: `TLTIU rs, imm` -/
  | tltiu (rs : Reg) (imm : BitVec 16)
  /-- R243: `TEQI rs, imm` -/
  | teqi (rs : Reg) (imm : BitVec 16)
  /-- R244: `TNEI rs, imm` -/
  | tnei (rs : Reg) (imm : BitVec 16)
  /-- R246: `MFC0 rt, rd` -/
  | mfc0 (rt rd : Reg)
  /-- R247: `DMFC0 rt, rd` -/
  | dmfc0 (rt rd : Reg)
  /-- R248: `MTC0 rt, rd` -/
  | mtc0 (rt rd : Reg)
  /-- R249: `DMTC0 rt, rd` -/
  | dmtc0 (rt rd : Reg)
  /-- R251: `TLBR` -/
  | tlbr
  /-- R252: `TLBWI` -/
  | tlbwi
  /-- R253: `TLBWR` -/
  | tlbwr
  /-- R254: `TLBP` -/
  | tlbp
  /-- R255: `ERET` -/
  | eret
  /-- R257: `COP1 (any coprocessor-1 operation)` -/
  | cop1 (rest : BitVec 26)
  /-- R258: `LWC1 ft, offset(base)` -/
  | lwc1 (ft : Reg) (offset : BitVec 16) (base : Reg)
  /-- R259: `LDC1 ft, offset(base)` -/
  | ldc1 (ft : Reg) (offset : BitVec 16) (base : Reg)
  /-- R260: `SWC1 ft, offset(base)` -/
  | swc1 (ft : Reg) (offset : BitVec 16) (base : Reg)
  /-- R261: `SDC1 ft, offset(base)` -/
  | sdc1 (ft : Reg) (offset : BitVec 16) (base : Reg)
  deriving DecidableEq, Repr

/-- An unassigned slot of the dispatch tables, by the table and the selecting field (30_encoding.md R83, R81). -/
inductive Slot where
  /-- `primary[op]` is the fallback (R78). -/
  | primary (op : BitVec 6)
  /-- `special[funct]` is the fallback (R79). -/
  | special (funct : BitVec 6)
  /-- `regimm[sub]` is the fallback (R80). -/
  | regimm (sub : BitVec 5)
  /-- COP0 with `w[25] = 0` and an unlisted `w[25:21]` (R81). -/
  | cop0Mov (sub : BitVec 5)
  /-- COP0 with `w[25] = 1` and an unlisted `w[5:0]` (R81). -/
  | cop0Co (funct : BitVec 6)
  deriving DecidableEq, Repr

/-- What `Resolve` makes of a word (30_encoding.md R77): the handler of an instruction, with its operands, or
the fallback handler of an unassigned slot. -/
inductive Resolved where
  | handler (i : Instr)
  | fallback (slot : Slot)
  deriving DecidableEq, Repr

/-- Why a run of bytes is not an instruction. -/
inductive Reject where
  /-- The word selects an unassigned slot (30_encoding.md R83). -/
  | unassigned (slot : Slot)
  /-- There are fewer than the four bytes of a word (30_encoding.md R74). -/
  | truncated (bytes : Nat)
  deriving DecidableEq, Repr

end Sys2Proof
end

