-- ==== Sys2Proof/Machine/State.lean ====
section
/-! DEFINITION. The state of the block (10_state.md), of the memory and the collaborators it reaches, and the
reasons a step has none; plain data throughout. -/
namespace Sys2Proof.Machine

/-- The branch states (10_state.md R28; 00_scope.md R19). The seven other names of R29 are unreachable and are
no part of the state. -/
inductive BranchState where
  /-- The next step advances `pc` by 4. -/
  | normal
  /-- A branch has resolved; the next instruction is its delay slot. -/
  | delaySlot
  /-- The instruction now executing is the last before control lands on `jumpTarget`. -/
  | jump
  deriving DecidableEq, Repr

/-- Why a run is fatal (60_exceptions.md R265). -/
inductive FatalReason where
  | unknownOpcode
  | permanentLoop
  deriving DecidableEq, Repr

/-- Why a run is refused: the table of 60_exceptions.md R266. -/
inductive RefuseReason where
  | misalignedFetch
  | translationFault
  | misalignedDoubleword
  | branchInDelaySlot
  | syscallBreak
  | cop1Unmodelled
  | unmappedControl
  deriving DecidableEq, Repr

/-- How a run ended: what `halt` records when it is not `None` (10_state.md R35; 60_exceptions.md R265, R266). -/
inductive Ending where
  | fatal (reason : FatalReason) (pc w : Word)
  | refused (reason : RefuseReason)
  deriving DecidableEq, Repr

/-- How many bytes an access moves: n in 1, 2, 4, 8 (00_scope.md R13). -/
inductive Size where
  | b1
  | b2
  | b4
  | b8
  deriving DecidableEq, Repr

/-- The width of a control-surface access: the "8/16/32/64-bit views" (10_state.md R40, R41). -/
inductive Width where
  | w8
  | w16
  | w32
  | w64
  deriving DecidableEq, Repr

/-- A call the block makes to a collaborator: the table of 60_exceptions.md R269, and the coprocessor-1
executor with its register calls (46_system.md R256). R256 gives a coprocessor-1 register index no width, so that it
is any number here, DESIGN CHOICE (safe, log entry 11). -/
inductive Call where
  | cop0Read (i : Reg)
  | cop0Write (i : Reg) (v : Word)
  | cop0Op (funct : BitVec 6)
  | cop0IdleSignals
  | cop0Advance (d : Word)
  | cop0SetCpi (c : Word)
  | timerClock (c : Dword)
  | timerRead (i : Nat)
  | timerWrite (i : Nat) (v : Word)
  | translate (va : Word) (kind : AccessKind)
  | busRead (pa : Word) (n : Size)
  | busWrite (pa : Word) (n : Size) (v : Dword)
  | cop1Exec (w pc : Word)
  | cop1Read (i : Nat)
  | cop1Write (i : Nat) (v : Word)
  deriving DecidableEq, Repr

/-- What a collaborator or another agent may do during a call, and the host between iterations (20_memory.md
R69; 60_exceptions.md R269): a control-surface access, a write of one byte of memory, or a change of the MMU's
translation (46_system.md R252). -/
inductive Action where
  | ctlRead (index : Nat) (width : Width)
  | ctlWrite (index : Nat) (width : Width) (v : Dword)
  | memWrite (pa : Word) (b : Byte)
  | remap (windows : List Window)
  deriving DecidableEq, Repr

/-- One thing the coprocessor-1 executor may do (46_system.md R256), or that is done by another agent during its call
(20_memory.md R69). Reading a register changes nothing, so it is no entry of the list. -/
inductive Cop1Op where
  | writeGpr (r : Reg) (v : Dword)
  | memRead (va : Word) (n : Size)
  | memWrite (va : Word) (n : Size) (v : Dword)
  | regRead (i : Nat)
  | regWrite (i : Nat) (v : Word)
  | act (a : Action)
  deriving DecidableEq, Repr

/-- The one `BranchOp` the coprocessor-1 executor may call (46_system.md R256, 44_branch.md R174), and what it does
after it. -/
structure Cop1Branch where
  taken  : Bool
  target : Word
  likely : Bool
  link   : Option Reg
  after  : List Cop1Op
  deriving DecidableEq, Repr

/-- How a collaborator answers one call: the value it returns (its low bits where the result is narrower), the
two idle signals, what is done during the call, and, for the coprocessor-1 executor, what it does before its `BranchOp`,
and that `BranchOp` if it calls one (log entries 1, 11). -/
structure Answer where
  value         : Dword
  permanentLoop : Bool
  safeIdle      : Bool
  actions       : List Action
  cop1Ops       : List Cop1Op
  cop1Branch    : Option Cop1Branch
  deriving DecidableEq, Repr

/-- What a machine reset leaves unspecified (10_state.md R52: "a launch parameter" or "draw"): data of the reset
event, so that a statement about a reset is one about every value (log entry 3). -/
structure Launch where
  x          : Vector Dword 32
  hi         : Dword
  lo         : Dword
  jumpTarget : Word
  llbit      : Bool
  lastInstr  : Word
  deriving DecidableEq, Repr

/-- What the host may do between iterations (60_exceptions.md R270): an access or a write of memory, setting or
clearing `running` (10_state.md R34), a machine reset (70_reset_and_hazards.md R282). -/
inductive HostAction where
  | act (a : Action)
  | setRunning (b : Bool)
  | machineReset (l : Launch)
  deriving DecidableEq, Repr

/-- A valid entry of the decode cache (10_state.md R36): the physical address it was filled from, the word, and
the handler the word resolved to. -/
structure CacheEntry where
  tag     : Word
  raw     : Word
  handler : Resolved
  deriving DecidableEq, Repr

/-- The valid entries of the decode cache by index (10_state.md R36, R37), in rising order; an index that is not
listed is an entry with `valid = false`, whose other fields are "never read while invalid" (R52). -/
abbrev Cache := List (Nat × CacheEntry)

/-- The ordinary memory of the bus: physical address and byte, addresses rising, and no byte listed that equals
what an unlisted address reads as (20_memory.md R55, log entry 5). -/
abbrev Memory := List Host.Cell

/-- The state of the block (10_state.md), then that of the memory, the MMU and the environment. -/
structure State where
  /-- The general-purpose registers (R20). -/
  x           : Vector Dword 32
  /-- The program counter (R23). -/
  pc          : Word
  /-- The multiply-result registers (R26). -/
  hi          : Dword
  lo          : Dword
  /-- The branch state and the pending target address (R28). -/
  bstate      : BranchState
  jumpTarget  : Word
  /-- The load-link reservation bit (R30). -/
  llbit       : Bool
  /-- The cycle-per-instruction multiplier and the two counters (R31). -/
  cpi         : Word
  tickCounter : Dword
  syncCycles  : Dword
  /-- The last-fetched instruction (R32). -/
  lastInstr   : Word
  /-- A pending non-sequential jump (R33). -/
  extJump     : Bool
  /-- The host's run flag (R34). -/
  running     : Bool
  /-- How the run ended, `none` while it has not (R35). -/
  halt        : Option Ending
  /-- The decode cache (R36). -/
  cache       : Cache
  /-- The ordinary memory of the bus (20_memory.md R55). -/
  mem         : Memory
  /-- The MMU's translation (20_memory.md R54). -/
  mmu         : List Window
  /-- The launch parameters (00_scope.md R9; `cacheEnable` of R38 among them). -/
  cfg         : Params
  /-- MODEL: the calls made so far, newest first (60_exceptions.md R269, log entry 1). -/
  calls       : List Call
  /-- MODEL: the answer to the call of each number (log entry 1). -/
  script      : List (Nat × Answer)
  /-- MODEL: what the host does before each of the next steps, oldest first (log entry 2). -/
  host        : List (List HostAction)
  /-- MODEL: how many free values have been drawn (00_scope.md R14, log entry 7). -/
  draws       : Nat
  deriving DecidableEq, Repr

/-- Why the block has no step (40_fetch_execute.md R107). -/
inductive Fault where
  /-- Raised by `step` alone, at the top of the loop, when `running` is false and the host does nothing (R88,
  R107: "The only successful end"). Safe: the model stops where the block has no step. -/
  | stopped
  /-- Raised by `step` alone, when an earlier step recorded a fatal end (R88, R265). Safe: as above. -/
  | fatal (reason : FatalReason) (pc w : Word)
  deriving DecidableEq, Repr

/-- Why the model gives a step no meaning. -/
inductive Refusal where
  /-- Raised by an arm of `exec` whose instruction has no meaning yet; no arm of this model does. Safe. -/
  | notModelled (mnemonic : String)
  /-- Raised by `step` alone, when an earlier step recorded a refusal of the spec (60_exceptions.md R266: "the
  block has no further step and the spec gives the behaviour no meaning"). Safe. -/
  | recorded (reason : RefuseReason)
  deriving DecidableEq, Repr

/-- The block right after a machine reset (10_state.md R52, 70_reset_and_hazards.md R282): what the spec states,
what it leaves unspecified taken from `l`, memory, translation, parameters and environment as they were. -/
def State.afterReset (s : State) (l : Launch) : State :=
  { s with
    x := l.x.set 0 0#64
    pc := s.cfg.resetPc
    hi := l.hi
    lo := l.lo
    bstate := .normal
    jumpTarget := l.jumpTarget
    llbit := l.llbit
    cpi := s.cfg.cpiReset
    tickCounter := 0#64
    syncCycles := 0#64
    lastInstr := l.lastInstr
    extJump := false
    running := false
    halt := none
    cache := [] }

/-- What `State.reset` has where the spec leaves a value unspecified, DESIGN CHOICE (unsafe, log entry 3): zero. -/
def Launch.zero : Launch :=
  { x := Vector.replicate 32 0#64, hi := 0#64, lo := 0#64, jumpTarget := 0#32, llbit := false, lastInstr := 0#32 }

/-- The machine right after reset: `running` is false, so it has no step until it is started (R282, R284; log
entry 9). Memory lists nothing (log entry 5), the translation is the identity (log entry 6). -/
def State.reset : State :=
  State.afterReset
    { x := Vector.replicate 32 0#64, pc := 0#32, hi := 0#64, lo := 0#64, bstate := .normal, jumpTarget := 0#32
      llbit := false, cpi := 0#32, tickCounter := 0#64, syncCycles := 0#64, lastInstr := 0#32, extJump := false
      running := false, halt := none, cache := [], mem := [], mmu := Config.identityMap, cfg := Config.launch
      calls := [], script := [], host := [], draws := 0 }
    Launch.zero

end Sys2Proof.Machine
end

