-- ==== Sys2Proof/Machine/Memory.lean ====
section
/-! DEFINITION. The bytes of memory in their canonical form, big-endian accesses of several bytes (20_memory.md
R55, R56), and the translation table (R54). -/
namespace Sys2Proof.Machine

/-- What a byte of memory that nothing has written reads as, DESIGN CHOICE (unsafe, log entry 5). -/
def Memory.unlisted : Byte := 0#8

/-- The byte at a physical address. -/
def Memory.read (m : Memory) (a : Nat) : Byte :=
  match m with
  | [] => Memory.unlisted
  | (k, b) :: rest => if k = a then b else Memory.read rest a

/-- Writes the byte at a physical address and keeps the canonical form: the list stays rising, and a byte that
equals what an unlisted address reads as is taken out. -/
def Memory.write (m : Memory) (a : Nat) (b : Byte) : Memory :=
  match m with
  | [] => if b = Memory.unlisted then [] else [(a, b)]
  | (k, c) :: rest =>
    if k < a then (k, c) :: Memory.write rest a b
    else if k = a then (if b = Memory.unlisted then rest else (a, b) :: rest)
    else (if b = Memory.unlisted then (k, c) :: rest else (a, b) :: (k, c) :: rest)

/-- Every listed address is at least `lo`, below 2^32, the addresses rise, and no listed byte is the unlisted one. -/
def Memory.wfFrom (lo : Nat) (m : Memory) : Bool :=
  match m with
  | [] => true
  | (k, b) :: rest =>
    decide (lo ≤ k) && decide (k < 2 ^ 32) && decide (b ≠ Memory.unlisted) && Memory.wfFrom (k + 1) rest

/-- The canonical form of memory. -/
def Memory.wf (m : Memory) : Bool := Memory.wfFrom 0 m

/-- How many bytes a size is. -/
def Size.bytes (n : Size) : Nat :=
  match n with
  | .b1 => 1
  | .b2 => 2
  | .b4 => 4
  | .b8 => 8

/-- The low `n` bytes of a value, zero-extended: an `n`-byte value. -/
def Size.clip (n : Size) (v : Dword) : Dword :=
  match n with
  | .b1 => (v.setWidth 8).setWidth 64
  | .b2 => (v.setWidth 16).setWidth 64
  | .b4 => (v.setWidth 32).setWidth 64
  | .b8 => v

/-- The `count` bytes at `pa`, `byte[pa]` the most significant (R56). -/
def Memory.readBytes (m : Memory) (pa : Word) (count : Nat) : Dword :=
  match count with
  | 0 => 0#64
  | k + 1 => (Memory.readBytes m pa k <<< 8) ||| (m.read (pa + BitVec.ofNat 32 k).toNat).setWidth 64

/-- Writes the low `count` bytes of `v` at `pa`, the most significant at the lowest address (R56). -/
def Memory.writeBytes (m : Memory) (pa : Word) (count : Nat) (v : Dword) : Memory :=
  match count with
  | 0 => m
  | k + 1 => (Memory.writeBytes m pa k (v >>> 8)).write (pa + BitVec.ofNat 32 k).toNat (v.setWidth 8)

/-- An `n`-byte read of ordinary memory (R55, R56). -/
def Memory.readSize (m : Memory) (pa : Word) (n : Size) : Dword := m.readBytes pa n.bytes

/-- An `n`-byte write of ordinary memory (R55, R56). -/
def Memory.writeSize (m : Memory) (pa : Word) (n : Size) (v : Dword) : Memory := m.writeBytes pa n.bytes v

/-- The 32-bit word at `pa` (R59). -/
def Memory.readWord (m : Memory) (pa : Word) : Word := low32 (m.readSize pa .b4)

/-- The doubleword number of an address: its bits 31-3. -/
def doublewordOf (a : Word) : BitVec 29 := a.extractLsb' 3 29

/-- A window serves this kind of access. -/
def windowServes (win : Window) (kind : AccessKind) : Bool :=
  match kind with
  | .fetch => win.forFetch
  | .load => win.forLoad
  | .store => win.forStore

/-- A window holds the address. -/
def windowHolds (win : Window) (va : Word) : Bool :=
  decide (win.vbase.toNat ≤ (doublewordOf va).toNat ∧ (doublewordOf va).toNat < win.vbase.toNat + win.count)

/-- `P_TRANSLATE(va, kind)` (R54): the first window that serves the access decides; the low three bits of the
address stay (log entry 6). -/
def translateAddress (windows : List Window) (va : Word) (kind : AccessKind) : Option Word :=
  match windows with
  | [] => none
  | win :: rest =>
    if windowServes win kind && windowHolds win va then
      some ((win.pbase + (doublewordOf va - win.vbase)) ++ va.extractLsb' 0 3)
    else translateAddress rest va kind

/-- The physical address belongs to a device (R55, log entry 8). -/
def isDevice (cfg : Params) (pa : Word) : Bool :=
  cfg.devices.any fun r =>
    decide (r.base.toNat ≤ (doublewordOf pa).toNat ∧ (doublewordOf pa).toNat < r.base.toNat + r.count)

end Sys2Proof.Machine
end

