-- ==== Sys2Proof/Machine/Cache.lean ====
section
/-! DEFINITION. The decode cache: which addresses it covers and where (10_state.md R37), and finding, filling and
invalidating its entries (40_fetch_execute.md R89, R91). -/
namespace Sys2Proof.Machine

/-- The address lies in the `size` bytes from `base`. -/
def inRegion (base : Word) (size : Nat) (pa : Word) : Bool :=
  decide (base.toNat ≤ pa.toNat ∧ pa.toNat < base.toNat + size)

/-- The index of a covered physical address, `none` where it is not covered (10_state.md R37). -/
def cacheIndex (cfg : Params) (pa : Word) : Option Nat :=
  if inRegion cfg.cacheABase cfg.cacheASize pa then some ((pa - cfg.cacheABase) >>> 2).toNat
  else if inRegion cfg.cacheBBase cfg.cacheBSize pa then some ((pa - cfg.cacheBOffset) >>> 2).toNat
  else none

/-- The valid entry at an index, if there is one. -/
def Cache.find (c : Cache) (i : Nat) : Option CacheEntry :=
  match c with
  | [] => none
  | (k, e) :: rest => if k = i then some e else Cache.find rest i

/-- Fills the entry at an index and makes it valid. -/
def Cache.fill (c : Cache) (i : Nat) (e : CacheEntry) : Cache :=
  match c with
  | [] => [(i, e)]
  | (k, d) :: rest =>
    if k < i then (k, d) :: Cache.fill rest i e
    else if k = i then (i, e) :: rest
    else (i, e) :: (k, d) :: rest

/-- Makes the entry at an index invalid. -/
def Cache.drop (c : Cache) (i : Nat) : Cache :=
  match c with
  | [] => []
  | (k, d) :: rest => if k = i then rest else (k, d) :: Cache.drop rest i

/-- The indices rise from `lo`. -/
def Cache.rising (lo : Nat) (c : Cache) : Bool :=
  match c with
  | [] => true
  | (k, _) :: rest => decide (lo ≤ k) && Cache.rising (k + 1) rest

/-- The 4-byte-aligned words that the `count` bytes at `pa` overlap: each `a` with `a <= pa + n - 1` and
`a + 3 >= pa` (40_fetch_execute.md R91). -/
def overlappedWords (pa : Word) (count : Nat) : List Word :=
  [pa &&& ~~~3#32, (pa &&& ~~~3#32) + 4#32, (pa &&& ~~~3#32) + 8#32].filter fun a =>
    decide (a.toNat ≤ pa.toNat + count - 1 ∧ pa.toNat ≤ a.toNat + 3)

/-- Makes the entry of one word invalid where the word is covered. -/
def Cache.invalidateWord (cfg : Params) (c : Cache) (a : Word) : Cache :=
  match cacheIndex cfg a with
  | some i => c.drop i
  | none => c

/-- `Invalidate(pa, n)` (40_fetch_execute.md R91), whether or not the cache is enabled. -/
def Cache.invalidate (cfg : Params) (c : Cache) (pa : Word) (n : Size) : Cache :=
  (overlappedWords pa n.bytes).foldl (Cache.invalidateWord cfg) c

end Sys2Proof.Machine
end

