-- ==== Sys2Proof/WellFormed.lean ====
section
/-! DEFINITION. Which instructions can be written as a word: the ranges of the operands that the syntax does
not bound by its types, the shift amounts (42_shift.md R137, 30_encoding.md R76). -/
namespace Sys2Proof

/-- The `sa` forms shift by 0 to 31: `sa = w[10:6]` (42_shift.md R137). -/
def Instr.saInRange (sa : Nat) : Bool := decide (sa < 32)

/-- The `sa32` forms shift by 32 to 63: `sa32 = w[10:6] + 32` (42_shift.md R137). -/
def Instr.sa32InRange (sa : Nat) : Bool := decide (32 ≤ sa ∧ sa < 64)

/-- Every operand is one that the instruction's encoding can hold. -/
def Instr.wellFormed (i : Instr) : Bool :=
  match i with
  | .add _ _ _ => true
  | .addu _ _ _ => true
  | .sub _ _ _ => true
  | .subu _ _ _ => true
  | .dadd _ _ _ => true
  | .daddu _ _ _ => true
  | .dsub _ _ _ => true
  | .dsubu _ _ _ => true
  | .and _ _ _ => true
  | .or _ _ _ => true
  | .xor _ _ _ => true
  | .nor _ _ _ => true
  | .slt _ _ _ => true
  | .sltu _ _ _ => true
  | .addi _ _ _ => true
  | .addiu _ _ _ => true
  | .daddi _ _ _ => true
  | .daddiu _ _ _ => true
  | .slti _ _ _ => true
  | .sltiu _ _ _ => true
  | .andi _ _ _ => true
  | .ori _ _ _ => true
  | .xori _ _ _ => true
  | .lui _ _ => true
  | .sll _ _ sa => Instr.saInRange sa
  | .srl _ _ sa => Instr.saInRange sa
  | .sra _ _ sa => Instr.saInRange sa
  | .sllv _ _ _ => true
  | .srlv _ _ _ => true
  | .srav _ _ _ => true
  | .dsll _ _ sa => Instr.saInRange sa
  | .dsrl _ _ sa => Instr.saInRange sa
  | .dsra _ _ sa => Instr.saInRange sa
  | .dsll32 _ _ sa => Instr.sa32InRange sa
  | .dsrl32 _ _ sa => Instr.sa32InRange sa
  | .dsra32 _ _ sa => Instr.sa32InRange sa
  | .dsllv _ _ _ => true
  | .dsrlv _ _ _ => true
  | .dsrav _ _ _ => true
  | .mult _ _ => true
  | .multu _ _ => true
  | .div _ _ => true
  | .divu _ _ => true
  | .dmult _ _ => true
  | .dmultu _ _ => true
  | .ddiv _ _ => true
  | .ddivu _ _ => true
  | .mfhi _ => true
  | .mflo _ => true
  | .mthi _ => true
  | .mtlo _ => true
  | .j _ => true
  | .jal _ => true
  | .jr _ => true
  | .jalr _ _ => true
  | .beq _ _ _ => true
  | .bne _ _ _ => true
  | .blez _ _ => true
  | .bgtz _ _ => true
  | .beql _ _ _ => true
  | .bnel _ _ _ => true
  | .blezl _ _ => true
  | .bgtzl _ _ => true
  | .bltz _ _ => true
  | .bgez _ _ => true
  | .bltzl _ _ => true
  | .bgezl _ _ => true
  | .bltzal _ _ => true
  | .bgezal _ _ => true
  | .bltzall _ _ => true
  | .bgezall _ _ => true
  | .lb _ _ _ => true
  | .lbu _ _ _ => true
  | .lh _ _ _ => true
  | .lhu _ _ _ => true
  | .lw _ _ _ => true
  | .lwu _ _ _ => true
  | .ld _ _ _ => true
  | .lwl _ _ _ => true
  | .lwr _ _ _ => true
  | .ldl _ _ _ => true
  | .ldr _ _ _ => true
  | .ll _ _ _ => true
  | .lld _ _ _ => true
  | .sb _ _ _ => true
  | .sh _ _ _ => true
  | .sw _ _ _ => true
  | .sd _ _ _ => true
  | .swl _ _ _ => true
  | .swr _ _ _ => true
  | .sdl _ _ _ => true
  | .sdr _ _ _ => true
  | .sc _ _ _ => true
  | .scd _ _ _ => true
  | .sync => true
  | .cache _ _ _ => true
  | .syscall _ => true
  | .brk _ => true
  | .tge _ _ => true
  | .tgeu _ _ => true
  | .tlt _ _ => true
  | .tltu _ _ => true
  | .teq _ _ => true
  | .tne _ _ => true
  | .tgei _ _ => true
  | .tgeiu _ _ => true
  | .tlti _ _ => true
  | .tltiu _ _ => true
  | .teqi _ _ => true
  | .tnei _ _ => true
  | .mfc0 _ _ => true
  | .dmfc0 _ _ => true
  | .mtc0 _ _ => true
  | .dmtc0 _ _ => true
  | .tlbr => true
  | .tlbwi => true
  | .tlbwr => true
  | .tlbp => true
  | .eret => true
  | .cop1 _ => true
  | .lwc1 _ _ _ => true
  | .ldc1 _ _ _ => true
  | .swc1 _ _ _ => true
  | .sdc1 _ _ _ => true

end Sys2Proof
end

