-- ==== Sys2Proof/Decode.lean ====
section
/-! DEFINITION. Decoding, total on every word and every run of bytes, and the encoder (30_encoding.md). Only the
selecting fields decide the instruction, and the fields an instruction does not name are dropped (R82). -/
namespace Sys2Proof

/-! ## The fields of a word (00_scope.md R15, 30_encoding.md R75) -/

/-- `op = w[31:26]` -/
def opField (w : Word) : BitVec 6 := w.extractLsb' 26 6
/-- `rs = w[25:21]`, also `base` and the COP0 sub-opcode -/
def rsField (w : Word) : BitVec 5 := w.extractLsb' 21 5
/-- `rt = w[20:16]`, also the REGIMM sub-opcode -/
def rtField (w : Word) : BitVec 5 := w.extractLsb' 16 5
/-- `rd = w[15:11]` -/
def rdField (w : Word) : BitVec 5 := w.extractLsb' 11 5
/-- `sa = w[10:6]` -/
def saField (w : Word) : BitVec 5 := w.extractLsb' 6 5
/-- `funct = w[5:0]` -/
def functField (w : Word) : BitVec 6 := w.extractLsb' 0 6
/-- `imm = w[15:0]`, also an offset -/
def immField (w : Word) : BitVec 16 := w.extractLsb' 0 16
/-- `target = w[25:0]`, also the forwarded bits of COP1 -/
def targetField (w : Word) : BitVec 26 := w.extractLsb' 0 26
/-- `code = w[25:6]` -/
def codeField (w : Word) : BitVec 20 := w.extractLsb' 6 20

/-! ## Resolve (30_encoding.md R77): the three dispatch tables, and the COP0 handler's own selection -/

/-- The `special` table, keyed by `w[5:0]` (R79). -/
def resolveSpecial (w : Word) : Resolved :=
  match functField w with
  | 0x00#6 => .handler (.sll (rdField w) (rtField w) (saField w).toNat)
  | 0x02#6 => .handler (.srl (rdField w) (rtField w) (saField w).toNat)
  | 0x03#6 => .handler (.sra (rdField w) (rtField w) (saField w).toNat)
  | 0x04#6 => .handler (.sllv (rdField w) (rtField w) (rsField w))
  | 0x06#6 => .handler (.srlv (rdField w) (rtField w) (rsField w))
  | 0x07#6 => .handler (.srav (rdField w) (rtField w) (rsField w))
  | 0x08#6 => .handler (.jr (rsField w))
  | 0x09#6 => .handler (.jalr (rdField w) (rsField w))
  | 0x0C#6 => .handler (.syscall (codeField w))
  | 0x0D#6 => .handler (.brk (codeField w))
  | 0x0F#6 => .handler .sync
  | 0x10#6 => .handler (.mfhi (rdField w))
  | 0x11#6 => .handler (.mthi (rsField w))
  | 0x12#6 => .handler (.mflo (rdField w))
  | 0x13#6 => .handler (.mtlo (rsField w))
  | 0x14#6 => .handler (.dsllv (rdField w) (rtField w) (rsField w))
  | 0x16#6 => .handler (.dsrlv (rdField w) (rtField w) (rsField w))
  | 0x17#6 => .handler (.dsrav (rdField w) (rtField w) (rsField w))
  | 0x18#6 => .handler (.mult (rsField w) (rtField w))
  | 0x19#6 => .handler (.multu (rsField w) (rtField w))
  | 0x1A#6 => .handler (.div (rsField w) (rtField w))
  | 0x1B#6 => .handler (.divu (rsField w) (rtField w))
  | 0x1C#6 => .handler (.dmult (rsField w) (rtField w))
  | 0x1D#6 => .handler (.dmultu (rsField w) (rtField w))
  | 0x1E#6 => .handler (.ddiv (rsField w) (rtField w))
  | 0x1F#6 => .handler (.ddivu (rsField w) (rtField w))
  | 0x20#6 => .handler (.add (rdField w) (rsField w) (rtField w))
  | 0x21#6 => .handler (.addu (rdField w) (rsField w) (rtField w))
  | 0x22#6 => .handler (.sub (rdField w) (rsField w) (rtField w))
  | 0x23#6 => .handler (.subu (rdField w) (rsField w) (rtField w))
  | 0x24#6 => .handler (.and (rdField w) (rsField w) (rtField w))
  | 0x25#6 => .handler (.or (rdField w) (rsField w) (rtField w))
  | 0x26#6 => .handler (.xor (rdField w) (rsField w) (rtField w))
  | 0x27#6 => .handler (.nor (rdField w) (rsField w) (rtField w))
  | 0x2A#6 => .handler (.slt (rdField w) (rsField w) (rtField w))
  | 0x2B#6 => .handler (.sltu (rdField w) (rsField w) (rtField w))
  | 0x2C#6 => .handler (.dadd (rdField w) (rsField w) (rtField w))
  | 0x2D#6 => .handler (.daddu (rdField w) (rsField w) (rtField w))
  | 0x2E#6 => .handler (.dsub (rdField w) (rsField w) (rtField w))
  | 0x2F#6 => .handler (.dsubu (rdField w) (rsField w) (rtField w))
  | 0x30#6 => .handler (.tge (rsField w) (rtField w))
  | 0x31#6 => .handler (.tgeu (rsField w) (rtField w))
  | 0x32#6 => .handler (.tlt (rsField w) (rtField w))
  | 0x33#6 => .handler (.tltu (rsField w) (rtField w))
  | 0x34#6 => .handler (.teq (rsField w) (rtField w))
  | 0x36#6 => .handler (.tne (rsField w) (rtField w))
  | 0x38#6 => .handler (.dsll (rdField w) (rtField w) (saField w).toNat)
  | 0x3A#6 => .handler (.dsrl (rdField w) (rtField w) (saField w).toNat)
  | 0x3B#6 => .handler (.dsra (rdField w) (rtField w) (saField w).toNat)
  | 0x3C#6 => .handler (.dsll32 (rdField w) (rtField w) ((saField w).toNat + 32))
  | 0x3E#6 => .handler (.dsrl32 (rdField w) (rtField w) ((saField w).toNat + 32))
  | 0x3F#6 => .handler (.dsra32 (rdField w) (rtField w) ((saField w).toNat + 32))
  | funct => .fallback (.special funct)

/-- The `regimm` table, keyed by `w[20:16]` (R80). -/
def resolveRegimm (w : Word) : Resolved :=
  match rtField w with
  | 0x00#5 => .handler (.bltz (rsField w) (immField w))
  | 0x01#5 => .handler (.bgez (rsField w) (immField w))
  | 0x02#5 => .handler (.bltzl (rsField w) (immField w))
  | 0x03#5 => .handler (.bgezl (rsField w) (immField w))
  | 0x08#5 => .handler (.tgei (rsField w) (immField w))
  | 0x09#5 => .handler (.tgeiu (rsField w) (immField w))
  | 0x0A#5 => .handler (.tlti (rsField w) (immField w))
  | 0x0B#5 => .handler (.tltiu (rsField w) (immField w))
  | 0x0C#5 => .handler (.teqi (rsField w) (immField w))
  | 0x0E#5 => .handler (.tnei (rsField w) (immField w))
  | 0x10#5 => .handler (.bltzal (rsField w) (immField w))
  | 0x11#5 => .handler (.bgezal (rsField w) (immField w))
  | 0x12#5 => .handler (.bltzall (rsField w) (immField w))
  | 0x13#5 => .handler (.bgezall (rsField w) (immField w))
  | sub => .fallback (.regimm sub)

/-- COP0 with `w[25] = 0`: selected by `w[25:21]` (R81). -/
def resolveCop0Mov (w : Word) : Resolved :=
  match rsField w with
  | 0x00#5 => .handler (.mfc0 (rtField w) (rdField w))
  | 0x01#5 => .handler (.dmfc0 (rtField w) (rdField w))
  | 0x04#5 => .handler (.mtc0 (rtField w) (rdField w))
  | 0x05#5 => .handler (.dmtc0 (rtField w) (rdField w))
  | sub => .fallback (.cop0Mov sub)

/-- COP0 with `w[25] = 1`: selected by `w[5:0]` (R81). -/
def resolveCop0Co (w : Word) : Resolved :=
  match functField w with
  | 0x01#6 => .handler .tlbr
  | 0x02#6 => .handler .tlbwi
  | 0x06#6 => .handler .tlbwr
  | 0x08#6 => .handler .tlbp
  | 0x18#6 => .handler .eret
  | funct => .fallback (.cop0Co funct)

/-- The `primary` table, keyed by `w[31:26]` (R78), which sends 0 to `special`, 1 to `regimm` (R77) and 0x10 to
COP0 (R81). -/
def resolve (w : Word) : Resolved :=
  match opField w with
  | 0x00#6 => resolveSpecial w
  | 0x01#6 => resolveRegimm w
  | 0x10#6 => if w.getLsbD 25 then resolveCop0Co w else resolveCop0Mov w
  | 0x02#6 => .handler (.j (targetField w))
  | 0x03#6 => .handler (.jal (targetField w))
  | 0x04#6 => .handler (.beq (rsField w) (rtField w) (immField w))
  | 0x05#6 => .handler (.bne (rsField w) (rtField w) (immField w))
  | 0x06#6 => .handler (.blez (rsField w) (immField w))
  | 0x07#6 => .handler (.bgtz (rsField w) (immField w))
  | 0x08#6 => .handler (.addi (rtField w) (rsField w) (immField w))
  | 0x09#6 => .handler (.addiu (rtField w) (rsField w) (immField w))
  | 0x0A#6 => .handler (.slti (rtField w) (rsField w) (immField w))
  | 0x0B#6 => .handler (.sltiu (rtField w) (rsField w) (immField w))
  | 0x0C#6 => .handler (.andi (rtField w) (rsField w) (immField w))
  | 0x0D#6 => .handler (.ori (rtField w) (rsField w) (immField w))
  | 0x0E#6 => .handler (.xori (rtField w) (rsField w) (immField w))
  | 0x0F#6 => .handler (.lui (rtField w) (immField w))
  | 0x11#6 => .handler (.cop1 (targetField w))
  | 0x14#6 => .handler (.beql (rsField w) (rtField w) (immField w))
  | 0x15#6 => .handler (.bnel (rsField w) (rtField w) (immField w))
  | 0x16#6 => .handler (.blezl (rsField w) (immField w))
  | 0x17#6 => .handler (.bgtzl (rsField w) (immField w))
  | 0x18#6 => .handler (.daddi (rtField w) (rsField w) (immField w))
  | 0x19#6 => .handler (.daddiu (rtField w) (rsField w) (immField w))
  | 0x1A#6 => .handler (.ldl (rtField w) (immField w) (rsField w))
  | 0x1B#6 => .handler (.ldr (rtField w) (immField w) (rsField w))
  | 0x20#6 => .handler (.lb (rtField w) (immField w) (rsField w))
  | 0x21#6 => .handler (.lh (rtField w) (immField w) (rsField w))
  | 0x22#6 => .handler (.lwl (rtField w) (immField w) (rsField w))
  | 0x23#6 => .handler (.lw (rtField w) (immField w) (rsField w))
  | 0x24#6 => .handler (.lbu (rtField w) (immField w) (rsField w))
  | 0x25#6 => .handler (.lhu (rtField w) (immField w) (rsField w))
  | 0x26#6 => .handler (.lwr (rtField w) (immField w) (rsField w))
  | 0x27#6 => .handler (.lwu (rtField w) (immField w) (rsField w))
  | 0x28#6 => .handler (.sb (rtField w) (immField w) (rsField w))
  | 0x29#6 => .handler (.sh (rtField w) (immField w) (rsField w))
  | 0x2A#6 => .handler (.swl (rtField w) (immField w) (rsField w))
  | 0x2B#6 => .handler (.sw (rtField w) (immField w) (rsField w))
  | 0x2C#6 => .handler (.sdl (rtField w) (immField w) (rsField w))
  | 0x2D#6 => .handler (.sdr (rtField w) (immField w) (rsField w))
  | 0x2E#6 => .handler (.swr (rtField w) (immField w) (rsField w))
  | 0x2F#6 => .handler (.cache (rtField w) (immField w) (rsField w))
  | 0x30#6 => .handler (.ll (rtField w) (immField w) (rsField w))
  | 0x31#6 => .handler (.lwc1 (rtField w) (immField w) (rsField w))
  | 0x34#6 => .handler (.lld (rtField w) (immField w) (rsField w))
  | 0x35#6 => .handler (.ldc1 (rtField w) (immField w) (rsField w))
  | 0x37#6 => .handler (.ld (rtField w) (immField w) (rsField w))
  | 0x38#6 => .handler (.sc (rtField w) (immField w) (rsField w))
  | 0x39#6 => .handler (.swc1 (rtField w) (immField w) (rsField w))
  | 0x3C#6 => .handler (.scd (rtField w) (immField w) (rsField w))
  | 0x3D#6 => .handler (.sdc1 (rtField w) (immField w) (rsField w))
  | 0x3F#6 => .handler (.sd (rtField w) (immField w) (rsField w))
  | op => .fallback (.primary op)

/-- The instruction a word is, or none where it selects an unassigned slot. -/
def decode (w : Word) : Option Instr :=
  match resolve w with
  | .handler i => some i
  | .fallback _ => none

/-- The four bytes of a word, the byte at the lowest address first: big-endian (20_memory.md R56, R74). -/
def wordBytes (w : Word) : List Byte :=
  [w.extractLsb' 24 8, w.extractLsb' 16 8, w.extractLsb' 8 8, w.extractLsb' 0 8]

/-- The instruction at the head of a run of bytes and the bytes after it, or why there is none. -/
def decodeBytes (bytes : List Byte) : Except Reject (Instr × List Byte) :=
  match bytes with
  | b0 :: b1 :: b2 :: b3 :: rest =>
    match resolve (b0 ++ b1 ++ b2 ++ b3) with
    | .handler i => .ok (i, rest)
    | .fallback slot => .error (.unassigned slot)
  | short => .error (.truncated short.length)

/-- What the decoder reads from a word numbered as spec/opcode_table.json numbers it: every row is one word of
32 bits, bit 0 its least significant (00_scope.md R10), laid out in memory big-endian. -/
def decodeTableWord (nbits w : Nat) : Option Instr :=
  match decodeBytes (wordBytes (BitVec.ofNat 32 (w % 2 ^ nbits))) with
  | .ok (i, _) => some i
  | .error _ => none

/-! ## The encoder: the formats of R75, the fields an instruction does not name zero -/

/-- R format with `op = 0`. -/
def encR (rs rt rd sa : BitVec 5) (funct : BitVec 6) : Word := 0#6 ++ rs ++ rt ++ rd ++ sa ++ funct
/-- R-code format: SYSCALL, BREAK. -/
def encCode (code : BitVec 20) (funct : BitVec 6) : Word := 0#6 ++ code ++ funct
/-- I, I-branch, I-mem, CACHE and REGIMM formats (a REGIMM sub-opcode stands in the `rt` field). -/
def encI (op : BitVec 6) (rs rt : BitVec 5) (imm : BitVec 16) : Word := op ++ rs ++ rt ++ imm
/-- J format, and the COP1 class with its bits 25-0 whole. -/
def encJ (op : BitVec 6) (target : BitVec 26) : Word := op ++ target
/-- COP0-CO format: bit 25 is 1, bits 24-6 are ignored. -/
def encCop0Co (funct : BitVec 6) : Word := 0x10#6 ++ 1#1 ++ 0#19 ++ funct

/-- The word of an instruction. -/
def encode (i : Instr) : Word :=
  match i with
  | .add rd rs rt => encR rs rt rd 0#5 0x20#6
  | .addu rd rs rt => encR rs rt rd 0#5 0x21#6
  | .sub rd rs rt => encR rs rt rd 0#5 0x22#6
  | .subu rd rs rt => encR rs rt rd 0#5 0x23#6
  | .dadd rd rs rt => encR rs rt rd 0#5 0x2C#6
  | .daddu rd rs rt => encR rs rt rd 0#5 0x2D#6
  | .dsub rd rs rt => encR rs rt rd 0#5 0x2E#6
  | .dsubu rd rs rt => encR rs rt rd 0#5 0x2F#6
  | .and rd rs rt => encR rs rt rd 0#5 0x24#6
  | .or rd rs rt => encR rs rt rd 0#5 0x25#6
  | .xor rd rs rt => encR rs rt rd 0#5 0x26#6
  | .nor rd rs rt => encR rs rt rd 0#5 0x27#6
  | .slt rd rs rt => encR rs rt rd 0#5 0x2A#6
  | .sltu rd rs rt => encR rs rt rd 0#5 0x2B#6
  | .addi rt rs imm => encI 0x08#6 rs rt imm
  | .addiu rt rs imm => encI 0x09#6 rs rt imm
  | .daddi rt rs imm => encI 0x18#6 rs rt imm
  | .daddiu rt rs imm => encI 0x19#6 rs rt imm
  | .slti rt rs imm => encI 0x0A#6 rs rt imm
  | .sltiu rt rs imm => encI 0x0B#6 rs rt imm
  | .andi rt rs imm => encI 0x0C#6 rs rt imm
  | .ori rt rs imm => encI 0x0D#6 rs rt imm
  | .xori rt rs imm => encI 0x0E#6 rs rt imm
  | .lui rt imm => encI 0x0F#6 0#5 rt imm
  | .sll rd rt sa => encR 0#5 rt rd (BitVec.ofNat 5 sa) 0x00#6
  | .srl rd rt sa => encR 0#5 rt rd (BitVec.ofNat 5 sa) 0x02#6
  | .sra rd rt sa => encR 0#5 rt rd (BitVec.ofNat 5 sa) 0x03#6
  | .sllv rd rt rs => encR rs rt rd 0#5 0x04#6
  | .srlv rd rt rs => encR rs rt rd 0#5 0x06#6
  | .srav rd rt rs => encR rs rt rd 0#5 0x07#6
  | .dsll rd rt sa => encR 0#5 rt rd (BitVec.ofNat 5 sa) 0x38#6
  | .dsrl rd rt sa => encR 0#5 rt rd (BitVec.ofNat 5 sa) 0x3A#6
  | .dsra rd rt sa => encR 0#5 rt rd (BitVec.ofNat 5 sa) 0x3B#6
  | .dsll32 rd rt sa => encR 0#5 rt rd (BitVec.ofNat 5 (sa - 32)) 0x3C#6
  | .dsrl32 rd rt sa => encR 0#5 rt rd (BitVec.ofNat 5 (sa - 32)) 0x3E#6
  | .dsra32 rd rt sa => encR 0#5 rt rd (BitVec.ofNat 5 (sa - 32)) 0x3F#6
  | .dsllv rd rt rs => encR rs rt rd 0#5 0x14#6
  | .dsrlv rd rt rs => encR rs rt rd 0#5 0x16#6
  | .dsrav rd rt rs => encR rs rt rd 0#5 0x17#6
  | .mult rs rt => encR rs rt 0#5 0#5 0x18#6
  | .multu rs rt => encR rs rt 0#5 0#5 0x19#6
  | .div rs rt => encR rs rt 0#5 0#5 0x1A#6
  | .divu rs rt => encR rs rt 0#5 0#5 0x1B#6
  | .dmult rs rt => encR rs rt 0#5 0#5 0x1C#6
  | .dmultu rs rt => encR rs rt 0#5 0#5 0x1D#6
  | .ddiv rs rt => encR rs rt 0#5 0#5 0x1E#6
  | .ddivu rs rt => encR rs rt 0#5 0#5 0x1F#6
  | .mfhi rd => encR 0#5 0#5 rd 0#5 0x10#6
  | .mflo rd => encR 0#5 0#5 rd 0#5 0x12#6
  | .mthi rs => encR rs 0#5 0#5 0#5 0x11#6
  | .mtlo rs => encR rs 0#5 0#5 0#5 0x13#6
  | .j target => encJ 0x02#6 target
  | .jal target => encJ 0x03#6 target
  | .jr rs => encR rs 0#5 0#5 0#5 0x08#6
  | .jalr rd rs => encR rs 0#5 rd 0#5 0x09#6
  | .beq rs rt offset => encI 0x04#6 rs rt offset
  | .bne rs rt offset => encI 0x05#6 rs rt offset
  | .blez rs offset => encI 0x06#6 rs 0#5 offset
  | .bgtz rs offset => encI 0x07#6 rs 0#5 offset
  | .beql rs rt offset => encI 0x14#6 rs rt offset
  | .bnel rs rt offset => encI 0x15#6 rs rt offset
  | .blezl rs offset => encI 0x16#6 rs 0#5 offset
  | .bgtzl rs offset => encI 0x17#6 rs 0#5 offset
  | .bltz rs offset => encI 0x01#6 rs 0x00#5 offset
  | .bgez rs offset => encI 0x01#6 rs 0x01#5 offset
  | .bltzl rs offset => encI 0x01#6 rs 0x02#5 offset
  | .bgezl rs offset => encI 0x01#6 rs 0x03#5 offset
  | .bltzal rs offset => encI 0x01#6 rs 0x10#5 offset
  | .bgezal rs offset => encI 0x01#6 rs 0x11#5 offset
  | .bltzall rs offset => encI 0x01#6 rs 0x12#5 offset
  | .bgezall rs offset => encI 0x01#6 rs 0x13#5 offset
  | .lb rt offset base => encI 0x20#6 base rt offset
  | .lbu rt offset base => encI 0x24#6 base rt offset
  | .lh rt offset base => encI 0x21#6 base rt offset
  | .lhu rt offset base => encI 0x25#6 base rt offset
  | .lw rt offset base => encI 0x23#6 base rt offset
  | .lwu rt offset base => encI 0x27#6 base rt offset
  | .ld rt offset base => encI 0x37#6 base rt offset
  | .lwl rt offset base => encI 0x22#6 base rt offset
  | .lwr rt offset base => encI 0x26#6 base rt offset
  | .ldl rt offset base => encI 0x1A#6 base rt offset
  | .ldr rt offset base => encI 0x1B#6 base rt offset
  | .ll rt offset base => encI 0x30#6 base rt offset
  | .lld rt offset base => encI 0x34#6 base rt offset
  | .sb rt offset base => encI 0x28#6 base rt offset
  | .sh rt offset base => encI 0x29#6 base rt offset
  | .sw rt offset base => encI 0x2B#6 base rt offset
  | .sd rt offset base => encI 0x3F#6 base rt offset
  | .swl rt offset base => encI 0x2A#6 base rt offset
  | .swr rt offset base => encI 0x2E#6 base rt offset
  | .sdl rt offset base => encI 0x2C#6 base rt offset
  | .sdr rt offset base => encI 0x2D#6 base rt offset
  | .sc rt offset base => encI 0x38#6 base rt offset
  | .scd rt offset base => encI 0x3C#6 base rt offset
  | .sync => encR 0#5 0#5 0#5 0#5 0x0F#6
  | .cache op offset base => encI 0x2F#6 base op offset
  | .syscall code => encCode code 0x0C#6
  | .brk code => encCode code 0x0D#6
  | .tge rs rt => encR rs rt 0#5 0#5 0x30#6
  | .tgeu rs rt => encR rs rt 0#5 0#5 0x31#6
  | .tlt rs rt => encR rs rt 0#5 0#5 0x32#6
  | .tltu rs rt => encR rs rt 0#5 0#5 0x33#6
  | .teq rs rt => encR rs rt 0#5 0#5 0x34#6
  | .tne rs rt => encR rs rt 0#5 0#5 0x36#6
  | .tgei rs imm => encI 0x01#6 rs 0x08#5 imm
  | .tgeiu rs imm => encI 0x01#6 rs 0x09#5 imm
  | .tlti rs imm => encI 0x01#6 rs 0x0A#5 imm
  | .tltiu rs imm => encI 0x01#6 rs 0x0B#5 imm
  | .teqi rs imm => encI 0x01#6 rs 0x0C#5 imm
  | .tnei rs imm => encI 0x01#6 rs 0x0E#5 imm
  | .mfc0 rt rd => encI 0x10#6 0x00#5 rt (rd ++ 0#11)
  | .dmfc0 rt rd => encI 0x10#6 0x01#5 rt (rd ++ 0#11)
  | .mtc0 rt rd => encI 0x10#6 0x04#5 rt (rd ++ 0#11)
  | .dmtc0 rt rd => encI 0x10#6 0x05#5 rt (rd ++ 0#11)
  | .tlbr => encCop0Co 0x01#6
  | .tlbwi => encCop0Co 0x02#6
  | .tlbwr => encCop0Co 0x06#6
  | .tlbp => encCop0Co 0x08#6
  | .eret => encCop0Co 0x18#6
  | .cop1 rest => encJ 0x11#6 rest
  | .lwc1 ft offset base => encI 0x31#6 base ft offset
  | .ldc1 ft offset base => encI 0x35#6 base ft offset
  | .swc1 ft offset base => encI 0x39#6 base ft offset
  | .sdc1 ft offset base => encI 0x3D#6 base ft offset

end Sys2Proof
end

