-- ==== Sys2Proof/Machine/Idle.lean ====
section
/-! DEFINITION. The idle-loop probe's classification of a delay-slot word (40_fetch_execute.md R103), exactly
the rule's table and no more (R106). -/
namespace Sys2Proof.Machine

/-- The rows of R103's table by verdict. -/
inductive IdleClass where
  /-- Safe iff `destOK(rd)`, with `rd = dw[15:11]`. -/
  | safeIfRd
  /-- Safe iff `destOK(rt)`, with `rt = dw[20:16]`. -/
  | safeIfRt
  /-- Safe. -/
  | safe
  /-- Unsafe. -/
  | notSafe
  deriving DecidableEq, Repr

/-- The row of an instruction (R103). -/
def idleClass (i : Instr) : IdleClass :=
  match i with
  | .add _ _ _ => .safeIfRd
  | .addu _ _ _ => .safeIfRd
  | .sub _ _ _ => .safeIfRd
  | .subu _ _ _ => .safeIfRd
  | .dadd _ _ _ => .safeIfRd
  | .daddu _ _ _ => .safeIfRd
  | .dsub _ _ _ => .safeIfRd
  | .dsubu _ _ _ => .safeIfRd
  | .and _ _ _ => .safeIfRd
  | .or _ _ _ => .safeIfRd
  | .xor _ _ _ => .safeIfRd
  | .nor _ _ _ => .safeIfRd
  | .slt _ _ _ => .safeIfRd
  | .sltu _ _ _ => .safeIfRd
  | .addi _ _ _ => .safeIfRt
  | .addiu _ _ _ => .safeIfRt
  | .daddi _ _ _ => .safeIfRt
  | .daddiu _ _ _ => .safeIfRt
  | .slti _ _ _ => .safeIfRt
  | .sltiu _ _ _ => .safeIfRt
  | .andi _ _ _ => .safeIfRt
  | .ori _ _ _ => .safeIfRt
  | .xori _ _ _ => .safeIfRt
  | .lui _ _ => .safeIfRt
  | .sll _ _ _ => .safeIfRd
  | .srl _ _ _ => .safeIfRd
  | .sra _ _ _ => .safeIfRd
  | .sllv _ _ _ => .safeIfRd
  | .srlv _ _ _ => .safeIfRd
  | .srav _ _ _ => .safeIfRd
  | .dsll _ _ _ => .safeIfRd
  | .dsrl _ _ _ => .safeIfRd
  | .dsra _ _ _ => .safeIfRd
  | .dsll32 _ _ _ => .safeIfRd
  | .dsrl32 _ _ _ => .safeIfRd
  | .dsra32 _ _ _ => .safeIfRd
  | .dsllv _ _ _ => .safeIfRd
  | .dsrlv _ _ _ => .safeIfRd
  | .dsrav _ _ _ => .safeIfRd
  | .mult _ _ => .safe
  | .multu _ _ => .safe
  | .div _ _ => .safe
  | .divu _ _ => .safe
  | .dmult _ _ => .safe
  | .dmultu _ _ => .safe
  | .ddiv _ _ => .safe
  | .ddivu _ _ => .safe
  | .mfhi _ => .safeIfRd
  | .mflo _ => .safeIfRd
  | .mthi _ => .safeIfRd
  | .mtlo _ => .safeIfRd
  | .j _ => .notSafe
  | .jal _ => .notSafe
  | .jr _ => .notSafe
  | .jalr _ _ => .notSafe
  | .beq _ _ _ => .notSafe
  | .bne _ _ _ => .notSafe
  | .blez _ _ => .notSafe
  | .bgtz _ _ => .notSafe
  | .beql _ _ _ => .notSafe
  | .bnel _ _ _ => .notSafe
  | .blezl _ _ => .notSafe
  | .bgtzl _ _ => .notSafe
  | .bltz _ _ => .notSafe
  | .bgez _ _ => .notSafe
  | .bltzl _ _ => .notSafe
  | .bgezl _ _ => .notSafe
  | .bltzal _ _ => .notSafe
  | .bgezal _ _ => .notSafe
  | .bltzall _ _ => .notSafe
  | .bgezall _ _ => .notSafe
  | .lb _ _ _ => .safeIfRt
  | .lbu _ _ _ => .safeIfRt
  | .lh _ _ _ => .safeIfRt
  | .lhu _ _ _ => .safeIfRt
  | .lw _ _ _ => .safeIfRt
  | .lwu _ _ _ => .safeIfRt
  | .ld _ _ _ => .safeIfRt
  | .lwl _ _ _ => .safeIfRt
  | .lwr _ _ _ => .safeIfRt
  | .ldl _ _ _ => .safeIfRt
  | .ldr _ _ _ => .safeIfRt
  | .ll _ _ _ => .notSafe
  | .lld _ _ _ => .notSafe
  | .sb _ _ _ => .notSafe
  | .sh _ _ _ => .notSafe
  | .sw _ _ _ => .notSafe
  | .sd _ _ _ => .notSafe
  | .swl _ _ _ => .notSafe
  | .swr _ _ _ => .notSafe
  | .sdl _ _ _ => .notSafe
  | .sdr _ _ _ => .notSafe
  | .sc _ _ _ => .notSafe
  | .scd _ _ _ => .notSafe
  | .sync => .notSafe
  | .cache _ _ _ => .notSafe
  | .syscall _ => .notSafe
  | .brk _ => .notSafe
  | .tge _ _ => .notSafe
  | .tgeu _ _ => .notSafe
  | .tlt _ _ => .notSafe
  | .tltu _ _ => .notSafe
  | .teq _ _ => .notSafe
  | .tne _ _ => .notSafe
  | .tgei _ _ => .notSafe
  | .tgeiu _ _ => .notSafe
  | .tlti _ _ => .notSafe
  | .tltiu _ _ => .notSafe
  | .teqi _ _ => .notSafe
  | .tnei _ _ => .notSafe
  | .mfc0 _ _ => .safeIfRt
  | .dmfc0 _ _ => .safeIfRt
  | .mtc0 _ _ => .notSafe
  | .dmtc0 _ _ => .notSafe
  | .tlbr => .notSafe
  | .tlbwi => .notSafe
  | .tlbwr => .notSafe
  | .tlbp => .notSafe
  | .eret => .notSafe
  | .cop1 _ => .notSafe
  | .lwc1 _ _ _ => .notSafe
  | .ldc1 _ _ _ => .notSafe
  | .swc1 _ _ _ => .notSafe
  | .sdc1 _ _ _ => .notSafe

/-- `destOK(d)`: "writing register 0 is always safe"; otherwise `d` is neither of the branch word's bits 25-21 and
20-16, whatever the branch's format (R103, D15). -/
def destOk (bw : Word) (d : Reg) : Bool :=
  decide (d = 0#5 ∨ (d ≠ rsField bw ∧ d ≠ rtField bw))

/-- `Classify(dw, bw)`: the delay-slot word is safe to skip behind the branch word (R103). -/
def classify (dw bw : Word) : Bool :=
  match resolve dw with
  | .fallback _ => false
  | .handler i =>
    match idleClass i with
    | .safeIfRd => destOk bw (rdField dw)
    | .safeIfRt => destOk bw (rtField dw)
    | .safe => true
    | .notSafe => false

end Sys2Proof.Machine
end

