-- ==== Sys2Proof/Machine/Ops.lean ====
section
/-! DEFINITION. The shared operations: registers, the ends of a handler, collaborator calls and what may happen
during them, translation and bus, the decode cache, the idle-loop probe, the control surface, the address error
and the return from a trap, and `BranchOp`.

The functions named `…Via` take the way a collaborator is called as an argument, because a collaborator may read
or write the control surface during a call, and some of those accesses make the block call again (10_state.md
R43, R46, R47); during such a call the same may happen, to any depth. `callCollaborator` is the call that every
handler, the loop and every such access make (60_exceptions.md R269). -/
namespace Sys2Proof.Machine

/-- The three outcomes of a step, over this machine's types. -/
abbrev Out := Host.Outcome State Fault Refusal

/-! ## Registers -/

/-- `x[r]` (10_state.md R20): the stored cell, for register 0 as for any other (R22). -/
def State.gpr (s : State) (r : Reg) : Dword := s.x[r.toNat]'(r.isLt)

/-- `x[r] <- v` without the register-0 guard: the control surface's write (10_state.md R41). -/
def State.setGpr (s : State) (r : Reg) (v : Dword) : State :=
  { s with x := s.x.set r.toNat v r.isLt }

/-- `WriteGPR(r, v)`: every instruction's write; a write to register 0 is discarded (10_state.md R22). -/
def State.writeGpr (s : State) (r : Reg) (v : Dword) : State :=
  if r = 0#5 then s else s.setGpr r v

/-- `hi <- h ; lo <- l` (10_state.md R26). -/
def State.setHiLo (s : State) (h l : Dword) : State := { s with hi := h, lo := l }

/-- `jumpTarget <- t ; bstate <- b` (10_state.md R28). -/
def State.setBranch (s : State) (t : Word) (b : BranchState) : State := { s with jumpTarget := t, bstate := b }

/-- The free value a `draw` takes, and the state with the draw counted (00_scope.md R14, log entry 7). -/
def State.draw (s : State) : Dword × State :=
  (Config.freeValue s.draws, { s with draws := s.draws + 1 })

/-! ## How a handler, or a part of one, ends (40_fetch_execute.md R94) -/

/-- A part of a handler ends with a value and the handler goes on (`ok`), or the handler ends here (`stop`): it was
aborted by an address error, or `halt` is set by a fatal end or a refusal. -/
inductive Res (α : Type) where
  | ok (a : α) (s : State)
  | stop (s : State)

/-- Goes on with the value and the state, unless the handler has ended. -/
def Res.bind {α β : Type} (r : Res α) (f : α → State → Res β) : Res β :=
  match r with
  | .ok a s => f a s
  | .stop s => .stop s

/-- The state a part of a handler leaves. -/
def Res.state {α : Type} (r : Res α) : State :=
  match r with
  | .ok _ s => s
  | .stop s => s

/-- A change of the state that is made whether or not the handler ends here. -/
def Res.after {α : Type} (r : Res α) (f : State → State) : Res α :=
  match r with
  | .ok a s => .ok a (f s)
  | .stop s => .stop (f s)

/-- A handler ends in a next state in each of its four ways (R94): completed, aborted, and the two that record
their end in `halt`, after which `step` has no step. -/
def Res.outcome {α : Type} (r : Res α) : Out := .next r.state

/-- `refuse(reason)` (60_exceptions.md R266): it sets `halt`, also where an end is recorded already (DESIGN CHOICE,
log entry 2). -/
def refuse {α : Type} (reason : RefuseReason) (s : State) : Res α :=
  .stop { s with halt := some (.refused reason) }

/-- `fatal(reason, pc, w)` (60_exceptions.md R265); of a recorded end, as `refuse`. -/
def fatal {α : Type} (reason : FatalReason) (pc w : Word) (s : State) : Res α :=
  .stop { s with halt := some (.fatal reason pc w) }

/-! ## Collaborator calls (60_exceptions.md R269) -/

/-- The scripted answer to the call of a number. -/
def findAnswer (script : List (Nat × Answer)) (n : Nat) : Option Answer :=
  match script with
  | [] => none
  | (k, a) :: rest => if k = n then some a else findAnswer rest n

/-- An unscripted answer: free values, and nothing done during the call (log entry 1). -/
def freeAnswer (n : Nat) : Answer :=
  { value := Config.freeAnswer n
    permanentLoop := Config.freePermanentLoop n
    safeIdle := Config.freeSafeIdle n
    actions := []
    cop1Ops := []
    cop1Branch := none }

/-- The answer to the next call; calls are numbered from 0 in the order they are made. -/
def State.nextAnswer (s : State) : Answer :=
  (findAnswer s.script s.calls.length).getD (freeAnswer s.calls.length)

/-- The call is made. -/
def State.record (s : State) (c : Call) : State := { s with calls := c :: s.calls }

/-- A way to call a collaborator. -/
abbrev Caller := Call → State → Res Answer

/-- A call during which nothing is done: what every call is once no call of the script is left. -/
def callQuietly (c : Call) (s : State) : Res Answer := .ok s.nextAnswer (s.record c)

/-! ## Translation and bus (20_memory.md R54, R55) -/

/-- `P_TRANSLATE(va, kind)`, refused where it gives no address (R54). -/
def translateVia (call : Caller) (va : Word) (kind : AccessKind) (s : State) : Res Word :=
  (call (.translate va kind) s).bind fun _ s' =>
    match translateAddress s.mmu va kind with
    | some pa => .ok pa s'
    | none => refuse .translationFault s'

/-- `BusRead(pa, n)`: the bytes last written there, or what the device answers (R55). Where another agent writes
those bytes during this same call, the read returns what it wrote, DESIGN CHOICE (unsafe for that order, log entry 8):
of the orders the spec leaves open, the one in which they are the bytes "most recently written". -/
def busReadVia (call : Caller) (pa : Word) (n : Size) (s : State) : Res Dword :=
  (call (.busRead pa n) s).bind fun a s' =>
    .ok (if isDevice s.cfg pa then n.clip a.value else s'.mem.readSize pa n) s'

/-- Memory after a bus write: a write to a device goes to the device (R55, log entry 8). -/
def State.storeBytes (s : State) (pa : Word) (n : Size) (v : Dword) : State :=
  if isDevice s.cfg pa then s else { s with mem := s.mem.writeSize pa n v }

/-- `Invalidate(pa, n)` (40_fetch_execute.md R91). -/
def State.invalidate (s : State) (pa : Word) (n : Size) : State :=
  { s with cache := s.cache.invalidate s.cfg pa n }

/-! ## Fetch through the decode cache (40_fetch_execute.md R89) -/

/-- `FetchRead(pa)` and `Resolve` of it (20_memory.md R59, 30_encoding.md R77). -/
def fetchReadVia (call : Caller) (pa : Word) (s : State) : Res (Word × Resolved) :=
  (busReadVia call pa .b4 s).bind fun v s' => .ok (low32 v, resolve (low32 v)) s'

/-- A miss: the word is read, resolved and the entry filled (R89). -/
def fetchMissVia (call : Caller) (i : Nat) (pa : Word) (s : State) : Res (Word × Resolved) :=
  (fetchReadVia call pa s).bind fun wh s' =>
    .ok wh { s' with cache := s'.cache.fill i { tag := pa, raw := wh.1, handler := wh.2 } }

/-- A hit (R89). Where the word in memory is no longer the cached one, another agent wrote it, and the fetch
returns either: a draw (R92). The block itself may have written it only where the fetch is the look-ahead of a read of
index 39 made during its own bus write, before the `Invalidate` of that store (20_memory.md R58): R89 gives the entry
there and R93 the word in memory, and the fetch returns either, DESIGN CHOICE (safe, log entry 7). -/
def fetchHitVia (call : Caller) (e : CacheEntry) (pa : Word) (s : State) : Res (Word × Resolved) :=
  if isDevice s.cfg pa || decide (s.mem.readWord pa = e.raw) then .ok (e.raw, e.handler) s
  else
    let s' : State := { s with draws := s.draws + 1 }
    if Config.freeChoice s.draws then .ok (e.raw, e.handler) s' else fetchReadVia call pa s'

/-- The word and handler at a translated address, through the cache where it is enabled and covers it (R89). -/
def fetchPhysicalVia (call : Caller) (pa : Word) (s : State) : Res (Word × Resolved) :=
  match s.cfg.cacheEnable, cacheIndex s.cfg pa with
  | true, some i =>
    match s.cache.find i with
    | some e => if e.tag = pa then fetchHitVia call e pa s else fetchMissVia call i pa s
    | none => fetchMissVia call i pa s
  | _, _ => fetchReadVia call pa s

/-- `Fetch` without its write of `lastInstr`: the look-ahead fetch of the probe (R102), and the body of the main
loop's (R89). -/
def fetchVia (call : Caller) (va : Word) (s : State) : Res (Word × Resolved) :=
  if va.extractLsb' 0 2 = 0#2 then
    (translateVia call va .fetch s).bind fun pa s' => fetchPhysicalVia call pa s'
  else refuse .misalignedFetch s

/-! ## The idle-loop probe and the time skip (40_fetch_execute.md R102, R104) -/

/-- `IdleSkip()`: the timer and coprocessor calls in order (R104). -/
def idleSkipVia (call : Caller) (s : State) : Res Unit :=
  (call (.timerClock (s.syncCycles + BitVec.ofNat 64 s.cfg.idleExtra)) s).bind fun _ s1 =>
  (call (.timerRead 4) { s1 with syncCycles := 0#64 }).bind fun a s2 =>
    if 0 < (low32 a.value).toInt then
      (call (.cop0Advance (low32 a.value)) s2).bind fun _ s3 =>
      (call (.timerWrite 4 s3.cfg.timerCancel) s3).bind fun _ s4 => .ok () s4
    else .ok () s2

/-- `Probe(bpc, bw, target)`: whether the following instruction is safe to skip (R102). -/
def probeVia (call : Caller) (bpc bw target : Word) (s : State) : Res Bool :=
  if target = bpc then
    (fetchVia call (bpc + 4#32) s).bind fun dwh s1 =>
      if classify dwh.1 bw then
        (call .cop0IdleSignals s1).bind fun a s2 =>
          if a.permanentLoop then fatal .permanentLoop bpc bw s2
          else if a.safeIdle then (idleSkipVia call s2).bind fun _ s3 => .ok true s3
          else .ok true s2
      else .ok false s1
  else .ok false s

/-! ## The control surface (10_state.md R40 to R51) -/

/-- The code of `bstate` (R45, D23). -/
def branchCode (b : BranchState) : Dword :=
  match b with
  | .normal => 0#64
  | .delaySlot => 1#64
  | .jump => 2#64

/-- `x[i][N-1:0]` (R41). -/
def Width.view (n : Width) (v : Dword) : Dword :=
  match n with
  | .w8 => (v.setWidth 8).setWidth 64
  | .w16 => (v.setWidth 16).setWidth 64
  | .w32 => (v.setWidth 32).setWidth 64
  | .w64 => v

/-- The value a write of a width stores in a register: `sext_64(v[N-1:0])` (R41, D25). -/
def Width.stored (n : Width) (v : Dword) : Dword :=
  match n with
  | .w8 => (v.setWidth 8).signExtend 64
  | .w16 => (v.setWidth 16).signExtend 64
  | .w32 => (v.setWidth 32).signExtend 64
  | .w64 => v

/-- A read of a control-surface index: the value returned and the state after (R41 to R51). -/
def ctlReadVia (call : Caller) (index : Nat) (width : Width) (s : State) : Res Dword :=
  if index < 32 then .ok (width.view (s.gpr (BitVec.ofNat 5 index))) s
  else match index with
  | 32 => .ok (s.pc.setWidth 64) s
  | 33 => .ok s.tickCounter { s with tickCounter := 0#64 }
  | 35 => .ok (if s.llbit then 1#64 else 0#64) s
  | 37 => .ok (branchCode s.bstate) s
  | 38 =>
    (call (.cop0Read s.cfg.intRegA) s).bind fun a s1 =>
    (call (.cop0Read s1.cfg.intRegB) s1).bind fun b s2 =>
      .ok ((low32 a.value &&& low32 b.value).setWidth 64) s2
  | 39 =>
    (probeVia call s.pc s.lastInstr s.jumpTarget s).bind fun verdict s1 =>
      .ok (if verdict then 1#64 else 0#64) s1
  | 40 => .ok (s.lastInstr.setWidth 64) s
  | 41 => .ok ((s.hi.extractLsb' 32 32).setWidth 64) s
  | 42 => .ok ((s.hi.extractLsb' 0 32).setWidth 64) s
  | 43 => .ok ((s.lo.extractLsb' 32 32).setWidth 64) s
  | 44 => .ok ((s.lo.extractLsb' 0 32).setWidth 64) s
  | _ => refuse .unmappedControl s

/-- A write of index 37 or 40: 0 jumps past the delay slot, any other value forces the delay-slot state (R45, R48). -/
def State.forceBranch (s : State) (v : Dword) : State :=
  if v = 0#64 then s.setBranch (s.pc + 8#32) .jump else { s with bstate := .delaySlot }

/-- A write of a control-surface index (R41 to R51). -/
def ctlWriteVia (call : Caller) (index : Nat) (width : Width) (v : Dword) (s : State) : Res Unit :=
  if index < 32 then .ok () (s.setGpr (BitVec.ofNat 5 index) (width.stored v))
  else match index with
  | 32 => .ok () (if s.running then s.setBranch (low32 v) .jump else { s with pc := low32 v })
  | 33 =>
    (call (.cop0SetCpi (low32 v)) { s with cpi := low32 v }).bind fun _ s1 => .ok () s1
  | 35 => .ok () { s with llbit := decide (v ≠ 0#64) }
  | 37 => .ok () (s.forceBranch v)
  | 40 => .ok () (s.forceBranch v)
  | 41 => .ok () { s with hi := low32 v ++ s.hi.extractLsb' 0 32 }
  | 42 => .ok () { s with hi := s.hi.extractLsb' 32 32 ++ low32 v }
  | 43 => .ok () { s with lo := low32 v ++ s.lo.extractLsb' 0 32 }
  | 44 => .ok () { s with lo := s.lo.extractLsb' 32 32 ++ low32 v }
  | 64 => .ok () { s with extJump := true }
  | _ => refuse .unmappedControl s

/-! ## What is done during a call (20_memory.md R69) -/

/-- One action of a collaborator, another agent or the host. Another agent's write of memory leaves the decode
cache as it is (20_memory.md R72). -/
def performVia (call : Caller) (a : Action) (s : State) : Res Unit :=
  match a with
  | .ctlRead index width => (ctlReadVia call index width s).bind fun _ s' => .ok () s'
  | .ctlWrite index width v => ctlWriteVia call index width v s
  | .memWrite pa b => .ok () { s with mem := s.mem.write pa.toNat b }
  | .remap windows => .ok () { s with mmu := windows }

/-- The actions in the order made (10_state.md R40). -/
def performAllVia (call : Caller) (actions : List Action) (s : State) : Res Unit :=
  match actions with
  | [] => .ok () s
  | a :: rest => (performVia call a s).bind fun _ s' => performAllVia call rest s'

/-- A call to a collaborator: it is made, what is scripted for it is done, with `inner` for the calls that makes, and it
returns. Where an access among that is refused or ends the run as fatal, the call does not return, and what it stands in
ends there: a handler, a fetch, a sync point or a control-surface access (DESIGN CHOICE, log entry 1). -/
def callWith (inner : Caller) : Caller := fun c s =>
  (performAllVia inner s.nextAnswer.actions (s.record c)).bind fun _ s' => .ok s.nextAnswer s'

/-- A call during which calls may stand within calls to the given depth. -/
def callNested (depth : Nat) : Caller :=
  match depth with
  | 0 => callQuietly
  | d + 1 => callWith (callNested d)

/-- A call to a collaborator (60_exceptions.md R269): it is made, what is scripted for it is done, it returns. The
calls made by what is done are calls like this one (`callCollaborator_eq`): a call within a call has a later number,
so no nest is deeper than the script is long. -/
def callCollaborator (c : Call) (s : State) : Res Answer := callWith (callNested s.script.length) c s

/-! ## The operations of the handlers and the loop -/

/-- `P_TRANSLATE(va, kind)` (20_memory.md R54). -/
def translate (va : Word) (kind : AccessKind) (s : State) : Res Word := translateVia callCollaborator va kind s

/-- `BusRead(pa, n)` (20_memory.md R55). -/
def busRead (pa : Word) (n : Size) (s : State) : Res Dword := busReadVia callCollaborator pa n s

/-- `BusWrite(pa, n, v)` (20_memory.md R55). -/
def busWrite (pa : Word) (n : Size) (v : Dword) (s : State) : Res Unit :=
  (callCollaborator (.busWrite pa n (n.clip v)) (s.storeBytes pa n v)).bind fun _ s' => .ok () s'

/-- `MemRead(va, n)` (20_memory.md R57). -/
def memRead (va : Word) (n : Size) (s : State) : Res Dword :=
  (translate va .load s).bind fun pa s' => busRead pa n s'

/-- `MemWrite(va, n, v)`, which invalidates the decode-cache entries of the words written (20_memory.md R58); it
does so too where an access the collaborator makes during the bus write is refused (DESIGN CHOICE, log entry 1). -/
def memWrite (va : Word) (n : Size) (v : Dword) (s : State) : Res Unit :=
  (translate va .store s).bind fun pa s1 => (busWrite pa n v s1).after fun s2 => s2.invalidate pa n

/-- `Fetch(pc)` of the main loop, which sets `lastInstr` (40_fetch_execute.md R89). -/
def fetch (va : Word) (s : State) : Res (Word × Resolved) :=
  (fetchVia callCollaborator va s).bind fun wh s' => .ok wh { s' with lastInstr := wh.1 }

/-- `Probe(bpc, bw, target)` of a taken branch (40_fetch_execute.md R102). -/
def probe (bpc bw target : Word) (s : State) : Res Bool := probeVia callCollaborator bpc bw target s

/-- `Cop0Read(i)` (60_exceptions.md R269). -/
def cop0Read (i : Reg) (s : State) : Res Word :=
  (callCollaborator (.cop0Read i) s).bind fun a s' => .ok (low32 a.value) s'

/-- `Cop0Write(i, v)` (60_exceptions.md R269). -/
def cop0Write (i : Reg) (v : Word) (s : State) : Res Unit :=
  (callCollaborator (.cop0Write i v) s).bind fun _ s' => .ok () s'

/-- `Cop0Op(f)` (46_system.md R250). Return from a trap is `Cop0Op(0x18)`: the block restores nothing itself; the
collaborator returns by writing the control surface during the call (60_exceptions.md R274). -/
def cop0Op (funct : BitVec 6) (s : State) : Res Unit :=
  (callCollaborator (.cop0Op funct) s).bind fun _ s' => .ok () s'

/-- The fault code of the report (60_exceptions.md R263). -/
def faultCode (cfg : Params) (kind : AccessKind) : Word :=
  match kind with
  | .store => cfg.codeAdes
  | .load => cfg.codeAdel
  | .fetch => cfg.codeAdel

/-- `raise AddressError(kind, va)`, the one exception of the block (60_exceptions.md R263): the faulting address,
then the fault code, go to coprocessor 0 and the handler is aborted. The block saves no pc, changes no mode and
has no vector (R273): entry to a handler is what the collaborator does during the two calls. -/
def raiseAddressError {α : Type} (kind : AccessKind) (va : Word) (s : State) : Res α :=
  (cop0Write s.cfg.cop0BadVAddr va s).bind fun _ s1 =>
  (cop0Write s1.cfg.cop0Exc (faultCode s1.cfg kind) s1).bind fun _ s2 => .stop s2

/-- `ea mod n != 0` (45_loadstore.md R199). -/
def misaligned (n : Size) (ea : Word) : Bool := decide (ea.toNat % n.bytes ≠ 0)

/-- What a misaligned access does (20_memory.md R60): a doubleword is refused, a halfword or word raises an
address error. -/
def misalignedAccess {α : Type} (kind : AccessKind) (n : Size) (ea : Word) (s : State) : Res α :=
  match n with
  | .b8 => refuse .misalignedDoubleword s
  | _ => raiseAddressError kind ea s

/-- The alignment check, made before translation (20_memory.md R60, R61), then the access. -/
def checkAligned {α : Type} (kind : AccessKind) (n : Size) (ea : Word) (access : State → Res α) (s : State) : Res α :=
  if misaligned n ea then misalignedAccess kind n ea s else access s

/-- The link value: `sext_64(pc + 8)` (44_branch.md R173). -/
def State.linkValue (s : State) : Dword := sext64 (s.pc + 8#32)

/-- The link write of a branch that has one (44_branch.md R173). -/
def State.writeLink (s : State) (link : Option Reg) : State :=
  match link with
  | none => s
  | some r => s.writeGpr r s.linkValue

/-- The look-ahead fetch of a branch at `pc` is one that the block refuses (40_fetch_execute.md R89, R102). -/
def State.lookAheadRefused (s : State) : Bool :=
  decide ((s.pc + 4#32).extractLsb' 0 2 ≠ 0#2) || (translateAddress s.mmu (s.pc + 4#32) .fetch).isNone

/-- The branch is a taken one to itself whose look-ahead fetch is refused, and the refusal comes before any write, as
60_exceptions.md R266 says, not after those of 44_branch.md R174 (DESIGN CHOICE, safe, log entry 13). -/
def State.refusedUnwritten (s : State) (target : Word) : Bool :=
  decide (target = s.pc) && s.lookAheadRefused && decide (s.cfg.lookAheadRefusal = .beforeWrites)

/-- `BranchOp(c, T, L, ld)` (44_branch.md R174). The branch word of the probe is `lastInstr`, the word the loop
fetched for this handler (10_state.md R32, log entry 10). What a taken self-branch has written when its look-ahead fetch
is refused is the parameter `lookAheadRefusal` (log entry 13). -/
def branchOp (taken : Bool) (target : Word) (likely : Bool) (link : Option Reg) (s : State) : Res Unit :=
  if s.bstate = .jump ∧ s.cfg.branchInDs = .refuse then refuse .branchInDelaySlot s
  else if taken then
    let s1 := if s.refusedUnwritten target then s else (s.writeLink link).setBranch target .delaySlot
    (probe s.pc s.lastInstr target s1).bind fun _ s' => .ok () s'
  else .ok () ((s.writeLink link).setBranch (s.pc + 8#32) (if likely then .jump else .delaySlot))

end Sys2Proof.Machine
end

