-- ==== Sys2Proof/Machine/Operands.lean ====
section
/-! DEFINITION. How operands are formed (30_encoding.md R76), the 32-bit operation (41_alu.md R109), effective
addresses (45_loadstore.md R198), branch targets (44_branch.md R172) and the merges of the partial accesses
(45_loadstore.md R202). -/
namespace Sys2Proof.Machine

/-! ## Immediates (30_encoding.md R76) -/

/-- `simm64 = sext_64(w[15:0])`. -/
def simm64 (imm : BitVec 16) : Dword := imm.signExtend 64

/-- `simm32 = sext_32(w[15:0])`. -/
def simm32 (imm : BitVec 16) : Word := imm.signExtend 32

/-- `zimm64 = zext_64(w[15:0])`. -/
def zimm64 (imm : BitVec 16) : Dword := imm.setWidth 64

/-- `luimm = sext_64(w[15:0] ++ 0x0000)`. -/
def luimm (imm : BitVec 16) : Dword := sext64 (imm ++ 0#16)

/-- `boff = sext_32(w[15:0] ++ 0b00)`. -/
def boff (offset : BitVec 16) : Word := (offset ++ 0#2).signExtend 32

/-- `vs32 = x[rs][4:0]`. -/
def vs32 (amount : Dword) : Nat := (amount.setWidth 5).toNat

/-- `vs64 = x[rs][5:0]`. -/
def vs64 (amount : Dword) : Nat := (amount.setWidth 6).toNat

/-! ## The 32-bit operation (41_alu.md R108, R109) -/

/-- `IsSext32(v)`: the upper 32 bits are copies of bit 31 (R108). -/
def isSext32 (v : Dword) : Bool := decide (v = sext64 (low32 v))

/-- `Op32(f; a1, ..., an)` and its write (R109): `operandsFit` says that every operand is a sign-extended 32-bit
value, `f` is the 32-bit result. Where `P_NONSEXT32 = Draw` and an operand does not fit, the 64-bit result is a
free value. -/
def writeOp32 (rd : Reg) (operandsFit : Bool) (f : Word) (s : State) : Out :=
  if s.cfg.nonSext32 = .draw ∧ operandsFit = false then .next (s.draw.2.writeGpr rd s.draw.1)
  else .next (s.writeGpr rd (sext64 f))

/-- The same for the two halves a 32-bit multiply or divide writes (43_muldiv.md R155): both draws, `hi` first, or
both sign-extended. -/
def writeHiLo32 (operandsFit : Bool) (h l : Word) (s : State) : Out :=
  if s.cfg.nonSext32 = .draw ∧ operandsFit = false then
    .next (s.draw.2.draw.2.setHiLo s.draw.1 s.draw.2.draw.1)
  else .next (s.setHiLo (sext64 h) (sext64 l))

/-- `hi <- draw ; lo <- draw` (43_muldiv.md R156). -/
def drawHiLo (s : State) : Out := .next (s.draw.2.draw.2.setHiLo s.draw.1 s.draw.2.draw.1)

/-! ## Addresses -/

/-- `ea = trunc_32(x[base] + simm64)` (45_loadstore.md R198). -/
def State.effectiveAddress (s : State) (base : Reg) (offset : BitVec 16) : Word :=
  low32 (s.gpr base + simm64 offset)

/-- `pc + 4 + boff` (44_branch.md R172). -/
def State.branchTarget (s : State) (offset : BitVec 16) : Word := s.pc + 4#32 + boff offset

/-- `jtarget = (pc + 4)[31:28] ++ target ++ 0b00` (44_branch.md R172). -/
def State.jumpAddress (s : State) (target : BitVec 26) : Word :=
  (s.pc + 4#32).extractLsb' 28 4 ++ target ++ 0#2

/-- `x[rs][31:0]`, the target of JR and JALR (44_branch.md R172). -/
def State.registerTarget (s : State) (rs : Reg) : Word := low32 (s.gpr rs)

/-! ## The partial-access tables (45_loadstore.md R202): `s, m` for each offset `k` in the aligned unit -/

/-- The shift and mask of row `k` of a table. -/
def tableRow {w : Nat} (rows : List (Nat × BitVec w)) (k : Nat) : Nat × BitVec w :=
  rows.getD k (0, 0)

/-- LWL: `(W << s) OR (old[31:0] AND m)`. -/
def lwlTable : List (Nat × Word) :=
  [(0, 0x00000000#32), (8, 0x000000FF#32), (16, 0x0000FFFF#32), (24, 0x00FFFFFF#32)]
/-- LWR: `(W >>u s) OR (old[31:0] AND m)`. -/
def lwrTable : List (Nat × Word) :=
  [(24, 0xFFFFFF00#32), (16, 0xFFFF0000#32), (8, 0xFF000000#32), (0, 0x00000000#32)]
/-- SWL: `(W AND m) OR (r[31:0] >>u s)`. -/
def swlTable : List (Nat × Word) :=
  [(0, 0x00000000#32), (8, 0xFF000000#32), (16, 0xFFFF0000#32), (24, 0xFFFFFF00#32)]
/-- SWR: `(r[31:0] << s) OR (W AND m)`. -/
def swrTable : List (Nat × Word) :=
  [(24, 0x00FFFFFF#32), (16, 0x0000FFFF#32), (8, 0x000000FF#32), (0, 0x00000000#32)]
/-- LDL: `(D << s) OR (old AND m)`. -/
def ldlTable : List (Nat × Dword) :=
  [(0, 0x0000000000000000#64), (8, 0x00000000000000FF#64), (16, 0x000000000000FFFF#64), (24, 0x0000000000FFFFFF#64),
   (32, 0x00000000FFFFFFFF#64), (40, 0x000000FFFFFFFFFF#64), (48, 0x0000FFFFFFFFFFFF#64), (56, 0x00FFFFFFFFFFFFFF#64)]
/-- LDR: `(D >>u s) OR (old AND m)`. -/
def ldrTable : List (Nat × Dword) :=
  [(56, 0xFFFFFFFFFFFFFF00#64), (48, 0xFFFFFFFFFFFF0000#64), (40, 0xFFFFFFFFFF000000#64), (32, 0xFFFFFFFF00000000#64),
   (24, 0xFFFFFF0000000000#64), (16, 0xFFFF000000000000#64), (8, 0xFF00000000000000#64), (0, 0x0000000000000000#64)]
/-- SDL: `(D AND m) OR (r >>u s)`. -/
def sdlTable : List (Nat × Dword) :=
  [(0, 0x0000000000000000#64), (8, 0xFF00000000000000#64), (16, 0xFFFF000000000000#64), (24, 0xFFFFFF0000000000#64),
   (32, 0xFFFFFFFF00000000#64), (40, 0xFFFFFFFFFF000000#64), (48, 0xFFFFFFFFFFFF0000#64), (56, 0xFFFFFFFFFFFFFF00#64)]
/-- SDR: `(r << s) OR (D AND m)`. -/
def sdrTable : List (Nat × Dword) :=
  [(56, 0x00FFFFFFFFFFFFFF#64), (48, 0x0000FFFFFFFFFFFF#64), (40, 0x000000FFFFFFFFFF#64), (32, 0x00000000FFFFFFFF#64),
   (24, 0x0000000000FFFFFF#64), (16, 0x000000000000FFFF#64), (8, 0x00000000000000FF#64), (0, 0x0000000000000000#64)]

/-- The 32-bit value LWL merges. -/
def lwlMerge (k : Nat) (unit old : Word) : Word :=
  (unit <<< (tableRow lwlTable k).1) ||| (old &&& (tableRow lwlTable k).2)
/-- The 32-bit value LWR merges. -/
def lwrMerge (k : Nat) (unit old : Word) : Word :=
  (unit >>> (tableRow lwrTable k).1) ||| (old &&& (tableRow lwrTable k).2)
/-- The word SWL writes back. -/
def swlMerge (k : Nat) (unit r : Word) : Word :=
  (unit &&& (tableRow swlTable k).2) ||| (r >>> (tableRow swlTable k).1)
/-- The word SWR writes back. -/
def swrMerge (k : Nat) (unit r : Word) : Word :=
  (r <<< (tableRow swrTable k).1) ||| (unit &&& (tableRow swrTable k).2)
/-- The value LDL merges. -/
def ldlMerge (k : Nat) (unit old : Dword) : Dword :=
  (unit <<< (tableRow ldlTable k).1) ||| (old &&& (tableRow ldlTable k).2)
/-- The value LDR merges. -/
def ldrMerge (k : Nat) (unit old : Dword) : Dword :=
  (unit >>> (tableRow ldrTable k).1) ||| (old &&& (tableRow ldrTable k).2)
/-- The doubleword SDL writes back. -/
def sdlMerge (k : Nat) (unit r : Dword) : Dword :=
  (unit &&& (tableRow sdlTable k).2) ||| (r >>> (tableRow sdlTable k).1)
/-- The doubleword SDR writes back. -/
def sdrMerge (k : Nat) (unit r : Dword) : Dword :=
  (r <<< (tableRow sdrTable k).1) ||| (unit &&& (tableRow sdrTable k).2)

/-- `k = ea mod 4`. -/
def wordOffset (ea : Word) : Nat := ea.toNat % 4
/-- `k = ea mod 8`. -/
def doublewordOffset (ea : Word) : Nat := ea.toNat % 8
/-- `ea - k`: the aligned word that holds `ea`. -/
def alignedWord (ea : Word) : Word := ea - BitVec.ofNat 32 (wordOffset ea)
/-- `ea - k`: the aligned doubleword that holds `ea`. -/
def alignedDoubleword (ea : Word) : Word := ea - BitVec.ofNat 32 (doublewordOffset ea)

end Sys2Proof.Machine
end

