-- ==== Sys2Proof/Machine/Flags.lean ====
section
/-! DEFINITION. Comparisons. The block has no flags and no condition codes: a condition is computed from register
values at the moment an instruction executes (10_state.md R27). -/
namespace Sys2Proof.Machine

/-- `LtU(a, b)` (41_alu.md R111). -/
def ltU (a b : Dword) : Bool := decide (a.toNat < b.toNat)

/-- `LtS(a, b)` (41_alu.md R111). -/
def ltS (a b : Dword) : Bool := decide (a.toInt < b.toInt)

/-- The 64-bit value 0 or 1 of a set-on-less-than instruction (41_alu.md R125). -/
def boolDword (b : Bool) : Dword := if b then 1#64 else 0#64

/-! ## Branch conditions, on full 64-bit registers (44_branch.md R175) -/

/-- `x[rs] = x[rt]` -/
def condEq (a b : Dword) : Bool := decide (a = b)
/-- `x[rs] != x[rt]` -/
def condNe (a b : Dword) : Bool := decide (a ≠ b)
/-- `s(x[rs]) < 0` -/
def condLtz (a : Dword) : Bool := decide (a.toInt < 0)
/-- `s(x[rs]) <= 0` -/
def condLez (a : Dword) : Bool := decide (a.toInt ≤ 0)
/-- `s(x[rs]) > 0` -/
def condGtz (a : Dword) : Bool := decide (0 < a.toInt)
/-- `s(x[rs]) >= 0` -/
def condGez (a : Dword) : Bool := decide (0 ≤ a.toInt)

end Sys2Proof.Machine
end

