-- ==== Sys2Proof/Machine/Alu.lean ====
section
/-! DEFINITION. Integer arithmetic, logical and set-on-less-than instructions (41_alu.md). None raises an exception;
the "trapping" forms write their wrapped result (R110). -/
namespace Sys2Proof.Machine

/-! ## Three-register arithmetic -/

/-- R113: add word; a signed overflow does not trap. -/
def execAdd (rd rs rt : Reg) (s : State) : Out :=
  writeOp32 rd (isSext32 (s.gpr rs) && isSext32 (s.gpr rt)) (low32 (s.gpr rs) + low32 (s.gpr rt)) s

/-- R114: add unsigned word. -/
def execAddu (rd rs rt : Reg) (s : State) : Out :=
  writeOp32 rd (isSext32 (s.gpr rs) && isSext32 (s.gpr rt)) (low32 (s.gpr rs) + low32 (s.gpr rt)) s

/-- R115: subtract word; a signed overflow does not trap. -/
def execSub (rd rs rt : Reg) (s : State) : Out :=
  writeOp32 rd (isSext32 (s.gpr rs) && isSext32 (s.gpr rt)) (low32 (s.gpr rs) - low32 (s.gpr rt)) s

/-- R116: subtract unsigned word. -/
def execSubu (rd rs rt : Reg) (s : State) : Out :=
  writeOp32 rd (isSext32 (s.gpr rs) && isSext32 (s.gpr rt)) (low32 (s.gpr rs) - low32 (s.gpr rt)) s

/-- R117: add doubleword; a signed overflow does not trap. -/
def execDadd (rd rs rt : Reg) (s : State) : Out := .next (s.writeGpr rd (s.gpr rs + s.gpr rt))

/-- R118: add unsigned doubleword. -/
def execDaddu (rd rs rt : Reg) (s : State) : Out := .next (s.writeGpr rd (s.gpr rs + s.gpr rt))

/-- R119: subtract doubleword; a signed overflow does not trap. -/
def execDsub (rd rs rt : Reg) (s : State) : Out := .next (s.writeGpr rd (s.gpr rs - s.gpr rt))

/-- R120: subtract unsigned doubleword. -/
def execDsubu (rd rs rt : Reg) (s : State) : Out := .next (s.writeGpr rd (s.gpr rs - s.gpr rt))

/-! ## Three-register logical -/

/-- R121: bitwise and, all 64 bits. -/
def execAnd (rd rs rt : Reg) (s : State) : Out := .next (s.writeGpr rd (s.gpr rs &&& s.gpr rt))

/-- R122: bitwise or, all 64 bits. -/
def execOr (rd rs rt : Reg) (s : State) : Out := .next (s.writeGpr rd (s.gpr rs ||| s.gpr rt))

/-- R123: bitwise exclusive or, all 64 bits. -/
def execXor (rd rs rt : Reg) (s : State) : Out := .next (s.writeGpr rd (s.gpr rs ^^^ s.gpr rt))

/-- R124: bitwise not-or, all 64 bits. -/
def execNor (rd rs rt : Reg) (s : State) : Out := .next (s.writeGpr rd (~~~(s.gpr rs ||| s.gpr rt)))

/-! ## Set on less than -/

/-- R125: signed, over all 64 bits. -/
def execSlt (rd rs rt : Reg) (s : State) : Out := .next (s.writeGpr rd (boolDword (ltS (s.gpr rs) (s.gpr rt))))

/-- R126: unsigned, over all 64 bits. -/
def execSltu (rd rs rt : Reg) (s : State) : Out := .next (s.writeGpr rd (boolDword (ltU (s.gpr rs) (s.gpr rt))))

/-! ## Immediate arithmetic -/

/-- R127: add immediate word; a signed overflow does not trap. -/
def execAddi (rt rs : Reg) (imm : BitVec 16) (s : State) : Out :=
  writeOp32 rt (isSext32 (s.gpr rs)) (low32 (s.gpr rs) + simm32 imm) s

/-- R128: add immediate unsigned word; the immediate is sign-extended despite the name. -/
def execAddiu (rt rs : Reg) (imm : BitVec 16) (s : State) : Out :=
  writeOp32 rt (isSext32 (s.gpr rs)) (low32 (s.gpr rs) + simm32 imm) s

/-- R129: add immediate doubleword; a signed overflow does not trap. -/
def execDaddi (rt rs : Reg) (imm : BitVec 16) (s : State) : Out := .next (s.writeGpr rt (s.gpr rs + simm64 imm))

/-- R130: add immediate unsigned doubleword. -/
def execDaddiu (rt rs : Reg) (imm : BitVec 16) (s : State) : Out := .next (s.writeGpr rt (s.gpr rs + simm64 imm))

/-- R131: set on less than immediate, signed. -/
def execSlti (rt rs : Reg) (imm : BitVec 16) (s : State) : Out :=
  .next (s.writeGpr rt (boolDword (ltS (s.gpr rs) (simm64 imm))))

/-- R132: set on less than immediate, unsigned; the immediate is sign-extended first. -/
def execSltiu (rt rs : Reg) (imm : BitVec 16) (s : State) : Out :=
  .next (s.writeGpr rt (boolDword (ltU (s.gpr rs) (simm64 imm))))

/-! ## Immediate logical -/

/-- R133: and immediate, zero-extended. -/
def execAndi (rt rs : Reg) (imm : BitVec 16) (s : State) : Out := .next (s.writeGpr rt (s.gpr rs &&& zimm64 imm))

/-- R134: or immediate, zero-extended. -/
def execOri (rt rs : Reg) (imm : BitVec 16) (s : State) : Out := .next (s.writeGpr rt (s.gpr rs ||| zimm64 imm))

/-- R135: exclusive or immediate, zero-extended. -/
def execXori (rt rs : Reg) (imm : BitVec 16) (s : State) : Out := .next (s.writeGpr rt (s.gpr rs ^^^ zimm64 imm))

/-- R136: load upper immediate. -/
def execLui (rt : Reg) (imm : BitVec 16) (s : State) : Out := .next (s.writeGpr rt (luimm imm))

end Sys2Proof.Machine
end

