-- ==== Sys2Proof/Machine/Branch.lean ====
section
/-! DEFINITION. Branch and jump instructions (44_branch.md): each computes a condition and a target and hands them to
`BranchOp` (R174). None writes `pc`. -/
namespace Sys2Proof.Machine

/-! ## Jumps -/

/-- R178: jump. -/
def execJ (target : BitVec 26) (s : State) : Out := (branchOp true (s.jumpAddress target) false none s).outcome

/-- R179: jump and link in `r31`. -/
def execJal (target : BitVec 26) (s : State) : Out :=
  (branchOp true (s.jumpAddress target) false (some 31#5) s).outcome

/-- R180: jump register. -/
def execJr (rs : Reg) (s : State) : Out := (branchOp true (s.registerTarget rs) false none s).outcome

/-- R181: jump and link register; the target is read before the link is written. -/
def execJalr (rd rs : Reg) (s : State) : Out := (branchOp true (s.registerTarget rs) false (some rd) s).outcome

/-! ## Conditional branches of the primary table -/

/-- R182: branch on equal. -/
def execBeq (rs rt : Reg) (offset : BitVec 16) (s : State) : Out :=
  (branchOp (condEq (s.gpr rs) (s.gpr rt)) (s.branchTarget offset) false none s).outcome

/-- R183: branch on not equal. -/
def execBne (rs rt : Reg) (offset : BitVec 16) (s : State) : Out :=
  (branchOp (condNe (s.gpr rs) (s.gpr rt)) (s.branchTarget offset) false none s).outcome

/-- R184: branch on less than or equal to zero. -/
def execBlez (rs : Reg) (offset : BitVec 16) (s : State) : Out :=
  (branchOp (condLez (s.gpr rs)) (s.branchTarget offset) false none s).outcome

/-- R185: branch on greater than zero. -/
def execBgtz (rs : Reg) (offset : BitVec 16) (s : State) : Out :=
  (branchOp (condGtz (s.gpr rs)) (s.branchTarget offset) false none s).outcome

/-- R186: branch on equal, likely. -/
def execBeql (rs rt : Reg) (offset : BitVec 16) (s : State) : Out :=
  (branchOp (condEq (s.gpr rs) (s.gpr rt)) (s.branchTarget offset) true none s).outcome

/-- R187: branch on not equal, likely. -/
def execBnel (rs rt : Reg) (offset : BitVec 16) (s : State) : Out :=
  (branchOp (condNe (s.gpr rs) (s.gpr rt)) (s.branchTarget offset) true none s).outcome

/-- R188: branch on less than or equal to zero, likely. -/
def execBlezl (rs : Reg) (offset : BitVec 16) (s : State) : Out :=
  (branchOp (condLez (s.gpr rs)) (s.branchTarget offset) true none s).outcome

/-- R189: branch on greater than zero, likely. -/
def execBgtzl (rs : Reg) (offset : BitVec 16) (s : State) : Out :=
  (branchOp (condGtz (s.gpr rs)) (s.branchTarget offset) true none s).outcome

/-! ## REGIMM branches -/

/-- R190: branch on less than zero. -/
def execBltz (rs : Reg) (offset : BitVec 16) (s : State) : Out :=
  (branchOp (condLtz (s.gpr rs)) (s.branchTarget offset) false none s).outcome

/-- R191: branch on greater than or equal to zero. -/
def execBgez (rs : Reg) (offset : BitVec 16) (s : State) : Out :=
  (branchOp (condGez (s.gpr rs)) (s.branchTarget offset) false none s).outcome

/-- R192: branch on less than zero, likely. -/
def execBltzl (rs : Reg) (offset : BitVec 16) (s : State) : Out :=
  (branchOp (condLtz (s.gpr rs)) (s.branchTarget offset) true none s).outcome

/-- R193: branch on greater than or equal to zero, likely. -/
def execBgezl (rs : Reg) (offset : BitVec 16) (s : State) : Out :=
  (branchOp (condGez (s.gpr rs)) (s.branchTarget offset) true none s).outcome

/-- R194: branch on less than zero, and link in `r31` whether or not it is taken. -/
def execBltzal (rs : Reg) (offset : BitVec 16) (s : State) : Out :=
  (branchOp (condLtz (s.gpr rs)) (s.branchTarget offset) false (some 31#5) s).outcome

/-- R195: branch on greater than or equal to zero, and link in `r31` whether or not it is taken. -/
def execBgezal (rs : Reg) (offset : BitVec 16) (s : State) : Out :=
  (branchOp (condGez (s.gpr rs)) (s.branchTarget offset) false (some 31#5) s).outcome

/-- R196: branch on less than zero, and link in `r31` whether or not it is taken, likely. -/
def execBltzall (rs : Reg) (offset : BitVec 16) (s : State) : Out :=
  (branchOp (condLtz (s.gpr rs)) (s.branchTarget offset) true (some 31#5) s).outcome

/-- R197: branch on greater than or equal to zero, and link in `r31` whether or not it is taken, likely. -/
def execBgezall (rs : Reg) (offset : BitVec 16) (s : State) : Out :=
  (branchOp (condGez (s.gpr rs)) (s.branchTarget offset) true (some 31#5) s).outcome

end Sys2Proof.Machine
end

