-- ==== Sys2Proof/Machine/LoadStore.lean ====
section
/-! DEFINITION. Load and store instructions (45_loadstore.md). -/
namespace Sys2Proof.Machine

/-! ## Common definitions -/

/-- `Load(n, ext)` (R199): alignment, then the read, then the write of `x[rt]`. -/
def loadOp (n : Size) (ext : Dword → Dword) (rt : Reg) (offset : BitVec 16) (base : Reg) (s : State) : Res Unit :=
  checkAligned .load n (s.effectiveAddress base offset)
    (fun s0 => (memRead (s0.effectiveAddress base offset) n s0).bind fun v s1 => .ok () (s1.writeGpr rt (ext v))) s

/-- `Store(n)` (R200): alignment, then the write of the low `n` bytes of `x[rt]`, with its invalidation. -/
def storeOp (n : Size) (rt : Reg) (offset : BitVec 16) (base : Reg) (s : State) : Res Unit :=
  checkAligned .store n (s.effectiveAddress base offset)
    (fun s0 => memWrite (s0.effectiveAddress base offset) n (s0.gpr rt) s0) s

/-- A linked load: "if the load completed, `llbit <- 1`" (R216, R217). -/
def linkedLoadOp (n : Size) (ext : Dword → Dword) (rt : Reg) (offset : BitVec 16) (base : Reg) (s : State) : Res Unit :=
  (loadOp n ext rt offset base s).bind fun _ s1 => .ok () { s1 with llbit := true }

/-- A conditional store (R226, R227): the alignment is checked whatever `llbit` is; `llbit` is not changed. -/
def conditionalStoreOp (n : Size) (rt : Reg) (offset : BitVec 16) (base : Reg) (s : State) : Res Unit :=
  checkAligned .store n (s.effectiveAddress base offset)
    (fun s0 =>
      if s0.llbit then
        (memWrite (s0.effectiveAddress base offset) n (s0.gpr rt) s0).bind fun _ s1 => .ok () (s1.writeGpr rt 1#64)
      else .ok () (s0.writeGpr rt 0#64)) s

/-- A partial load of a word (R202, R212, R213): the aligned word is read, merged with the old register by `merge`,
and written as 64 bits by `extend`, which may draw. -/
def partialLoadWord (merge : Nat → Word → Word → Word) (extend : Nat → Word → State → Dword × State)
    (rt : Reg) (offset : BitVec 16) (base : Reg) (s : State) : Res Unit :=
  (memRead (alignedWord (s.effectiveAddress base offset)) .b4 s).bind fun v s1 =>
    let k := wordOffset (s.effectiveAddress base offset)
    let r := extend k (merge k (low32 v) (low32 (s1.gpr rt))) s1
    .ok () (r.2.writeGpr rt r.1)

/-- A partial load of a doubleword (R202, R214, R215). -/
def partialLoadDoubleword (merge : Nat → Dword → Dword → Dword)
    (rt : Reg) (offset : BitVec 16) (base : Reg) (s : State) : Res Unit :=
  (memRead (alignedDoubleword (s.effectiveAddress base offset)) .b8 s).bind fun v s1 =>
    .ok () (s1.writeGpr rt (merge (doublewordOffset (s.effectiveAddress base offset)) v (s1.gpr rt)))

/-- A partial store of a word (R202, R222, R223): read the aligned word, merge, write the whole word back. -/
def partialStoreWord (merge : Nat → Word → Word → Word)
    (rt : Reg) (offset : BitVec 16) (base : Reg) (s : State) : Res Unit :=
  (memRead (alignedWord (s.effectiveAddress base offset)) .b4 s).bind fun v s1 =>
    memWrite (alignedWord (s.effectiveAddress base offset)) .b4
      ((merge (wordOffset (s.effectiveAddress base offset)) (low32 v) (low32 (s1.gpr rt))).setWidth 64) s1

/-- A partial store of a doubleword (R202, R224, R225). -/
def partialStoreDoubleword (merge : Nat → Dword → Dword → Dword)
    (rt : Reg) (offset : BitVec 16) (base : Reg) (s : State) : Res Unit :=
  (memRead (alignedDoubleword (s.effectiveAddress base offset)) .b8 s).bind fun v s1 =>
    memWrite (alignedDoubleword (s.effectiveAddress base offset)) .b8
      (merge (doublewordOffset (s.effectiveAddress base offset)) v (s1.gpr rt)) s1

/-- `sext_64` of the loaded bytes. -/
def sextByte (v : Dword) : Dword := (v.setWidth 8).signExtend 64
def sextHalf (v : Dword) : Dword := (v.setWidth 16).signExtend 64
def sextWord (v : Dword) : Dword := (v.setWidth 32).signExtend 64

/-- `zext_64` of the loaded bytes. -/
def zextByte (v : Dword) : Dword := (v.setWidth 8).setWidth 64
def zextHalf (v : Dword) : Dword := (v.setWidth 16).setWidth 64
def zextWord (v : Dword) : Dword := (v.setWidth 32).setWidth 64

/-- Bits 63-32 after LWL: always the sign extension (R203). -/
def extendLwl (_k : Nat) (v : Word) (s : State) : Dword × State := (sext64 v, s)

/-- Bits 63-32 after LWR: the sign extension, or with `P_LWR_UPPER = Draw` and `k` in 0..2 a free value (R203). -/
def extendLwr (k : Nat) (v : Word) (s : State) : Dword × State :=
  if s.cfg.lwrUpper = .draw ∧ k ≠ 3 then (s.draw.1.extractLsb' 32 32 ++ v, s.draw.2) else (sext64 v, s)

/-! ## Aligned loads -/

/-- R205: load byte. -/
def execLb (rt : Reg) (offset : BitVec 16) (base : Reg) (s : State) : Out :=
  (loadOp .b1 sextByte rt offset base s).outcome

/-- R206: load byte unsigned. -/
def execLbu (rt : Reg) (offset : BitVec 16) (base : Reg) (s : State) : Out :=
  (loadOp .b1 zextByte rt offset base s).outcome

/-- R207: load halfword. -/
def execLh (rt : Reg) (offset : BitVec 16) (base : Reg) (s : State) : Out :=
  (loadOp .b2 sextHalf rt offset base s).outcome

/-- R208: load halfword unsigned. -/
def execLhu (rt : Reg) (offset : BitVec 16) (base : Reg) (s : State) : Out :=
  (loadOp .b2 zextHalf rt offset base s).outcome

/-- R209: load word. -/
def execLw (rt : Reg) (offset : BitVec 16) (base : Reg) (s : State) : Out :=
  (loadOp .b4 sextWord rt offset base s).outcome

/-- R210: load word unsigned. -/
def execLwu (rt : Reg) (offset : BitVec 16) (base : Reg) (s : State) : Out :=
  (loadOp .b4 zextWord rt offset base s).outcome

/-- R211: load doubleword; a misaligned address is refused. -/
def execLd (rt : Reg) (offset : BitVec 16) (base : Reg) (s : State) : Out :=
  (loadOp .b8 id rt offset base s).outcome

/-! ## Partial loads -/

/-- R212: load word left. -/
def execLwl (rt : Reg) (offset : BitVec 16) (base : Reg) (s : State) : Out :=
  (partialLoadWord lwlMerge extendLwl rt offset base s).outcome

/-- R213: load word right. -/
def execLwr (rt : Reg) (offset : BitVec 16) (base : Reg) (s : State) : Out :=
  (partialLoadWord lwrMerge extendLwr rt offset base s).outcome

/-- R214: load doubleword left. -/
def execLdl (rt : Reg) (offset : BitVec 16) (base : Reg) (s : State) : Out :=
  (partialLoadDoubleword ldlMerge rt offset base s).outcome

/-- R215: load doubleword right. -/
def execLdr (rt : Reg) (offset : BitVec 16) (base : Reg) (s : State) : Out :=
  (partialLoadDoubleword ldrMerge rt offset base s).outcome

/-! ## Linked loads -/

/-- R216: load linked word. -/
def execLl (rt : Reg) (offset : BitVec 16) (base : Reg) (s : State) : Out :=
  (linkedLoadOp .b4 sextWord rt offset base s).outcome

/-- R217: load linked doubleword. -/
def execLld (rt : Reg) (offset : BitVec 16) (base : Reg) (s : State) : Out :=
  (linkedLoadOp .b8 id rt offset base s).outcome

/-! ## Aligned stores -/

/-- R218: store byte. -/
def execSb (rt : Reg) (offset : BitVec 16) (base : Reg) (s : State) : Out :=
  (storeOp .b1 rt offset base s).outcome

/-- R219: store halfword. -/
def execSh (rt : Reg) (offset : BitVec 16) (base : Reg) (s : State) : Out :=
  (storeOp .b2 rt offset base s).outcome

/-- R220: store word. -/
def execSw (rt : Reg) (offset : BitVec 16) (base : Reg) (s : State) : Out :=
  (storeOp .b4 rt offset base s).outcome

/-- R221: store doubleword; a misaligned address is refused. -/
def execSd (rt : Reg) (offset : BitVec 16) (base : Reg) (s : State) : Out :=
  (storeOp .b8 rt offset base s).outcome

/-! ## Partial stores -/

/-- R222: store word left. -/
def execSwl (rt : Reg) (offset : BitVec 16) (base : Reg) (s : State) : Out :=
  (partialStoreWord swlMerge rt offset base s).outcome

/-- R223: store word right. -/
def execSwr (rt : Reg) (offset : BitVec 16) (base : Reg) (s : State) : Out :=
  (partialStoreWord swrMerge rt offset base s).outcome

/-- R224: store doubleword left. -/
def execSdl (rt : Reg) (offset : BitVec 16) (base : Reg) (s : State) : Out :=
  (partialStoreDoubleword sdlMerge rt offset base s).outcome

/-- R225: store doubleword right. -/
def execSdr (rt : Reg) (offset : BitVec 16) (base : Reg) (s : State) : Out :=
  (partialStoreDoubleword sdrMerge rt offset base s).outcome

/-! ## Conditional stores -/

/-- R226: store conditional word. -/
def execSc (rt : Reg) (offset : BitVec 16) (base : Reg) (s : State) : Out :=
  (conditionalStoreOp .b4 rt offset base s).outcome

/-- R227: store conditional doubleword; a misaligned address is refused. -/
def execScd (rt : Reg) (offset : BitVec 16) (base : Reg) (s : State) : Out :=
  (conditionalStoreOp .b8 rt offset base s).outcome

end Sys2Proof.Machine
end

