-- ==== Sys2Proof/Machine/MulDiv.lean ====
section
/-! DEFINITION. Multiply, divide and HI/LO move instructions (43_muldiv.md). Operands are converted to integers,
the product or quotient is exact, and the halves are cut out of it (R158). A divide by zero writes two free values
and raises nothing (R156). -/
namespace Sys2Proof.Machine

/-- Both operands of a 32-bit multiply or divide are sign-extended 32-bit values (R155). -/
def bothFit (s : State) (rs rt : Reg) : Bool := isSext32 (s.gpr rs) && isSext32 (s.gpr rt)

/-- `p[63:32]` and `p[31:0]` of an exact product of 32-bit operands (R160, R161). -/
def productHigh32 (p : Int) : Word := (BitVec.ofInt 64 p).extractLsb' 32 32
def productLow32 (p : Int) : Word := (BitVec.ofInt 64 p).extractLsb' 0 32

/-- `p[127:64]` and `p[63:0]` of an exact product of 64-bit operands (R164, R165). -/
def productHigh64 (p : Int) : Dword := (BitVec.ofInt 128 p).extractLsb' 64 64
def productLow64 (p : Int) : Dword := (BitVec.ofInt 128 p).extractLsb' 0 64

/-! ## 32-bit -/

/-- R160: multiply word, signed. -/
def execMult (rs rt : Reg) (s : State) : Out :=
  let p : Int := (low32 (s.gpr rs)).toInt * (low32 (s.gpr rt)).toInt
  writeHiLo32 (bothFit s rs rt) (productHigh32 p) (productLow32 p) s

/-- R161: multiply word unsigned; each half is sign-extended all the same. -/
def execMultu (rs rt : Reg) (s : State) : Out :=
  let p : Int := ((low32 (s.gpr rs)).toNat * (low32 (s.gpr rt)).toNat : Nat)
  writeHiLo32 (bothFit s rs rt) (productHigh32 p) (productLow32 p) s

/-- R162: divide word, signed, rounding toward zero. -/
def execDiv (rs rt : Reg) (s : State) : Out :=
  let a := (low32 (s.gpr rs)).toInt
  let b := (low32 (s.gpr rt)).toInt
  if b = 0 then drawHiLo s
  else writeHiLo32 (bothFit s rs rt) (BitVec.ofInt 32 (a.tmod b)) (BitVec.ofInt 32 (a.tdiv b)) s

/-- R163: divide word unsigned. -/
def execDivu (rs rt : Reg) (s : State) : Out :=
  let a := (low32 (s.gpr rs)).toNat
  let b := (low32 (s.gpr rt)).toNat
  if b = 0 then drawHiLo s
  else writeHiLo32 (bothFit s rs rt) (BitVec.ofNat 32 (a % b)) (BitVec.ofNat 32 (a / b)) s

/-! ## 64-bit -/

/-- R164: multiply doubleword, signed. -/
def execDmult (rs rt : Reg) (s : State) : Out :=
  let p : Int := (s.gpr rs).toInt * (s.gpr rt).toInt
  .next (s.setHiLo (productHigh64 p) (productLow64 p))

/-- R165: multiply doubleword unsigned. -/
def execDmultu (rs rt : Reg) (s : State) : Out :=
  let p : Int := ((s.gpr rs).toNat * (s.gpr rt).toNat : Nat)
  .next (s.setHiLo (productHigh64 p) (productLow64 p))

/-- R166: divide doubleword, signed, rounding toward zero. -/
def execDdiv (rs rt : Reg) (s : State) : Out :=
  let a := (s.gpr rs).toInt
  let b := (s.gpr rt).toInt
  if b = 0 then drawHiLo s
  else .next (s.setHiLo (BitVec.ofInt 64 (a.tmod b)) (BitVec.ofInt 64 (a.tdiv b)))

/-- R167: divide doubleword unsigned. -/
def execDdivu (rs rt : Reg) (s : State) : Out :=
  let a := (s.gpr rs).toNat
  let b := (s.gpr rt).toNat
  if b = 0 then drawHiLo s
  else .next (s.setHiLo (BitVec.ofNat 64 (a % b)) (BitVec.ofNat 64 (a / b)))

/-! ## Moves -/

/-- R168: move from HI. -/
def execMfhi (rd : Reg) (s : State) : Out := .next (s.writeGpr rd s.hi)

/-- R169: move from LO. -/
def execMflo (rd : Reg) (s : State) : Out := .next (s.writeGpr rd s.lo)

/-- R170: move to HI. -/
def execMthi (rs : Reg) (s : State) : Out := .next (s.setHiLo (s.gpr rs) s.lo)

/-- R171: move to LO. -/
def execMtlo (rs : Reg) (s : State) : Out := .next (s.setHiLo s.hi (s.gpr rs))

end Sys2Proof.Machine
end

