-- ==== Sys2Proof/Machine/Shift.lean ====
section
/-! DEFINITION. Shift instructions (42_shift.md). The 32-bit right shifts are 32-bit operations on `x[rt]`, the
32-bit left shifts are defined for every `x[rt]` (R138). -/
namespace Sys2Proof.Machine

/-! ## 32-bit shifts -/

/-- R139: shift word left logical. -/
def execSll (rd rt : Reg) (sa : Nat) (s : State) : Out := .next (s.writeGpr rd (sext64 (low32 (s.gpr rt) <<< sa)))

/-- R140: shift word right logical. -/
def execSrl (rd rt : Reg) (sa : Nat) (s : State) : Out :=
  writeOp32 rd (isSext32 (s.gpr rt)) (low32 (s.gpr rt) >>> sa) s

/-- R141: shift word right arithmetic. -/
def execSra (rd rt : Reg) (sa : Nat) (s : State) : Out :=
  writeOp32 rd (isSext32 (s.gpr rt)) ((low32 (s.gpr rt)).sshiftRight sa) s

/-- R142: shift word left logical variable. -/
def execSllv (rd rt rs : Reg) (s : State) : Out :=
  .next (s.writeGpr rd (sext64 (low32 (s.gpr rt) <<< vs32 (s.gpr rs))))

/-- R143: shift word right logical variable. -/
def execSrlv (rd rt rs : Reg) (s : State) : Out :=
  writeOp32 rd (isSext32 (s.gpr rt)) (low32 (s.gpr rt) >>> vs32 (s.gpr rs)) s

/-- R144: shift word right arithmetic variable. -/
def execSrav (rd rt rs : Reg) (s : State) : Out :=
  writeOp32 rd (isSext32 (s.gpr rt)) ((low32 (s.gpr rt)).sshiftRight (vs32 (s.gpr rs))) s

/-! ## 64-bit shifts by a constant -/

/-- R145: shift doubleword left logical. -/
def execDsll (rd rt : Reg) (sa : Nat) (s : State) : Out := .next (s.writeGpr rd (s.gpr rt <<< sa))

/-- R146: shift doubleword right logical. -/
def execDsrl (rd rt : Reg) (sa : Nat) (s : State) : Out := .next (s.writeGpr rd (s.gpr rt >>> sa))

/-- R147: shift doubleword right arithmetic. -/
def execDsra (rd rt : Reg) (sa : Nat) (s : State) : Out := .next (s.writeGpr rd ((s.gpr rt).sshiftRight sa))

/-- R148: shift doubleword left logical plus 32; the operand is the whole amount, 32 to 63. -/
def execDsll32 (rd rt : Reg) (sa32 : Nat) (s : State) : Out := .next (s.writeGpr rd (s.gpr rt <<< sa32))

/-- R149: shift doubleword right logical plus 32; the operand is the whole amount, 32 to 63. -/
def execDsrl32 (rd rt : Reg) (sa32 : Nat) (s : State) : Out := .next (s.writeGpr rd (s.gpr rt >>> sa32))

/-- R150: shift doubleword right arithmetic plus 32; the operand is the whole amount, 32 to 63. -/
def execDsra32 (rd rt : Reg) (sa32 : Nat) (s : State) : Out := .next (s.writeGpr rd ((s.gpr rt).sshiftRight sa32))

/-! ## 64-bit shifts by a register -/

/-- R151: shift doubleword left logical variable. -/
def execDsllv (rd rt rs : Reg) (s : State) : Out := .next (s.writeGpr rd (s.gpr rt <<< vs64 (s.gpr rs)))

/-- R152: shift doubleword right logical variable. -/
def execDsrlv (rd rt rs : Reg) (s : State) : Out := .next (s.writeGpr rd (s.gpr rt >>> vs64 (s.gpr rs)))

/-- R153: shift doubleword right arithmetic variable. -/
def execDsrav (rd rt rs : Reg) (s : State) : Out := .next (s.writeGpr rd ((s.gpr rt).sshiftRight (vs64 (s.gpr rs))))

end Sys2Proof.Machine
end

