-- ==== Sys2Proof/Machine/System.lean ====
section
/-! DEFINITION. System, coprocessor and no-op instructions (46_system.md). -/
namespace Sys2Proof.Machine

/-! ## No-ops: "present in the dispatch tables as intentional no-ops" (R228, R229, R232) -/

/-- The handler completes with no effect. -/
def noEffect (s : State) : Out := .next s

/-- R228: synchronise memory accesses, a no-op. -/
def execSync (s : State) : Out := noEffect s

/-- R229: cache maintenance, a no-op: no address is formed and the decode cache is not changed. -/
def execCache (_op : BitVec 5) (_offset : BitVec 16) (_base : Reg) (s : State) : Out := noEffect s

/-- R233: no effect, whether or not the condition holds (R232). -/
def execTge (_rs _rt : Reg) (s : State) : Out := noEffect s

/-- R234: no effect, whether or not the condition holds (R232). -/
def execTgeu (_rs _rt : Reg) (s : State) : Out := noEffect s

/-- R235: no effect, whether or not the condition holds (R232). -/
def execTlt (_rs _rt : Reg) (s : State) : Out := noEffect s

/-- R236: no effect, whether or not the condition holds (R232). -/
def execTltu (_rs _rt : Reg) (s : State) : Out := noEffect s

/-- R237: no effect, whether or not the condition holds (R232). -/
def execTeq (_rs _rt : Reg) (s : State) : Out := noEffect s

/-- R238: no effect, whether or not the condition holds (R232). -/
def execTne (_rs _rt : Reg) (s : State) : Out := noEffect s

/-- R239: no effect, whether or not the condition holds (R232). -/
def execTgei (_rs : Reg) (_imm : BitVec 16) (s : State) : Out := noEffect s

/-- R240: no effect, whether or not the condition holds (R232). -/
def execTgeiu (_rs : Reg) (_imm : BitVec 16) (s : State) : Out := noEffect s

/-- R241: no effect, whether or not the condition holds (R232). -/
def execTlti (_rs : Reg) (_imm : BitVec 16) (s : State) : Out := noEffect s

/-- R242: no effect, whether or not the condition holds (R232). -/
def execTltiu (_rs : Reg) (_imm : BitVec 16) (s : State) : Out := noEffect s

/-- R243: no effect, whether or not the condition holds (R232). -/
def execTeqi (_rs : Reg) (_imm : BitVec 16) (s : State) : Out := noEffect s

/-- R244: no effect, whether or not the condition holds (R232). -/
def execTnei (_rs : Reg) (_imm : BitVec 16) (s : State) : Out := noEffect s

/-! ## System call and breakpoint -/

/-- R230: `refuse(SyscallBreak)`: the run ends with the refusal recorded in `halt` (60_exceptions.md R266). -/
def execSyscall (_code : BitVec 20) (s : State) : Out := (refuse (α := Unit) .syscallBreak s).outcome

/-- R231: `refuse(SyscallBreak)`, as SYSCALL. -/
def execBrk (_code : BitVec 20) (s : State) : Out := (refuse (α := Unit) .syscallBreak s).outcome

/-! ## Coprocessor-0 moves: the interface is 32 bits wide (R245) -/

/-- `v <- Cop0Read(rd) ; WriteGPR(rt, sext_64(v[31:0]))`; the read happens even when `rt = 0`. -/
def moveFromCop0 (rt rd : Reg) (s : State) : Res Unit :=
  (cop0Read rd s).bind fun v s1 => .ok () (s1.writeGpr rt (sext64 v))

/-- `Cop0Write(rd, x[rt][31:0])`. -/
def moveToCop0 (rt rd : Reg) (s : State) : Res Unit := cop0Write rd (low32 (s.gpr rt)) s

/-- R246: move from coprocessor 0. -/
def execMfc0 (rt rd : Reg) (s : State) : Out := (moveFromCop0 rt rd s).outcome

/-- R247: doubleword move from coprocessor 0, which moves 32 bits as MFC0. -/
def execDmfc0 (rt rd : Reg) (s : State) : Out := (moveFromCop0 rt rd s).outcome

/-- R248: move to coprocessor 0. -/
def execMtc0 (rt rd : Reg) (s : State) : Out := (moveToCop0 rt rd s).outcome

/-- R249: doubleword move to coprocessor 0, which moves 32 bits as MTC0. -/
def execDmtc0 (rt rd : Reg) (s : State) : Out := (moveToCop0 rt rd s).outcome

/-! ## Coprocessor-0 operations: forwarded whole (R250) -/

/-- R251: read indexed TLB entry. -/
def execTlbr (s : State) : Out := (cop0Op 0x01#6 s).outcome

/-- R252: write indexed TLB entry. -/
def execTlbwi (s : State) : Out := (cop0Op 0x02#6 s).outcome

/-- R253: write random TLB entry. -/
def execTlbwr (s : State) : Out := (cop0Op 0x06#6 s).outcome

/-- R254: probe TLB for matching entry. -/
def execTlbp (s : State) : Out := (cop0Op 0x08#6 s).outcome

/-- R255: exception return; the collaborator redirects the block by control-surface writes during the call. -/
def execEret (s : State) : Out := (cop0Op 0x18#6 s).outcome

/-! ## The coprocessor-1 class (R256, R257) -/

/-- One thing the executor does (R256): `MemRead` and `MemWrite` come "with their alignment and invalidation
rules", so a misaligned access ends the handler, after what the executor did before it, DEDUCED (log entry 11); so
does an access that is refused, DEDUCED (log entry 13). -/
def runCop1Op (o : Cop1Op) (s : State) : Res Unit :=
  match o with
  | .writeGpr r v => .ok () (s.writeGpr r v)
  | .memRead va n => checkAligned .load n va (fun s0 => (memRead va n s0).bind fun _ s1 => .ok () s1) s
  | .memWrite va n v => checkAligned .store n va (fun s0 => memWrite va n v s0) s
  | .regRead i => (callCollaborator (.cop1Read i) s).bind fun _ s1 => .ok () s1
  | .regWrite i v => (callCollaborator (.cop1Write i v) s).bind fun _ s1 => .ok () s1
  | .act a => performVia callCollaborator a s

/-- What the executor does, in order. -/
def runCop1Ops (ops : List Cop1Op) (s : State) : Res Unit :=
  match ops with
  | [] => .ok () s
  | o :: rest => (runCop1Op o s).bind fun _ s1 => runCop1Ops rest s1

/-- What the executor does, `BranchOp` at most once among it, at any place (R256). Where its `BranchOp` is refused, in a
delay slot or for its look-ahead fetch, what the executor wrote before it stays written, because R256 has it act "in
order", DEDUCED (unsafe for a refused run, log entry 13): 60_exceptions.md R266 and 40_fetch_execute.md R100 have a
refusal come before any write. -/
def runCop1 (a : Answer) (s : State) : Res Unit :=
  (runCop1Ops a.cop1Ops s).bind fun _ s1 =>
    match a.cop1Branch with
    | none => .ok () s1
    | some b => (branchOp b.taken b.target b.likely b.link s1).bind fun _ s2 => runCop1Ops b.after s2

/-- `if P_COP1_EXEC given: P_COP1_EXEC(w, pc) else refuse(Cop1Unmodelled)` (R257). What the executor does is data
of the answer to its call, and what other agents do during it may stand anywhere among that: the `actions` of the
answer first, an `act` where it stands (DESIGN CHOICE, log entry 11). -/
def cop1Class (w : Word) (s : State) : Res Unit :=
  if s.cfg.cop1Exec then
    (callCollaborator (.cop1Exec w s.pc) s).bind fun a s1 => runCop1 a s1
  else refuse .cop1Unmodelled s

/-- R257: any coprocessor-1 operation; the word is forwarded whole. -/
def execCop1 (rest : BitVec 26) (s : State) : Out := (cop1Class (encode (.cop1 rest)) s).outcome

/-- R258: load word to coprocessor 1, as R257. -/
def execLwc1 (ft : Reg) (offset : BitVec 16) (base : Reg) (s : State) : Out :=
  (cop1Class (encode (.lwc1 ft offset base)) s).outcome

/-- R259: load doubleword to coprocessor 1, as R257. -/
def execLdc1 (ft : Reg) (offset : BitVec 16) (base : Reg) (s : State) : Out :=
  (cop1Class (encode (.ldc1 ft offset base)) s).outcome

/-- R260: store word from coprocessor 1, as R257. -/
def execSwc1 (ft : Reg) (offset : BitVec 16) (base : Reg) (s : State) : Out :=
  (cop1Class (encode (.swc1 ft offset base)) s).outcome

/-- R261: store doubleword from coprocessor 1, as R257. -/
def execSdc1 (ft : Reg) (offset : BitVec 16) (base : Reg) (s : State) : Out :=
  (cop1Class (encode (.sdc1 ft offset base)) s).outcome

end Sys2Proof.Machine
end

