-- ==== Sys2Proof/Machine/Loop.lean ====
section
/-! DEFINITION. One iteration of the fetch/decode/execute loop (40_fetch_execute.md R87), what the host does before
it (60_exceptions.md R270), and the placing of a word where the next fetch reads it. -/
namespace Sys2Proof.Machine

/-! ## The host's turn (60_exceptions.md R270) -/

/-- One action of the host. A machine reset is applied only while `running` is false (70_reset_and_hazards.md R282),
so while it is true the action does nothing (log entry 2). -/
def hostPerform (a : HostAction) (s : State) : Res Unit :=
  match a with
  | .act b => performVia callCollaborator b s
  | .setRunning b => .ok () { s with running := b }
  | .machineReset l => .ok () (if s.running then s else s.afterReset l)

/-- The host's actions in order. A refused access, or a read of index 39 that ends fatally, ends that access, not the
host's turn. It sets `halt` as 60_exceptions.md R265 and R266 say, also after the run has ended, so that its record
replaces the one before (a `Fatal` may become a `Refused`), DESIGN CHOICE (unsafe for which end is recorded, log entry
2): the spec calls an end sticky and does not say which of two is kept. Only a reset clears `halt` (10_state.md R35). -/
def hostTurn (actions : List HostAction) (s : State) : State :=
  match actions with
  | [] => s
  | a :: rest => hostTurn rest (hostPerform a s).state

/-! ## The parts of an iteration -/

/-- The top of the loop consumes `extJump`, without a timer call (40_fetch_execute.md R88). -/
def consumeExtJump (s : State) : State :=
  if s.extJump then { s with pc := s.jumpTarget, bstate := .normal, extJump := false } else s

/-- `cpi` is added to both counters (R95). -/
def countCycles (s : State) : State :=
  { s with tickCounter := s.tickCounter + s.cpi.setWidth 64, syncCycles := s.syncCycles + s.cpi.setWidth 64 }

/-- The sync point: the timer gets the elapsed cycles, the interrupt registers are read (R97). The block takes no
action on the values. Where an access a collaborator makes during one of the three calls is refused, or ends the run as
fatal, the sync point ends there: the later calls are not made, and where it was the timer's call `syncCycles` is not
reset, DESIGN CHOICE (unsafe for what is left of an ended run, log entry 1). -/
def syncPoint (s : State) : State :=
  ((callCollaborator (.timerClock s.syncCycles) s).bind fun _ s1 =>
   (cop0Read s1.cfg.intRegA { s1 with syncCycles := 0#64 }).bind fun _ s2 => cop0Read s2.cfg.intRegB s2).state

/-- The transition executed once per fetched instruction (R96); at `Jump` the sync point follows (R97). -/
def advance (s : State) : State :=
  match s.bstate with
  | .normal => { s with pc := s.pc + 4#32 }
  | .delaySlot => { s with pc := s.pc + 4#32, bstate := .jump }
  | .jump => syncPoint { s with pc := s.jumpTarget, bstate := .normal }

/-- After the handler: a fatal or refused end stops the iteration, uncounted; otherwise the count and the advance
(R87, R94). -/
def finishHandler (s : State) : State :=
  if s.halt.isSome then s else advance (countCycles s)

/-- The handler of a fetched word runs with `pc` still the word's address (R94); the fallback handler is fatal
(30_encoding.md R83). -/
def runHandler (w : Word) (h : Resolved) (s : State) : Out :=
  match h with
  | .fallback _ => (fatal (α := Unit) .unknownOpcode s.pc w s).outcome
  | .handler i =>
    match exec i s with
    | .next s' => .next (finishHandler s')
    | .fault r => .fault r
    | .refused r => .refused r

/-- An iteration from the fetch on (R87). Where the fetch is refused, or an access a collaborator makes during one of its
calls is (DESIGN CHOICE, log entry 1), the iteration ends there: no word is fetched, no handler runs, nothing is
counted. -/
def fetchAndRun (s : State) : Out :=
  match fetch s.pc s with
  | .stop s' => .next s'
  | .ok wh s' => runHandler wh.1 wh.2 s'

/-- One iteration; none where `halt` is set or `running` is false (R88, R107). -/
def iterate (s : State) : Out :=
  match s.halt with
  | some (.fatal reason pc w) => .fault (.fatal reason pc w)
  | some (.refused reason) => .refused (.recorded reason)
  | none => if s.running then fetchAndRun (consumeExtJump s) else .fault .stopped

/-- The block has an iteration to run at the top of the loop (R88). -/
def canIterate (s : State) : Bool := s.halt.isNone && s.running

/-- One step: what the host does before it, then an iteration. Where the host acted and the block has no iteration
to run, the host's turn is the step. -/
def hostThenIterate (s : State) : Out :=
  match s.host with
  | [] => iterate s
  | batch :: rest =>
    let s' : State := { hostTurn batch s with host := rest }
    if canIterate s' then iterate s' else .next s'

/-! ## Placing a word (log entry 9) -/

/-- The address the next iteration fetches: `jumpTarget` where `extJump` is pending (R88). -/
def nextFetchAddress (s : State) : Word := if s.extJump then s.jumpTarget else s.pc

/-- The machine started with a word at the address it fetches next: the word in memory, its decode-cache entry
invalid, no end recorded, nothing for the host to do first, and `running` set. -/
def placeWord (s : State) (w : Word) : State :=
  match translateAddress s.mmu (nextFetchAddress s) .fetch with
  | none => { s with running := true, halt := none, host := [] }
  | some pa =>
    { s with
      running := true
      halt := none
      host := []
      mem := s.mem.writeSize pa .b4 (w.setWidth 64)
      cache := s.cache.invalidate s.cfg pa .b4 }

end Sys2Proof.Machine
end

