-- ==== Sys2Proof/Machine/Step.lean ====
section
/-! DEFINITION. The step of the machine, and the placing of a table word where the next step fetches it. -/
namespace Sys2Proof.Machine

/-- One step: what the host does before it and one iteration of the loop (40_fetch_execute.md R87). -/
def step (s : State) : Host.Outcome State Fault Refusal := hostThenIterate s

/-- `s` with the word of a table row where `step` fetches its next instruction, and the block started (log entry 9). -/
def State.withFetchWord (s : State) (nbits w : Nat) : State := placeWord s (BitVec.ofNat 32 (w % 2 ^ nbits))

end Sys2Proof.Machine
end

