-- ==== Sys2Proof/Safety.lean ====
section
/-! DEFINITION. The terms claims are stated in: how a run ends, the well-formed states, the coherence of the decode
cache with memory, how much the environment does, what a word decodes to, and what an instruction leaves as it was. -/
namespace Sys2Proof.Machine

/-! ## How a run ends (40_fetch_execute.md R107) -/

/-- Stopped: "The only successful end". -/
def State.stoppedEnd (s : State) : Prop := s.halt = none ∧ s.running = false

/-- A fatal end: never a successful one. -/
def State.fatalEnd (s : State) : Prop := ∃ reason pc w, s.halt = some (.fatal reason pc w)

/-- A refused end: the spec gives the behaviour no meaning. -/
def State.refusedEnd (s : State) : Prop := ∃ reason, s.halt = some (.refused reason)

/-- The block may run an iteration and the host does nothing first. -/
def State.ready (s : State) : Prop := s.host = [] ∧ s.halt = none ∧ s.running = true

/-! ## Well-formed states -/

/-- An entry of the decode cache stands at the index of a covered, 4-byte-aligned word, and its handler is what its
word resolves to (10_state.md R36, R37; 40_fetch_execute.md R89). -/
def entryWf (cfg : Params) (i : Nat) (e : CacheEntry) : Bool :=
  decide (cacheIndex cfg e.tag = some i) && decide (e.tag.extractLsb' 0 2 = 0#2) && decide (e.handler = resolve e.raw)

/-- The decode cache lists each index once, in rising order, and every entry is well-formed. -/
def Cache.wf (cfg : Params) (c : Cache) : Bool := c.rising 0 && c.all fun p => entryWf cfg p.1 p.2

/-- Memory has its canonical form and the decode cache is well-formed: what every step keeps. -/
def State.wf (s : State) : Bool := s.mem.wf && s.cache.wf s.cfg

/-- Every valid entry of the decode cache for an ordinary word holds the word that is in memory (40_fetch_execute.md
R93). -/
def State.coherent (s : State) : Prop :=
  ∀ i e, s.cache.find i = some e → isDevice s.cfg e.tag = false → e.raw = s.mem.readWord e.tag

/-! ## The environment -/

/-- An answer during which nothing is done; what it returns is not constrained. -/
def Answer.silent (a : Answer) : Prop := a.actions = [] ∧ a.cop1Ops = [] ∧ a.cop1Branch = none

/-- From the next call on, no collaborator or other agent does anything during a call (60_exceptions.md R269); what
the calls return is not constrained. -/
def State.silent (s : State) : Prop :=
  ∀ n a, s.calls.length ≤ n → findAnswer s.script n = some a → a.silent

/-- What the entry of the executor's list is, where it is another agent's. -/
def Cop1Op.action (o : Cop1Op) : Option Action :=
  match o with
  | .act a => some a
  | .writeGpr _ _ => none
  | .memRead _ _ => none
  | .memWrite _ _ _ => none
  | .regRead _ => none
  | .regWrite _ _ => none

/-- What the executor does, before and after its `BranchOp`. -/
def Answer.executorOps (a : Answer) : List Cop1Op :=
  a.cop1Ops ++ match a.cop1Branch with
    | none => []
    | some b => b.after

/-- Every action the answer holds: those of the call, and those among what the executor does. -/
def Answer.allActions (a : Answer) : List Action := a.actions ++ a.executorOps.filterMap Cop1Op.action

/-- The action is a write of memory by another agent (20_memory.md R69). -/
def Action.foreignWrite (a : Action) : Bool :=
  match a with
  | .memWrite _ _ => true
  | .ctlRead _ _ => false
  | .ctlWrite _ _ _ => false
  | .remap _ => false

/-- The host's action is a write of memory. -/
def HostAction.foreignWrite (a : HostAction) : Bool :=
  match a with
  | .act b => b.foreignWrite
  | .setRunning _ => false
  | .machineReset _ => false

/-- No agent but the block writes memory, during any call or in any turn of the host (40_fetch_execute.md R93). -/
def State.noForeignWrites (s : State) : Prop :=
  (∀ n a, findAnswer s.script n = some a → ∀ act ∈ a.allActions, act.foreignWrite = false) ∧
  (∀ batch ∈ s.host, ∀ act ∈ batch, act.foreignWrite = false)

/-- The action is a control-surface write of register 0, the one way it can change (10_state.md R22). -/
def Action.writesZero (a : Action) : Bool :=
  match a with
  | .memWrite _ _ => false
  | .ctlRead _ _ => false
  | .ctlWrite index _ _ => decide (index = 0)
  | .remap _ => false

/-- The host's action is a control-surface write of register 0. -/
def HostAction.writesZero (a : HostAction) : Bool :=
  match a with
  | .act b => b.writesZero
  | .setRunning _ => false
  | .machineReset _ => false

/-- Nobody writes register 0 through the control surface. -/
def State.noZeroWrites (s : State) : Prop :=
  (∀ n a, findAnswer s.script n = some a → ∀ act ∈ a.allActions, act.writesZero = false) ∧
  (∀ batch ∈ s.host, ∀ act ∈ batch, act.writesZero = false)

/-! ## Which words an instruction has: only its selecting fields are fixed (30_encoding.md R77 to R82) -/

/-- Every word with `op = 0` and this `funct` is the instruction, its operands in the fields of R15. -/
def specialWords (funct : BitVec 6) (i : Word → Instr) : Prop :=
  ∀ w, opField w = 0#6 → functField w = funct → decode w = some (i w)

/-- Every word with this `op` is the instruction. -/
def primaryWords (op : BitVec 6) (i : Word → Instr) : Prop := ∀ w, opField w = op → decode w = some (i w)

/-- Every word with `op = 1` and these bits 20-16 is the instruction. -/
def regimmWords (sub : BitVec 5) (i : Word → Instr) : Prop :=
  ∀ w, opField w = 1#6 → rtField w = sub → decode w = some (i w)

/-- Every word with `op = 0x10` and these bits 25-21 is the instruction. -/
def cop0MoveWords (sub : BitVec 5) (i : Word → Instr) : Prop :=
  ∀ w, opField w = 0x10#6 → rsField w = sub → decode w = some (i w)

/-- Every word with `op = 0x10`, bit 25 set and this `funct` is the instruction. -/
def cop0CoWords (funct : BitVec 6) (i : Instr) : Prop :=
  ∀ w, opField w = 0x10#6 → w.getLsbD 25 = true → functField w = funct → decode w = some i

/-- The words of the slots marked `*` in 30_encoding.md R78 to R80 and of the COP0 sub-opcodes that R81 does not list
(R83). -/
def unassigned (w : Word) : Prop :=
  opField w ∈ [0x12#6, 0x13#6, 0x1C#6, 0x1D#6, 0x1E#6, 0x1F#6, 0x32#6, 0x33#6, 0x36#6, 0x3A#6, 0x3B#6, 0x3E#6] ∨
  (opField w = 0x00#6 ∧ functField w ∈
    [0x01#6, 0x05#6, 0x0A#6, 0x0B#6, 0x0E#6, 0x15#6, 0x28#6, 0x29#6, 0x35#6, 0x37#6, 0x39#6, 0x3D#6]) ∨
  (opField w = 0x01#6 ∧ rtField w ∈
    [0x04#5, 0x05#5, 0x06#5, 0x07#5, 0x0D#5, 0x0F#5, 0x14#5, 0x15#5, 0x16#5, 0x17#5, 0x18#5, 0x19#5, 0x1A#5, 0x1B#5,
      0x1C#5, 0x1D#5, 0x1E#5, 0x1F#5]) ∨
  (opField w = 0x10#6 ∧ w.getLsbD 25 = false ∧ rsField w ∉ [0x00#5, 0x01#5, 0x04#5, 0x05#5]) ∨
  (opField w = 0x10#6 ∧ w.getLsbD 25 = true ∧ functField w ∉ [0x01#6, 0x02#6, 0x06#6, 0x08#6, 0x18#6])

/-! ## Operand values as integers (00_scope.md R12) -/

/-- `s(x[r][31:0])` -/
def State.s32 (s : State) (r : Reg) : Int := (low32 (s.gpr r)).toInt
/-- `u(x[r][31:0])` -/
def State.u32 (s : State) (r : Reg) : Nat := (low32 (s.gpr r)).toNat
/-- `s(x[r])` -/
def State.s64 (s : State) (r : Reg) : Int := (s.gpr r).toInt
/-- `u(x[r])` -/
def State.u64 (s : State) (r : Reg) : Nat := (s.gpr r).toNat
/-- Byte `k` of the memory at a physical address. -/
def State.byteAt (s : State) (pa : Word) (k : Nat) : Byte := s.mem.read (pa.toNat + k)
/-- The big-endian word at a physical address (20_memory.md R56). -/
def State.wordAt (s : State) (pa : Word) : Word := s.byteAt pa 0 ++ s.byteAt pa 1 ++ s.byteAt pa 2 ++ s.byteAt pa 3
/-- The big-endian doubleword at a physical address. -/
def State.dwordAt (s : State) (pa : Word) : Dword :=
  s.byteAt pa 0 ++ s.byteAt pa 1 ++ s.byteAt pa 2 ++ s.byteAt pa 3 ++
    s.byteAt pa 4 ++ s.byteAt pa 5 ++ s.byteAt pa 6 ++ s.byteAt pa 7

/-! ## The instructions by what they write -/

/-- What an instruction is, for the rules that name whole groups. -/
inductive InstrGroup where
  /-- writes one general-purpose register from registers and immediates -/
  | register
  /-- writes `hi` or `lo` -/
  | hiLo
  /-- an ordinary branch or a jump -/
  | branch
  /-- a likely branch -/
  | likely
  /-- reads memory into a general-purpose register -/
  | load
  /-- LL and LLD -/
  | linkedLoad
  /-- writes memory -/
  | store
  /-- SC and SCD -/
  | conditionalStore
  /-- the intentional no-ops -/
  | noOp
  /-- SYSCALL and BREAK -/
  | call
  /-- coprocessor-0 moves and operations -/
  | cop0
  /-- the coprocessor-1 class -/
  | cop1
  deriving DecidableEq, Repr

/-- The group of an instruction. -/
def instrGroup (i : Instr) : InstrGroup :=
  match i with
  | .add .. | .addu .. | .sub .. | .subu .. | .dadd .. | .daddu .. | .dsub .. | .dsubu .. | .and .. | .or ..
  | .xor .. | .nor .. | .slt .. | .sltu .. | .addi .. | .addiu .. | .daddi .. | .daddiu .. | .slti ..
  | .sltiu .. | .andi .. | .ori .. | .xori .. | .lui .. | .sll .. | .srl .. | .sra .. | .sllv .. | .srlv ..
  | .srav .. | .dsll .. | .dsrl .. | .dsra .. | .dsll32 .. | .dsrl32 .. | .dsra32 .. | .dsllv .. | .dsrlv ..
  | .dsrav .. | .mfhi .. | .mflo .. => .register
  | .mult .. | .multu .. | .div .. | .divu .. | .dmult .. | .dmultu .. | .ddiv .. | .ddivu .. | .mthi ..
  | .mtlo .. => .hiLo
  | .j .. | .jal .. | .jr .. | .jalr .. | .beq .. | .bne .. | .blez .. | .bgtz .. | .bltz .. | .bgez ..
  | .bltzal .. | .bgezal .. => .branch
  | .beql .. | .bnel .. | .blezl .. | .bgtzl .. | .bltzl .. | .bgezl .. | .bltzall .. | .bgezall .. => .likely
  | .lb .. | .lbu .. | .lh .. | .lhu .. | .lw .. | .lwu .. | .ld .. | .lwl .. | .lwr .. | .ldl .. | .ldr .. => .load
  | .ll .. | .lld .. => .linkedLoad
  | .sb .. | .sh .. | .sw .. | .sd .. | .swl .. | .swr .. | .sdl .. | .sdr .. => .store
  | .sc .. | .scd .. => .conditionalStore
  | .sync .. | .cache .. | .tge .. | .tgeu .. | .tlt .. | .tltu .. | .teq .. | .tne .. | .tgei .. | .tgeiu ..
  | .tlti .. | .tltiu .. | .teqi .. | .tnei .. => .noOp
  | .syscall .. | .brk .. => .call
  | .mfc0 .. | .dmfc0 .. | .mtc0 .. | .dmtc0 .. | .tlbr .. | .tlbwi .. | .tlbwr .. | .tlbp .. | .eret .. => .cop0
  | .cop1 .. | .lwc1 .. | .ldc1 .. | .swc1 .. | .sdc1 .. => .cop1

/-- The one general-purpose register an instruction may write: its destination, or the link register of a branch that
has one. What a coprocessor-1 executor writes is not the instruction's own. -/
def destination (i : Instr) : Option Reg :=
  match i with
  | .add r _ _ | .addu r _ _ | .sub r _ _ | .subu r _ _ | .dadd r _ _ | .daddu r _ _ | .dsub r _ _ | .dsubu r _ _
  | .and r _ _ | .or r _ _ | .xor r _ _ | .nor r _ _ | .slt r _ _ | .sltu r _ _ | .addi r _ _ | .addiu r _ _
  | .daddi r _ _ | .daddiu r _ _ | .slti r _ _ | .sltiu r _ _ | .andi r _ _ | .ori r _ _ | .xori r _ _ | .lui r _
  | .sll r _ _ | .srl r _ _ | .sra r _ _ | .sllv r _ _ | .srlv r _ _ | .srav r _ _ | .dsll r _ _ | .dsrl r _ _
  | .dsra r _ _ | .dsll32 r _ _ | .dsrl32 r _ _ | .dsra32 r _ _ | .dsllv r _ _ | .dsrlv r _ _ | .dsrav r _ _
  | .mfhi r | .mflo r | .jalr r _ | .lb r _ _ | .lbu r _ _ | .lh r _ _ | .lhu r _ _ | .lw r _ _ | .lwu r _ _
  | .ld r _ _ | .lwl r _ _ | .lwr r _ _ | .ldl r _ _ | .ldr r _ _ | .ll r _ _ | .lld r _ _ | .sc r _ _ | .scd r _ _
  | .mfc0 r _ | .dmfc0 r _ => some r
  | .jal _ | .bltzal _ _ | .bgezal _ _ | .bltzall _ _ | .bgezall _ _ => some 31#5
  | .mult .. | .multu .. | .div .. | .divu .. | .dmult .. | .dmultu .. | .ddiv .. | .ddivu .. | .mthi .. | .mtlo ..
  | .j .. | .jr .. | .beq .. | .bne .. | .blez .. | .bgtz .. | .beql .. | .bnel .. | .blezl .. | .bgtzl ..
  | .bltz .. | .bgez .. | .bltzl .. | .bgezl .. | .sb .. | .sh .. | .sw .. | .sd .. | .swl .. | .swr .. | .sdl ..
  | .sdr .. | .sync .. | .cache .. | .syscall .. | .brk .. | .tge .. | .tgeu .. | .tlt .. | .tltu .. | .teq ..
  | .tne .. | .tgei .. | .tgeiu .. | .tlti .. | .tltiu .. | .teqi .. | .tnei .. | .mtc0 .. | .dmtc0 .. | .tlbr ..
  | .tlbwi .. | .tlbwr .. | .tlbp .. | .eret .. | .cop1 .. | .lwc1 .. | .ldc1 .. | .swc1 .. | .sdc1 .. => none

/-! ## What an instruction leaves as it was -/

/-- `t` is `s` but for `x[r]`, which holds `v`; where `r` is register 0, `t` is `s` (10_state.md R22). -/
def State.onlyGpr (s t : State) (r : Reg) (v : Dword) : Prop :=
  (∀ q, t.gpr q = if q = r ∧ r ≠ 0#5 then v else s.gpr q) ∧ { t with x := s.x } = s

/-- The operands are ones a 32-bit operation is defined on (41_alu.md R109). -/
def State.op32Defined (s : State) (operands : List Reg) : Prop :=
  s.cfg.nonSext32 = .truncate ∨ ∀ r ∈ operands, s.gpr r = sext64 (low32 (s.gpr r))

/-- `t` is `s` after the write of a 32-bit operation with result `f` to `x[rd]` (41_alu.md R109): `sext_64` of `f`, or a
free value where `P_NONSEXT32 = Draw` and an operand is no sign-extended 32-bit value. -/
def State.op32 (s t : State) (rd : Reg) (operands : List Reg) (f : Word) : Prop :=
  (s.op32Defined operands → s.onlyGpr t rd (sext64 f)) ∧
  (¬ s.op32Defined operands → ∃ v, State.onlyGpr { s with draws := s.draws + 1 } t rd v)

/-- The same for the two halves of a 32-bit multiply or divide (43_muldiv.md R155). -/
def State.op32HiLo (s t : State) (operands : List Reg) (h l : Word) : Prop :=
  (s.op32Defined operands → t = { s with hi := sext64 h, lo := sext64 l }) ∧
  (¬ s.op32Defined operands → ∃ u v, t = { s with hi := u, lo := v, draws := s.draws + 2 })

/-- `t` is `s` after a branch: `jumpTarget`, `bstate` and the link register, if there is one (44_branch.md R174). -/
def State.branched (s t : State) (target : Word) (b : BranchState) (link : Option Reg) : Prop :=
  (∀ q, t.gpr q = if link = some q ∧ q ≠ 0#5 then sext64 (s.pc + 8#32) else s.gpr q) ∧
  { t with x := s.x } = { s with jumpTarget := target, bstate := b }

/-- `BranchOp` in `s` (44_branch.md R174), for a branch with word `w`, condition, target, the branch state it leaves when
not taken, and link register: the handler ends there in `t`, or it goes on from a state that `done` says. It is refused
in a delay slot with `P_BRANCH_IN_DS = Refuse`; otherwise it goes where its condition says, and a taken branch to itself,
whose word was fetched, runs the probe on it. Where that look-ahead fetch is refused, the writes of the branch have been
made or not, as the parameter `lookAheadRefusal` says (log entry 13). -/
def State.branchRuns (s t : State) (fetched : Prop) (w : Word) (taken : Prop) (target : Word) (untaken : BranchState)
    (link : Option Reg) (done : State → Prop) : Prop :=
  (s.bstate = .jump → s.cfg.branchInDs = .refuse → t = { s with halt := some (.refused .branchInDelaySlot) }) ∧
  (s.bstate ≠ .jump ∨ s.cfg.branchInDs = .derived →
    (¬ taken → ∃ u, s.branched u (s.pc + 8#32) untaken link ∧ done u) ∧
    (taken → target ≠ s.pc → ∃ u, s.branched u target .delaySlot link ∧ done u) ∧
    (taken → target = s.pc → fetched → s.cfg.lookAheadRefusal = .afterWrites ∨ s.lookAheadRefused = false →
      ∃ u, s.branched u target .delaySlot link ∧
        match probe s.pc w target u with
        | .ok _ v => done v
        | .stop v => t = v) ∧
    (taken → target = s.pc →
      ∃ u, (s.cfg.lookAheadRefusal = .afterWrites → s.branched u target .delaySlot link) ∧
        (s.cfg.lookAheadRefusal = .beforeWrites → u = s) ∧
        ((s.pc + 4#32).toNat % 4 ≠ 0 → t = { u with halt := some (.refused .misalignedFetch) }) ∧
        (s.silent → (s.pc + 4#32).toNat % 4 = 0 → translateAddress s.mmu (s.pc + 4#32) .fetch = none →
          t = { u with
            halt := some (.refused .translationFault), calls := .translate (s.pc + 4#32) .fetch :: s.calls })))

/-- A branch or jump is one `BranchOp`. -/
def State.branches (s : State) (i : Instr) (taken : Prop) (target : Word) (untaken : BranchState) (link : Option Reg) :
    Prop :=
  ∀ w, decode w = some i →
    ∃ t, exec i s = .next t ∧ s.branchRuns t (s.lastInstr = w) w taken target untaken link fun u => t = u

/-- `pc + 4 + boff` (44_branch.md R172). -/
def State.offsetTarget (s : State) (offset : BitVec 16) : Word := BitVec.ofInt 32 (s.pc.toNat + 4 + 4 * offset.toInt)

/-- The bytes at a physical address hold the low `count` bytes of `v`, big-endian, and every other byte is as it was. -/
def Memory.stored (m m' : Memory) (pa : Word) (count : Nat) (v : Dword) : Prop :=
  (∀ k, k < count → m'.read (pa.toNat + k) = (v >>> (8 * (count - 1 - k))).setWidth 8) ∧
  (∀ a, a < pa.toNat ∨ pa.toNat + count ≤ a → m'.read a = m.read a)

/-- A 4-byte-aligned word that shares a byte with the `count` bytes at a physical address (40_fetch_execute.md R91). -/
def overlaps (pa : Word) (count : Nat) (a : Word) : Prop :=
  a.toNat % 4 = 0 ∧ a.toNat ≤ pa.toNat + count - 1 ∧ pa.toNat ≤ a.toNat + 3

/-- The entries of the covered words that overlap the bytes are invalid, and every other entry is as it was. -/
def Cache.invalidated (cfg : Params) (c c' : Cache) (pa : Word) (count : Nat) : Prop :=
  (∀ a i, overlaps pa count a → cacheIndex cfg a = some i → c'.find i = none) ∧
  (∀ i, (∀ a, overlaps pa count a → cacheIndex cfg a ≠ some i) → c'.find i = c.find i)

/-- `t` is `s` after a store of the low bytes of `v` at virtual address `va`, physical address `pa`, of ordinary memory:
the bytes, the entries of the decode cache, the two calls, and nothing else (20_memory.md R58). -/
def State.storedOnly (s t : State) (va pa : Word) (n : Size) (v : Dword) : Prop :=
  s.mem.stored t.mem pa n.bytes v ∧ s.cache.invalidated s.cfg t.cache pa n.bytes ∧
  t.calls = .busWrite pa n (n.clip v) :: .translate va .store :: s.calls ∧
  { t with mem := s.mem, cache := s.cache, calls := s.calls } = s

/-- The store of `n` bytes at virtual address `va` that an instruction makes in a state: its effective address, or the
aligned unit of a partial store (45_loadstore.md R200, R202); a conditional store makes it while `llbit` is 1. -/
def State.storesAt (s : State) (i : Instr) (va : Word) (n : Size) : Prop :=
  match i with
  | .sb _ offset base => va = s.effectiveAddress base offset ∧ n = .b1
  | .sh _ offset base => va = s.effectiveAddress base offset ∧ n = .b2
  | .sw _ offset base => va = s.effectiveAddress base offset ∧ n = .b4
  | .sd _ offset base => va = s.effectiveAddress base offset ∧ n = .b8
  | .sc _ offset base => va = s.effectiveAddress base offset ∧ n = .b4 ∧ s.llbit = true
  | .scd _ offset base => va = s.effectiveAddress base offset ∧ n = .b8 ∧ s.llbit = true
  | .swl _ offset base | .swr _ offset base => va = alignedWord (s.effectiveAddress base offset) ∧ n = .b4
  | .sdl _ offset base | .sdr _ offset base => va = alignedDoubleword (s.effectiveAddress base offset) ∧ n = .b8
  | _ => False

/-- The value an instruction that stores one register whole stores. -/
def State.storesWhole (s : State) (i : Instr) (v : Dword) : Prop :=
  match i with
  | .sb rt _ _ | .sh rt _ _ | .sw rt _ _ | .sd rt _ _ | .sc rt _ _ | .scd rt _ _ => v = s.gpr rt
  | _ => True

/-- `u` is `s` after the call of the coprocessor-1 executor with the word `w`, which is answered by `a`; nothing is done
during that call nor during the calls after it (46_system.md R256). -/
structure State.forwards (s u : State) (w : Word) (a : Answer) : Prop where
  given : s.cfg.cop1Exec = true
  answer : findAnswer s.script s.calls.length = some a
  quiet : a.actions = []
  later : ∀ n b, s.calls.length < n → findAnswer s.script n = some b → b.silent
  called : u = { s with calls := .cop1Exec w s.pc :: s.calls }

/-- A memory access of the coprocessor-1 executor in `s`, which goes on with the physical address or ends the handler in
`t`: refused or reported where it is misaligned, refused where it has no translation (46_system.md R256, 20_memory.md R60,
R54). -/
def State.accessRuns (s t : State) (va : Word) (n : Size) (kind : AccessKind) (done : Word → Prop) : Prop :=
  (va.toNat % n.bytes ≠ 0 → n = .b8 → t = { s with halt := some (.refused .misalignedDoubleword) }) ∧
  (va.toNat % n.bytes ≠ 0 → n ≠ .b8 →
    t = { s with
      calls := .cop0Write s.cfg.cop0Exc (if kind = .store then s.cfg.codeAdes else s.cfg.codeAdel) ::
        .cop0Write s.cfg.cop0BadVAddr va :: s.calls }) ∧
  (va.toNat % n.bytes = 0 → translateAddress s.mmu va kind = none →
    t = { s with halt := some (.refused .translationFault), calls := .translate va kind :: s.calls }) ∧
  (va.toNat % n.bytes = 0 → ∀ pa, translateAddress s.mmu va kind = some pa → done pa)

/-- One operation of the executor in `s`: the handler goes on from a state that `done` says, or ends in `t`. -/
def State.opRuns (s t : State) (o : Cop1Op) (done : State → Prop) : Prop :=
  match o with
  | .writeGpr r v => ∃ u, s.onlyGpr u r v ∧ done u
  | .memRead va n =>
    s.accessRuns t va n .load fun pa => done { s with calls := .busRead pa n :: .translate va .load :: s.calls }
  | .memWrite va n v =>
    s.accessRuns t va n .store fun pa =>
      (isDevice s.cfg pa = false → ∃ u, s.storedOnly u va pa n v ∧ done u) ∧
      (isDevice s.cfg pa = true → ∃ u, s.cache.invalidated s.cfg u.cache pa n.bytes ∧
        { u with cache := s.cache } =
          { s with calls := .busWrite pa n (n.clip v) :: .translate va .store :: s.calls } ∧ done u)
  | .regRead k => done { s with calls := .cop1Read k :: s.calls }
  | .regWrite k v => done { s with calls := .cop1Write k v :: s.calls }
  | .act a =>
    match performVia callCollaborator a s with
    | .ok _ u => done u
    | .stop u => t = u

/-- The operations of the executor, in order (46_system.md R256). -/
def State.opsRun (s t : State) (ops : List Cop1Op) (done : State → Prop) : Prop :=
  match ops with
  | [] => done s
  | o :: rest => s.opRuns t o fun u => u.opsRun t rest done

/-- `t` is `s` but for the calls made, which grow by `l`, newest first. -/
def State.onlyCalls (s t : State) (l : List Call) : Prop := t = { s with calls := l ++ s.calls }

/-- The block is about to fetch, in a silent environment, from ordinary memory at physical address `pa`, the word `w`. -/
structure State.fetching (s : State) (pa w : Word) : Prop where
  ready : s.ready
  noJump : s.extJump = false
  silent : s.silent
  wf : s.wf = true
  coherent : s.coherent
  aligned : s.pc.toNat % 4 = 0
  translated : translateAddress s.mmu s.pc .fetch = some pa
  ordinary : isDevice s.cfg pa = false
  word : s.wordAt pa = w

/-- `t` is `s` after the fetch of `w` at `pa`: `lastInstr`, the calls, and at most the entry of `pa` (40_fetch_execute.md
R89). -/
def State.fetched (s t : State) (pa w : Word) : Prop :=
  t.lastInstr = w ∧ (∃ l, t.calls = l ++ s.calls) ∧
  (t.cache = s.cache ∨ s.cfg.cacheEnable = true ∧ ∃ i, cacheIndex s.cfg pa = some i ∧
    t.cache = s.cache.fill i { tag := pa, raw := w, handler := resolve w }) ∧
  { t with lastInstr := s.lastInstr, calls := s.calls, cache := s.cache } = s

end Sys2Proof.Machine
end

