-- ==== Sys2Proof/Certificates/Slice0/Obligations.lean ====
section
/-! DEFINITION. The statements for the provers, in the order of the spec's files; the words they use are those of
Safety.lean. A docstring names the rules of spec/ a statement rests on, and the log entry where it rests on a choice of
the model. -/
open Sys2Proof Sys2Proof.Machine

/-! ## Reset, the host and the top of the loop -/

/-- 10_state.md R52, 70_reset_and_hazards.md R282: what a machine reset leaves, whatever the launch parameters `l` are
and whatever the state was: the values the spec gives, and what it leaves unspecified taken from `l`. It makes no
collaborator call. That the host applies it in its turn, while `running` is false, is the model's choice (log entry 2),
and so are the values and the parameters that make the model's reset state such a state (log entries 3 and 4). -/
def Obligations.ResetGivesTheStatedValues : Prop :=
  (∀ (s : State) (l : Launch),
    (s.afterReset l).cache = [] ∧ (s.afterReset l).bstate = .normal ∧ (s.afterReset l).extJump = false ∧
    (s.afterReset l).tickCounter = 0#64 ∧ (s.afterReset l).syncCycles = 0#64 ∧
    (s.afterReset l).cpi = s.cfg.cpiReset ∧ (s.afterReset l).running = false ∧ (s.afterReset l).halt = none ∧
    (s.afterReset l).gpr 0#5 = 0#64 ∧ (s.afterReset l).pc = s.cfg.resetPc ∧
    (∀ r, r ≠ 0#5 → (s.afterReset l).gpr r = l.x[r.toNat]'r.isLt) ∧
    (s.afterReset l).hi = l.hi ∧ (s.afterReset l).lo = l.lo ∧ (s.afterReset l).jumpTarget = l.jumpTarget ∧
    (s.afterReset l).llbit = l.llbit ∧ (s.afterReset l).lastInstr = l.lastInstr ∧
    (s.afterReset l).cfg = s.cfg ∧ (s.afterReset l).calls = s.calls ∧
    (s.host = [[.machineReset l]] → s.running = false →
      step s = .next (State.afterReset { s with host := [] } l))) ∧
  ∃ (s : State) (l : Launch), State.reset = s.afterReset l

/-- The model's reset state is one the invariants below hold in: the canonical memory, the coherent cache, register 0,
and an environment that does nothing (log entries 1, 2, 5: the model's choice). -/
def Obligations.ResetStateMeetsTheInvariants : Prop :=
  State.reset.wf = true ∧ State.reset.coherent ∧ State.reset.noForeignWrites ∧ State.reset.noZeroWrites ∧
  State.reset.gpr 0#5 = 0#64 ∧ State.reset.silent

/-- 40_fetch_execute.md R107, 10_state.md R35, 70_reset_and_hazards.md R285: with nothing for the host to do first, the
block has no step exactly where `halt` is set or `running` is false, and the step says which of the three ends it is;
the host stops and resumes the block without changing anything else; nothing but a reset clears `halt`. That the host
acts before a step is the model's (log entry 2). -/
def Obligations.TheEndsOfARun : Prop :=
  (∀ s : State, s.host = [] →
    (s.stoppedEnd → step s = .fault .stopped) ∧
    (∀ reason pc w, s.halt = some (.fatal reason pc w) → step s = .fault (.fatal reason pc w)) ∧
    (∀ reason, s.halt = some (.refused reason) → step s = .refused (.recorded reason)) ∧
    (s.halt = none → s.running = true → ∃ t, step s = .next t)) ∧
  (∀ s : State, s.halt = none →
    (s.host = [[.setRunning false]] → step s = .next { s with running := false, host := [] }) ∧
    (s.host = [[.setRunning true]] → step s = step { s with running := true, host := [] })) ∧
  ∀ s t : State, step s = .next t → s.halt ≠ none →
    (∀ batch ∈ s.host, ∀ l, HostAction.machineReset l ∉ batch) → t.halt ≠ none

/-- 40_fetch_execute.md R88: the top of the loop: no step where `halt` is set or `running` is false; a pending external
jump is consumed, without a timer call. -/
def Obligations.TopOfTheLoop : Prop :=
  ∀ s : State, s.host = [] →
    (s.halt ≠ none → ∀ t, step s ≠ .next t) ∧
    (s.running = false → ∀ t, step s ≠ .next t) ∧
    (s.halt = none → s.running = true → s.extJump = true →
      step s = step { s with pc := s.jumpTarget, bstate := .normal, extJump := false })

/-- A step runs the decoded instruction (40_fetch_execute.md R87, R94): where the word at `pc` decodes, the step is `exec`
of it in the state the fetch leaves, with `pc` still the word's address, and then the count and the advance, unless
the handler ended the run. -/
def Obligations.StepRunsTheDecodedInstruction : Prop :=
  ∀ (s : State) (pa w : Word) (i : Instr), s.fetching pa w → decode w = some i →
    ∃ u v, s.fetched u pa w ∧ exec i u = .next v ∧
      (v.halt = none → step s = .next (advance (countCycles v))) ∧
      (v.halt ≠ none → step s = .next v)

/-- 40_fetch_execute.md R95, R96, R97: the count, the advance by `bstate`, and the sync point of a landing with its three
calls. -/
def Obligations.CountThenAdvance : Prop :=
  ∀ s : State,
    (s.bstate = .normal → advance (countCycles s) =
      { s with
        tickCounter := s.tickCounter + s.cpi.setWidth 64, syncCycles := s.syncCycles + s.cpi.setWidth 64
        pc := s.pc + 4#32 }) ∧
    (s.bstate = .delaySlot → advance (countCycles s) =
      { s with
        tickCounter := s.tickCounter + s.cpi.setWidth 64, syncCycles := s.syncCycles + s.cpi.setWidth 64
        pc := s.pc + 4#32, bstate := .jump }) ∧
    (s.bstate = .jump → advance (countCycles s) = syncPoint
      { s with
        tickCounter := s.tickCounter + s.cpi.setWidth 64, syncCycles := s.syncCycles + s.cpi.setWidth 64
        pc := s.jumpTarget, bstate := .normal }) ∧
    (s.bstate = .jump → s.silent → advance (countCycles s) =
      { s with
        tickCounter := s.tickCounter + s.cpi.setWidth 64, syncCycles := 0#64
        pc := s.jumpTarget, bstate := .normal
        calls := .cop0Read s.cfg.intRegB :: .cop0Read s.cfg.intRegA ::
          .timerClock (s.syncCycles + s.cpi.setWidth 64) :: s.calls })

/-- 40_fetch_execute.md R99, R101: whatever the instruction in a delay slot is, and whether it completes or reports an
address error, control lands on `jumpTarget` after it. A branch there is refused with `P_BRANCH_IN_DS = Refuse`. -/
def Obligations.DelaySlotLandsOnTheTarget : Prop :=
  ∀ (s t : State) (pa w : Word), s.fetching pa w → s.bstate = .jump → s.cfg.branchInDs = .refuse →
    step s = .next t → t.halt = none →
    t.pc = s.jumpTarget ∧ t.bstate = .normal ∧ t.syncCycles = 0#64

/-- 40_fetch_execute.md R96, R98, R99: outside a delay slot, an instruction that is no branch advances by 4; a taken branch
and an ordinary branch make the next step its delay slot; a likely branch that is not taken lands past it. -/
def Obligations.StepOutsideADelaySlot : Prop :=
  ∀ (s t : State) (pa w : Word) (i : Instr), s.fetching pa w → s.bstate = .normal → decode w = some i →
    step s = .next t → t.halt = none →
    (t.bstate = .normal ∧ t.pc = s.pc + 4#32 ∧ instrGroup i ≠ .branch ∧ instrGroup i ≠ .likely) ∨
    (t.bstate = .jump ∧ t.pc = s.pc + 4#32 ∧ (instrGroup i = .branch ∨ instrGroup i = .likely)) ∨
    (t.bstate = .normal ∧ t.pc = s.pc + 8#32 ∧ instrGroup i = .likely)

/-! ## Decoding -/

/-- Decoding an encoded well-formed instruction gives it back, every operand at every value (30_encoding.md R75). -/
def Obligations.DecodeOfEncode : Prop := ∀ i : Instr, i.wellFormed = true → decode (encode i) = some i

/-- 30_encoding.md R78 to R81, R83: the words that decode to no instruction are exactly those of the unassigned slots. -/
def Obligations.UnassignedSlots : Prop := ∀ w : Word, decode w = none ↔ unassigned w

/-- Words of the spec's examples, one or more of each of the six files of instructions, 41_alu.md to 46_system.md. -/
def Obligations.SampleWords : Prop :=
  decode 0x00221820#32 = some (.add 3#5 1#5 2#5) ∧
  decode 0x2023FFFF#32 = some (.addi 3#5 1#5 0xFFFF#16) ∧
  decode 0x00000000#32 = some (.sll 0#5 0#5 0) ∧
  decode 0x0022001D#32 = some (.dmultu 1#5 2#5) ∧
  decode 0x1022FFFF#32 = some (.beq 1#5 2#5 0xFFFF#16) ∧
  decode 0x0100F809#32 = some (.jalr 31#5 8#5) ∧
  decode 0x0C000800#32 = some (.jal 0x800#26) ∧
  decode 0x04330010#32 = some (.bgezall 1#5 0x0010#16) ∧
  decode 0x8D090008#32 = some (.lw 9#5 0x0008#16 8#5) ∧
  decode 0xB1090003#32 = some (.sdl 9#5 0x0003#16 8#5) ∧
  decode 0xBD100000#32 = some (.cache 0x10#5 0x0000#16 8#5) ∧
  decode 0x000001CD#32 = some (.brk 7#20) ∧
  decode 0x00220034#32 = some (.teq 1#5 2#5) ∧
  decode 0x40896000#32 = some (.mtc0 9#5 12#5) ∧
  decode 0x42000018#32 = some .eret ∧
  decode 0xC5020004#32 = some (.lwc1 2#5 0x0004#16 8#5)

/-- 30_encoding.md R83, 60_exceptions.md R265: a word of an unassigned slot ends the run as fatal, with its address and
itself recorded; the fallback handler makes no other change, and nothing is counted. -/
def Obligations.UnassignedWordIsFatal : Prop :=
  ∀ (s : State) (pa w : Word), s.fetching pa w → unassigned w →
    ∃ u, s.fetched u pa w ∧ step s = .next { u with halt := some (.fatal .unknownOpcode s.pc w) } ∧
      step { u with halt := some (.fatal .unknownOpcode s.pc w) } = .fault (.fatal .unknownOpcode s.pc w)

/-! ## Fetch and the decode cache -/

/-- 10_state.md R25, 20_memory.md R54: a fetch from an address that is no multiple of 4, or that has no translation, is
refused, and nothing is counted. -/
def Obligations.RefusedFetch : Prop :=
  ∀ s : State, s.ready → s.extJump = false →
    (s.pc.toNat % 4 ≠ 0 → step s = .next { s with halt := some (.refused .misalignedFetch) }) ∧
    (s.pc.toNat % 4 = 0 → s.silent → translateAddress s.mmu s.pc .fetch = none →
      step s = .next
        { s with halt := some (.refused .translationFault), calls := .translate s.pc .fetch :: s.calls })

/-- 40_fetch_execute.md R93, R89: with a coherent cache a fetch returns the word in memory and its handler, whether the
cache is enabled or disabled, and leaves the cache coherent. -/
def Obligations.FetchReturnsTheWordInMemory : Prop :=
  ∀ (s : State) (va pa : Word) (enabled : Bool),
    s.silent → s.wf = true → s.coherent → va.toNat % 4 = 0 → translateAddress s.mmu va .fetch = some pa →
    isDevice s.cfg pa = false →
    ∃ t, fetch va { s with cfg := { s.cfg with cacheEnable := enabled } } =
        .ok (s.wordAt pa, resolve (s.wordAt pa)) t ∧
      State.fetched { s with cfg := { s.cfg with cacheEnable := enabled } } t pa (s.wordAt pa) ∧
      t.wf = true ∧ t.coherent

/-- 20_memory.md R72: after any store of the block's own to ordinary memory, partial and conditional stores among them, a
fetch of a word that the stored bytes overlap returns the word then in memory, which holds those bytes, with the cache
enabled or disabled, whatever the entry was; after SW and SC it is the stored register. -/
def Obligations.StoreIsSeenByTheNextFetch : Prop :=
  ∀ (s t : State) (i : Instr) (va pa fva wa : Word) (n : Size),
    s.silent → s.wf = true → s.storesAt i va n → va.toNat % n.bytes = 0 →
    translateAddress s.mmu va .store = some pa → isDevice s.cfg pa = false →
    exec i s = .next t → t.halt = none →
    fva.toNat % 4 = 0 → translateAddress t.mmu fva .fetch = some wa → overlaps pa n.bytes wa →
    (∃ u, fetch fva t = .ok (t.wordAt wa, resolve (t.wordAt wa)) u) ∧
    (∃ v, s.mem.stored t.mem pa n.bytes v ∧ s.storesWhole i v) ∧
    (∀ rt offset base, i = .sw rt offset base ∨ i = .sc rt offset base → t.wordAt wa = low32 (s.gpr rt))

/-- 40_fetch_execute.md R92: another agent's write leaves the decode cache as it is; a later hit on an entry whose word it
has overwritten returns the entry's word and handler or those of the word in memory; with the cache disabled a fetch
returns the word in memory. That such a hit is told by comparing the words and leaves the entry as it was is the model's
choice (log entry 7), and so is that another agent's write may reach the memory list at any address (log entry 8). -/
def Obligations.StaleEntryFetchReturnsEither : Prop :=
  (∀ (s : State) (pa : Word) (b : Byte), performVia callCollaborator (.memWrite pa b) s =
    .ok () { s with mem := s.mem.write pa.toNat b }) ∧
  ∀ (s : State) (va pa : Word), s.silent → va.toNat % 4 = 0 → translateAddress s.mmu va .fetch = some pa →
    isDevice s.cfg pa = false →
    (∀ (i : Nat) (e : CacheEntry), s.cfg.cacheEnable = true → cacheIndex s.cfg pa = some i →
      s.cache.find i = some e → e.tag = pa → e.raw ≠ s.wordAt pa →
      ∃ t, (fetch va s = .ok (e.raw, e.handler) t ∨ fetch va s = .ok (s.wordAt pa, resolve (s.wordAt pa)) t) ∧
        t.mem = s.mem ∧ t.cache = s.cache) ∧
    (s.cfg.cacheEnable = false → ∃ t, fetch va s = .ok (s.wordAt pa, resolve (s.wordAt pa)) t ∧ t.cache = s.cache)

/-- 40_fetch_execute.md R91: `Invalidate(pa, n)` makes the entry of every covered word that overlaps the `n` bytes at `pa`
invalid, whether or not the cache is enabled, and leaves the others. -/
def Obligations.InvalidateClearsTheOverlappedEntries : Prop :=
  ∀ (cfg : Params) (c : Cache) (pa : Word) (n : Size), c.wf cfg = true →
    c.invalidated cfg (c.invalidate cfg pa n) pa n.bytes

/-! ## Integer arithmetic, logical and set-on-less-than instructions (41_alu.md) -/

/-- R109, R113 to R116, R127, R128: the 32-bit additions and subtractions, wrapped and sign-extended, with no trap; every
other register and every other piece of state is as it was. -/
def Obligations.WordAddAndSubtract : Prop :=
  specialWords 0x20#6 (fun w => .add (rdField w) (rsField w) (rtField w)) ∧
  specialWords 0x21#6 (fun w => .addu (rdField w) (rsField w) (rtField w)) ∧
  specialWords 0x22#6 (fun w => .sub (rdField w) (rsField w) (rtField w)) ∧
  specialWords 0x23#6 (fun w => .subu (rdField w) (rsField w) (rtField w)) ∧
  primaryWords 0x08#6 (fun w => .addi (rtField w) (rsField w) (immField w)) ∧
  primaryWords 0x09#6 (fun w => .addiu (rtField w) (rsField w) (immField w)) ∧
  ∀ (s : State) (rd rs rt : Reg) (imm : BitVec 16),
    (∃ t, exec (.add rd rs rt) s = .next t ∧ s.op32 t rd [rs, rt] (BitVec.ofInt 32 (s.s32 rs + s.s32 rt))) ∧
    (∃ t, exec (.addu rd rs rt) s = .next t ∧ s.op32 t rd [rs, rt] (BitVec.ofNat 32 (s.u32 rs + s.u32 rt))) ∧
    (∃ t, exec (.sub rd rs rt) s = .next t ∧ s.op32 t rd [rs, rt] (BitVec.ofInt 32 (s.s32 rs - s.s32 rt))) ∧
    (∃ t, exec (.subu rd rs rt) s = .next t ∧ s.op32 t rd [rs, rt] (BitVec.ofInt 32 (s.u32 rs - s.u32 rt))) ∧
    (∃ t, exec (.addi rt rs imm) s = .next t ∧ s.op32 t rt [rs] (BitVec.ofInt 32 (s.s32 rs + imm.toInt))) ∧
    (∃ t, exec (.addiu rt rs imm) s = .next t ∧ s.op32 t rt [rs] (BitVec.ofInt 32 (s.s32 rs + imm.toInt)))

/-- R117 to R120, R129, R130: the 64-bit additions and subtractions, wrapped, with no trap. -/
def Obligations.DoublewordAddAndSubtract : Prop :=
  specialWords 0x2C#6 (fun w => .dadd (rdField w) (rsField w) (rtField w)) ∧
  specialWords 0x2D#6 (fun w => .daddu (rdField w) (rsField w) (rtField w)) ∧
  specialWords 0x2E#6 (fun w => .dsub (rdField w) (rsField w) (rtField w)) ∧
  specialWords 0x2F#6 (fun w => .dsubu (rdField w) (rsField w) (rtField w)) ∧
  primaryWords 0x18#6 (fun w => .daddi (rtField w) (rsField w) (immField w)) ∧
  primaryWords 0x19#6 (fun w => .daddiu (rtField w) (rsField w) (immField w)) ∧
  ∀ (s : State) (rd rs rt : Reg) (imm : BitVec 16),
    (∃ t, exec (.dadd rd rs rt) s = .next t ∧ s.onlyGpr t rd (BitVec.ofInt 64 (s.s64 rs + s.s64 rt))) ∧
    (∃ t, exec (.daddu rd rs rt) s = .next t ∧ s.onlyGpr t rd (BitVec.ofNat 64 (s.u64 rs + s.u64 rt))) ∧
    (∃ t, exec (.dsub rd rs rt) s = .next t ∧ s.onlyGpr t rd (BitVec.ofInt 64 (s.s64 rs - s.s64 rt))) ∧
    (∃ t, exec (.dsubu rd rs rt) s = .next t ∧ s.onlyGpr t rd (BitVec.ofInt 64 (s.u64 rs - s.u64 rt))) ∧
    (∃ t, exec (.daddi rt rs imm) s = .next t ∧ s.onlyGpr t rt (BitVec.ofInt 64 (s.s64 rs + imm.toInt))) ∧
    (∃ t, exec (.daddiu rt rs imm) s = .next t ∧ s.onlyGpr t rt (BitVec.ofInt 64 (s.s64 rs + imm.toInt)))

/-- R121 to R124, R133 to R136: the logical instructions, bit by bit over all 64 bits, immediates zero-extended, and LUI. -/
def Obligations.LogicalAndUpperImmediate : Prop :=
  specialWords 0x24#6 (fun w => .and (rdField w) (rsField w) (rtField w)) ∧
  specialWords 0x25#6 (fun w => .or (rdField w) (rsField w) (rtField w)) ∧
  specialWords 0x26#6 (fun w => .xor (rdField w) (rsField w) (rtField w)) ∧
  specialWords 0x27#6 (fun w => .nor (rdField w) (rsField w) (rtField w)) ∧
  primaryWords 0x0C#6 (fun w => .andi (rtField w) (rsField w) (immField w)) ∧
  primaryWords 0x0D#6 (fun w => .ori (rtField w) (rsField w) (immField w)) ∧
  primaryWords 0x0E#6 (fun w => .xori (rtField w) (rsField w) (immField w)) ∧
  primaryWords 0x0F#6 (fun w => .lui (rtField w) (immField w)) ∧
  ∀ (s : State) (rd rs rt : Reg) (imm : BitVec 16),
    (∃ t v, exec (.and rd rs rt) s = .next t ∧ s.onlyGpr t rd v ∧
      ∀ k, v.getLsbD k = ((s.gpr rs).getLsbD k && (s.gpr rt).getLsbD k)) ∧
    (∃ t v, exec (.or rd rs rt) s = .next t ∧ s.onlyGpr t rd v ∧
      ∀ k, v.getLsbD k = ((s.gpr rs).getLsbD k || (s.gpr rt).getLsbD k)) ∧
    (∃ t v, exec (.xor rd rs rt) s = .next t ∧ s.onlyGpr t rd v ∧
      ∀ k, v.getLsbD k = ((s.gpr rs).getLsbD k ^^ (s.gpr rt).getLsbD k)) ∧
    (∃ t v, exec (.nor rd rs rt) s = .next t ∧ s.onlyGpr t rd v ∧
      ∀ k, k < 64 → v.getLsbD k = !((s.gpr rs).getLsbD k || (s.gpr rt).getLsbD k)) ∧
    (∃ t v, exec (.andi rt rs imm) s = .next t ∧ s.onlyGpr t rt v ∧
      ∀ k, v.getLsbD k = ((s.gpr rs).getLsbD k && imm.getLsbD k)) ∧
    (∃ t v, exec (.ori rt rs imm) s = .next t ∧ s.onlyGpr t rt v ∧
      ∀ k, v.getLsbD k = ((s.gpr rs).getLsbD k || imm.getLsbD k)) ∧
    (∃ t v, exec (.xori rt rs imm) s = .next t ∧ s.onlyGpr t rt v ∧
      ∀ k, v.getLsbD k = ((s.gpr rs).getLsbD k ^^ imm.getLsbD k)) ∧
    (∃ t, exec (.lui rt imm) s = .next t ∧ s.onlyGpr t rt (BitVec.ofInt 64 (imm.toInt * 2 ^ 16)))

/-- R111, R125, R126, R131, R132: the comparisons, over all 64 bits, signed and unsigned. -/
def Obligations.SetOnLessThan : Prop :=
  specialWords 0x2A#6 (fun w => .slt (rdField w) (rsField w) (rtField w)) ∧
  specialWords 0x2B#6 (fun w => .sltu (rdField w) (rsField w) (rtField w)) ∧
  primaryWords 0x0A#6 (fun w => .slti (rtField w) (rsField w) (immField w)) ∧
  primaryWords 0x0B#6 (fun w => .sltiu (rtField w) (rsField w) (immField w)) ∧
  ∀ (s : State) (rd rs rt : Reg) (imm : BitVec 16),
    (∃ t, exec (.slt rd rs rt) s = .next t ∧ s.onlyGpr t rd (if s.s64 rs < s.s64 rt then 1#64 else 0#64)) ∧
    (∃ t, exec (.sltu rd rs rt) s = .next t ∧ s.onlyGpr t rd (if s.u64 rs < s.u64 rt then 1#64 else 0#64)) ∧
    (∃ t, exec (.slti rt rs imm) s = .next t ∧ s.onlyGpr t rt (if s.s64 rs < imm.toInt then 1#64 else 0#64)) ∧
    (∃ t, exec (.sltiu rt rs imm) s = .next t ∧
      s.onlyGpr t rt (if s.u64 rs < (imm.signExtend 64).toNat then 1#64 else 0#64))

/-! ## Shifts (42_shift.md) -/

/-- R138 to R144: the 32-bit shifts; the right shifts are 32-bit operations, the left shifts are defined for every
operand, the variable forms use the low five bits of the amount. -/
def Obligations.WordShifts : Prop :=
  specialWords 0x00#6 (fun w => .sll (rdField w) (rtField w) (saField w).toNat) ∧
  specialWords 0x02#6 (fun w => .srl (rdField w) (rtField w) (saField w).toNat) ∧
  specialWords 0x03#6 (fun w => .sra (rdField w) (rtField w) (saField w).toNat) ∧
  specialWords 0x04#6 (fun w => .sllv (rdField w) (rtField w) (rsField w)) ∧
  specialWords 0x06#6 (fun w => .srlv (rdField w) (rtField w) (rsField w)) ∧
  specialWords 0x07#6 (fun w => .srav (rdField w) (rtField w) (rsField w)) ∧
  ∀ (s : State) (rd rt rs : Reg) (sa : Nat), sa < 32 →
    (∃ t, exec (.sll rd rt sa) s = .next t ∧ s.onlyGpr t rd (sext64 (BitVec.ofNat 32 (s.u32 rt * 2 ^ sa)))) ∧
    (∃ t, exec (.srl rd rt sa) s = .next t ∧ s.op32 t rd [rt] (BitVec.ofNat 32 (s.u32 rt / 2 ^ sa))) ∧
    (∃ t, exec (.sra rd rt sa) s = .next t ∧ s.op32 t rd [rt] (BitVec.ofInt 32 (s.s32 rt / 2 ^ sa))) ∧
    (∃ t, exec (.sllv rd rt rs) s = .next t ∧
      s.onlyGpr t rd (sext64 (BitVec.ofNat 32 (s.u32 rt * 2 ^ (s.u64 rs % 32))))) ∧
    (∃ t, exec (.srlv rd rt rs) s = .next t ∧
      s.op32 t rd [rt] (BitVec.ofNat 32 (s.u32 rt / 2 ^ (s.u64 rs % 32)))) ∧
    (∃ t, exec (.srav rd rt rs) s = .next t ∧
      s.op32 t rd [rt] (BitVec.ofInt 32 (s.s32 rt / 2 ^ (s.u64 rs % 32))))

/-- R145 to R153: the 64-bit shifts by a constant 0 to 31, by a constant 32 to 63, and by a register's low six bits. -/
def Obligations.DoublewordShifts : Prop :=
  specialWords 0x38#6 (fun w => .dsll (rdField w) (rtField w) (saField w).toNat) ∧
  specialWords 0x3A#6 (fun w => .dsrl (rdField w) (rtField w) (saField w).toNat) ∧
  specialWords 0x3B#6 (fun w => .dsra (rdField w) (rtField w) (saField w).toNat) ∧
  specialWords 0x3C#6 (fun w => .dsll32 (rdField w) (rtField w) ((saField w).toNat + 32)) ∧
  specialWords 0x3E#6 (fun w => .dsrl32 (rdField w) (rtField w) ((saField w).toNat + 32)) ∧
  specialWords 0x3F#6 (fun w => .dsra32 (rdField w) (rtField w) ((saField w).toNat + 32)) ∧
  specialWords 0x14#6 (fun w => .dsllv (rdField w) (rtField w) (rsField w)) ∧
  specialWords 0x16#6 (fun w => .dsrlv (rdField w) (rtField w) (rsField w)) ∧
  specialWords 0x17#6 (fun w => .dsrav (rdField w) (rtField w) (rsField w)) ∧
  ∀ (s : State) (rd rt rs : Reg) (sa : Nat), sa < 32 →
    (∃ t, exec (.dsll rd rt sa) s = .next t ∧ s.onlyGpr t rd (BitVec.ofNat 64 (s.u64 rt * 2 ^ sa))) ∧
    (∃ t, exec (.dsrl rd rt sa) s = .next t ∧ s.onlyGpr t rd (BitVec.ofNat 64 (s.u64 rt / 2 ^ sa))) ∧
    (∃ t, exec (.dsra rd rt sa) s = .next t ∧ s.onlyGpr t rd (BitVec.ofInt 64 (s.s64 rt / 2 ^ sa))) ∧
    (∃ t, exec (.dsll32 rd rt (sa + 32)) s = .next t ∧
      s.onlyGpr t rd (BitVec.ofNat 64 (s.u64 rt * 2 ^ (sa + 32)))) ∧
    (∃ t, exec (.dsrl32 rd rt (sa + 32)) s = .next t ∧
      s.onlyGpr t rd (BitVec.ofNat 64 (s.u64 rt / 2 ^ (sa + 32)))) ∧
    (∃ t, exec (.dsra32 rd rt (sa + 32)) s = .next t ∧
      s.onlyGpr t rd (BitVec.ofInt 64 (s.s64 rt / 2 ^ (sa + 32)))) ∧
    (∃ t, exec (.dsllv rd rt rs) s = .next t ∧
      s.onlyGpr t rd (BitVec.ofNat 64 (s.u64 rt * 2 ^ (s.u64 rs % 64)))) ∧
    (∃ t, exec (.dsrlv rd rt rs) s = .next t ∧
      s.onlyGpr t rd (BitVec.ofNat 64 (s.u64 rt / 2 ^ (s.u64 rs % 64)))) ∧
    (∃ t, exec (.dsrav rd rt rs) s = .next t ∧
      s.onlyGpr t rd (BitVec.ofInt 64 (s.s64 rt / 2 ^ (s.u64 rs % 64))))

/-! ## Multiply, divide and HI/LO moves (43_muldiv.md) -/

/-- R155, R158, R160, R161, R164, R165: the products are exact; the 32-bit forms write each half sign-extended. -/
def Obligations.MultiplyWritesTheExactProduct : Prop :=
  specialWords 0x18#6 (fun w => .mult (rsField w) (rtField w)) ∧
  specialWords 0x19#6 (fun w => .multu (rsField w) (rtField w)) ∧
  specialWords 0x1C#6 (fun w => .dmult (rsField w) (rtField w)) ∧
  specialWords 0x1D#6 (fun w => .dmultu (rsField w) (rtField w)) ∧
  ∀ (s : State) (rs rt : Reg),
    (∃ (t : State) (h l : Word), exec (.mult rs rt) s = .next t ∧
      (h ++ l : BitVec 64).toInt = s.s32 rs * s.s32 rt ∧ s.op32HiLo t [rs, rt] h l) ∧
    (∃ (t : State) (h l : Word), exec (.multu rs rt) s = .next t ∧
      (h ++ l : BitVec 64).toNat = s.u32 rs * s.u32 rt ∧ s.op32HiLo t [rs, rt] h l) ∧
    (∃ h l : Dword, exec (.dmult rs rt) s = .next { s with hi := h, lo := l } ∧
      (h ++ l : BitVec 128).toInt = s.s64 rs * s.s64 rt) ∧
    (∃ h l : Dword, exec (.dmultu rs rt) s = .next { s with hi := h, lo := l } ∧
      (h ++ l : BitVec 128).toNat = s.u64 rs * s.u64 rt)

/-- R158: DMULTU writes what the four 32 x 32 partial products with their carries give. -/
def Obligations.UnsignedProductIsTheLimbForm : Prop :=
  ∀ (s : State) (rs rt : Reg) (p0 p1 p2 p3 mid : Dword),
    p0 = ((s.gpr rs).extractLsb' 0 32).setWidth 64 * ((s.gpr rt).extractLsb' 0 32).setWidth 64 →
    p1 = ((s.gpr rs).extractLsb' 0 32).setWidth 64 * ((s.gpr rt).extractLsb' 32 32).setWidth 64 →
    p2 = ((s.gpr rs).extractLsb' 32 32).setWidth 64 * ((s.gpr rt).extractLsb' 0 32).setWidth 64 →
    p3 = ((s.gpr rs).extractLsb' 32 32).setWidth 64 * ((s.gpr rt).extractLsb' 32 32).setWidth 64 →
    mid = (p0.extractLsb' 32 32).setWidth 64 + (p1.extractLsb' 0 32).setWidth 64 +
      (p2.extractLsb' 0 32).setWidth 64 →
    exec (.dmultu rs rt) s = .next
      { s with
        hi := p3 + (p1.extractLsb' 32 32).setWidth 64 + (p2.extractLsb' 32 32).setWidth 64 +
          (mid.extractLsb' 32 32).setWidth 64
        lo := mid.extractLsb' 0 32 ++ p0.extractLsb' 0 32 }

/-- R155 to R157, R162, R163, R166, R167: the quotient rounds toward zero and the remainder has the dividend's sign; the
most negative value by -1 gives itself and 0; a divide by zero raises nothing and writes two free values. -/
def Obligations.DivideWritesQuotientAndRemainder : Prop :=
  specialWords 0x1A#6 (fun w => .div (rsField w) (rtField w)) ∧
  specialWords 0x1B#6 (fun w => .divu (rsField w) (rtField w)) ∧
  specialWords 0x1E#6 (fun w => .ddiv (rsField w) (rtField w)) ∧
  specialWords 0x1F#6 (fun w => .ddivu (rsField w) (rtField w)) ∧
  (∀ (s : State) (rs rt : Reg), s.u32 rt ≠ 0 →
    (∃ (t : State) (q r : Int), exec (.div rs rt) s = .next t ∧ s.s32 rs = q * s.s32 rt + r ∧
      r.natAbs < (s.s32 rt).natAbs ∧ 0 ≤ r * s.s32 rs ∧
      s.op32HiLo t [rs, rt] (BitVec.ofInt 32 r) (BitVec.ofInt 32 q)) ∧
    (∃ (t : State) (q r : Nat), exec (.divu rs rt) s = .next t ∧ s.u32 rs = q * s.u32 rt + r ∧ r < s.u32 rt ∧
      s.op32HiLo t [rs, rt] (BitVec.ofNat 32 r) (BitVec.ofNat 32 q))) ∧
  (∀ (s : State) (rs rt : Reg), s.u64 rt ≠ 0 →
    (∃ q r : Int, s.s64 rs = q * s.s64 rt + r ∧ r.natAbs < (s.s64 rt).natAbs ∧ 0 ≤ r * s.s64 rs ∧
      exec (.ddiv rs rt) s = .next { s with hi := BitVec.ofInt 64 r, lo := BitVec.ofInt 64 q }) ∧
    (∃ q r : Nat, s.u64 rs = q * s.u64 rt + r ∧ r < s.u64 rt ∧
      exec (.ddivu rs rt) s = .next { s with hi := BitVec.ofNat 64 r, lo := BitVec.ofNat 64 q })) ∧
  (∀ (s : State) (rs rt : Reg),
    (s.op32Defined [rs, rt] → low32 (s.gpr rs) = 0x80000000#32 → low32 (s.gpr rt) = 0xFFFFFFFF#32 →
      exec (.div rs rt) s = .next { s with hi := 0#64, lo := 0xFFFFFFFF80000000#64 }) ∧
    (s.gpr rs = 0x8000000000000000#64 → s.gpr rt = 0xFFFFFFFFFFFFFFFF#64 →
      exec (.ddiv rs rt) s = .next { s with hi := 0#64, lo := 0x8000000000000000#64 }) ∧
    (s.u32 rt = 0 →
      (∃ h l, exec (.div rs rt) s = .next { s with hi := h, lo := l, draws := s.draws + 2 }) ∧
      (∃ h l, exec (.divu rs rt) s = .next { s with hi := h, lo := l, draws := s.draws + 2 })) ∧
    (s.u64 rt = 0 →
      (∃ h l, exec (.ddiv rs rt) s = .next { s with hi := h, lo := l, draws := s.draws + 2 }) ∧
      (∃ h l, exec (.ddivu rs rt) s = .next { s with hi := h, lo := l, draws := s.draws + 2 })))

/-- R168 to R171: the moves between HI, LO and the general-purpose registers. -/
def Obligations.HiLoMoves : Prop :=
  specialWords 0x10#6 (fun w => .mfhi (rdField w)) ∧ specialWords 0x12#6 (fun w => .mflo (rdField w)) ∧
  specialWords 0x11#6 (fun w => .mthi (rsField w)) ∧ specialWords 0x13#6 (fun w => .mtlo (rsField w)) ∧
  ∀ (s : State) (r : Reg),
    (∃ t, exec (.mfhi r) s = .next t ∧ s.onlyGpr t r s.hi) ∧
    (∃ t, exec (.mflo r) s = .next t ∧ s.onlyGpr t r s.lo) ∧
    exec (.mthi r) s = .next { s with hi := s.gpr r } ∧
    exec (.mtlo r) s = .next { s with lo := s.gpr r }

/-! ## Branches and jumps (44_branch.md) -/

/-- R172 to R174, R178 to R181: the jumps, their targets and links. What a taken self-branch
has written when its look-ahead fetch is refused is a parameter of the model (DESIGN CHOICE, log entry 13). -/
def Obligations.Jumps : Prop :=
  primaryWords 0x02#6 (fun w => .j (targetField w)) ∧ primaryWords 0x03#6 (fun w => .jal (targetField w)) ∧
  specialWords 0x08#6 (fun w => .jr (rsField w)) ∧ specialWords 0x09#6 (fun w => .jalr (rdField w) (rsField w)) ∧
  ∀ (s : State) (target : BitVec 26) (rd rs : Reg),
    s.branches (.j target) True ((s.pc + 4#32).extractLsb' 28 4 ++ target ++ 0#2) .delaySlot none ∧
    s.branches (.jal target) True ((s.pc + 4#32).extractLsb' 28 4 ++ target ++ 0#2) .delaySlot (some 31#5) ∧
    s.branches (.jr rs) True (low32 (s.gpr rs)) .delaySlot none ∧
    s.branches (.jalr rd rs) True (low32 (s.gpr rs)) .delaySlot (some rd)

/-- R172, R174, R175, R182 to R185, R190, R191: the ordinary conditional branches. What a taken self-branch
has written when its look-ahead fetch is refused is a parameter of the model (DESIGN CHOICE, log entry 13). -/
def Obligations.OrdinaryBranches : Prop :=
  primaryWords 0x04#6 (fun w => .beq (rsField w) (rtField w) (immField w)) ∧
  primaryWords 0x05#6 (fun w => .bne (rsField w) (rtField w) (immField w)) ∧
  primaryWords 0x06#6 (fun w => .blez (rsField w) (immField w)) ∧
  primaryWords 0x07#6 (fun w => .bgtz (rsField w) (immField w)) ∧
  regimmWords 0x00#5 (fun w => .bltz (rsField w) (immField w)) ∧
  regimmWords 0x01#5 (fun w => .bgez (rsField w) (immField w)) ∧
  ∀ (s : State) (rs rt : Reg) (offset : BitVec 16),
    s.branches (.beq rs rt offset) (s.gpr rs = s.gpr rt) (s.offsetTarget offset) .delaySlot none ∧
    s.branches (.bne rs rt offset) (s.gpr rs ≠ s.gpr rt) (s.offsetTarget offset) .delaySlot none ∧
    s.branches (.blez rs offset) (s.s64 rs ≤ 0) (s.offsetTarget offset) .delaySlot none ∧
    s.branches (.bgtz rs offset) (0 < s.s64 rs) (s.offsetTarget offset) .delaySlot none ∧
    s.branches (.bltz rs offset) (s.s64 rs < 0) (s.offsetTarget offset) .delaySlot none ∧
    s.branches (.bgez rs offset) (0 ≤ s.s64 rs) (s.offsetTarget offset) .delaySlot none

/-- R172 to R175, R186 to R189, R192, R193: the likely conditional branches, which annul their delay slot when not
taken. What a taken self-branch
has written when its look-ahead fetch is refused is a parameter of the model (DESIGN CHOICE, log entry 13). -/
def Obligations.LikelyBranches : Prop :=
  primaryWords 0x14#6 (fun w => .beql (rsField w) (rtField w) (immField w)) ∧
  primaryWords 0x15#6 (fun w => .bnel (rsField w) (rtField w) (immField w)) ∧
  primaryWords 0x16#6 (fun w => .blezl (rsField w) (immField w)) ∧
  primaryWords 0x17#6 (fun w => .bgtzl (rsField w) (immField w)) ∧
  regimmWords 0x02#5 (fun w => .bltzl (rsField w) (immField w)) ∧
  regimmWords 0x03#5 (fun w => .bgezl (rsField w) (immField w)) ∧
  ∀ (s : State) (rs rt : Reg) (offset : BitVec 16),
    s.branches (.beql rs rt offset) (s.gpr rs = s.gpr rt) (s.offsetTarget offset) .jump none ∧
    s.branches (.bnel rs rt offset) (s.gpr rs ≠ s.gpr rt) (s.offsetTarget offset) .jump none ∧
    s.branches (.blezl rs offset) (s.s64 rs ≤ 0) (s.offsetTarget offset) .jump none ∧
    s.branches (.bgtzl rs offset) (0 < s.s64 rs) (s.offsetTarget offset) .jump none ∧
    s.branches (.bltzl rs offset) (s.s64 rs < 0) (s.offsetTarget offset) .jump none ∧
    s.branches (.bgezl rs offset) (0 ≤ s.s64 rs) (s.offsetTarget offset) .jump none

/-- R172 to R175, R194 to R197: the REGIMM branches that link, whether or not they are taken. What a taken self-branch
has written when its look-ahead fetch is refused is a parameter of the model (DESIGN CHOICE, log entry 13). -/
def Obligations.LinkBranches : Prop :=
  regimmWords 0x10#5 (fun w => .bltzal (rsField w) (immField w)) ∧
  regimmWords 0x11#5 (fun w => .bgezal (rsField w) (immField w)) ∧
  regimmWords 0x12#5 (fun w => .bltzall (rsField w) (immField w)) ∧
  regimmWords 0x13#5 (fun w => .bgezall (rsField w) (immField w)) ∧
  ∀ (s : State) (rs : Reg) (offset : BitVec 16),
    s.branches (.bltzal rs offset) (s.s64 rs < 0) (s.offsetTarget offset) .delaySlot (some 31#5) ∧
    s.branches (.bgezal rs offset) (0 ≤ s.s64 rs) (s.offsetTarget offset) .delaySlot (some 31#5) ∧
    s.branches (.bltzall rs offset) (s.s64 rs < 0) (s.offsetTarget offset) .jump (some 31#5) ∧
    s.branches (.bgezall rs offset) (0 ≤ s.s64 rs) (s.offsetTarget offset) .jump (some 31#5)

/-! ## The idle-loop probe (40_fetch_execute.md R102 to R106) -/

/-- R102: the steps of the probe. The look-ahead fetch reads the word after the branch and may fill its entry; it does not
change `lastInstr`. -/
def Obligations.ProbeFollowsItsSteps : Prop :=
  (∀ (s : State) (bpc bw target : Word), target ≠ bpc → probe bpc bw target s = .ok false s) ∧
  ∀ (s : State) (bpc bw pa dw : Word),
    s.silent → s.wf = true → s.coherent → (bpc + 4#32).toNat % 4 = 0 →
    translateAddress s.mmu (bpc + 4#32) .fetch = some pa → isDevice s.cfg pa = false → s.wordAt pa = dw →
    ∃ u, State.fetched { s with lastInstr := dw } u pa dw ∧
      (classify dw bw = false → probe bpc bw bpc s = .ok false { u with lastInstr := s.lastInstr }) ∧
      (classify dw bw = true → u.nextAnswer.permanentLoop = true → probe bpc bw bpc s = .stop
        { u with
          lastInstr := s.lastInstr, calls := .cop0IdleSignals :: u.calls
          halt := some (.fatal .permanentLoop bpc bw) }) ∧
      (classify dw bw = true → u.nextAnswer.permanentLoop = false → u.nextAnswer.safeIdle = false →
        probe bpc bw bpc s =
          .ok true { u with lastInstr := s.lastInstr, calls := .cop0IdleSignals :: u.calls }) ∧
      (classify dw bw = true → u.nextAnswer.permanentLoop = false → u.nextAnswer.safeIdle = true →
        ∃ t, idleSkipVia callCollaborator
            { u with lastInstr := s.lastInstr, calls := .cop0IdleSignals :: u.calls } = .ok () t ∧
          probe bpc bw bpc s = .ok true t)

/-- R104: the calls of the time skip, in order, and the reset of `syncCycles`; nothing else changes. -/
def Obligations.IdleSkipMakesItsCalls : Prop :=
  ∀ (s : State) (d : Word), s.silent →
    d = low32 (State.nextAnswer
      { s with calls := .timerClock (s.syncCycles + BitVec.ofNat 64 s.cfg.idleExtra) :: s.calls }).value →
    (0 < d.toInt → idleSkipVia callCollaborator s = .ok ()
      { s with
        syncCycles := 0#64
        calls := .timerWrite 4 s.cfg.timerCancel :: .cop0Advance d :: .timerRead 4 ::
          .timerClock (s.syncCycles + BitVec.ofNat 64 s.cfg.idleExtra) :: s.calls }) ∧
    (d.toInt ≤ 0 → idleSkipVia callCollaborator s = .ok ()
      { s with
        syncCycles := 0#64
        calls := .timerRead 4 :: .timerClock (s.syncCycles + BitVec.ofNat 64 s.cfg.idleExtra) :: s.calls })

/-- R105: the probe and the time skip change none of the registers, the branch state, `llbit` or memory, where no other
agent acts during their calls. -/
def Obligations.ProbeChangesNoArchitecturalState : Prop :=
  ∀ (s : State) (bpc bw target : Word), s.silent →
    let t := (probe bpc bw target s).state
    t.x = s.x ∧ t.hi = s.hi ∧ t.lo = s.lo ∧ t.pc = s.pc ∧ t.bstate = s.bstate ∧ t.jumpTarget = s.jumpTarget ∧
    t.llbit = s.llbit ∧ t.mem = s.mem

/-- R103, R106: the words classified safe are exactly those of the table, by the fields of the word. -/
def Obligations.ClassifyIsTheTable : Prop :=
  ∀ dw bw : Word, classify dw bw = true ↔
    (opField dw = 0x00#6 ∧ functField dw ∈
      [0x00#6, 0x02#6, 0x03#6, 0x04#6, 0x06#6, 0x07#6, 0x38#6, 0x3A#6, 0x3B#6, 0x3C#6, 0x3E#6, 0x3F#6, 0x14#6, 0x16#6,
        0x17#6, 0x20#6, 0x21#6, 0x22#6, 0x23#6, 0x2C#6, 0x2D#6, 0x2E#6, 0x2F#6, 0x24#6, 0x25#6, 0x26#6, 0x27#6, 0x2A#6,
        0x2B#6, 0x10#6, 0x12#6, 0x11#6, 0x13#6] ∧
      (rdField dw = 0#5 ∨ rdField dw ≠ rsField bw ∧ rdField dw ≠ rtField bw)) ∨
    (opField dw = 0x00#6 ∧ functField dw ∈
      [0x18#6, 0x19#6, 0x1A#6, 0x1B#6, 0x1C#6, 0x1D#6, 0x1E#6, 0x1F#6]) ∨
    (opField dw ∈
      [0x08#6, 0x09#6, 0x0A#6, 0x0B#6, 0x0C#6, 0x0D#6, 0x0E#6, 0x0F#6, 0x18#6, 0x19#6, 0x20#6, 0x24#6, 0x21#6, 0x25#6,
        0x23#6, 0x27#6, 0x22#6, 0x26#6, 0x37#6, 0x1A#6, 0x1B#6] ∧
      (rtField dw = 0#5 ∨ rtField dw ≠ rsField bw ∧ rtField dw ≠ rtField bw)) ∨
    (opField dw = 0x10#6 ∧ rsField dw ∈ [0x00#5, 0x01#5] ∧
      (rtField dw = 0#5 ∨ rtField dw ≠ rsField bw ∧ rtField dw ≠ rtField bw))

/-- What the classification is for (R103): a word classified safe, run in a silent environment, leaves both registers
that feed the branch, memory, `llbit` and the branch state as they were. -/
def Obligations.SafeWordLeavesTheBranchOperands : Prop :=
  ∀ (s : State) (dw bw : Word) (i : Instr), s.silent → classify dw bw = true → decode dw = some i →
    ∃ t, exec i s = .next t ∧ t.gpr (rsField bw) = s.gpr (rsField bw) ∧ t.gpr (rtField bw) = s.gpr (rtField bw) ∧
      t.mem = s.mem ∧ t.llbit = s.llbit ∧ t.bstate = s.bstate ∧ t.jumpTarget = s.jumpTarget

/-! ## Loads and stores (45_loadstore.md) -/

/-- R198 to R200, R205 to R211: the aligned loads from ordinary memory, big-endian, and the effective address. -/
def Obligations.AlignedLoads : Prop :=
  primaryWords 0x20#6 (fun w => .lb (rtField w) (immField w) (rsField w)) ∧
  primaryWords 0x24#6 (fun w => .lbu (rtField w) (immField w) (rsField w)) ∧
  primaryWords 0x21#6 (fun w => .lh (rtField w) (immField w) (rsField w)) ∧
  primaryWords 0x25#6 (fun w => .lhu (rtField w) (immField w) (rsField w)) ∧
  primaryWords 0x23#6 (fun w => .lw (rtField w) (immField w) (rsField w)) ∧
  primaryWords 0x27#6 (fun w => .lwu (rtField w) (immField w) (rsField w)) ∧
  primaryWords 0x37#6 (fun w => .ld (rtField w) (immField w) (rsField w)) ∧
  (∀ (s : State) (base : Reg) (offset : BitVec 16),
    s.effectiveAddress base offset = BitVec.ofInt 32 (s.s64 base + offset.toInt)) ∧
  ∀ (s : State) (rt base : Reg) (offset : BitVec 16) (ea pa : Word),
    s.silent → s.effectiveAddress base offset = ea → translateAddress s.mmu ea .load = some pa →
    isDevice s.cfg pa = false →
    (∃ t, exec (.lb rt offset base) s = .next t ∧
      State.onlyGpr { s with calls := .busRead pa .b1 :: .translate ea .load :: s.calls } t rt
        ((s.byteAt pa 0).signExtend 64)) ∧
    (∃ t, exec (.lbu rt offset base) s = .next t ∧
      State.onlyGpr { s with calls := .busRead pa .b1 :: .translate ea .load :: s.calls } t rt
        ((s.byteAt pa 0).setWidth 64)) ∧
    (ea.toNat % 2 = 0 →
      (∃ t, exec (.lh rt offset base) s = .next t ∧
        State.onlyGpr { s with calls := .busRead pa .b2 :: .translate ea .load :: s.calls } t rt
          ((s.byteAt pa 0 ++ s.byteAt pa 1).signExtend 64)) ∧
      (∃ t, exec (.lhu rt offset base) s = .next t ∧
        State.onlyGpr { s with calls := .busRead pa .b2 :: .translate ea .load :: s.calls } t rt
          ((s.byteAt pa 0 ++ s.byteAt pa 1).setWidth 64))) ∧
    (ea.toNat % 4 = 0 →
      (∃ t, exec (.lw rt offset base) s = .next t ∧
        State.onlyGpr { s with calls := .busRead pa .b4 :: .translate ea .load :: s.calls } t rt
          ((s.wordAt pa).signExtend 64)) ∧
      (∃ t, exec (.lwu rt offset base) s = .next t ∧
        State.onlyGpr { s with calls := .busRead pa .b4 :: .translate ea .load :: s.calls } t rt
          ((s.wordAt pa).setWidth 64))) ∧
    (ea.toNat % 8 = 0 →
      ∃ t, exec (.ld rt offset base) s = .next t ∧
        State.onlyGpr { s with calls := .busRead pa .b8 :: .translate ea .load :: s.calls } t rt (s.dwordAt pa))

/-- R202, R203, R212 to R215: the partial loads from ordinary memory, at every offset in the aligned unit. -/
def Obligations.PartialLoads : Prop :=
  primaryWords 0x22#6 (fun w => .lwl (rtField w) (immField w) (rsField w)) ∧
  primaryWords 0x26#6 (fun w => .lwr (rtField w) (immField w) (rsField w)) ∧
  primaryWords 0x1A#6 (fun w => .ldl (rtField w) (immField w) (rsField w)) ∧
  primaryWords 0x1B#6 (fun w => .ldr (rtField w) (immField w) (rsField w)) ∧
  ∀ (s : State) (rt base : Reg) (offset : BitVec 16) (ea pa : Word) (k : Nat),
    s.silent → s.effectiveAddress base offset = ea → isDevice s.cfg pa = false →
    (k = ea.toNat % 4 → translateAddress s.mmu (ea - BitVec.ofNat 32 k) .load = some pa →
      ∃ u, u = { s with calls := .busRead pa .b4 :: .translate (ea - BitVec.ofNat 32 k) .load :: s.calls } ∧
        (∃ t, exec (.lwl rt offset base) s = .next t ∧ u.onlyGpr t rt
          (sext64 ((s.wordAt pa <<< (8 * k)) ||| (low32 (s.gpr rt) &&& ((1#32 <<< (8 * k)) - 1#32))))) ∧
        ∃ t v, exec (.lwr rt offset base) s = .next t ∧
          v = (s.wordAt pa >>> (8 * (3 - k))) ||| (low32 (s.gpr rt) &&& ~~~(0xFFFFFFFF#32 >>> (8 * (3 - k)))) ∧
          (s.cfg.lwrUpper = .signExtend ∨ k = 3 → u.onlyGpr t rt (sext64 v)) ∧
          (s.cfg.lwrUpper = .draw → k ≠ 3 →
            ∃ high : Word, State.onlyGpr { u with draws := s.draws + 1 } t rt (high ++ v))) ∧
    (k = ea.toNat % 8 → translateAddress s.mmu (ea - BitVec.ofNat 32 k) .load = some pa →
      ∃ u, u = { s with calls := .busRead pa .b8 :: .translate (ea - BitVec.ofNat 32 k) .load :: s.calls } ∧
        (∃ t, exec (.ldl rt offset base) s = .next t ∧ u.onlyGpr t rt
          ((s.dwordAt pa <<< (8 * k)) ||| (s.gpr rt &&& ((1#64 <<< (8 * k)) - 1#64)))) ∧
        ∃ t, exec (.ldr rt offset base) s = .next t ∧ u.onlyGpr t rt
          ((s.dwordAt pa >>> (8 * (7 - k))) ||| (s.gpr rt &&& ~~~(0xFFFFFFFFFFFFFFFF#64 >>> (8 * (7 - k))))))

/-- R202: `LWL ea` and `LWR ea+3` move one unaligned word whole, `LDL ea` and `LDR ea+7` one unaligned doubleword, into a
register that is not the base; byte `j` of it is in the unit of `ea` or in the next one. -/
def Obligations.UnalignedLoadPairs : Prop :=
  (∀ (s t u : State) (rt base : Reg) (left right : BitVec 16) (ea pa qa : Word) (b : Nat → Byte),
    s.silent → rt ≠ base → rt ≠ 0#5 →
    s.effectiveAddress base left = ea → s.effectiveAddress base right = ea + 3#32 →
    translateAddress s.mmu (alignedWord ea) .load = some pa → isDevice s.cfg pa = false →
    translateAddress s.mmu (alignedWord (ea + 3#32)) .load = some qa → isDevice s.cfg qa = false →
    (∀ j, j < 4 → b j = if ea.toNat % 4 + j < 4 then s.byteAt pa (ea.toNat % 4 + j)
      else s.byteAt qa (ea.toNat % 4 + j - 4)) →
    exec (.lwl rt left base) s = .next t → exec (.lwr rt right base) t = .next u →
    low32 (u.gpr rt) = b 0 ++ b 1 ++ b 2 ++ b 3 ∧
    (s.cfg.lwrUpper = .signExtend → u.gpr rt = sext64 (b 0 ++ b 1 ++ b 2 ++ b 3))) ∧
  ∀ (s t u : State) (rt base : Reg) (left right : BitVec 16) (ea pa qa : Word) (b : Nat → Byte),
    s.silent → rt ≠ base → rt ≠ 0#5 →
    s.effectiveAddress base left = ea → s.effectiveAddress base right = ea + 7#32 →
    translateAddress s.mmu (alignedDoubleword ea) .load = some pa → isDevice s.cfg pa = false →
    translateAddress s.mmu (alignedDoubleword (ea + 7#32)) .load = some qa → isDevice s.cfg qa = false →
    (∀ j, j < 8 → b j = if ea.toNat % 8 + j < 8 then s.byteAt pa (ea.toNat % 8 + j)
      else s.byteAt qa (ea.toNat % 8 + j - 8)) →
    exec (.ldl rt left base) s = .next t → exec (.ldr rt right base) t = .next u →
    u.gpr rt = b 0 ++ b 1 ++ b 2 ++ b 3 ++ b 4 ++ b 5 ++ b 6 ++ b 7

/-- R216, R217, R71: the linked loads, which set `llbit` when they complete. -/
def Obligations.LinkedLoads : Prop :=
  primaryWords 0x30#6 (fun w => .ll (rtField w) (immField w) (rsField w)) ∧
  primaryWords 0x34#6 (fun w => .lld (rtField w) (immField w) (rsField w)) ∧
  ∀ (s : State) (rt base : Reg) (offset : BitVec 16) (ea pa : Word),
    s.silent → s.effectiveAddress base offset = ea → translateAddress s.mmu ea .load = some pa →
    isDevice s.cfg pa = false →
    (ea.toNat % 4 = 0 → ∃ t, exec (.ll rt offset base) s = .next t ∧
      State.onlyGpr { s with llbit := true, calls := .busRead pa .b4 :: .translate ea .load :: s.calls } t rt
        ((s.wordAt pa).signExtend 64)) ∧
    (ea.toNat % 8 = 0 → ∃ t, exec (.lld rt offset base) s = .next t ∧
      State.onlyGpr { s with llbit := true, calls := .busRead pa .b8 :: .translate ea .load :: s.calls } t rt
        (s.dwordAt pa))

/-- R200, R218 to R221: the aligned stores to ordinary memory: the bytes, the invalidated entries, and every other byte
and entry as it was. -/
def Obligations.AlignedStores : Prop :=
  primaryWords 0x28#6 (fun w => .sb (rtField w) (immField w) (rsField w)) ∧
  primaryWords 0x29#6 (fun w => .sh (rtField w) (immField w) (rsField w)) ∧
  primaryWords 0x2B#6 (fun w => .sw (rtField w) (immField w) (rsField w)) ∧
  primaryWords 0x3F#6 (fun w => .sd (rtField w) (immField w) (rsField w)) ∧
  ∀ (s : State) (rt base : Reg) (offset : BitVec 16) (ea pa : Word),
    s.silent → s.wf = true → s.effectiveAddress base offset = ea →
    translateAddress s.mmu ea .store = some pa → isDevice s.cfg pa = false →
    (∃ t, exec (.sb rt offset base) s = .next t ∧ s.storedOnly t ea pa .b1 (s.gpr rt)) ∧
    (ea.toNat % 2 = 0 → ∃ t, exec (.sh rt offset base) s = .next t ∧ s.storedOnly t ea pa .b2 (s.gpr rt)) ∧
    (ea.toNat % 4 = 0 → ∃ t, exec (.sw rt offset base) s = .next t ∧ s.storedOnly t ea pa .b4 (s.gpr rt)) ∧
    (ea.toNat % 8 = 0 → ∃ t, exec (.sd rt offset base) s = .next t ∧ s.storedOnly t ea pa .b8 (s.gpr rt))

/-- R63, R222 to R225: the partial stores read the aligned unit, merge, and write it back whole. -/
def Obligations.PartialStores : Prop :=
  primaryWords 0x2A#6 (fun w => .swl (rtField w) (immField w) (rsField w)) ∧
  primaryWords 0x2E#6 (fun w => .swr (rtField w) (immField w) (rsField w)) ∧
  primaryWords 0x2C#6 (fun w => .sdl (rtField w) (immField w) (rsField w)) ∧
  primaryWords 0x2D#6 (fun w => .sdr (rtField w) (immField w) (rsField w)) ∧
  ∀ (s : State) (rt base : Reg) (offset : BitVec 16) (ea unit pa qa : Word) (k : Nat),
    s.silent → s.wf = true → s.effectiveAddress base offset = ea → unit = ea - BitVec.ofNat 32 k →
    translateAddress s.mmu unit .load = some pa → isDevice s.cfg pa = false →
    translateAddress s.mmu unit .store = some qa → isDevice s.cfg qa = false →
    (k = ea.toNat % 4 →
      ∃ u, u = { s with calls := .busRead pa .b4 :: .translate unit .load :: s.calls } ∧
        (∃ t, exec (.swl rt offset base) s = .next t ∧ u.storedOnly t unit qa .b4
          (((s.wordAt pa &&& ~~~(0xFFFFFFFF#32 >>> (8 * k))) ||| (low32 (s.gpr rt) >>> (8 * k))).setWidth 64)) ∧
        ∃ t, exec (.swr rt offset base) s = .next t ∧ u.storedOnly t unit qa .b4
          (((low32 (s.gpr rt) <<< (8 * (3 - k))) ||| (s.wordAt pa &&& ((1#32 <<< (8 * (3 - k))) - 1#32))).setWidth
            64)) ∧
    (k = ea.toNat % 8 →
      ∃ u, u = { s with calls := .busRead pa .b8 :: .translate unit .load :: s.calls } ∧
        (∃ t, exec (.sdl rt offset base) s = .next t ∧ u.storedOnly t unit qa .b8
          ((s.dwordAt pa &&& ~~~(0xFFFFFFFFFFFFFFFF#64 >>> (8 * k))) ||| (s.gpr rt >>> (8 * k)))) ∧
        ∃ t, exec (.sdr rt offset base) s = .next t ∧ u.storedOnly t unit qa .b8
          ((s.gpr rt <<< (8 * (7 - k))) ||| (s.dwordAt pa &&& ((1#64 <<< (8 * (7 - k))) - 1#64))))

/-- R202: `SWL ea` and `SWR ea+3` store one unaligned word whole, `SDL ea` and `SDR ea+7` one unaligned doubleword: byte
`j` of the register's low word, or of the register, at the address of byte `j`, and every other byte of memory as it
was. -/
def Obligations.UnalignedStorePairs : Prop :=
  (∀ (s t u : State) (rt base : Reg) (left right : BitVec 16) (ea pa qa : Word) (at_ : Nat → Nat),
    s.silent → s.wf = true →
    s.effectiveAddress base left = ea → s.effectiveAddress base right = ea + 3#32 →
    translateAddress s.mmu (alignedWord ea) .load = some pa →
    translateAddress s.mmu (alignedWord ea) .store = some pa → isDevice s.cfg pa = false →
    translateAddress s.mmu (alignedWord (ea + 3#32)) .load = some qa →
    translateAddress s.mmu (alignedWord (ea + 3#32)) .store = some qa → isDevice s.cfg qa = false →
    (∀ j, at_ j = if ea.toNat % 4 + j < 4 then pa.toNat + (ea.toNat % 4 + j) else qa.toNat + (ea.toNat % 4 + j - 4)) →
    exec (.swl rt left base) s = .next t → exec (.swr rt right base) t = .next u →
    (∀ j, j < 4 → u.mem.read (at_ j) = (low32 (s.gpr rt) >>> (8 * (3 - j))).setWidth 8) ∧
    (∀ a, (∀ j, j < 4 → a ≠ at_ j) → u.mem.read a = s.mem.read a)) ∧
  ∀ (s t u : State) (rt base : Reg) (left right : BitVec 16) (ea pa qa : Word) (at_ : Nat → Nat),
    s.silent → s.wf = true →
    s.effectiveAddress base left = ea → s.effectiveAddress base right = ea + 7#32 →
    translateAddress s.mmu (alignedDoubleword ea) .load = some pa →
    translateAddress s.mmu (alignedDoubleword ea) .store = some pa → isDevice s.cfg pa = false →
    translateAddress s.mmu (alignedDoubleword (ea + 7#32)) .load = some qa →
    translateAddress s.mmu (alignedDoubleword (ea + 7#32)) .store = some qa → isDevice s.cfg qa = false →
    (∀ j, at_ j = if ea.toNat % 8 + j < 8 then pa.toNat + (ea.toNat % 8 + j) else qa.toNat + (ea.toNat % 8 + j - 8)) →
    exec (.sdl rt left base) s = .next t → exec (.sdr rt right base) t = .next u →
    (∀ j, j < 8 → u.mem.read (at_ j) = (s.gpr rt >>> (8 * (7 - j))).setWidth 8) ∧
    (∀ a, (∀ j, j < 8 → a ≠ at_ j) → u.mem.read a = s.mem.read a)

/-- R226, R227, R71: a conditional store while `llbit` is 1 stores and writes 1 to `x[rt]`; while it is 0 it writes 0 and
makes no call; `llbit` is not changed. -/
def Obligations.ConditionalStores : Prop :=
  primaryWords 0x38#6 (fun w => .sc (rtField w) (immField w) (rsField w)) ∧
  primaryWords 0x3C#6 (fun w => .scd (rtField w) (immField w) (rsField w)) ∧
  ∀ (s : State) (rt base : Reg) (offset : BitVec 16) (ea : Word), s.effectiveAddress base offset = ea →
    (s.llbit = false →
      (ea.toNat % 4 = 0 → ∃ t, exec (.sc rt offset base) s = .next t ∧ s.onlyGpr t rt 0#64) ∧
      (ea.toNat % 8 = 0 → ∃ t, exec (.scd rt offset base) s = .next t ∧ s.onlyGpr t rt 0#64)) ∧
    (∀ pa, s.llbit = true → s.silent → s.wf = true → translateAddress s.mmu ea .store = some pa →
      isDevice s.cfg pa = false →
      (ea.toNat % 4 = 0 → ∃ u t, exec (.sc rt offset base) s = .next t ∧
        s.storedOnly u ea pa .b4 (s.gpr rt) ∧ u.onlyGpr t rt 1#64) ∧
      (ea.toNat % 8 = 0 → ∃ u t, exec (.scd rt offset base) s = .next t ∧
        s.storedOnly u ea pa .b8 (s.gpr rt) ∧ u.onlyGpr t rt 1#64))

/-- 20_memory.md R60, R61, 60_exceptions.md R263, R264: a misaligned halfword or word access reports the faulting address,
then the fault code, and does nothing else; a misaligned doubleword access is refused and does nothing else (R60). That
the address is written before the code is log entry 14: R263 calls that order open, D30 and R263's pseudocode have the
address first. -/
def Obligations.MisalignedAccesses : Prop :=
  ∀ (s : State) (rt base : Reg) (offset : BitVec 16) (ea : Word), s.effectiveAddress base offset = ea →
    (s.silent → ea.toNat % 2 ≠ 0 →
      (∀ i ∈ [Instr.lh rt offset base, .lhu rt offset base], exec i s = .next
        { s with calls := .cop0Write s.cfg.cop0Exc s.cfg.codeAdel :: .cop0Write s.cfg.cop0BadVAddr ea :: s.calls }) ∧
      exec (.sh rt offset base) s = .next
        { s with calls := .cop0Write s.cfg.cop0Exc s.cfg.codeAdes :: .cop0Write s.cfg.cop0BadVAddr ea :: s.calls }) ∧
    (s.silent → ea.toNat % 4 ≠ 0 →
      (∀ i ∈ [Instr.lw rt offset base, .lwu rt offset base, .ll rt offset base], exec i s = .next
        { s with calls := .cop0Write s.cfg.cop0Exc s.cfg.codeAdel :: .cop0Write s.cfg.cop0BadVAddr ea :: s.calls }) ∧
      (∀ i ∈ [Instr.sw rt offset base, .sc rt offset base], exec i s = .next
        { s with calls := .cop0Write s.cfg.cop0Exc s.cfg.codeAdes :: .cop0Write s.cfg.cop0BadVAddr ea :: s.calls })) ∧
    (ea.toNat % 8 ≠ 0 →
      ∀ i ∈ [Instr.ld rt offset base, .lld rt offset base, .sd rt offset base, .scd rt offset base],
        exec i s = .next { s with halt := some (.refused .misalignedDoubleword) })

/-- 20_memory.md R54: an access whose address, or the address of whose unit, has no translation is refused: no bus access,
no register, no byte of memory and no entry changes. A partial store that can read its unit and not write it is refused
after the read, in the order of R63 and of R222 to R225, which is the model's reading (DEDUCED, log entry 13). -/
def Obligations.UntranslatableAccesses : Prop :=
  ∀ (s : State) (rt base : Reg) (offset : BitVec 16) (ea : Word), s.silent → s.effectiveAddress base offset = ea →
    (translateAddress s.mmu ea .load = none →
      ∀ (i : Instr) (n : Nat),
        (i, n) ∈ [(Instr.lb rt offset base, 1), (.lbu rt offset base, 1), (.lh rt offset base, 2),
          (.lhu rt offset base, 2), (.lw rt offset base, 4), (.lwu rt offset base, 4), (.ll rt offset base, 4),
          (.ld rt offset base, 8), (.lld rt offset base, 8)] → ea.toNat % n = 0 →
        exec i s = .next
          { s with halt := some (.refused .translationFault), calls := .translate ea .load :: s.calls }) ∧
    (translateAddress s.mmu ea .store = none →
      ∀ (i : Instr) (n : Nat),
        (i, n) ∈ [(Instr.sb rt offset base, 1), (.sh rt offset base, 2), (.sw rt offset base, 4),
          (.sd rt offset base, 8)] ∨
          s.llbit = true ∧ (i, n) ∈ [(Instr.sc rt offset base, 4), (.scd rt offset base, 8)] → ea.toNat % n = 0 →
        exec i s = .next
          { s with halt := some (.refused .translationFault), calls := .translate ea .store :: s.calls }) ∧
    (∀ (i : Instr) (unit : Word),
      (i ∈ [Instr.lwl rt offset base, .lwr rt offset base, .swl rt offset base, .swr rt offset base] ∧
          unit = alignedWord ea ∨
        i ∈ [Instr.ldl rt offset base, .ldr rt offset base, .sdl rt offset base, .sdr rt offset base] ∧
          unit = alignedDoubleword ea) →
      translateAddress s.mmu unit .load = none →
      exec i s = .next
        { s with halt := some (.refused .translationFault), calls := .translate unit .load :: s.calls }) ∧
    (∀ (i : Instr) (unit pa : Word) (n : Size),
      (i ∈ [Instr.swl rt offset base, .swr rt offset base] ∧ unit = alignedWord ea ∧ n = .b4 ∨
        i ∈ [Instr.sdl rt offset base, .sdr rt offset base] ∧ unit = alignedDoubleword ea ∧ n = .b8) →
      translateAddress s.mmu unit .load = some pa → translateAddress s.mmu unit .store = none →
      exec i s = .next
        { s with
          halt := some (.refused .translationFault)
          calls := .translate unit .store :: .busRead pa n :: .translate unit .load :: s.calls })

/-! ## System and coprocessor instructions (46_system.md) -/

/-- R228, R229, R232 to R244: the intentional no-ops have no effect, whatever their operands are. -/
def Obligations.IntentionalNoOps : Prop :=
  specialWords 0x0F#6 (fun _ => .sync) ∧
  primaryWords 0x2F#6 (fun w => .cache (rtField w) (immField w) (rsField w)) ∧
  specialWords 0x30#6 (fun w => .tge (rsField w) (rtField w)) ∧
  specialWords 0x31#6 (fun w => .tgeu (rsField w) (rtField w)) ∧
  specialWords 0x32#6 (fun w => .tlt (rsField w) (rtField w)) ∧
  specialWords 0x33#6 (fun w => .tltu (rsField w) (rtField w)) ∧
  specialWords 0x34#6 (fun w => .teq (rsField w) (rtField w)) ∧
  specialWords 0x36#6 (fun w => .tne (rsField w) (rtField w)) ∧
  regimmWords 0x08#5 (fun w => .tgei (rsField w) (immField w)) ∧
  regimmWords 0x09#5 (fun w => .tgeiu (rsField w) (immField w)) ∧
  regimmWords 0x0A#5 (fun w => .tlti (rsField w) (immField w)) ∧
  regimmWords 0x0B#5 (fun w => .tltiu (rsField w) (immField w)) ∧
  regimmWords 0x0C#5 (fun w => .teqi (rsField w) (immField w)) ∧
  regimmWords 0x0E#5 (fun w => .tnei (rsField w) (immField w)) ∧
  ∀ (s : State) (op rs rt : Reg) (imm : BitVec 16),
    exec .sync s = .next s ∧ exec (.cache op imm rs) s = .next s ∧
    exec (.tge rs rt) s = .next s ∧ exec (.tgeu rs rt) s = .next s ∧ exec (.tlt rs rt) s = .next s ∧
    exec (.tltu rs rt) s = .next s ∧ exec (.teq rs rt) s = .next s ∧ exec (.tne rs rt) s = .next s ∧
    exec (.tgei rs imm) s = .next s ∧ exec (.tgeiu rs imm) s = .next s ∧ exec (.tlti rs imm) s = .next s ∧
    exec (.tltiu rs imm) s = .next s ∧ exec (.teqi rs imm) s = .next s ∧ exec (.tnei rs imm) s = .next s

/-- R230, R231, 60_exceptions.md R266: SYSCALL and BREAK end the run with a recorded refusal and change nothing else; the
block then has no step. -/
def Obligations.SyscallAndBreakAreRefused : Prop :=
  specialWords 0x0C#6 (fun w => .syscall (codeField w)) ∧ specialWords 0x0D#6 (fun w => .brk (codeField w)) ∧
  ∀ (s : State) (code : BitVec 20),
    exec (.syscall code) s = .next { s with halt := some (.refused .syscallBreak) } ∧
    exec (.brk code) s = .next { s with halt := some (.refused .syscallBreak) } ∧
    (s.host = [] → step { s with halt := some (.refused .syscallBreak) } = .refused (.recorded .syscallBreak))

/-- R245 to R249: the coprocessor-0 moves, 32 bits wide in both directions, in a silent environment. -/
def Obligations.Coprocessor0Moves : Prop :=
  cop0MoveWords 0x00#5 (fun w => .mfc0 (rtField w) (rdField w)) ∧
  cop0MoveWords 0x01#5 (fun w => .dmfc0 (rtField w) (rdField w)) ∧
  cop0MoveWords 0x04#5 (fun w => .mtc0 (rtField w) (rdField w)) ∧
  cop0MoveWords 0x05#5 (fun w => .dmtc0 (rtField w) (rdField w)) ∧
  ∀ (s : State) (rt rd : Reg), s.silent →
    (∃ t, exec (.mfc0 rt rd) s = .next t ∧
      State.onlyGpr { s with calls := .cop0Read rd :: s.calls } t rt (sext64 (low32 s.nextAnswer.value))) ∧
    (∃ t, exec (.dmfc0 rt rd) s = .next t ∧
      State.onlyGpr { s with calls := .cop0Read rd :: s.calls } t rt (sext64 (low32 s.nextAnswer.value))) ∧
    exec (.mtc0 rt rd) s = .next { s with calls := .cop0Write rd (low32 (s.gpr rt)) :: s.calls } ∧
    exec (.dmtc0 rt rd) s = .next { s with calls := .cop0Write rd (low32 (s.gpr rt)) :: s.calls }

/-- R250 to R255: the CO operations are forwarded whole and change nothing of the block, where the collaborator does
nothing during the call. -/
def Obligations.Coprocessor0Operations : Prop :=
  cop0CoWords 0x01#6 .tlbr ∧ cop0CoWords 0x02#6 .tlbwi ∧ cop0CoWords 0x06#6 .tlbwr ∧ cop0CoWords 0x08#6 .tlbp ∧
  cop0CoWords 0x18#6 .eret ∧
  ∀ s : State, s.silent →
    exec .tlbr s = .next { s with calls := .cop0Op 0x01#6 :: s.calls } ∧
    exec .tlbwi s = .next { s with calls := .cop0Op 0x02#6 :: s.calls } ∧
    exec .tlbwr s = .next { s with calls := .cop0Op 0x06#6 :: s.calls } ∧
    exec .tlbp s = .next { s with calls := .cop0Op 0x08#6 :: s.calls } ∧
    exec .eret s = .next { s with calls := .cop0Op 0x18#6 :: s.calls }

/-- R255, 60_exceptions.md R274, the collaborator's writes being data of the script (log entry 1): it returns from
a trap by writing index 32, and if it wishes index 64 and 0 to index 35, during the call of ERET: the handler completes
with the jump scheduled, and the loop lands on the written address at once, after a sync point. -/
def Obligations.ExceptionReturnLandsOnTheWrittenAddress : Prop :=
  ∀ (s : State) (a : Answer) (v w : Dword), s.running = true → s.halt = none →
    findAnswer s.script s.calls.length = some a →
    (∀ n b, s.calls.length < n → findAnswer s.script n = some b → b.silent) →
    (a.actions = [.ctlWrite 32 .w32 v] →
      ∃ t, exec .eret s = .next t ∧
        t = { s with
          calls := .cop0Op 0x18#6 :: s.calls
          jumpTarget := low32 v, bstate := .jump } ∧
        (finishHandler t).pc = low32 v ∧ (finishHandler t).bstate = .normal ∧
        (finishHandler t).syncCycles = 0#64 ∧ nextFetchAddress (finishHandler t) = low32 v) ∧
    (a.actions = [.ctlWrite 32 .w32 v, .ctlWrite 64 .w32 w, .ctlWrite 35 .w32 0#64] →
      ∃ t, exec .eret s = .next t ∧
        t = { s with
          calls := .cop0Op 0x18#6 :: s.calls
          jumpTarget := low32 v, bstate := .jump, extJump := true, llbit := false } ∧
        nextFetchAddress (finishHandler t) = low32 v)

/-- 60_exceptions.md R273: a trap is entered by the collaborator's control-surface writes, which are data of the script
(log entry 1): index 32 with the vector, then index 64. Made during a fault report, or during a sync point, they make the vector the next address fetched; no
instruction of the block runs in between. -/
def Obligations.TrapEntryReachesTheVector : Prop :=
  (∀ (s t : State) (rt base : Reg) (offset : BitVec 16) (a b : Answer) (vector w : Dword),
    s.running = true → s.halt = none → (s.effectiveAddress base offset).toNat % 4 ≠ 0 →
    findAnswer s.script s.calls.length = some a → a.actions = [] →
    findAnswer s.script (s.calls.length + 1) = some b →
    b.actions = [.ctlWrite 32 .w32 vector, .ctlWrite 64 .w32 w] →
    (∀ n c, s.calls.length + 1 < n → findAnswer s.script n = some c → c.silent) →
    exec (.lw rt offset base) s = .next t →
    t.pc = s.pc ∧ t.x = s.x ∧ t.mem = s.mem ∧ t.bstate = .jump ∧ t.jumpTarget = low32 vector ∧
    nextFetchAddress (finishHandler t) = low32 vector) ∧
  (∀ (s : State) (a b c : Answer) (vector w : Dword),
    s.running = true → s.halt = none → s.bstate = .jump →
    findAnswer s.script s.calls.length = some a → a.actions = [] →
    findAnswer s.script (s.calls.length + 1) = some b → b.actions = [] →
    findAnswer s.script (s.calls.length + 2) = some c →
    c.actions = [.ctlWrite 32 .w32 vector, .ctlWrite 64 .w32 w] →
    (finishHandler s).pc = s.jumpTarget ∧ nextFetchAddress (finishHandler s) = low32 vector)

/-- R256 to R261: without an executor every instruction of the coprocessor-1 class is refused; with one, the whole word and
`pc` are forwarded to it; it may, in order and any number of times, write registers through `WriteGPR`, read and write
memory with the alignment rules and the invalidation of the loads and stores, call the coprocessor-1 registers, while
other agents act among that; and once branch as any branch does, in a delay slot and to its own address too, and go on
after it. That what it does is data of the script, and that what it did before a misaligned access stays done, is the
model's (log entry 11), and so is that it stays done before a refusal, its branch's among them, and what a branch refused
for its look-ahead fetch has written (log entry 13). -/
def Obligations.Coprocessor1Class : Prop :=
  primaryWords 0x11#6 (fun w => .cop1 (targetField w)) ∧
  primaryWords 0x31#6 (fun w => .lwc1 (rtField w) (immField w) (rsField w)) ∧
  primaryWords 0x35#6 (fun w => .ldc1 (rtField w) (immField w) (rsField w)) ∧
  primaryWords 0x39#6 (fun w => .swc1 (rtField w) (immField w) (rsField w)) ∧
  primaryWords 0x3D#6 (fun w => .sdc1 (rtField w) (immField w) (rsField w)) ∧
  ∀ (s : State) (w : Word) (rest : BitVec 26) (ft base : Reg) (offset : BitVec 16) (i : Instr),
    i ∈ [Instr.cop1 rest, .lwc1 ft offset base, .ldc1 ft offset base, .swc1 ft offset base, .sdc1 ft offset base] →
    decode w = some i →
    (s.cfg.cop1Exec = false → exec i s = .next { s with halt := some (.refused .cop1Unmodelled) }) ∧
    (s.cfg.cop1Exec = true → s.silent → exec i s = .next { s with calls := .cop1Exec w s.pc :: s.calls }) ∧
    ∀ (u : State) (a : Answer), s.forwards u w a → s.wf = true →
      ∃ t, exec i s = .next t ∧ u.opsRun t a.cop1Ops fun v =>
        match a.cop1Branch with
        | none => t = v
        | some b =>
          v.branchRuns t (s.lastInstr = w) w (b.taken = true) b.target (if b.likely then .jump else .delaySlot) b.link
            fun v' => v'.opsRun t b.after fun x => t = x

/-! ## The control surface (10_state.md R40 to R51) -/

/-- R41 to R51: what a read of each index returns and does. That the width of the access makes no difference to an index
above 31 is the model's reading (DEDUCED, log entry 16). -/
def Obligations.ControlSurfaceReads : Prop :=
  ∀ (s : State) (n : Width),
    (∀ r : Reg,
      ctlReadVia callCollaborator r.toNat .w8 s = .ok (BitVec.ofNat 64 (s.u64 r % 2 ^ 8)) s ∧
      ctlReadVia callCollaborator r.toNat .w16 s = .ok (BitVec.ofNat 64 (s.u64 r % 2 ^ 16)) s ∧
      ctlReadVia callCollaborator r.toNat .w32 s = .ok (BitVec.ofNat 64 (s.u64 r % 2 ^ 32)) s ∧
      ctlReadVia callCollaborator r.toNat .w64 s = .ok (s.gpr r) s) ∧
    ctlReadVia callCollaborator 32 n s = .ok (BitVec.ofNat 64 s.pc.toNat) s ∧
    ctlReadVia callCollaborator 33 n s = .ok s.tickCounter { s with tickCounter := 0#64 } ∧
    ctlReadVia callCollaborator 35 n s = .ok (if s.llbit then 1#64 else 0#64) s ∧
    ctlReadVia callCollaborator 37 n s =
      .ok (match s.bstate with | .normal => 0#64 | .delaySlot => 1#64 | .jump => 2#64) s ∧
    (s.silent → ctlReadVia callCollaborator 38 n s = .ok
      (BitVec.ofNat 64 (low32 s.nextAnswer.value &&&
        low32 (State.nextAnswer { s with calls := .cop0Read s.cfg.intRegA :: s.calls }).value).toNat)
      { s with calls := .cop0Read s.cfg.intRegB :: .cop0Read s.cfg.intRegA :: s.calls }) ∧
    (∀ verdict t, probe s.pc s.lastInstr s.jumpTarget s = .ok verdict t →
      ctlReadVia callCollaborator 39 n s = .ok (if verdict then 1#64 else 0#64) t) ∧
    (∀ t, probe s.pc s.lastInstr s.jumpTarget s = .stop t → ctlReadVia callCollaborator 39 n s = .stop t) ∧
    ctlReadVia callCollaborator 40 n s = .ok (BitVec.ofNat 64 s.lastInstr.toNat) s ∧
    ctlReadVia callCollaborator 41 n s = .ok (s.hi >>> 32) s ∧
    ctlReadVia callCollaborator 42 n s = .ok (BitVec.ofNat 64 (s.hi.toNat % 2 ^ 32)) s ∧
    ctlReadVia callCollaborator 43 n s = .ok (s.lo >>> 32) s ∧
    ctlReadVia callCollaborator 44 n s = .ok (BitVec.ofNat 64 (s.lo.toNat % 2 ^ 32)) s ∧
    (∀ index, index = 34 ∨ index = 36 ∨ 45 ≤ index →
      ctlReadVia callCollaborator index n s = .stop { s with halt := some (.refused .unmappedControl) })

/-- R41 to R51: what a write of each index does; an index the map does not let be written is refused. That the width of
the access makes no difference to an index above 31 is the model's reading (DEDUCED, log entry 16). -/
def Obligations.ControlSurfaceWrites : Prop :=
  ∀ (s : State) (n : Width) (v : Dword),
    (∀ r : Reg, ∃ t, ctlWriteVia callCollaborator r.toNat n v s = .ok () t ∧ { t with x := s.x } = s ∧
      (∀ q, q ≠ r → t.gpr q = s.gpr q) ∧
      (n = .w8 → (t.gpr r).toInt = (v.setWidth 8).toInt) ∧ (n = .w16 → (t.gpr r).toInt = (v.setWidth 16).toInt) ∧
      (n = .w32 → (t.gpr r).toInt = (v.setWidth 32).toInt) ∧ (n = .w64 → t.gpr r = v)) ∧
    (s.running = false → ctlWriteVia callCollaborator 32 n v s = .ok () { s with pc := low32 v }) ∧
    (s.running = true →
      ctlWriteVia callCollaborator 32 n v s = .ok () { s with jumpTarget := low32 v, bstate := .jump }) ∧
    (s.silent → ctlWriteVia callCollaborator 33 n v s =
      .ok () { s with cpi := low32 v, calls := .cop0SetCpi (low32 v) :: s.calls }) ∧
    ctlWriteVia callCollaborator 35 n v s = .ok () { s with llbit := decide (v ≠ 0#64) } ∧
    (∀ index ∈ [37, 40],
      (v = 0#64 → ctlWriteVia callCollaborator index n v s =
        .ok () { s with jumpTarget := s.pc + 8#32, bstate := .jump }) ∧
      (v ≠ 0#64 → ctlWriteVia callCollaborator index n v s = .ok () { s with bstate := .delaySlot })) ∧
    (∃ h, ctlWriteVia callCollaborator 41 n v s = .ok () { s with hi := h } ∧
      h.toNat = (v.toNat % 2 ^ 32) * 2 ^ 32 + s.hi.toNat % 2 ^ 32) ∧
    (∃ h, ctlWriteVia callCollaborator 42 n v s = .ok () { s with hi := h } ∧
      h.toNat = (s.hi.toNat / 2 ^ 32) * 2 ^ 32 + v.toNat % 2 ^ 32) ∧
    (∃ l, ctlWriteVia callCollaborator 43 n v s = .ok () { s with lo := l } ∧
      l.toNat = (v.toNat % 2 ^ 32) * 2 ^ 32 + s.lo.toNat % 2 ^ 32) ∧
    (∃ l, ctlWriteVia callCollaborator 44 n v s = .ok () { s with lo := l } ∧
      l.toNat = (s.lo.toNat / 2 ^ 32) * 2 ^ 32 + v.toNat % 2 ^ 32) ∧
    ctlWriteVia callCollaborator 64 n v s = .ok () { s with extJump := true } ∧
    (∀ index, index ∈ [34, 36, 38, 39] ∨ 45 ≤ index ∧ index ≠ 64 →
      ctlWriteVia callCollaborator index n v s = .stop { s with halt := some (.refused .unmappedControl) })

/-! ## The whole machine -/

/-- Every handler, in every state and environment, ends in a next state (40_fetch_execute.md R94, 60_exceptions.md R268):
the model never stops on an instruction. While the block runs it does not change `pc` (10_state.md R23); it never
changes the run flag, the parameters of the launch, the script or what the host will do. -/
def Obligations.EveryHandlerEndsAndLeavesPc : Prop :=
  ∀ (i : Instr) (s : State), ∃ t, exec i s = .next t ∧ (s.running = true → t.pc = s.pc) ∧
    t.running = s.running ∧ t.cfg = s.cfg ∧ t.script = s.script ∧ t.host = s.host ∧ ∃ l, t.calls = l ++ s.calls

/-- Who writes what, where no collaborator acts during a call: a general-purpose register only the instruction whose
destination it is, and never register 0 (10_state.md R20, R22); `hi` and `lo` only the multiplies, divides and moves to
them (R26); `llbit` only LL and LLD, which set it (R30); memory only the stores; the branch state and the pending target
only branches and jumps (R28); a decode-cache entry only a store, or a branch whose look-ahead fetch fills it (R36);
`halt` only an access of memory, a branch, SYSCALL, BREAK and the coprocessor-1 class (60_exceptions.md R267); the
counters, the multiplier and the external jump no instruction but a branch, whose idle skip resets `syncCycles`; `pc`,
`lastInstr`, the run flag and the translation none. -/
def Obligations.EachPieceOfStateHasItsWriters : Prop :=
  ∀ (i : Instr) (s t : State), s.silent → exec i s = .next t →
    (t.hi ≠ s.hi ∨ t.lo ≠ s.lo → instrGroup i = .hiLo) ∧
    (t.llbit ≠ s.llbit → instrGroup i = .linkedLoad ∧ t.llbit = true) ∧
    (t.mem ≠ s.mem → instrGroup i = .store ∨ instrGroup i = .conditionalStore) ∧
    (t.bstate ≠ s.bstate ∨ t.jumpTarget ≠ s.jumpTarget → instrGroup i = .branch ∨ instrGroup i = .likely) ∧
    (t.syncCycles ≠ s.syncCycles → instrGroup i = .branch ∨ instrGroup i = .likely) ∧
    (∀ q, t.gpr q ≠ s.gpr q → destination i = some q ∧ q ≠ 0#5) ∧
    (t.cache ≠ s.cache → instrGroup i ∈ [.store, .conditionalStore, .branch, .likely]) ∧
    (t.halt ≠ s.halt →
      instrGroup i ∈ [.load, .linkedLoad, .store, .conditionalStore, .branch, .likely, .call, .cop1]) ∧
    t.tickCounter = s.tickCounter ∧ t.cpi = s.cpi ∧ t.extJump = s.extJump ∧ t.mmu = s.mmu ∧
    t.lastInstr = s.lastInstr ∧ t.pc = s.pc ∧ t.running = s.running

/-- 10_state.md R22: no instruction changes `x[0]`. Every step keeps it 0 where nobody writes index 0 of the control
surface, whatever else the environment does. -/
def Obligations.StepKeepsRegisterZero : Prop :=
  ∀ s t : State, s.gpr 0#5 = 0#64 → s.noZeroWrites → step s = .next t → t.gpr 0#5 = 0#64 ∧ t.noZeroWrites

/-- Every step, in every environment, keeps memory in its canonical form and every entry of the decode cache at the index
of its tag, with the handler its word resolves to (10_state.md R36, R37), and the launch parameters as they were. -/
def Obligations.StepKeepsWellFormedness : Prop :=
  ∀ s t : State, s.wf = true → step s = .next t → t.wf = true ∧ t.cfg = s.cfg

/-- 40_fetch_execute.md R91, R93: where no agent but the block writes memory, every step keeps every valid entry of the
decode cache equal to the word in memory. -/
def Obligations.StepKeepsTheCacheCoherent : Prop :=
  ∀ s t : State, s.wf = true → s.coherent → s.noForeignWrites → step s = .next t →
    t.coherent ∧ t.noForeignWrites
end

