-- ==== Sys2Proof/Laws/Memory.lean ====
section
/-! SUPPORT. Memory: the canonical form is kept, a read after a write gives the byte written, and every other byte
is as it was; the same for accesses of several bytes. -/
namespace Sys2Proof.Machine

theorem Memory.wfFrom_mono {lo lo' : Nat} {m : Memory} (h : lo' ≤ lo) (hm : m.wfFrom lo = true) :
    m.wfFrom lo' = true := by
  cases m with
  | nil => rfl
  | cons p rest =>
    simp only [Memory.wfFrom, Bool.and_eq_true, decide_eq_true_eq] at hm ⊢
    exact ⟨⟨⟨by omega, hm.1.1.2⟩, hm.1.2⟩, hm.2⟩

theorem Memory.wfFrom_write {lo : Nat} {m : Memory} {a : Nat} {b : Byte} (hlo : lo ≤ a) (ha : a < 2 ^ 32)
    (hm : m.wfFrom lo = true) : (m.write a b).wfFrom lo = true := by
  induction m generalizing lo with
  | nil =>
    unfold Memory.write
    split
    · rfl
    · simp_all [Memory.wfFrom]
  | cons p rest ih =>
    simp only [Memory.wfFrom, Bool.and_eq_true, decide_eq_true_eq] at hm
    obtain ⟨⟨⟨h1, h2⟩, h3⟩, h4⟩ := hm
    unfold Memory.write
    split
    · rename_i hk
      simp only [Memory.wfFrom, Bool.and_eq_true, decide_eq_true_eq]
      exact ⟨⟨⟨h1, h2⟩, h3⟩, ih (by omega) h4⟩
    · rename_i hk
      split
      · rename_i hka
        split
        · exact Memory.wfFrom_mono (by omega) h4
        · rename_i hb
          simp only [Memory.wfFrom, Bool.and_eq_true, decide_eq_true_eq]
          exact ⟨⟨⟨hlo, ha⟩, hb⟩, Memory.wfFrom_mono (by omega) h4⟩
      · rename_i hka
        split
        · simp only [Memory.wfFrom, Bool.and_eq_true, decide_eq_true_eq]
          exact ⟨⟨⟨h1, h2⟩, h3⟩, h4⟩
        · rename_i hb
          simp only [Memory.wfFrom, Bool.and_eq_true, decide_eq_true_eq]
          exact ⟨⟨⟨hlo, ha⟩, hb⟩, ⟨⟨by omega, h2⟩, h3⟩, h4⟩

/-- Writing a byte keeps the canonical form. -/
theorem Memory.wf_write {m : Memory} {a : Nat} (b : Byte) (ha : a < 2 ^ 32) (hm : m.wf = true) :
    (m.write a b).wf = true :=
  Memory.wfFrom_write (Nat.zero_le a) ha hm

theorem Memory.read_below {lo : Nat} {m : Memory} {a : Nat} (h : a < lo) (hm : m.wfFrom lo = true) :
    m.read a = Memory.unlisted := by
  induction m generalizing lo with
  | nil => rfl
  | cons p rest ih =>
    simp only [Memory.wfFrom, Bool.and_eq_true, decide_eq_true_eq] at hm
    obtain ⟨⟨⟨h1, h2⟩, h3⟩, h4⟩ := hm
    unfold Memory.read
    rw [if_neg (by omega)]
    exact ih (by omega) h4

theorem Memory.read_writeFrom {lo : Nat} {m : Memory} (a a' : Nat) (b : Byte) (hm : m.wfFrom lo = true) :
    (m.write a b).read a' = if a' = a then b else m.read a' := by
  induction m generalizing lo with
  | nil =>
    unfold Memory.write
    split
    · rename_i hb
      split
      · exact hb.symm
      · rfl
    · simp only [Memory.read, eq_comm]
  | cons p rest ih =>
    simp only [Memory.wfFrom, Bool.and_eq_true, decide_eq_true_eq] at hm
    obtain ⟨⟨⟨h1, h2⟩, h3⟩, h4⟩ := hm
    unfold Memory.write
    split
    · rename_i hk
      simp only [Memory.read, ih h4]
      split_ifs <;> first | rfl | omega
    · rename_i hk
      split
      · rename_i hka
        split
        · rename_i hb
          split
          · rename_i e
            rw [hb]
            exact Memory.read_below (by omega) h4
          · simp only [Memory.read]
            rw [if_neg (by omega)]
        · simp only [Memory.read]
          split_ifs <;> first | rfl | omega
      · rename_i hka
        split
        · rename_i hb
          split
          · rename_i e
            rw [hb]
            simp only [Memory.read]
            rw [if_neg (by omega)]
            exact Memory.read_below (by omega) h4
          · rfl
        · simp only [Memory.read]
          split_ifs <;> first | rfl | omega

/-- A read after a write: the byte written at its address, the old byte at every other. -/
theorem Memory.read_write {m : Memory} (a a' : Nat) (b : Byte) (hm : m.wf = true) :
    (m.write a b).read a' = if a' = a then b else m.read a' :=
  Memory.read_writeFrom a a' b hm

/-- A write of several bytes keeps the canonical form. -/
theorem Memory.wf_writeBytes {m : Memory} (pa : Word) (count : Nat) (v : Dword) (hm : m.wf = true) :
    (m.writeBytes pa count v).wf = true := by
  induction count generalizing v with
  | zero => exact hm
  | succ k ih => exact Memory.wf_write _ (BitVec.isLt _) (ih _)

theorem Memory.wf_writeSize {m : Memory} (pa : Word) (n : Size) (v : Dword) (hm : m.wf = true) :
    (m.writeSize pa n v).wf = true :=
  Memory.wf_writeBytes pa n.bytes v hm

/-- A byte outside the bytes written reads as before. -/
theorem Memory.read_writeBytes_other {m : Memory} (pa : Word) (count : Nat) (v : Dword) (a : Nat) (hm : m.wf = true)
    (ha : ∀ j, j < count → a ≠ (pa + BitVec.ofNat 32 j).toNat) : (m.writeBytes pa count v).read a = m.read a := by
  induction count generalizing v with
  | zero => rfl
  | succ k ih =>
    simp only [Memory.writeBytes]
    rw [Memory.read_write _ _ _ (Memory.wf_writeBytes pa k _ hm), if_neg (ha k (by omega))]
    exact ih _ fun j hj => ha j (by omega)

/-- The bytes at `pa` of an access that does not wrap are at `pa`, `pa + 1`, ... -/
theorem toNat_add_ofNat {pa : Word} {j count : Nat} (hj : j < count) (h : pa.toNat + count ≤ 2 ^ 32) :
    (pa + BitVec.ofNat 32 j).toNat = pa.toNat + j := by
  rw [BitVec.toNat_add, BitVec.toNat_ofNat]
  have := pa.isLt
  rw [Nat.mod_eq_of_lt (by omega : j < 2 ^ 32), Nat.mod_eq_of_lt (by omega)]

/-- Byte `j` of the bytes written is `8 * (count - 1 - j)` bits up in the value: big-endian. -/
theorem Memory.read_writeBytes {m : Memory} (pa : Word) (count : Nat) (v : Dword) (j : Nat) (hm : m.wf = true)
    (hj : j < count) (hw : pa.toNat + count ≤ 2 ^ 32) :
    (m.writeBytes pa count v).read (pa.toNat + j) = (v >>> (8 * (count - 1 - j))).setWidth 8 := by
  induction count generalizing v with
  | zero => omega
  | succ k ih =>
    simp only [Memory.writeBytes]
    rw [Memory.read_write _ _ _ (Memory.wf_writeBytes pa k _ hm), toNat_add_ofNat (Nat.lt_succ_self k) hw]
    by_cases hjk : j = k
    · subst hjk
      simp
    · rw [if_neg (by omega), ih _ (by omega) (by omega), ← BitVec.shiftRight_add]
      congr 2
      omega

/-- Reading depends on the bytes read alone. -/
theorem Memory.readBytes_congr {m m' : Memory} (pa : Word) (count : Nat)
    (h : ∀ j, j < count → m'.read (pa + BitVec.ofNat 32 j).toNat = m.read (pa + BitVec.ofNat 32 j).toNat) :
    m'.readBytes pa count = m.readBytes pa count := by
  induction count with
  | zero => rfl
  | succ k ih =>
    simp only [Memory.readBytes]
    rw [ih fun j hj => h j (by omega), h k (by omega)]

/-- The big-endian word at an address, as its four bytes. -/
theorem Memory.readWord_eq (m : Memory) (pa : Word) :
    m.readWord pa = m.read (pa + 0#32).toNat ++ m.read (pa + 1#32).toNat ++ m.read (pa + 2#32).toNat ++
      m.read (pa + 3#32).toNat := by
  simp only [Memory.readWord, Memory.readSize, Size.bytes, Memory.readBytes, low32]
  generalize m.read (pa + BitVec.ofNat 32 0).toNat = b0
  generalize m.read (pa + BitVec.ofNat 32 1).toNat = b1
  generalize m.read (pa + BitVec.ofNat 32 2).toNat = b2
  generalize m.read (pa + BitVec.ofNat 32 3).toNat = b3
  apply BitVec.eq_of_getLsbD_eq
  intro i hi
  simp only [BitVec.getLsbD_setWidth, BitVec.getLsbD_or, BitVec.getLsbD_shiftLeft, BitVec.getLsbD_append]
  interval_cases i <;> simp

end Sys2Proof.Machine
end

