-- ==== Sys2Proof/Laws/Cache.lean ====
section
/-! SUPPORT. The decode cache: finding an entry after a fill, a drop or an invalidation, and the well-formedness all
three keep. -/
namespace Sys2Proof.Machine

theorem Cache.rising_mono {lo lo' : Nat} {c : Cache} (h : lo' ≤ lo) (hc : c.rising lo = true) :
    c.rising lo' = true := by
  cases c with
  | nil => rfl
  | cons p rest =>
    simp only [Cache.rising, Bool.and_eq_true, decide_eq_true_eq] at hc ⊢
    exact ⟨by omega, hc.2⟩

theorem Cache.find_below {lo i : Nat} {c : Cache} (h : i < lo) (hc : c.rising lo = true) : c.find i = none := by
  induction c generalizing lo with
  | nil => rfl
  | cons p rest ih =>
    simp only [Cache.rising, Bool.and_eq_true, decide_eq_true_eq] at hc
    unfold Cache.find
    rw [if_neg (by omega)]
    exact ih (by omega) hc.2

theorem Cache.find_fillFrom {lo : Nat} {c : Cache} (i j : Nat) (e : CacheEntry) (hc : c.rising lo = true) :
    (c.fill i e).find j = if j = i then some e else c.find j := by
  induction c generalizing lo with
  | nil => simp only [Cache.fill, Cache.find, eq_comm]
  | cons p rest ih =>
    simp only [Cache.rising, Bool.and_eq_true, decide_eq_true_eq] at hc
    unfold Cache.fill
    split
    · simp only [Cache.find, ih hc.2]
      split_ifs <;> first | rfl | omega
    · split
      · simp only [Cache.find]
        split_ifs <;> first | rfl | omega
      · simp only [Cache.find]
        split_ifs <;> first | rfl | omega

/-- A fill makes one entry valid and leaves the others. -/
theorem Cache.find_fill {c : Cache} (i j : Nat) (e : CacheEntry) (hc : c.rising 0 = true) :
    (c.fill i e).find j = if j = i then some e else c.find j :=
  Cache.find_fillFrom i j e hc

theorem Cache.find_dropFrom {lo : Nat} {c : Cache} (i j : Nat) (hc : c.rising lo = true) :
    (c.drop i).find j = if j = i then none else c.find j := by
  induction c generalizing lo with
  | nil => simp [Cache.drop, Cache.find]
  | cons p rest ih =>
    simp only [Cache.rising, Bool.and_eq_true, decide_eq_true_eq] at hc
    unfold Cache.drop
    split
    · rename_i hk
      split
      · rename_i hj
        exact Cache.find_below (by omega) hc.2
      · simp only [Cache.find]
        rw [if_neg (by omega)]
    · simp only [Cache.find, ih hc.2]
      split_ifs <;> first | rfl | omega

/-- A drop makes one entry invalid and leaves the others. -/
theorem Cache.find_drop {c : Cache} (i j : Nat) (hc : c.rising 0 = true) :
    (c.drop i).find j = if j = i then none else c.find j :=
  Cache.find_dropFrom i j hc

theorem Cache.rising_fill {lo i : Nat} {c : Cache} (e : CacheEntry) (hi : lo ≤ i) (hc : c.rising lo = true) :
    (c.fill i e).rising lo = true := by
  induction c generalizing lo with
  | nil => simp [Cache.fill, Cache.rising, hi]
  | cons p rest ih =>
    simp only [Cache.rising, Bool.and_eq_true, decide_eq_true_eq] at hc
    unfold Cache.fill
    split
    · rename_i hk
      simp only [Cache.rising, Bool.and_eq_true, decide_eq_true_eq]
      exact ⟨hc.1, ih (by omega) hc.2⟩
    · split
      · simp only [Cache.rising, Bool.and_eq_true, decide_eq_true_eq]
        exact ⟨hi, Cache.rising_mono (by omega) hc.2⟩
      · simp only [Cache.rising, Bool.and_eq_true, decide_eq_true_eq]
        exact ⟨hi, by omega, hc.2⟩

theorem Cache.rising_drop {lo : Nat} {c : Cache} (i : Nat) (hc : c.rising lo = true) :
    (c.drop i).rising lo = true := by
  induction c generalizing lo with
  | nil => rfl
  | cons p rest ih =>
    simp only [Cache.rising, Bool.and_eq_true, decide_eq_true_eq] at hc
    unfold Cache.drop
    split
    · exact Cache.rising_mono (by omega) hc.2
    · simp only [Cache.rising, Bool.and_eq_true, decide_eq_true_eq]
      exact ⟨hc.1, ih hc.2⟩

theorem Cache.mem_fill {c : Cache} {i : Nat} {e : CacheEntry} {p : Nat × CacheEntry} (h : p ∈ c.fill i e) :
    p = (i, e) ∨ p ∈ c := by
  induction c with
  | nil => simpa [Cache.fill] using h
  | cons q rest ih =>
    unfold Cache.fill at h
    split at h
    · rcases List.mem_cons.1 h with h | h
      · exact .inr (h ▸ List.mem_cons_self)
      · exact (ih h).imp_right (List.mem_cons_of_mem _)
    · split at h
      · exact (List.mem_cons.1 h).imp_right (List.mem_cons_of_mem _)
      · exact List.mem_cons.1 h

theorem Cache.mem_drop {c : Cache} {i : Nat} {p : Nat × CacheEntry} (h : p ∈ c.drop i) : p ∈ c := by
  induction c with
  | nil => exact h
  | cons q rest ih =>
    unfold Cache.drop at h
    split at h
    · exact List.mem_cons_of_mem _ h
    · rcases List.mem_cons.1 h with h | h
      · exact h ▸ List.mem_cons_self
      · exact List.mem_cons_of_mem _ (ih h)

theorem Cache.mem_of_find {c : Cache} {i : Nat} {e : CacheEntry} (h : c.find i = some e) : (i, e) ∈ c := by
  induction c with
  | nil => simp [Cache.find] at h
  | cons q rest ih =>
    unfold Cache.find at h
    split at h
    · rename_i hk
      subst hk
      obtain rfl := Option.some.inj h
      exact List.mem_cons_self
    · exact List.mem_cons_of_mem _ (ih h)

theorem Cache.wf_iff {cfg : Params} {c : Cache} :
    c.wf cfg = true ↔ c.rising 0 = true ∧ ∀ p ∈ c, entryWf cfg p.1 p.2 = true := by
  simp [Cache.wf]

theorem Cache.rising_of_wf {cfg : Params} {c : Cache} (h : c.wf cfg = true) : c.rising 0 = true :=
  (Cache.wf_iff.1 h).1

/-- A valid entry of a well-formed cache is a well-formed entry of its index. -/
theorem Cache.entryWf_of_find {cfg : Params} {c : Cache} {i : Nat} {e : CacheEntry} (hc : c.wf cfg = true)
    (h : c.find i = some e) : entryWf cfg i e = true :=
  (Cache.wf_iff.1 hc).2 _ (Cache.mem_of_find h)

theorem Cache.wf_fill {cfg : Params} {c : Cache} {i : Nat} {e : CacheEntry} (hc : c.wf cfg = true)
    (he : entryWf cfg i e = true) : (c.fill i e).wf cfg = true := by
  obtain ⟨h1, h2⟩ := Cache.wf_iff.1 hc
  refine Cache.wf_iff.2 ⟨Cache.rising_fill e (Nat.zero_le i) h1, fun p hp => ?_⟩
  rcases Cache.mem_fill hp with rfl | hp
  · exact he
  · exact h2 p hp

theorem Cache.wf_drop {cfg : Params} {c : Cache} (i : Nat) (hc : c.wf cfg = true) : (c.drop i).wf cfg = true := by
  obtain ⟨h1, h2⟩ := Cache.wf_iff.1 hc
  exact Cache.wf_iff.2 ⟨Cache.rising_drop i h1, fun p hp => h2 p (Cache.mem_drop hp)⟩

theorem Cache.wf_invalidateWord {cfg : Params} {c : Cache} (a : Word) (hc : c.wf cfg = true) :
    (c.invalidateWord cfg a).wf cfg = true := by
  unfold Cache.invalidateWord
  split
  · exact Cache.wf_drop _ hc
  · exact hc

theorem Cache.wf_invalidateWords {cfg : Params} (words : List Word) {c : Cache} (hc : c.wf cfg = true) :
    (words.foldl (Cache.invalidateWord cfg) c).wf cfg = true := by
  induction words generalizing c with
  | nil => exact hc
  | cons a rest ih => exact ih (Cache.wf_invalidateWord a hc)

/-- `Invalidate` keeps the cache well-formed. -/
theorem Cache.wf_invalidate {cfg : Params} {c : Cache} (pa : Word) (n : Size) (hc : c.wf cfg = true) :
    (c.invalidate cfg pa n).wf cfg = true :=
  Cache.wf_invalidateWords _ hc

theorem Cache.find_invalidateWord {cfg : Params} {c : Cache} (a : Word) (j : Nat) (hc : c.wf cfg = true) :
    (c.invalidateWord cfg a).find j = if cacheIndex cfg a = some j then none else c.find j := by
  unfold Cache.invalidateWord
  split
  · rename_i i hi
    rw [Cache.find_drop i j (Cache.rising_of_wf hc), hi]
    simp only [Option.some.injEq, eq_comm]
  · rename_i hi
    simp [hi]

theorem Cache.find_invalidateWords {cfg : Params} (words : List Word) {c : Cache} (j : Nat) (hc : c.wf cfg = true) :
    (words.foldl (Cache.invalidateWord cfg) c).find j =
      if ∃ a ∈ words, cacheIndex cfg a = some j then none else c.find j := by
  induction words generalizing c with
  | nil => simp
  | cons a rest ih =>
    rw [List.foldl_cons, ih (Cache.wf_invalidateWord a hc), Cache.find_invalidateWord a j hc]
    by_cases h1 : cacheIndex cfg a = some j <;> by_cases h2 : ∃ b ∈ rest, cacheIndex cfg b = some j <;>
      simp_all

/-- `Invalidate(pa, n)` makes the entry of every covered word it overlaps invalid and leaves the others
(40_fetch_execute.md R91). -/
theorem Cache.find_invalidate {cfg : Params} {c : Cache} (pa : Word) (n : Size) (j : Nat) (hc : c.wf cfg = true) :
    (c.invalidate cfg pa n).find j =
      if ∃ a ∈ overlappedWords pa n.bytes, cacheIndex cfg a = some j then none else c.find j :=
  Cache.find_invalidateWords _ j hc

/-- A word-aligned address that shares a byte with the bytes at `pa` is one of the words `Invalidate` goes through. -/
theorem mem_overlappedWords {pa a : Word} {count : Nat} (ha : a.toNat % 4 = 0) (hc : count ≤ 8)
    (h1 : a.toNat ≤ pa.toNat + count - 1) (h2 : pa.toNat ≤ a.toNat + 3) : a ∈ overlappedWords pa count := by
  have hbase : (pa &&& ~~~3#32).toNat = pa.toNat - pa.toNat % 4 := by
    have h : pa &&& ~~~3#32 = (pa >>> 2) <<< 2 := by
      apply BitVec.eq_of_getLsbD_eq
      intro i hi
      simp only [BitVec.getLsbD_and, BitVec.getLsbD_shiftLeft, BitVec.getLsbD_ushiftRight]
      interval_cases i <;> simp
    rw [h, BitVec.toNat_shiftLeft, BitVec.toNat_ushiftRight, Nat.shiftLeft_eq, Nat.shiftRight_eq_div_pow]
    have := pa.isLt
    rw [Nat.mod_eq_of_lt (by omega)]
    omega
  unfold overlappedWords
  rw [List.mem_filter]
  refine ⟨?_, by simp [h1, h2]⟩
  have hlt := a.isLt
  have hp := pa.isLt
  simp only [List.mem_cons, List.not_mem_nil, or_false]
  have h0 : a.toNat = (pa.toNat - pa.toNat % 4) ∨ a.toNat = (pa.toNat - pa.toNat % 4) + 4 ∨
      a.toNat = (pa.toNat - pa.toNat % 4) + 8 := by omega
  rcases h0 with h | h | h
  · exact .inl (BitVec.eq_of_toNat_eq (by rw [hbase, h]))
  · refine .inr (.inl (BitVec.eq_of_toNat_eq ?_))
    rw [BitVec.toNat_add, hbase, h, BitVec.toNat_ofNat]
    omega
  · refine .inr (.inr (BitVec.eq_of_toNat_eq ?_))
    rw [BitVec.toNat_add, hbase, h, BitVec.toNat_ofNat]
    omega

end Sys2Proof.Machine
end

