-- ==== Sys2Proof/Laws/State.lean ====
section
/-! SUPPORT. What each update of the state leaves in each field, true by definition, so that no later proof unfolds a
record update; and reading a register after a write. -/
namespace Sys2Proof.Machine

section
variable (s : State)

/-! ## `setGpr` -/

@[simp] theorem State.setGpr_x (r : Reg) (v : Dword) : (s.setGpr r v).x = s.x.set r.toNat v r.isLt := rfl
@[simp] theorem State.setGpr_pc (r : Reg) (v : Dword) : (s.setGpr r v).pc = s.pc := rfl
@[simp] theorem State.setGpr_hi (r : Reg) (v : Dword) : (s.setGpr r v).hi = s.hi := rfl
@[simp] theorem State.setGpr_lo (r : Reg) (v : Dword) : (s.setGpr r v).lo = s.lo := rfl
@[simp] theorem State.setGpr_bstate (r : Reg) (v : Dword) : (s.setGpr r v).bstate = s.bstate := rfl
@[simp] theorem State.setGpr_jumpTarget (r : Reg) (v : Dword) : (s.setGpr r v).jumpTarget = s.jumpTarget := rfl
@[simp] theorem State.setGpr_llbit (r : Reg) (v : Dword) : (s.setGpr r v).llbit = s.llbit := rfl
@[simp] theorem State.setGpr_cpi (r : Reg) (v : Dword) : (s.setGpr r v).cpi = s.cpi := rfl
@[simp] theorem State.setGpr_tickCounter (r : Reg) (v : Dword) : (s.setGpr r v).tickCounter = s.tickCounter := rfl
@[simp] theorem State.setGpr_syncCycles (r : Reg) (v : Dword) : (s.setGpr r v).syncCycles = s.syncCycles := rfl
@[simp] theorem State.setGpr_lastInstr (r : Reg) (v : Dword) : (s.setGpr r v).lastInstr = s.lastInstr := rfl
@[simp] theorem State.setGpr_extJump (r : Reg) (v : Dword) : (s.setGpr r v).extJump = s.extJump := rfl
@[simp] theorem State.setGpr_running (r : Reg) (v : Dword) : (s.setGpr r v).running = s.running := rfl
@[simp] theorem State.setGpr_halt (r : Reg) (v : Dword) : (s.setGpr r v).halt = s.halt := rfl
@[simp] theorem State.setGpr_cache (r : Reg) (v : Dword) : (s.setGpr r v).cache = s.cache := rfl
@[simp] theorem State.setGpr_mem (r : Reg) (v : Dword) : (s.setGpr r v).mem = s.mem := rfl
@[simp] theorem State.setGpr_mmu (r : Reg) (v : Dword) : (s.setGpr r v).mmu = s.mmu := rfl
@[simp] theorem State.setGpr_cfg (r : Reg) (v : Dword) : (s.setGpr r v).cfg = s.cfg := rfl
@[simp] theorem State.setGpr_calls (r : Reg) (v : Dword) : (s.setGpr r v).calls = s.calls := rfl
@[simp] theorem State.setGpr_script (r : Reg) (v : Dword) : (s.setGpr r v).script = s.script := rfl
@[simp] theorem State.setGpr_host (r : Reg) (v : Dword) : (s.setGpr r v).host = s.host := rfl
@[simp] theorem State.setGpr_draws (r : Reg) (v : Dword) : (s.setGpr r v).draws = s.draws := rfl

/-! ## `setHiLo` -/

@[simp] theorem State.setHiLo_x (h l : Dword) : (s.setHiLo h l).x = s.x := rfl
@[simp] theorem State.setHiLo_pc (h l : Dword) : (s.setHiLo h l).pc = s.pc := rfl
@[simp] theorem State.setHiLo_hi (h l : Dword) : (s.setHiLo h l).hi = h := rfl
@[simp] theorem State.setHiLo_lo (h l : Dword) : (s.setHiLo h l).lo = l := rfl
@[simp] theorem State.setHiLo_bstate (h l : Dword) : (s.setHiLo h l).bstate = s.bstate := rfl
@[simp] theorem State.setHiLo_jumpTarget (h l : Dword) : (s.setHiLo h l).jumpTarget = s.jumpTarget := rfl
@[simp] theorem State.setHiLo_llbit (h l : Dword) : (s.setHiLo h l).llbit = s.llbit := rfl
@[simp] theorem State.setHiLo_cpi (h l : Dword) : (s.setHiLo h l).cpi = s.cpi := rfl
@[simp] theorem State.setHiLo_tickCounter (h l : Dword) : (s.setHiLo h l).tickCounter = s.tickCounter := rfl
@[simp] theorem State.setHiLo_syncCycles (h l : Dword) : (s.setHiLo h l).syncCycles = s.syncCycles := rfl
@[simp] theorem State.setHiLo_lastInstr (h l : Dword) : (s.setHiLo h l).lastInstr = s.lastInstr := rfl
@[simp] theorem State.setHiLo_extJump (h l : Dword) : (s.setHiLo h l).extJump = s.extJump := rfl
@[simp] theorem State.setHiLo_running (h l : Dword) : (s.setHiLo h l).running = s.running := rfl
@[simp] theorem State.setHiLo_halt (h l : Dword) : (s.setHiLo h l).halt = s.halt := rfl
@[simp] theorem State.setHiLo_cache (h l : Dword) : (s.setHiLo h l).cache = s.cache := rfl
@[simp] theorem State.setHiLo_mem (h l : Dword) : (s.setHiLo h l).mem = s.mem := rfl
@[simp] theorem State.setHiLo_mmu (h l : Dword) : (s.setHiLo h l).mmu = s.mmu := rfl
@[simp] theorem State.setHiLo_cfg (h l : Dword) : (s.setHiLo h l).cfg = s.cfg := rfl
@[simp] theorem State.setHiLo_calls (h l : Dword) : (s.setHiLo h l).calls = s.calls := rfl
@[simp] theorem State.setHiLo_script (h l : Dword) : (s.setHiLo h l).script = s.script := rfl
@[simp] theorem State.setHiLo_host (h l : Dword) : (s.setHiLo h l).host = s.host := rfl
@[simp] theorem State.setHiLo_draws (h l : Dword) : (s.setHiLo h l).draws = s.draws := rfl

/-! ## `setBranch` -/

@[simp] theorem State.setBranch_x (t : Word) (b : BranchState) : (s.setBranch t b).x = s.x := rfl
@[simp] theorem State.setBranch_pc (t : Word) (b : BranchState) : (s.setBranch t b).pc = s.pc := rfl
@[simp] theorem State.setBranch_hi (t : Word) (b : BranchState) : (s.setBranch t b).hi = s.hi := rfl
@[simp] theorem State.setBranch_lo (t : Word) (b : BranchState) : (s.setBranch t b).lo = s.lo := rfl
@[simp] theorem State.setBranch_bstate (t : Word) (b : BranchState) : (s.setBranch t b).bstate = b := rfl
@[simp] theorem State.setBranch_jumpTarget (t : Word) (b : BranchState) : (s.setBranch t b).jumpTarget = t := rfl
@[simp] theorem State.setBranch_llbit (t : Word) (b : BranchState) : (s.setBranch t b).llbit = s.llbit := rfl
@[simp] theorem State.setBranch_cpi (t : Word) (b : BranchState) : (s.setBranch t b).cpi = s.cpi := rfl
@[simp] theorem State.setBranch_tickCounter (t : Word) (b : BranchState) : (s.setBranch t b).tickCounter = s.tickCounter := rfl
@[simp] theorem State.setBranch_syncCycles (t : Word) (b : BranchState) : (s.setBranch t b).syncCycles = s.syncCycles := rfl
@[simp] theorem State.setBranch_lastInstr (t : Word) (b : BranchState) : (s.setBranch t b).lastInstr = s.lastInstr := rfl
@[simp] theorem State.setBranch_extJump (t : Word) (b : BranchState) : (s.setBranch t b).extJump = s.extJump := rfl
@[simp] theorem State.setBranch_running (t : Word) (b : BranchState) : (s.setBranch t b).running = s.running := rfl
@[simp] theorem State.setBranch_halt (t : Word) (b : BranchState) : (s.setBranch t b).halt = s.halt := rfl
@[simp] theorem State.setBranch_cache (t : Word) (b : BranchState) : (s.setBranch t b).cache = s.cache := rfl
@[simp] theorem State.setBranch_mem (t : Word) (b : BranchState) : (s.setBranch t b).mem = s.mem := rfl
@[simp] theorem State.setBranch_mmu (t : Word) (b : BranchState) : (s.setBranch t b).mmu = s.mmu := rfl
@[simp] theorem State.setBranch_cfg (t : Word) (b : BranchState) : (s.setBranch t b).cfg = s.cfg := rfl
@[simp] theorem State.setBranch_calls (t : Word) (b : BranchState) : (s.setBranch t b).calls = s.calls := rfl
@[simp] theorem State.setBranch_script (t : Word) (b : BranchState) : (s.setBranch t b).script = s.script := rfl
@[simp] theorem State.setBranch_host (t : Word) (b : BranchState) : (s.setBranch t b).host = s.host := rfl
@[simp] theorem State.setBranch_draws (t : Word) (b : BranchState) : (s.setBranch t b).draws = s.draws := rfl

/-! ## `draw` -/

@[simp] theorem State.draw_x : s.draw.2.x = s.x := rfl
@[simp] theorem State.draw_pc : s.draw.2.pc = s.pc := rfl
@[simp] theorem State.draw_hi : s.draw.2.hi = s.hi := rfl
@[simp] theorem State.draw_lo : s.draw.2.lo = s.lo := rfl
@[simp] theorem State.draw_bstate : s.draw.2.bstate = s.bstate := rfl
@[simp] theorem State.draw_jumpTarget : s.draw.2.jumpTarget = s.jumpTarget := rfl
@[simp] theorem State.draw_llbit : s.draw.2.llbit = s.llbit := rfl
@[simp] theorem State.draw_cpi : s.draw.2.cpi = s.cpi := rfl
@[simp] theorem State.draw_tickCounter : s.draw.2.tickCounter = s.tickCounter := rfl
@[simp] theorem State.draw_syncCycles : s.draw.2.syncCycles = s.syncCycles := rfl
@[simp] theorem State.draw_lastInstr : s.draw.2.lastInstr = s.lastInstr := rfl
@[simp] theorem State.draw_extJump : s.draw.2.extJump = s.extJump := rfl
@[simp] theorem State.draw_running : s.draw.2.running = s.running := rfl
@[simp] theorem State.draw_halt : s.draw.2.halt = s.halt := rfl
@[simp] theorem State.draw_cache : s.draw.2.cache = s.cache := rfl
@[simp] theorem State.draw_mem : s.draw.2.mem = s.mem := rfl
@[simp] theorem State.draw_mmu : s.draw.2.mmu = s.mmu := rfl
@[simp] theorem State.draw_cfg : s.draw.2.cfg = s.cfg := rfl
@[simp] theorem State.draw_calls : s.draw.2.calls = s.calls := rfl
@[simp] theorem State.draw_script : s.draw.2.script = s.script := rfl
@[simp] theorem State.draw_host : s.draw.2.host = s.host := rfl
@[simp] theorem State.draw_draws : s.draw.2.draws = s.draws + 1 := rfl

/-! ## `record` -/

@[simp] theorem State.record_x (c : Call) : (s.record c).x = s.x := rfl
@[simp] theorem State.record_pc (c : Call) : (s.record c).pc = s.pc := rfl
@[simp] theorem State.record_hi (c : Call) : (s.record c).hi = s.hi := rfl
@[simp] theorem State.record_lo (c : Call) : (s.record c).lo = s.lo := rfl
@[simp] theorem State.record_bstate (c : Call) : (s.record c).bstate = s.bstate := rfl
@[simp] theorem State.record_jumpTarget (c : Call) : (s.record c).jumpTarget = s.jumpTarget := rfl
@[simp] theorem State.record_llbit (c : Call) : (s.record c).llbit = s.llbit := rfl
@[simp] theorem State.record_cpi (c : Call) : (s.record c).cpi = s.cpi := rfl
@[simp] theorem State.record_tickCounter (c : Call) : (s.record c).tickCounter = s.tickCounter := rfl
@[simp] theorem State.record_syncCycles (c : Call) : (s.record c).syncCycles = s.syncCycles := rfl
@[simp] theorem State.record_lastInstr (c : Call) : (s.record c).lastInstr = s.lastInstr := rfl
@[simp] theorem State.record_extJump (c : Call) : (s.record c).extJump = s.extJump := rfl
@[simp] theorem State.record_running (c : Call) : (s.record c).running = s.running := rfl
@[simp] theorem State.record_halt (c : Call) : (s.record c).halt = s.halt := rfl
@[simp] theorem State.record_cache (c : Call) : (s.record c).cache = s.cache := rfl
@[simp] theorem State.record_mem (c : Call) : (s.record c).mem = s.mem := rfl
@[simp] theorem State.record_mmu (c : Call) : (s.record c).mmu = s.mmu := rfl
@[simp] theorem State.record_cfg (c : Call) : (s.record c).cfg = s.cfg := rfl
@[simp] theorem State.record_calls (c : Call) : (s.record c).calls = c :: s.calls := rfl
@[simp] theorem State.record_script (c : Call) : (s.record c).script = s.script := rfl
@[simp] theorem State.record_host (c : Call) : (s.record c).host = s.host := rfl
@[simp] theorem State.record_draws (c : Call) : (s.record c).draws = s.draws := rfl

/-! ## `invalidate` -/

@[simp] theorem State.invalidate_x (pa : Word) (n : Size) : (s.invalidate pa n).x = s.x := rfl
@[simp] theorem State.invalidate_pc (pa : Word) (n : Size) : (s.invalidate pa n).pc = s.pc := rfl
@[simp] theorem State.invalidate_hi (pa : Word) (n : Size) : (s.invalidate pa n).hi = s.hi := rfl
@[simp] theorem State.invalidate_lo (pa : Word) (n : Size) : (s.invalidate pa n).lo = s.lo := rfl
@[simp] theorem State.invalidate_bstate (pa : Word) (n : Size) : (s.invalidate pa n).bstate = s.bstate := rfl
@[simp] theorem State.invalidate_jumpTarget (pa : Word) (n : Size) : (s.invalidate pa n).jumpTarget = s.jumpTarget := rfl
@[simp] theorem State.invalidate_llbit (pa : Word) (n : Size) : (s.invalidate pa n).llbit = s.llbit := rfl
@[simp] theorem State.invalidate_cpi (pa : Word) (n : Size) : (s.invalidate pa n).cpi = s.cpi := rfl
@[simp] theorem State.invalidate_tickCounter (pa : Word) (n : Size) : (s.invalidate pa n).tickCounter = s.tickCounter := rfl
@[simp] theorem State.invalidate_syncCycles (pa : Word) (n : Size) : (s.invalidate pa n).syncCycles = s.syncCycles := rfl
@[simp] theorem State.invalidate_lastInstr (pa : Word) (n : Size) : (s.invalidate pa n).lastInstr = s.lastInstr := rfl
@[simp] theorem State.invalidate_extJump (pa : Word) (n : Size) : (s.invalidate pa n).extJump = s.extJump := rfl
@[simp] theorem State.invalidate_running (pa : Word) (n : Size) : (s.invalidate pa n).running = s.running := rfl
@[simp] theorem State.invalidate_halt (pa : Word) (n : Size) : (s.invalidate pa n).halt = s.halt := rfl
@[simp] theorem State.invalidate_cache (pa : Word) (n : Size) : (s.invalidate pa n).cache = s.cache.invalidate s.cfg pa n := rfl
@[simp] theorem State.invalidate_mem (pa : Word) (n : Size) : (s.invalidate pa n).mem = s.mem := rfl
@[simp] theorem State.invalidate_mmu (pa : Word) (n : Size) : (s.invalidate pa n).mmu = s.mmu := rfl
@[simp] theorem State.invalidate_cfg (pa : Word) (n : Size) : (s.invalidate pa n).cfg = s.cfg := rfl
@[simp] theorem State.invalidate_calls (pa : Word) (n : Size) : (s.invalidate pa n).calls = s.calls := rfl
@[simp] theorem State.invalidate_script (pa : Word) (n : Size) : (s.invalidate pa n).script = s.script := rfl
@[simp] theorem State.invalidate_host (pa : Word) (n : Size) : (s.invalidate pa n).host = s.host := rfl
@[simp] theorem State.invalidate_draws (pa : Word) (n : Size) : (s.invalidate pa n).draws = s.draws := rfl

/-! ## `countCycles` -/

@[simp] theorem State.countCycles_x : (countCycles s).x = s.x := rfl
@[simp] theorem State.countCycles_pc : (countCycles s).pc = s.pc := rfl
@[simp] theorem State.countCycles_hi : (countCycles s).hi = s.hi := rfl
@[simp] theorem State.countCycles_lo : (countCycles s).lo = s.lo := rfl
@[simp] theorem State.countCycles_bstate : (countCycles s).bstate = s.bstate := rfl
@[simp] theorem State.countCycles_jumpTarget : (countCycles s).jumpTarget = s.jumpTarget := rfl
@[simp] theorem State.countCycles_llbit : (countCycles s).llbit = s.llbit := rfl
@[simp] theorem State.countCycles_cpi : (countCycles s).cpi = s.cpi := rfl
@[simp] theorem State.countCycles_tickCounter : (countCycles s).tickCounter = s.tickCounter + s.cpi.setWidth 64 := rfl
@[simp] theorem State.countCycles_syncCycles : (countCycles s).syncCycles = s.syncCycles + s.cpi.setWidth 64 := rfl
@[simp] theorem State.countCycles_lastInstr : (countCycles s).lastInstr = s.lastInstr := rfl
@[simp] theorem State.countCycles_extJump : (countCycles s).extJump = s.extJump := rfl
@[simp] theorem State.countCycles_running : (countCycles s).running = s.running := rfl
@[simp] theorem State.countCycles_halt : (countCycles s).halt = s.halt := rfl
@[simp] theorem State.countCycles_cache : (countCycles s).cache = s.cache := rfl
@[simp] theorem State.countCycles_mem : (countCycles s).mem = s.mem := rfl
@[simp] theorem State.countCycles_mmu : (countCycles s).mmu = s.mmu := rfl
@[simp] theorem State.countCycles_cfg : (countCycles s).cfg = s.cfg := rfl
@[simp] theorem State.countCycles_calls : (countCycles s).calls = s.calls := rfl
@[simp] theorem State.countCycles_script : (countCycles s).script = s.script := rfl
@[simp] theorem State.countCycles_host : (countCycles s).host = s.host := rfl
@[simp] theorem State.countCycles_draws : (countCycles s).draws = s.draws := rfl

/-! ## `writeGpr`: every field but `x` -/

@[simp] theorem State.writeGpr_pc (r : Reg) (v : Dword) : (s.writeGpr r v).pc = s.pc := by
  unfold State.writeGpr; split <;> rfl
@[simp] theorem State.writeGpr_hi (r : Reg) (v : Dword) : (s.writeGpr r v).hi = s.hi := by
  unfold State.writeGpr; split <;> rfl
@[simp] theorem State.writeGpr_lo (r : Reg) (v : Dword) : (s.writeGpr r v).lo = s.lo := by
  unfold State.writeGpr; split <;> rfl
@[simp] theorem State.writeGpr_bstate (r : Reg) (v : Dword) : (s.writeGpr r v).bstate = s.bstate := by
  unfold State.writeGpr; split <;> rfl
@[simp] theorem State.writeGpr_jumpTarget (r : Reg) (v : Dword) : (s.writeGpr r v).jumpTarget = s.jumpTarget := by
  unfold State.writeGpr; split <;> rfl
@[simp] theorem State.writeGpr_llbit (r : Reg) (v : Dword) : (s.writeGpr r v).llbit = s.llbit := by
  unfold State.writeGpr; split <;> rfl
@[simp] theorem State.writeGpr_cpi (r : Reg) (v : Dword) : (s.writeGpr r v).cpi = s.cpi := by
  unfold State.writeGpr; split <;> rfl
@[simp] theorem State.writeGpr_tickCounter (r : Reg) (v : Dword) : (s.writeGpr r v).tickCounter = s.tickCounter := by
  unfold State.writeGpr; split <;> rfl
@[simp] theorem State.writeGpr_syncCycles (r : Reg) (v : Dword) : (s.writeGpr r v).syncCycles = s.syncCycles := by
  unfold State.writeGpr; split <;> rfl
@[simp] theorem State.writeGpr_lastInstr (r : Reg) (v : Dword) : (s.writeGpr r v).lastInstr = s.lastInstr := by
  unfold State.writeGpr; split <;> rfl
@[simp] theorem State.writeGpr_extJump (r : Reg) (v : Dword) : (s.writeGpr r v).extJump = s.extJump := by
  unfold State.writeGpr; split <;> rfl
@[simp] theorem State.writeGpr_running (r : Reg) (v : Dword) : (s.writeGpr r v).running = s.running := by
  unfold State.writeGpr; split <;> rfl
@[simp] theorem State.writeGpr_halt (r : Reg) (v : Dword) : (s.writeGpr r v).halt = s.halt := by
  unfold State.writeGpr; split <;> rfl
@[simp] theorem State.writeGpr_cache (r : Reg) (v : Dword) : (s.writeGpr r v).cache = s.cache := by
  unfold State.writeGpr; split <;> rfl
@[simp] theorem State.writeGpr_mem (r : Reg) (v : Dword) : (s.writeGpr r v).mem = s.mem := by
  unfold State.writeGpr; split <;> rfl
@[simp] theorem State.writeGpr_mmu (r : Reg) (v : Dword) : (s.writeGpr r v).mmu = s.mmu := by
  unfold State.writeGpr; split <;> rfl
@[simp] theorem State.writeGpr_cfg (r : Reg) (v : Dword) : (s.writeGpr r v).cfg = s.cfg := by
  unfold State.writeGpr; split <;> rfl
@[simp] theorem State.writeGpr_calls (r : Reg) (v : Dword) : (s.writeGpr r v).calls = s.calls := by
  unfold State.writeGpr; split <;> rfl
@[simp] theorem State.writeGpr_script (r : Reg) (v : Dword) : (s.writeGpr r v).script = s.script := by
  unfold State.writeGpr; split <;> rfl
@[simp] theorem State.writeGpr_host (r : Reg) (v : Dword) : (s.writeGpr r v).host = s.host := by
  unfold State.writeGpr; split <;> rfl
@[simp] theorem State.writeGpr_draws (r : Reg) (v : Dword) : (s.writeGpr r v).draws = s.draws := by
  unfold State.writeGpr; split <;> rfl

/-! ## `storeBytes`: every field but `mem` -/

@[simp] theorem State.storeBytes_x (pa : Word) (n : Size) (v : Dword) : (s.storeBytes pa n v).x = s.x := by
  unfold State.storeBytes; split <;> rfl
@[simp] theorem State.storeBytes_pc (pa : Word) (n : Size) (v : Dword) : (s.storeBytes pa n v).pc = s.pc := by
  unfold State.storeBytes; split <;> rfl
@[simp] theorem State.storeBytes_hi (pa : Word) (n : Size) (v : Dword) : (s.storeBytes pa n v).hi = s.hi := by
  unfold State.storeBytes; split <;> rfl
@[simp] theorem State.storeBytes_lo (pa : Word) (n : Size) (v : Dword) : (s.storeBytes pa n v).lo = s.lo := by
  unfold State.storeBytes; split <;> rfl
@[simp] theorem State.storeBytes_bstate (pa : Word) (n : Size) (v : Dword) : (s.storeBytes pa n v).bstate = s.bstate := by
  unfold State.storeBytes; split <;> rfl
@[simp] theorem State.storeBytes_jumpTarget (pa : Word) (n : Size) (v : Dword) : (s.storeBytes pa n v).jumpTarget = s.jumpTarget := by
  unfold State.storeBytes; split <;> rfl
@[simp] theorem State.storeBytes_llbit (pa : Word) (n : Size) (v : Dword) : (s.storeBytes pa n v).llbit = s.llbit := by
  unfold State.storeBytes; split <;> rfl
@[simp] theorem State.storeBytes_cpi (pa : Word) (n : Size) (v : Dword) : (s.storeBytes pa n v).cpi = s.cpi := by
  unfold State.storeBytes; split <;> rfl
@[simp] theorem State.storeBytes_tickCounter (pa : Word) (n : Size) (v : Dword) : (s.storeBytes pa n v).tickCounter = s.tickCounter := by
  unfold State.storeBytes; split <;> rfl
@[simp] theorem State.storeBytes_syncCycles (pa : Word) (n : Size) (v : Dword) : (s.storeBytes pa n v).syncCycles = s.syncCycles := by
  unfold State.storeBytes; split <;> rfl
@[simp] theorem State.storeBytes_lastInstr (pa : Word) (n : Size) (v : Dword) : (s.storeBytes pa n v).lastInstr = s.lastInstr := by
  unfold State.storeBytes; split <;> rfl
@[simp] theorem State.storeBytes_extJump (pa : Word) (n : Size) (v : Dword) : (s.storeBytes pa n v).extJump = s.extJump := by
  unfold State.storeBytes; split <;> rfl
@[simp] theorem State.storeBytes_running (pa : Word) (n : Size) (v : Dword) : (s.storeBytes pa n v).running = s.running := by
  unfold State.storeBytes; split <;> rfl
@[simp] theorem State.storeBytes_halt (pa : Word) (n : Size) (v : Dword) : (s.storeBytes pa n v).halt = s.halt := by
  unfold State.storeBytes; split <;> rfl
@[simp] theorem State.storeBytes_cache (pa : Word) (n : Size) (v : Dword) : (s.storeBytes pa n v).cache = s.cache := by
  unfold State.storeBytes; split <;> rfl
@[simp] theorem State.storeBytes_mmu (pa : Word) (n : Size) (v : Dword) : (s.storeBytes pa n v).mmu = s.mmu := by
  unfold State.storeBytes; split <;> rfl
@[simp] theorem State.storeBytes_cfg (pa : Word) (n : Size) (v : Dword) : (s.storeBytes pa n v).cfg = s.cfg := by
  unfold State.storeBytes; split <;> rfl
@[simp] theorem State.storeBytes_calls (pa : Word) (n : Size) (v : Dword) : (s.storeBytes pa n v).calls = s.calls := by
  unfold State.storeBytes; split <;> rfl
@[simp] theorem State.storeBytes_script (pa : Word) (n : Size) (v : Dword) : (s.storeBytes pa n v).script = s.script := by
  unfold State.storeBytes; split <;> rfl
@[simp] theorem State.storeBytes_host (pa : Word) (n : Size) (v : Dword) : (s.storeBytes pa n v).host = s.host := by
  unfold State.storeBytes; split <;> rfl
@[simp] theorem State.storeBytes_draws (pa : Word) (n : Size) (v : Dword) : (s.storeBytes pa n v).draws = s.draws := by
  unfold State.storeBytes; split <;> rfl

/-! ## `writeLink`: every field but `x` -/

@[simp] theorem State.writeLink_pc (link : Option Reg) : (s.writeLink link).pc = s.pc := by
  cases link <;> simp [State.writeLink]
@[simp] theorem State.writeLink_hi (link : Option Reg) : (s.writeLink link).hi = s.hi := by
  cases link <;> simp [State.writeLink]
@[simp] theorem State.writeLink_lo (link : Option Reg) : (s.writeLink link).lo = s.lo := by
  cases link <;> simp [State.writeLink]
@[simp] theorem State.writeLink_bstate (link : Option Reg) : (s.writeLink link).bstate = s.bstate := by
  cases link <;> simp [State.writeLink]
@[simp] theorem State.writeLink_jumpTarget (link : Option Reg) : (s.writeLink link).jumpTarget = s.jumpTarget := by
  cases link <;> simp [State.writeLink]
@[simp] theorem State.writeLink_llbit (link : Option Reg) : (s.writeLink link).llbit = s.llbit := by
  cases link <;> simp [State.writeLink]
@[simp] theorem State.writeLink_cpi (link : Option Reg) : (s.writeLink link).cpi = s.cpi := by
  cases link <;> simp [State.writeLink]
@[simp] theorem State.writeLink_tickCounter (link : Option Reg) : (s.writeLink link).tickCounter = s.tickCounter := by
  cases link <;> simp [State.writeLink]
@[simp] theorem State.writeLink_syncCycles (link : Option Reg) : (s.writeLink link).syncCycles = s.syncCycles := by
  cases link <;> simp [State.writeLink]
@[simp] theorem State.writeLink_lastInstr (link : Option Reg) : (s.writeLink link).lastInstr = s.lastInstr := by
  cases link <;> simp [State.writeLink]
@[simp] theorem State.writeLink_extJump (link : Option Reg) : (s.writeLink link).extJump = s.extJump := by
  cases link <;> simp [State.writeLink]
@[simp] theorem State.writeLink_running (link : Option Reg) : (s.writeLink link).running = s.running := by
  cases link <;> simp [State.writeLink]
@[simp] theorem State.writeLink_halt (link : Option Reg) : (s.writeLink link).halt = s.halt := by
  cases link <;> simp [State.writeLink]
@[simp] theorem State.writeLink_cache (link : Option Reg) : (s.writeLink link).cache = s.cache := by
  cases link <;> simp [State.writeLink]
@[simp] theorem State.writeLink_mem (link : Option Reg) : (s.writeLink link).mem = s.mem := by
  cases link <;> simp [State.writeLink]
@[simp] theorem State.writeLink_mmu (link : Option Reg) : (s.writeLink link).mmu = s.mmu := by
  cases link <;> simp [State.writeLink]
@[simp] theorem State.writeLink_cfg (link : Option Reg) : (s.writeLink link).cfg = s.cfg := by
  cases link <;> simp [State.writeLink]
@[simp] theorem State.writeLink_calls (link : Option Reg) : (s.writeLink link).calls = s.calls := by
  cases link <;> simp [State.writeLink]
@[simp] theorem State.writeLink_script (link : Option Reg) : (s.writeLink link).script = s.script := by
  cases link <;> simp [State.writeLink]
@[simp] theorem State.writeLink_host (link : Option Reg) : (s.writeLink link).host = s.host := by
  cases link <;> simp [State.writeLink]
@[simp] theorem State.writeLink_draws (link : Option Reg) : (s.writeLink link).draws = s.draws := by
  cases link <;> simp [State.writeLink]

@[simp] theorem State.draw_fst : s.draw.1 = Config.freeValue s.draws := rfl

/-! ## Reading a register -/

/-- A read after a control-surface write of a register. -/
theorem State.gpr_setGpr (r q : Reg) (v : Dword) : (s.setGpr r v).gpr q = if q = r then v else s.gpr q := by
  simp only [State.gpr, State.setGpr, Vector.getElem_set, BitVec.toNat_inj, eq_comm]

/-- A read after an instruction's write: register 0 keeps its value (10_state.md R22). -/
theorem State.gpr_writeGpr (r q : Reg) (v : Dword) :
    (s.writeGpr r v).gpr q = if q = r ∧ r ≠ 0#5 then v else s.gpr q := by
  unfold State.writeGpr
  split
  · simp_all
  · rw [State.gpr_setGpr]
    simp_all

/-- `gpr` reads `x` alone. -/
theorem State.gpr_congr {s t : State} (h : t.x = s.x) (q : Reg) : t.gpr q = s.gpr q := by
  simp only [State.gpr, h]

@[simp] theorem State.writeGpr_zero (v : Dword) : s.writeGpr 0#5 v = s := by simp [State.writeGpr]

end

/-! ## How parts of a handler combine -/

section
variable {α β : Type}

@[simp] theorem Res.bind_ok (a : α) (s : State) (f : α → State → Res β) : (Res.ok a s).bind f = f a s := rfl
@[simp] theorem Res.bind_stop (s : State) (f : α → State → Res β) : (Res.stop s : Res α).bind f = .stop s := rfl
@[simp] theorem Res.state_ok (a : α) (s : State) : (Res.ok a s).state = s := rfl
@[simp] theorem Res.state_stop (s : State) : (Res.stop s : Res α).state = s := rfl
@[simp] theorem Res.after_ok (a : α) (s : State) (f : State → State) : (Res.ok a s).after f = .ok a (f s) := rfl
@[simp] theorem Res.after_stop (s : State) (f : State → State) : (Res.stop s : Res α).after f = .stop (f s) := rfl
@[simp] theorem Res.outcome_eq (r : Res α) : r.outcome = .next r.state := rfl
@[simp] theorem refuse_eq (reason : RefuseReason) (s : State) :
    (refuse reason s : Res α) = .stop { s with halt := some (.refused reason) } := rfl
@[simp] theorem fatal_eq (reason : FatalReason) (pc w : Word) (s : State) :
    (fatal reason pc w s : Res α) = .stop { s with halt := some (.fatal reason pc w) } := rfl

end

end Sys2Proof.Machine
end

