-- ==== Sys2Proof/Laws/Ops.lean ====
section
/-! SUPPORT. What each shared operation may do, said once. `Serves s t` is all that a call and whatever happens during
it may do to a state, `Keeps s t` all that a handler may: the parameters, the environment and the run flag stay, `pc`
stays while the block runs, the calls made only grow, well-formedness and coherence are kept. -/
namespace Sys2Proof.Machine

/-- Coherence of the decode cache for the words outside `P` (while a store is under way, `P` is what it writes). -/
def State.coherentOff (P : Word → Prop) (s : State) : Prop :=
  ∀ i e, s.cache.find i = some e → ¬ P e.tag → isDevice s.cfg e.tag = false → e.raw = s.mem.readWord e.tag

theorem State.coherent_iff (s : State) : s.coherent ↔ s.coherentOff fun _ => False := by
  simp [State.coherent, State.coherentOff]

theorem State.wf_iff {s : State} : s.wf = true ↔ s.mem.wf = true ∧ s.cache.wf s.cfg = true := by
  simp [State.wf]

/-- What a handler may do. -/
structure Keeps (s t : State) : Prop where
  cfg : t.cfg = s.cfg
  script : t.script = s.script
  host : t.host = s.host
  running : t.running = s.running
  pc : s.running = true → t.pc = s.pc
  calls : ∃ l, t.calls = l ++ s.calls
  wf : s.wf = true → t.wf = true
  coherent : ∀ P, s.wf = true → s.noForeignWrites → s.coherentOff P → t.coherentOff P
  zero : s.noZeroWrites → t.gpr 0#5 = s.gpr 0#5
  halt : s.halt ≠ none → t.halt ≠ none

/-- What a collaborator call and whatever is done during it may do: as a handler, and memory is written by another
agent alone. -/
structure Serves (s t : State) : Prop extends Keeps s t where
  mem : s.noForeignWrites → t.mem = s.mem

theorem State.noForeignWrites_of_eq {s t : State} (h1 : t.script = s.script) (h2 : t.host = s.host)
    (h : s.noForeignWrites) : t.noForeignWrites := by
  unfold State.noForeignWrites at *
  rw [h1, h2]
  exact h

theorem State.noZeroWrites_of_eq {s t : State} (h1 : t.script = s.script) (h2 : t.host = s.host)
    (h : s.noZeroWrites) : t.noZeroWrites := by
  unfold State.noZeroWrites at *
  rw [h1, h2]
  exact h

theorem Keeps.trans {s t u : State} (h : Keeps s t) (k : Keeps t u) : Keeps s u where
  cfg := k.cfg.trans h.cfg
  script := k.script.trans h.script
  host := k.host.trans h.host
  running := k.running.trans h.running
  pc r := (k.pc (h.running.trans r)).trans (h.pc r)
  calls := by
    obtain ⟨l, hl⟩ := h.calls
    obtain ⟨l', hl'⟩ := k.calls
    exact ⟨l' ++ l, by rw [hl', hl, List.append_assoc]⟩
  wf w := k.wf (h.wf w)
  coherent P w n c := k.coherent P (h.wf w) (State.noForeignWrites_of_eq h.script h.host n) (h.coherent P w n c)
  zero z := (k.zero (State.noZeroWrites_of_eq h.script h.host z)).trans (h.zero z)
  halt e := k.halt (h.halt e)

theorem Serves.trans {s t u : State} (h : Serves s t) (k : Serves t u) : Serves s u where
  toKeeps := h.toKeeps.trans k.toKeeps
  mem n := (k.mem (State.noForeignWrites_of_eq h.script h.host n)).trans (h.mem n)

/-- A change of the fields that neither memory nor the environment nor the loop's place is made of. -/
theorem Serves.of_same {s t : State} (cfg : t.cfg = s.cfg) (script : t.script = s.script) (host : t.host = s.host)
    (running : t.running = s.running) (pc : s.running = true → t.pc = s.pc) (calls : ∃ l, t.calls = l ++ s.calls)
    (mem : t.mem = s.mem) (cache : t.cache = s.cache) (zero : t.gpr 0#5 = s.gpr 0#5)
    (halt : s.halt ≠ none → t.halt ≠ none := by exact id) : Serves s t where
  cfg := cfg
  script := script
  host := host
  running := running
  pc := pc
  calls := calls
  wf w := by
    rw [State.wf_iff] at *
    rwa [cfg, mem, cache]
  coherent P _ _ c := by
    intro i e hf hp hd
    rw [mem]
    rw [cache] at hf
    rw [cfg] at hd
    exact c i e hf hp hd
  zero _ := zero
  halt := halt
  mem _ := mem

theorem Serves.refl (s : State) : Serves s s := Serves.of_same rfl rfl rfl rfl (fun _ => rfl) ⟨[], rfl⟩ rfl rfl rfl

theorem Keeps.refl (s : State) : Keeps s s := (Serves.refl s).toKeeps

/-- As `Serves.of_same`, of a handler's own writes. -/
theorem Keeps.of_same {s t : State} (cfg : t.cfg = s.cfg) (script : t.script = s.script) (host : t.host = s.host)
    (running : t.running = s.running) (pc : t.pc = s.pc) (calls : t.calls = s.calls)
    (mem : t.mem = s.mem) (cache : t.cache = s.cache) (zero : t.gpr 0#5 = s.gpr 0#5)
    (halt : t.halt = s.halt := by rfl) : Keeps s t :=
  (Serves.of_same cfg script host running (fun _ => pc) ⟨[], calls⟩ mem cache zero (halt ▸ id)).toKeeps

theorem Serves.bind {α β : Type} {s : State} {r : Res α} {f : α → State → Res β} (hr : Serves s r.state)
    (hf : ∀ a t, r = .ok a t → Serves t (f a t).state) : Serves s (r.bind f).state := by
  cases r with
  | ok a t => exact hr.trans (hf a t rfl)
  | stop t => exact hr

theorem Keeps.bind {α β : Type} {s : State} {r : Res α} {f : α → State → Res β} (hr : Keeps s r.state)
    (hf : ∀ a t, r = .ok a t → Keeps t (f a t).state) : Keeps s (r.bind f).state := by
  cases r with
  | ok a t => exact hr.trans (hf a t rfl)
  | stop t => exact hr

theorem Serves.refuse {α : Type} (reason : RefuseReason) (s : State) : Serves s (refuse reason s : Res α).state :=
  Serves.of_same rfl rfl rfl rfl (fun _ => rfl) ⟨[], rfl⟩ rfl rfl rfl (by simp)

theorem Serves.fatal {α : Type} (reason : FatalReason) (pc w : Word) (s : State) :
    Serves s (fatal reason pc w s : Res α).state :=
  Serves.of_same rfl rfl rfl rfl (fun _ => rfl) ⟨[], rfl⟩ rfl rfl rfl (by simp)

/-- A way of calling that does no more than `Serves` says. -/
def CallerServes (call : Caller) : Prop := ∀ c s, Serves s (call c s).state

theorem Serves.record (s : State) (c : Call) : Serves s (s.record c) :=
  Serves.of_same rfl rfl rfl rfl (fun _ => rfl) ⟨[c], rfl⟩ rfl rfl rfl

theorem callQuietly_serves : CallerServes callQuietly := fun c s => Serves.record s c

/-! ## Translation -/

/-- A translation keeps the low three bits of an address (log entry 6). -/
theorem translateAddress_low {windows : List Window} {va : Word} {kind : AccessKind} {pa : Word}
    (h : translateAddress windows va kind = some pa) : pa.extractLsb' 0 3 = va.extractLsb' 0 3 := by
  induction windows with
  | nil => simp [translateAddress] at h
  | cons win rest ih =>
    unfold translateAddress at h
    split at h
    · obtain rfl := Option.some.inj h
      apply BitVec.eq_of_getLsbD_eq
      intro i hi
      simp only [BitVec.getLsbD_extractLsb', BitVec.getLsbD_append]
      simp [hi]
    · exact ih h

theorem low2_of_low3 {pa va : Word} (h : pa.extractLsb' 0 3 = va.extractLsb' 0 3) :
    pa.extractLsb' 0 2 = va.extractLsb' 0 2 := by
  apply BitVec.eq_of_getLsbD_eq
  intro i hi
  have := congrArg (fun b => b.getLsbD i) h
  simp only [BitVec.getLsbD_extractLsb'] at this ⊢
  simpa [hi, show i < 3 by omega] using this

theorem toNat_mod_of_low {k : Nat} (a : Word) : (a.extractLsb' 0 k).toNat = a.toNat % 2 ^ k := by
  simp [BitVec.extractLsb'_toNat]

section
variable {call : Caller} (hc : CallerServes call)
include hc

theorem translateVia_serves (va : Word) (kind : AccessKind) (s : State) :
    Serves s (translateVia call va kind s).state := by
  refine Serves.bind (hc _ s) fun _ t _ => ?_
  split
  · exact Serves.refl t
  · exact Serves.refuse _ t

theorem busReadVia_serves (pa : Word) (n : Size) (s : State) : Serves s (busReadVia call pa n s).state :=
  Serves.bind (hc _ s) fun _ t _ => Serves.refl t

omit hc in
/-- What a bus read of ordinary memory returns: the bytes that are there when it returns (20_memory.md R55). -/
theorem busReadVia_value {pa : Word} {n : Size} {s t : State} {v : Dword} (hd : isDevice s.cfg pa = false)
    (h : busReadVia call pa n s = .ok v t) : v = t.mem.readSize pa n := by
  unfold busReadVia at h
  cases hcall : call (.busRead pa n) s with
  | ok a u =>
    rw [hcall] at h
    simp only [Res.bind_ok, hd] at h
    injection h with h1 h2
    rw [← h1, ← h2]
    rfl
  | stop u => simp [hcall] at h

theorem fetchReadVia_serves (pa : Word) (s : State) : Serves s (fetchReadVia call pa s).state :=
  Serves.bind (busReadVia_serves hc pa .b4 s) fun _ t _ => Serves.refl t

omit hc in
/-- A fetch read resolves the word it read (20_memory.md R59, 30_encoding.md R77). -/
theorem fetchReadVia_value {pa : Word} {s t : State} {wh : Word × Resolved}
    (h : fetchReadVia call pa s = .ok wh t) :
    wh.2 = resolve wh.1 ∧ (isDevice s.cfg pa = false → wh.1 = t.mem.readWord pa) := by
  unfold fetchReadVia at h
  cases hb : busReadVia call pa .b4 s with
  | ok v u =>
    rw [hb] at h
    simp only [Res.bind_ok] at h
    injection h with h1 h2
    subst h1 h2
    exact ⟨rfl, fun hd => by rw [busReadVia_value hd hb]; rfl⟩
  | stop u => simp [hb] at h

/-- Filling an entry with the word in memory keeps the cache well-formed and coherent. -/
theorem fetchMissVia_serves {i : Nat} {pa : Word} {s : State} (hi : cacheIndex s.cfg pa = some i)
    (ha : pa.extractLsb' 0 2 = 0#2) : Serves s (fetchMissVia call i pa s).state := by
  have hserve := fetchReadVia_serves hc pa s
  unfold fetchMissVia
  cases hr : fetchReadVia call pa s with
  | stop t => rw [hr] at hserve; exact hserve
  | ok wh t =>
    rw [hr] at hserve
    simp only [Res.state_ok] at hserve
    obtain ⟨hh, hw⟩ := fetchReadVia_value hr
    have he : entryWf t.cfg i { tag := pa, raw := wh.1, handler := wh.2 } = true := by
      simp only [entryWf, Bool.and_eq_true, decide_eq_true_eq]
      exact ⟨⟨by rw [hserve.cfg]; exact hi, ha⟩, hh⟩
    refine
      { cfg := hserve.cfg, script := hserve.script, host := hserve.host, running := hserve.running, pc := hserve.pc,
        calls := hserve.calls, zero := hserve.zero, halt := hserve.halt, mem := hserve.mem, wf := fun w => ?_, coherent := fun P w n c => ?_ }
    · have := State.wf_iff.1 (hserve.wf w)
      exact State.wf_iff.2 ⟨this.1, Cache.wf_fill this.2 he⟩
    · intro j e hf hp hd
      have wt := State.wf_iff.1 (hserve.wf w)
      simp only [Res.bind_ok, Res.state_ok] at hf hd ⊢
      rw [Cache.find_fill i j _ (Cache.rising_of_wf wt.2)] at hf
      split at hf
      · obtain rfl := Option.some.inj hf
        simp only at hp hd ⊢
        exact hw (by rw [← hserve.cfg]; exact hd)
      · exact hserve.coherent P w n c j e hf hp hd

theorem fetchHitVia_serves (e : CacheEntry) (pa : Word) (s : State) :
    Serves s (fetchHitVia call e pa s).state := by
  have hdraw : Serves s { s with draws := s.draws + 1 } :=
    Serves.of_same rfl rfl rfl rfl (fun _ => rfl) ⟨[], rfl⟩ rfl rfl rfl
  unfold fetchHitVia
  split
  · exact Serves.refl s
  · split
    · exact hdraw
    · exact hdraw.trans (fetchReadVia_serves hc pa _)

theorem fetchPhysicalVia_serves {pa : Word} {s : State} (ha : pa.extractLsb' 0 2 = 0#2) :
    Serves s (fetchPhysicalVia call pa s).state := by
  unfold fetchPhysicalVia
  split
  · rename_i i hen hi
    split
    · split
      · exact fetchHitVia_serves hc _ pa s
      · exact fetchMissVia_serves hc hi ha
    · exact fetchMissVia_serves hc hi ha
  · exact fetchReadVia_serves hc pa s

omit hc in
theorem translateVia_low {va : Word} {kind : AccessKind} {s t : State} {pa : Word}
    (h : translateVia call va kind s = .ok pa t) : pa.extractLsb' 0 3 = va.extractLsb' 0 3 := by
  unfold translateVia at h
  cases hcall : call (.translate va kind) s with
  | stop u => simp [hcall] at h
  | ok a u =>
    rw [hcall] at h
    simp only [Res.bind_ok] at h
    cases htr : translateAddress s.mmu va kind with
    | none => simp [htr] at h
    | some q =>
      simp only [htr] at h
      injection h with h1 _
      subst h1
      exact translateAddress_low htr

theorem fetchVia_serves (va : Word) (s : State) : Serves s (fetchVia call va s).state := by
  unfold fetchVia
  split
  · rename_i ha
    refine Serves.bind (translateVia_serves hc va .fetch s) fun pa t h => ?_
    exact fetchPhysicalVia_serves hc ((low2_of_low3 (translateVia_low h)).trans ha)
  · exact Serves.refuse _ s

/-! ## The idle-loop probe -/

theorem idleSkipVia_serves (s : State) : Serves s (idleSkipVia call s).state := by
  unfold idleSkipVia
  refine Serves.bind (hc _ s) fun _ t _ => ?_
  have ht : Serves t { t with syncCycles := 0#64 } :=
    Serves.of_same rfl rfl rfl rfl (fun _ => rfl) ⟨[], rfl⟩ rfl rfl rfl
  refine ht.trans (Serves.bind (hc _ _) fun a u _ => ?_)
  split
  · exact Serves.bind (hc _ u) fun _ v _ => Serves.bind (hc _ v) fun _ w _ => Serves.refl w
  · exact Serves.refl u

theorem probeVia_serves (bpc bw target : Word) (s : State) : Serves s (probeVia call bpc bw target s).state := by
  unfold probeVia
  split
  · refine Serves.bind (fetchVia_serves hc _ s) fun dwh t _ => ?_
    split
    · refine Serves.bind (hc _ t) fun a u _ => ?_
      split
      · exact Serves.fatal _ _ _ u
      · split
        · exact Serves.bind (idleSkipVia_serves hc u) fun _ v _ => Serves.refl v
        · exact Serves.refl u
    · exact Serves.refl t
  · exact Serves.refl s

/-! ## The control surface and the actions -/

theorem ctlReadVia_serves (index : Nat) (width : Width) (s : State) :
    Serves s (ctlReadVia call index width s).state := by
  unfold ctlReadVia
  split
  · exact Serves.refl s
  · split <;>
      first
      | exact Serves.refl s
      | exact Serves.refuse _ s
      | exact Serves.of_same rfl rfl rfl rfl (fun _ => rfl) ⟨[], rfl⟩ rfl rfl rfl
      | exact Serves.bind (hc _ s) fun _ t _ => Serves.bind (hc _ t) fun _ u _ => Serves.refl u
      | exact Serves.bind (probeVia_serves hc _ _ _ s) fun _ t _ => Serves.refl t

theorem ctlWriteVia_serves (index : Nat) (width : Width) (v : Dword) (s : State)
    (hz : s.noZeroWrites → index ≠ 0) : Serves s (ctlWriteVia call index width v s).state := by
  have same : ∀ t : State, t.cfg = s.cfg → t.script = s.script → t.host = s.host → t.running = s.running →
      (s.running = true → t.pc = s.pc) → t.calls = s.calls → t.mem = s.mem → t.cache = s.cache →
      t.gpr 0#5 = s.gpr 0#5 → t.halt = s.halt → Serves s t :=
    fun t h1 h2 h3 h4 h5 h6 h7 h8 h9 h10 => Serves.of_same h1 h2 h3 h4 h5 ⟨[], h6⟩ h7 h8 h9 (h10 ▸ id)
  have forced : Serves s (s.forceBranch v) := by
    unfold State.forceBranch
    split <;> exact same _ rfl rfl rfl rfl (fun _ => rfl) rfl rfl rfl rfl rfl
  unfold ctlWriteVia
  split
  · rename_i hlt
    refine
      { cfg := rfl, script := rfl, host := rfl, running := rfl, pc := fun _ => rfl, calls := ⟨[], rfl⟩,
        wf := fun w => w, coherent := fun _ _ _ c => c, mem := fun _ => rfl, halt := id, zero := fun z => ?_ }
    rw [Res.state_ok, State.gpr_setGpr, if_neg]
    intro h0
    have h1 := congrArg BitVec.toNat h0
    rw [BitVec.toNat_ofNat, BitVec.toNat_ofNat] at h1
    have := hz z
    omega
  · split
    · by_cases hr : s.running = true
      · rw [if_pos hr]
        exact same _ rfl rfl rfl rfl (fun _ => rfl) rfl rfl rfl rfl rfl
      · rw [if_neg hr]
        exact same _ rfl rfl rfl rfl (fun h => absurd h hr) rfl rfl rfl rfl rfl
    · refine (same { s with cpi := low32 v } rfl rfl rfl rfl (fun _ => rfl) rfl rfl rfl rfl rfl).trans ?_
      exact Serves.bind (hc _ _) fun _ t _ => Serves.refl t
    all_goals first
      | exact forced
      | exact Serves.refuse _ s
      | exact same _ rfl rfl rfl rfl (fun _ => rfl) rfl rfl rfl rfl rfl

omit hc in
theorem memWriteAction_serves {pa : Word} {b : Byte} (s : State) (hn : ¬ s.noForeignWrites) :
    Serves s { s with mem := s.mem.write pa.toNat b } where
  cfg := rfl
  script := rfl
  host := rfl
  running := rfl
  pc _ := rfl
  calls := ⟨[], rfl⟩
  wf w := by
    rw [State.wf_iff] at *
    exact ⟨Memory.wf_write b pa.isLt w.1, w.2⟩
  coherent _ _ n := absurd n hn
  zero _ := rfl
  halt := id
  mem n := absurd n hn

/-- An action, where a write of memory is one the environment makes. -/
theorem performVia_serves (a : Action) (s : State) (ha : s.noForeignWrites → a.foreignWrite = false)
    (hz : s.noZeroWrites → a.writesZero = false) : Serves s (performVia call a s).state := by
  cases a with
  | ctlRead index width => exact Serves.bind (ctlReadVia_serves hc index width s) fun _ t _ => Serves.refl t
  | ctlWrite index width v => exact ctlWriteVia_serves hc index width v s fun z => by simpa [Action.writesZero] using hz z
  | memWrite pa b => exact memWriteAction_serves s fun n => by simpa [Action.foreignWrite] using ha n
  | remap windows => exact Serves.of_same rfl rfl rfl rfl (fun _ => rfl) ⟨[], rfl⟩ rfl rfl rfl

theorem performAllVia_serves (actions : List Action) (s : State)
    (ha : s.noForeignWrites → ∀ a ∈ actions, a.foreignWrite = false)
    (hz : s.noZeroWrites → ∀ a ∈ actions, a.writesZero = false) :
    Serves s (performAllVia call actions s).state := by
  induction actions generalizing s with
  | nil => exact Serves.refl s
  | cons a rest ih =>
    have hs := performVia_serves hc a s (fun n => ha n a List.mem_cons_self) fun z => hz z a List.mem_cons_self
    refine Serves.bind hs fun _ t h => ?_
    rw [h] at hs
    refine ih t (fun n b hb => ha ?_ b (List.mem_cons_of_mem _ hb)) fun z b hb => hz ?_ b (List.mem_cons_of_mem _ hb)
    · exact State.noForeignWrites_of_eq hs.script.symm hs.host.symm n
    · exact State.noZeroWrites_of_eq hs.script.symm hs.host.symm z

end

/-- What every action of the script is, every action of the next answer is. -/
theorem State.nextAnswer_allActions {s : State} {P : Action → Prop}
    (h : ∀ n a, findAnswer s.script n = some a → ∀ act ∈ a.allActions, P act) :
    ∀ act ∈ s.nextAnswer.allActions, P act := by
  unfold State.nextAnswer
  cases hf : findAnswer s.script s.calls.length with
  | none => simp [freeAnswer, Answer.allActions, Answer.executorOps]
  | some b => exact h _ b hf

theorem Answer.mem_allActions {a : Answer} {act : Action} (h : act ∈ a.actions) : act ∈ a.allActions :=
  List.mem_append_left _ h

theorem callWith_serves {inner : Caller} (h : CallerServes inner) : CallerServes (callWith inner) := by
  intro c s
  refine (Serves.record s c).trans (Serves.bind ?_ fun _ t _ => Serves.refl t)
  exact performAllVia_serves h _ _ (fun n act h => State.nextAnswer_allActions (s := s) n.1 act (Answer.mem_allActions h))
    fun z act h => State.nextAnswer_allActions (s := s) z.1 act (Answer.mem_allActions h)

theorem callNested_serves (depth : Nat) : CallerServes (callNested depth) := by
  induction depth with
  | zero => exact callQuietly_serves
  | succ d ih => exact callWith_serves ih

/-- A collaborator call and what is done during it (60_exceptions.md R269). -/
theorem callCollaborator_serves : CallerServes callCollaborator := fun c s =>
  callWith_serves (callNested_serves s.script.length) c s

/-- What a call returns. -/
theorem callCollaborator_answer {c : Call} {s t : State} {a : Answer} (h : callCollaborator c s = .ok a t) :
    a = s.nextAnswer := by
  unfold callCollaborator callWith at h
  cases hp : performAllVia (callNested s.script.length) s.nextAnswer.actions (s.record c) with
  | ok b u =>
    rw [hp] at h
    injection h with h1 _
    exact h1.symm
  | stop u => simp [hp] at h

/-! ## The operations of the handlers -/

theorem translate_serves (va : Word) (kind : AccessKind) (s : State) : Serves s (translate va kind s).state :=
  translateVia_serves callCollaborator_serves va kind s

theorem memRead_serves (va : Word) (n : Size) (s : State) : Serves s (memRead va n s).state :=
  Serves.bind (translate_serves va .load s) fun pa t _ => busReadVia_serves callCollaborator_serves pa n t

theorem probe_serves (bpc bw target : Word) (s : State) : Serves s (probe bpc bw target s).state :=
  probeVia_serves callCollaborator_serves bpc bw target s

theorem fetch_serves (va : Word) (s : State) : Serves s (fetch va s).state :=
  Serves.bind (fetchVia_serves callCollaborator_serves va s) fun _ _ _ =>
    Serves.of_same rfl rfl rfl rfl (fun _ => rfl) ⟨[], rfl⟩ rfl rfl rfl

theorem cop0Read_serves (i : Reg) (s : State) : Serves s (cop0Read i s).state :=
  Serves.bind (callCollaborator_serves _ s) fun _ t _ => Serves.refl t

theorem cop0Write_serves (i : Reg) (v : Word) (s : State) : Serves s (cop0Write i v s).state :=
  Serves.bind (callCollaborator_serves _ s) fun _ t _ => Serves.refl t

theorem cop0Op_serves (funct : BitVec 6) (s : State) : Serves s (cop0Op funct s).state :=
  Serves.bind (callCollaborator_serves _ s) fun _ t _ => Serves.refl t

theorem raiseAddressError_serves {α : Type} (kind : AccessKind) (va : Word) (s : State) :
    Serves s (raiseAddressError kind va s : Res α).state :=
  Serves.bind (cop0Write_serves _ _ s) fun _ t _ => Serves.bind (cop0Write_serves _ _ t) fun _ u _ => Serves.refl u

theorem misalignedAccess_serves {α : Type} (kind : AccessKind) (n : Size) (ea : Word) (s : State) :
    Serves s (misalignedAccess kind n ea s : Res α).state := by
  cases n <;> first | exact raiseAddressError_serves kind ea s | exact Serves.refuse _ s

theorem checkAligned_keeps {α : Type} {kind : AccessKind} {n : Size} {ea : Word} {access : State → Res α} {s : State}
    (h : misaligned n ea = false → Keeps s (access s).state) : Keeps s (checkAligned kind n ea access s).state := by
  unfold checkAligned
  split
  · exact (misalignedAccess_serves kind n ea s).toKeeps
  · rename_i hm
    exact h (by simpa using hm)

theorem Keeps.writeGpr (s : State) (r : Reg) (v : Dword) : Keeps s (s.writeGpr r v) :=
  Keeps.of_same (by simp) (by simp) (by simp) (by simp) (by simp) (by simp) (by simp) (by simp) (by
    rw [State.gpr_writeGpr]
    split
    · rename_i h
      exact absurd h.1.symm h.2
    · rfl) (by simp)

theorem Keeps.setHiLo (s : State) (h l : Dword) : Keeps s (s.setHiLo h l) :=
  Keeps.of_same rfl rfl rfl rfl rfl rfl rfl rfl rfl

theorem Keeps.setBranch (s : State) (t : Word) (b : BranchState) : Keeps s (s.setBranch t b) :=
  Keeps.of_same rfl rfl rfl rfl rfl rfl rfl rfl rfl

theorem Keeps.draw (s : State) : Keeps s s.draw.2 := Keeps.of_same rfl rfl rfl rfl rfl rfl rfl rfl rfl

theorem Keeps.writeLink (s : State) (link : Option Reg) : Keeps s (s.writeLink link) := by
  cases link with
  | none => exact Keeps.refl s
  | some r => exact Keeps.writeGpr s r _

/-! ## A store -/

theorem tag_aligned {cfg : Params} {c : Cache} {i : Nat} {e : CacheEntry} (hc : c.wf cfg = true)
    (h : c.find i = some e) : e.tag.toNat % 4 = 0 := by
  have he := Cache.entryWf_of_find hc h
  simp only [entryWf, Bool.and_eq_true, decide_eq_true_eq] at he
  have := toNat_mod_of_low (k := 2) e.tag
  rw [he.1.2] at this
  simpa using this.symm

theorem index_of_find {cfg : Params} {c : Cache} {i : Nat} {e : CacheEntry} (hc : c.wf cfg = true)
    (h : c.find i = some e) : cacheIndex cfg e.tag = some i := by
  have he := Cache.entryWf_of_find hc h
  simp only [entryWf, Bool.and_eq_true, decide_eq_true_eq] at he
  exact he.1.1

theorem Res.after_state {α : Type} (r : Res α) (f : State → State) : (r.after f).state = f r.state := by
  cases r <;> rfl

/-- Two words at 4-byte-aligned addresses, one of them among the bytes written, or neither. -/
theorem readWord_writeSize_other {m : Memory} {pa tag : Word} {n : Size} {v : Dword} (hm : m.wf = true)
    (hpa : pa.toNat % n.bytes = 0) (htag : tag.toNat % 4 = 0) (hoff : tag ∉ overlappedWords pa n.bytes) :
    (m.writeSize pa n v).readWord tag = m.readWord tag := by
  have hn : n.bytes = 1 ∨ n.bytes = 2 ∨ n.bytes = 4 ∨ n.bytes = 8 := by cases n <;> simp [Size.bytes]
  have hp := pa.isLt
  have ht := tag.isLt
  have hfit : pa.toNat + n.bytes ≤ 2 ^ 32 := by rcases hn with h | h | h | h <;> rw [h] at hpa ⊢ <;> omega
  have hapart : tag.toNat + 4 ≤ pa.toNat ∨ pa.toNat + n.bytes ≤ tag.toNat := by
    by_contra hcon
    exact hoff (mem_overlappedWords htag (by omega) (by omega) (by omega))
  unfold Memory.readWord Memory.readSize Memory.writeSize
  congr 1
  refine Memory.readBytes_congr tag _ fun j hj => ?_
  have hj' : j < 4 := hj
  refine Memory.read_writeBytes_other pa _ v _ hm fun k hk => ?_
  rw [toNat_add_ofNat hk hfit, toNat_add_ofNat (count := 4) hj' (by omega)]
  omega

theorem State.storeBytes_keeps_wf {s : State} (pa : Word) (n : Size) (v : Dword) (w : s.wf = true) :
    (s.storeBytes pa n v).wf = true := by
  unfold State.storeBytes
  split
  · exact w
  · rw [State.wf_iff] at *
    exact ⟨Memory.wf_writeSize pa n v w.1, w.2⟩

/-- A store, whatever the collaborators do during its bus write: the words it writes may be incoherent until it has
invalidated their entries, the others stay coherent, and it invalidates them (20_memory.md R58, 40_fetch_execute.md
R91). -/
theorem Keeps.store {s t : State} {pa : Word} {n : Size} {v : Dword} (hpa : pa.toNat % n.bytes = 0)
    (h : Serves (s.storeBytes pa n v) t) : Keeps s (t.invalidate pa n) where
  cfg := by rw [State.invalidate_cfg, h.cfg, State.storeBytes_cfg]
  script := by rw [State.invalidate_script, h.script, State.storeBytes_script]
  host := by rw [State.invalidate_host, h.host, State.storeBytes_host]
  running := by rw [State.invalidate_running, h.running, State.storeBytes_running]
  pc r := by rw [State.invalidate_pc, h.pc (by rwa [State.storeBytes_running]), State.storeBytes_pc]
  calls := by
    obtain ⟨l, hl⟩ := h.calls
    exact ⟨l, by rw [State.invalidate_calls, hl, State.storeBytes_calls]⟩
  wf w := by
    have wt := State.wf_iff.1 (h.wf (State.storeBytes_keeps_wf pa n v w))
    exact State.wf_iff.2 ⟨wt.1, Cache.wf_invalidate pa n wt.2⟩
  coherent P w hn c := by
    have wt := State.wf_iff.1 (h.wf (State.storeBytes_keeps_wf pa n v w))
    have hoff : (s.storeBytes pa n v).coherentOff fun a => P a ∨ a ∈ overlappedWords pa n.bytes := by
      intro i e hf hp hd
      rw [State.storeBytes_cache] at hf
      rw [State.storeBytes_cfg] at hd
      rw [not_or] at hp
      have hval := c i e hf hp.1 hd
      have htag := tag_aligned (State.wf_iff.1 w).2 hf
      unfold State.storeBytes
      split
      · exact hval
      · rw [hval]
        exact (readWord_writeSize_other (State.wf_iff.1 w).1 hpa htag hp.2).symm
    have ht := h.coherent _ (State.storeBytes_keeps_wf pa n v w)
      (State.noForeignWrites_of_eq (State.storeBytes_script s pa n v) (State.storeBytes_host s pa n v) hn) hoff
    intro i e hf hp hd
    rw [State.invalidate_cache, Cache.find_invalidate pa n i wt.2] at hf
    split at hf
    · exact absurd hf (by simp)
    · rename_i hnone
      refine ht i e hf (fun hor => ?_) hd
      rcases hor with hor | hor
      · exact hp hor
      · exact hnone ⟨e.tag, hor, index_of_find wt.2 hf⟩
  zero z := by
    have hx : (s.storeBytes pa n v).gpr 0#5 = s.gpr 0#5 := State.gpr_congr (State.storeBytes_x s pa n v) _
    have hs : (s.storeBytes pa n v).noZeroWrites :=
      State.noZeroWrites_of_eq (State.storeBytes_script s pa n v) (State.storeBytes_host s pa n v) z
    exact (h.zero hs).trans hx
  halt e := h.halt (by rwa [State.storeBytes_halt])

theorem busWrite_state (pa : Word) (n : Size) (v : Dword) (s : State) :
    (busWrite pa n v s).state = (callCollaborator (.busWrite pa n (n.clip v)) (s.storeBytes pa n v)).state := by
  unfold busWrite
  cases callCollaborator (.busWrite pa n (n.clip v)) (s.storeBytes pa n v) <;> rfl

/-- A store of an aligned address, all of it. -/
theorem memWrite_keeps {va : Word} {n : Size} (v : Dword) (s : State) (ha : va.toNat % n.bytes = 0) :
    Keeps s (memWrite va n v s).state := by
  refine Keeps.bind (translate_serves va .store s).toKeeps fun pa t h => ?_
  rw [Res.after_state, busWrite_state]
  refine Keeps.store ?_ (callCollaborator_serves _ _)
  have hlow := congrArg BitVec.toNat (translateVia_low h)
  rw [toNat_mod_of_low, toNat_mod_of_low] at hlow
  cases n <;> simp only [Size.bytes] at * <;> omega

end Sys2Proof.Machine
end

