-- ==== Sys2Proof/Laws/Nested.lean ====
section
/-! SUPPORT. Calls within calls: the depth that `callNested` is given never limits them, so that `callCollaborator` has
the equation of a call that knows no depth (60_exceptions.md R269). -/
namespace Sys2Proof.Machine

/-- `t` comes after `s` in a run of one script: at least as many calls have been made. -/
def Later (s t : State) : Prop := t.script = s.script ∧ s.calls.length ≤ t.calls.length

theorem Later.refl (s : State) : Later s s := ⟨rfl, Nat.le_refl _⟩

theorem Later.trans {s t u : State} (h : Later s t) (k : Later t u) : Later s u :=
  ⟨k.1.trans h.1, Nat.le_trans h.2 k.2⟩

theorem Serves.later {s t : State} (h : Serves s t) : Later s t := by
  obtain ⟨l, hl⟩ := h.calls
  exact ⟨h.script, by rw [hl, List.length_append]; omega⟩

/-- Two ways of calling are the same from a state on. -/
def AgreeFrom (c1 c2 : Caller) (s : State) : Prop := ∀ c t, Later s t → c1 c t = c2 c t

theorem AgreeFrom.mono {c1 c2 : Caller} {s t : State} (h : AgreeFrom c1 c2 s) (hl : Later s t) : AgreeFrom c1 c2 t :=
  fun c u hu => h c u (hl.trans hu)

theorem Res.bind_congr {α β : Type} {r q : Res α} {f g : α → State → Res β} (h : r = q)
    (hf : ∀ a t, r = .ok a t → f a t = g a t) : r.bind f = q.bind g := by
  subst h
  cases r with
  | ok a t => exact hf a t rfl
  | stop t => rfl

/-- What a part does leaves a later state to the part after it. -/
theorem Serves.later_of {α : Type} {s t : State} {r : Res α} {a : α} (h : Serves s r.state) (e : r = .ok a t) :
    Later s t := by
  rw [e] at h
  exact h.later

section
variable {c1 c2 : Caller} (hc : CallerServes c1)
include hc

omit hc in
theorem AgreeFrom.self {s : State} (h : AgreeFrom c1 c2 s) (c : Call) : c1 c s = c2 c s := h c s (Later.refl s)

omit hc in
theorem AgreeFrom.translateVia {s : State} (h : AgreeFrom c1 c2 s) (va : Word) (kind : AccessKind) :
    translateVia c1 va kind s = Machine.translateVia c2 va kind s := by
  unfold Machine.translateVia
  rw [h.self]

omit hc in
theorem AgreeFrom.fetchReadVia {s : State} (h : AgreeFrom c1 c2 s) (pa : Word) :
    fetchReadVia c1 pa s = Machine.fetchReadVia c2 pa s := by
  unfold Machine.fetchReadVia busReadVia
  rw [h.self]

omit hc in
theorem AgreeFrom.fetchPhysicalVia {s : State} (h : AgreeFrom c1 c2 s) (pa : Word) :
    fetchPhysicalVia c1 pa s = Machine.fetchPhysicalVia c2 pa s := by
  have hd : AgreeFrom c1 c2 { s with draws := s.draws + 1 } := h.mono ⟨rfl, Nat.le_refl _⟩
  unfold Machine.fetchPhysicalVia fetchHitVia fetchMissVia
  rw [h.fetchReadVia pa]
  simp only [hd.fetchReadVia pa]

theorem AgreeFrom.fetchVia {s : State} (h : AgreeFrom c1 c2 s) (va : Word) :
    fetchVia c1 va s = Machine.fetchVia c2 va s := by
  unfold Machine.fetchVia
  split
  · exact Res.bind_congr (h.translateVia va .fetch) fun pa t e =>
      (h.mono ((translateVia_serves hc va .fetch s).later_of e)).fetchPhysicalVia pa
  · rfl

theorem AgreeFrom.idleSkipVia {s : State} (h : AgreeFrom c1 c2 s) : idleSkipVia c1 s = Machine.idleSkipVia c2 s := by
  unfold Machine.idleSkipVia
  refine Res.bind_congr (h.self _) fun _ t e => ?_
  have hl : Later s t := (hc _ s).later_of e
  have ht : Later s { t with syncCycles := 0#64 } := hl
  refine Res.bind_congr ((h.mono ht).self _) fun a u e => ?_
  have hu := ht.trans ((hc _ _).later_of e)
  split
  · refine Res.bind_congr ((h.mono hu).self _) fun _ v e => ?_
    rw [(h.mono (hu.trans ((hc _ _).later_of e))).self]
  · rfl

theorem AgreeFrom.probeVia {s : State} (h : AgreeFrom c1 c2 s) (bpc bw target : Word) :
    probeVia c1 bpc bw target s = Machine.probeVia c2 bpc bw target s := by
  unfold Machine.probeVia
  split
  · refine Res.bind_congr (h.fetchVia hc _) fun dwh t e => ?_
    have ht := (fetchVia_serves hc _ s).later_of e
    split
    · refine Res.bind_congr ((h.mono ht).self _) fun a u e => ?_
      rw [(h.mono (ht.trans ((hc _ _).later_of e))).idleSkipVia hc]
    · rfl
  · rfl

theorem AgreeFrom.ctlReadVia {s : State} (h : AgreeFrom c1 c2 s) (index : Nat) (width : Width) :
    ctlReadVia c1 index width s = Machine.ctlReadVia c2 index width s := by
  unfold Machine.ctlReadVia
  split
  · rfl
  · split
    case h_5 =>
      refine Res.bind_congr (h.self _) fun a t e => ?_
      rw [(h.mono ((hc _ s).later_of e)).self]
    case h_6 => rw [h.probeVia hc]
    all_goals rfl

omit hc in
theorem AgreeFrom.ctlWriteVia {s : State} (h : AgreeFrom c1 c2 s) (index : Nat) (width : Width) (v : Dword) :
    ctlWriteVia c1 index width v s = Machine.ctlWriteVia c2 index width v s := by
  unfold Machine.ctlWriteVia
  rw [(h.mono (t := { s with cpi := low32 v }) ⟨rfl, Nat.le_refl _⟩).self]

theorem AgreeFrom.performVia {s : State} (h : AgreeFrom c1 c2 s) (a : Action) :
    performVia c1 a s = Machine.performVia c2 a s := by
  cases a with
  | ctlRead index width => exact Res.bind_congr (h.ctlReadVia hc index width) fun _ _ _ => rfl
  | ctlWrite index width v => exact h.ctlWriteVia index width v
  | memWrite pa b => rfl
  | remap windows => rfl

omit hc in
/-- An action only makes calls: it leaves a later state. -/
theorem performVia_later (hc : CallerServes c1) {a : Action} {s t : State} (e : performVia c1 a s = .ok () t) :
    Later s t := by
  cases a with
  | ctlRead index width =>
    have hs : Serves s ((ctlReadVia c1 index width s).bind fun _ u => Res.ok () u).state :=
      Serves.bind (ctlReadVia_serves hc index width s) fun _ u _ => Serves.refl u
    exact hs.later_of e
  | ctlWrite index width v =>
    by_cases h : index = 0
    · subst h
      injection e with _ e
      exact e ▸ ⟨rfl, Nat.le_refl _⟩
    · exact (ctlWriteVia_serves hc index width v s fun _ => h).later_of e
  | memWrite pa b =>
    injection e with _ e
    exact e ▸ ⟨rfl, Nat.le_refl _⟩
  | remap windows =>
    injection e with _ e
    exact e ▸ ⟨rfl, Nat.le_refl _⟩

theorem AgreeFrom.performAllVia {s : State} (h : AgreeFrom c1 c2 s) (actions : List Action) :
    performAllVia c1 actions s = Machine.performAllVia c2 actions s := by
  induction actions generalizing s with
  | nil => rfl
  | cons a rest ih =>
    exact Res.bind_congr (h.performVia hc a) fun _ t e => ih (h.mono (performVia_later hc e))

end

/-! ## The depth -/

/-- How many entries of the script are for calls not made yet. -/
def State.scriptLeft (s : State) : Nat := (s.script.filter fun p => decide (s.calls.length ≤ p.1)).length

theorem Later.scriptLeft_le {s t : State} (h : Later s t) : t.scriptLeft ≤ s.scriptLeft := by
  unfold State.scriptLeft
  rw [h.1]
  refine (List.monotone_filter_right _ fun p hp => ?_).length_le
  simp only [decide_eq_true_eq] at hp ⊢
  exact Nat.le_trans h.2 hp

theorem mem_of_findAnswer {script : List (Nat × Answer)} {n : Nat} {a : Answer} (h : findAnswer script n = some a) :
    (n, a) ∈ script := by
  induction script with
  | nil => simp [findAnswer] at h
  | cons p rest ih =>
    obtain ⟨k, b⟩ := p
    unfold findAnswer at h
    split at h
    · rename_i hk
      obtain rfl := Option.some.inj h
      simp [hk]
    · exact List.mem_cons_of_mem _ (ih h)

/-- A call that the script has an answer for uses an entry up. -/
theorem State.scriptLeft_record {s : State} {a : Answer} (c : Call) (h : findAnswer s.script s.calls.length = some a) :
    (s.record c).scriptLeft < s.scriptLeft := by
  have hm := mem_of_findAnswer h
  unfold State.scriptLeft
  simp only [State.record, List.length_cons]
  generalize s.script = l at hm
  clear h
  induction l with
  | nil => simp at hm
  | cons p rest ih =>
    have hle : (rest.filter fun p => decide (s.calls.length + 1 ≤ p.1)).length ≤
        (rest.filter fun p => decide (s.calls.length ≤ p.1)).length := by
      refine (List.monotone_filter_right _ fun p hp => ?_).length_le
      simp only [decide_eq_true_eq] at hp ⊢
      omega
    rcases List.mem_cons.1 hm with h | h
    · subst h
      rw [List.filter_cons_of_neg (by simp), List.filter_cons_of_pos (by simp), List.length_cons]
      exact Nat.lt_succ_of_le hle
    · have := ih h
      by_cases h1 : s.calls.length + 1 ≤ p.1
      · rw [List.filter_cons_of_pos (by simpa using h1), List.filter_cons_of_pos (by simp; omega), List.length_cons,
          List.length_cons]
        omega
      · rw [List.filter_cons_of_neg (by simpa using h1)]
        refine Nat.lt_of_lt_of_le this ?_
        exact (List.Sublist.filter _ (List.sublist_cons_self p rest)).length_le

/-- A deeper nest than the script has entries left for is no other. -/
theorem callNested_succ (depth : Nat) (c : Call) (s : State) (h : s.scriptLeft ≤ depth) :
    callNested depth c s = callNested (depth + 1) c s := by
  induction depth generalizing c s with
  | zero =>
    have hn : s.nextAnswer.actions = [] := by
      unfold State.nextAnswer
      cases hf : findAnswer s.script s.calls.length with
      | none => rfl
      | some a => exact absurd (State.scriptLeft_record c hf) (by omega)
    show callQuietly c s = (performAllVia _ s.nextAnswer.actions (s.record c)).bind _
    rw [hn]
    rfl
  | succ d ih =>
    refine Res.bind_congr ?_ fun _ _ _ => rfl
    cases hf : findAnswer s.script s.calls.length with
    | none => simp [State.nextAnswer, hf, freeAnswer, performAllVia]
    | some a =>
      have hlt := State.scriptLeft_record c hf
      refine AgreeFrom.performAllVia (callNested_serves d) (fun c' t ht => ih c' t ?_) _
      have := ht.scriptLeft_le
      omega

theorem callNested_of_le {d e : Nat} (c : Call) (s : State) (h : s.scriptLeft ≤ d) (hde : d ≤ e) :
    callNested d c s = callNested e c s := by
  induction e, hde using Nat.le_induction with
  | base => rfl
  | succ e he ih => exact ih.trans (callNested_succ e c s (by omega))

theorem State.scriptLeft_le_length (s : State) : s.scriptLeft ≤ s.script.length := List.length_filter_le _ _

/-- What a call is: it is made, then the actions of its answer are done, in each of which a call is this again, then it
returns (60_exceptions.md R269, 10_state.md R40). -/
theorem callCollaborator_eq (c : Call) (s : State) :
    callCollaborator c s =
      (performAllVia callCollaborator s.nextAnswer.actions (s.record c)).bind fun _ t => .ok s.nextAnswer t := by
  refine Res.bind_congr ?_ fun _ _ _ => rfl
  refine AgreeFrom.performAllVia (callNested_serves _) (fun c' t ht => ?_) _
  have hl : s.script.length = t.script.length := by rw [ht.1]; rfl
  rw [hl]
  exact callNested_of_le c' t t.scriptLeft_le_length (Nat.le_succ _)

end Sys2Proof.Machine
end

