-- ==== Sys2Proof/Laws/Silent.lean ====
section
/-! SUPPORT. The shared operations in a silent environment, where nothing is done during a call: each is then an
equation, whose right side says the whole effect. -/
namespace Sys2Proof.Machine

/-- Silence depends on the script and on how many calls were made. -/
theorem State.silent_of {s t : State} (hs : t.script = s.script) (hc : s.calls.length ≤ t.calls.length)
    (h : s.silent) : t.silent := by
  intro n a hn ha
  rw [hs] at ha
  exact h n a (by omega) ha

/-- What a handler or a call leaves is as silent as it was. -/
theorem Keeps.silent {s t : State} (k : Keeps s t) (h : s.silent) : t.silent := by
  obtain ⟨l, hl⟩ := k.calls
  exact State.silent_of k.script (by rw [hl, List.length_append]; omega) h

theorem State.silent_record {s : State} (c : Call) (h : s.silent) : (s.record c).silent :=
  (Serves.record s c).toKeeps.silent h

/-- The next answer in a silent environment does nothing. -/
theorem State.nextAnswer_silent {s : State} (h : s.silent) : s.nextAnswer.silent := by
  unfold State.nextAnswer
  cases hf : findAnswer s.script s.calls.length with
  | none => exact ⟨rfl, rfl, rfl⟩
  | some a => exact h _ a (Nat.le_refl _) hf

theorem callCollaborator_silent {s : State} (c : Call) (h : s.silent) :
    callCollaborator c s = .ok s.nextAnswer (s.record c) := by
  rw [callCollaborator_eq, (State.nextAnswer_silent h).1]
  rfl

theorem translate_silent {s : State} {va pa : Word} {kind : AccessKind} (h : s.silent)
    (ht : translateAddress s.mmu va kind = some pa) :
    translate va kind s = .ok pa (s.record (.translate va kind)) := by
  unfold translate translateVia
  rw [callCollaborator_silent _ h, Res.bind_ok, ht]

theorem translate_silent_none {s : State} {va : Word} {kind : AccessKind} (h : s.silent)
    (ht : translateAddress s.mmu va kind = none) :
    translate va kind s = .stop { s.record (.translate va kind) with halt := some (.refused .translationFault) } := by
  unfold translate translateVia
  rw [callCollaborator_silent _ h, Res.bind_ok, ht]
  rfl

theorem busRead_silent {s : State} (pa : Word) (n : Size) (h : s.silent) :
    busRead pa n s =
      .ok (if isDevice s.cfg pa then n.clip s.nextAnswer.value else s.mem.readSize pa n)
        (s.record (.busRead pa n)) := by
  unfold busRead busReadVia
  rw [callCollaborator_silent _ h]
  rfl

theorem busWrite_silent {s : State} (pa : Word) (n : Size) (v : Dword) (h : s.silent) :
    busWrite pa n v s = .ok () ((s.storeBytes pa n v).record (.busWrite pa n (n.clip v))) := by
  unfold busWrite
  rw [callCollaborator_silent _ (State.silent_of (State.storeBytes_script s pa n v)
    (by rw [State.storeBytes_calls]) h)]
  rfl

/-- A read of ordinary memory (20_memory.md R57). -/
theorem memRead_silent {s : State} {va pa : Word} {n : Size} (h : s.silent)
    (ht : translateAddress s.mmu va .load = some pa) (hd : isDevice s.cfg pa = false) :
    memRead va n s = .ok (s.mem.readSize pa n) ((s.record (.translate va .load)).record (.busRead pa n)) := by
  unfold memRead
  rw [translate_silent h ht, Res.bind_ok, busRead_silent pa n (State.silent_record _ h)]
  simp [hd]

/-- A write of ordinary memory or of a device (20_memory.md R58). -/
theorem memWrite_silent {s : State} {va pa : Word} {n : Size} (v : Dword) (h : s.silent)
    (ht : translateAddress s.mmu va .store = some pa) :
    memWrite va n v s =
      .ok () ((((s.record (.translate va .store)).storeBytes pa n v).record (.busWrite pa n (n.clip v))).invalidate
        pa n) := by
  unfold memWrite
  rw [translate_silent h ht, Res.bind_ok, busWrite_silent pa n v (State.silent_record _ h), Res.after_ok]

theorem cop0Read_silent {s : State} (i : Reg) (h : s.silent) :
    cop0Read i s = .ok (low32 s.nextAnswer.value) (s.record (.cop0Read i)) := by
  unfold cop0Read
  rw [callCollaborator_silent _ h]
  rfl

theorem cop0Write_silent {s : State} (i : Reg) (v : Word) (h : s.silent) :
    cop0Write i v s = .ok () (s.record (.cop0Write i v)) := by
  unfold cop0Write
  rw [callCollaborator_silent _ h]
  rfl

theorem cop0Op_silent {s : State} (funct : BitVec 6) (h : s.silent) :
    cop0Op funct s = .ok () (s.record (.cop0Op funct)) := by
  unfold cop0Op
  rw [callCollaborator_silent _ h]
  rfl

/-- The address-error report (60_exceptions.md R263). -/
theorem raiseAddressError_silent {α : Type} {s : State} (kind : AccessKind) (va : Word) (h : s.silent) :
    (raiseAddressError kind va s : Res α) =
      .stop ((s.record (.cop0Write s.cfg.cop0BadVAddr va)).record
        (.cop0Write s.cfg.cop0Exc (faultCode s.cfg kind))) := by
  unfold raiseAddressError
  rw [cop0Write_silent _ _ h, Res.bind_ok, cop0Write_silent _ _ (State.silent_record _ h)]
  rfl

theorem checkAligned_ok {α : Type} {kind : AccessKind} {n : Size} {ea : Word} {access : State → Res α} {s : State}
    (h : misaligned n ea = false) : checkAligned kind n ea access s = access s := by
  simp [checkAligned, h]

theorem checkAligned_bad {α : Type} {kind : AccessKind} {n : Size} {ea : Word} {access : State → Res α} {s : State}
    (h : misaligned n ea = true) : checkAligned kind n ea access s = misalignedAccess kind n ea s := by
  simp [checkAligned, h]

/-! ## The branch operation -/

/-- A probe of a target that is not the branch itself does nothing (40_fetch_execute.md R102). -/
theorem probe_other {bpc bw target : Word} (s : State) (h : target ≠ bpc) : probe bpc bw target s = .ok false s := by
  simp [probe, probeVia, h]

theorem branchOp_refused {taken likely : Bool} {target : Word} {link : Option Reg} {s : State}
    (hb : s.bstate = .jump) (hc : s.cfg.branchInDs = .refuse) :
    branchOp taken target likely link s = .stop { s with halt := some (.refused .branchInDelaySlot) } := by
  simp [branchOp, hb, hc]

theorem State.not_branchRefused {s : State} (h : s.bstate ≠ .jump ∨ s.cfg.branchInDs = .derived) :
    ¬ (s.bstate = .jump ∧ s.cfg.branchInDs = .refuse) := by
  rintro ⟨h1, h2⟩
  rcases h with h | h
  · exact h h1
  · rw [h2] at h
    cases h

/-- A taken branch, but for a self-branch that is refused unwritten: the writes, then the probe. -/
theorem branchOp_probe {likely : Bool} {target : Word} {link : Option Reg} {s : State}
    (hb : s.bstate ≠ .jump ∨ s.cfg.branchInDs = .derived) (hl : s.refusedUnwritten target = false) :
    branchOp true target likely link s =
      (probe s.pc s.lastInstr target ((s.writeLink link).setBranch target .delaySlot)).bind fun _ t => .ok () t := by
  unfold branchOp
  rw [if_neg (State.not_branchRefused hb), if_pos rfl]
  simp only
  rw [hl]
  rfl

/-- A taken self-branch that is refused unwritten: the probe alone, which ends there. -/
theorem branchOp_refusedUnwritten {likely : Bool} {link : Option Reg} {s : State}
    (hb : s.bstate ≠ .jump ∨ s.cfg.branchInDs = .derived) (hl : s.refusedUnwritten s.pc = true) :
    branchOp true s.pc likely link s = (probe s.pc s.lastInstr s.pc s).bind fun _ t => .ok () t := by
  unfold branchOp
  rw [if_neg (State.not_branchRefused hb), if_pos rfl]
  simp only
  rw [if_pos hl]

theorem State.refusedUnwritten_other {s : State} {target : Word} (h : target ≠ s.pc) :
    s.refusedUnwritten target = false := by
  simp [State.refusedUnwritten, h]

theorem State.refusedUnwritten_of {s : State} {target : Word}
    (h : s.cfg.lookAheadRefusal = .afterWrites ∨ s.lookAheadRefused = false) : s.refusedUnwritten target = false := by
  rcases h with h | h <;> simp [State.refusedUnwritten, h]

theorem State.refusedUnwritten_self {s : State} (hc : s.cfg.lookAheadRefusal = .beforeWrites)
    (h : s.lookAheadRefused = true) : s.refusedUnwritten s.pc = true := by
  simp [State.refusedUnwritten, hc, h]

theorem aligned_iff (va : Word) : va.extractLsb' 0 2 = 0#2 ↔ va.toNat % 4 = 0 := by
  rw [← BitVec.toNat_inj, toNat_mod_of_low]
  rfl

theorem State.lookAheadRefused_iff {s : State} :
    s.lookAheadRefused = true ↔
      (s.pc + 4#32).toNat % 4 ≠ 0 ∨ translateAddress s.mmu (s.pc + 4#32) .fetch = none := by
  simp [State.lookAheadRefused, aligned_iff]

/-- The look-ahead fetch of a misaligned word is refused before any call. -/
theorem probe_misaligned {bpc bw : Word} {s : State} (h : (bpc + 4#32).toNat % 4 ≠ 0) :
    probe bpc bw bpc s = .stop { s with halt := some (.refused .misalignedFetch) } := by
  unfold probe probeVia
  rw [if_pos rfl, show fetchVia callCollaborator (bpc + 4#32) s = refuse .misalignedFetch s from ?_]
  · rfl
  · unfold fetchVia
    rw [if_neg (mt (aligned_iff _).1 h)]

/-- The look-ahead fetch of a word without a translation is refused after the call for one. -/
theorem probe_untranslated {bpc bw : Word} {s : State} (hs : s.silent) (h : (bpc + 4#32).toNat % 4 = 0)
    (ht : translateAddress s.mmu (bpc + 4#32) .fetch = none) :
    probe bpc bw bpc s = .stop
      { s with
        halt := some (.refused .translationFault), calls := .translate (bpc + 4#32) .fetch :: s.calls } := by
  unfold probe probeVia fetchVia
  rw [if_pos rfl, if_pos ((aligned_iff _).2 h)]
  have := translate_silent_none hs ht
  unfold translate at this
  rw [this]
  rfl

theorem branchOp_taken {likely : Bool} {target : Word} {link : Option Reg} {s : State}
    (hb : s.bstate ≠ .jump ∨ s.cfg.branchInDs = .derived) (ht : target ≠ s.pc) :
    branchOp true target likely link s = .ok () ((s.writeLink link).setBranch target .delaySlot) := by
  rw [branchOp_probe hb (State.refusedUnwritten_other ht), probe_other _ ht, Res.bind_ok]

theorem branchOp_untaken {likely : Bool} {target : Word} {link : Option Reg} {s : State}
    (hb : s.bstate ≠ .jump ∨ s.cfg.branchInDs = .derived) :
    branchOp false target likely link s =
      .ok () ((s.writeLink link).setBranch (s.pc + 8#32) (if likely then .jump else .delaySlot)) := by
  unfold branchOp
  rw [if_neg (State.not_branchRefused hb), if_neg (by simp)]

end Sys2Proof.Machine
end

