-- ==== Sys2Proof/Laws/Exec.lean ====
section
/-! SUPPORT. What every handler may do, said once: it answers a next state, and that state is what `Keeps` says. -/
namespace Sys2Proof.Machine

/-- The outcome is a next state that keeps what `Keeps` lists. -/
def NextKeeps (s : State) (o : Out) : Prop := ∃ t, o = .next t ∧ Keeps s t

theorem NextKeeps.of_keeps {s t : State} (h : Keeps s t) : NextKeeps s (.next t) := ⟨t, rfl, h⟩

theorem NextKeeps.outcome {α : Type} {s : State} {r : Res α} (h : Keeps s r.state) : NextKeeps s r.outcome :=
  ⟨r.state, rfl, h⟩

/-! ## The shared shapes of the register instructions -/

theorem NextKeeps.writeGpr (s : State) (r : Reg) (v : Dword) : NextKeeps s (.next (s.writeGpr r v)) :=
  .of_keeps (Keeps.writeGpr s r v)

theorem NextKeeps.setHiLo (s : State) (h l : Dword) : NextKeeps s (.next (s.setHiLo h l)) :=
  .of_keeps (Keeps.setHiLo s h l)

theorem NextKeeps.writeOp32 (rd : Reg) (fit : Bool) (f : Word) (s : State) : NextKeeps s (writeOp32 rd fit f s) := by
  unfold Machine.writeOp32
  split
  · exact .of_keeps ((Keeps.draw s).trans (Keeps.writeGpr _ _ _))
  · exact .writeGpr s rd _

theorem NextKeeps.drawHiLo (s : State) : NextKeeps s (drawHiLo s) :=
  .of_keeps (((Keeps.draw s).trans (Keeps.draw _)).trans (Keeps.setHiLo _ _ _))

theorem NextKeeps.writeHiLo32 (fit : Bool) (h l : Word) (s : State) : NextKeeps s (writeHiLo32 fit h l s) := by
  unfold Machine.writeHiLo32
  split
  · exact .drawHiLo s
  · exact .setHiLo s _ _

theorem NextKeeps.ite {s : State} {c : Prop} [Decidable c] {a b : Out} (ha : NextKeeps s a) (hb : NextKeeps s b) :
    NextKeeps s (if c then a else b) := by
  split
  · exact ha
  · exact hb

theorem NextKeeps.noEffect (s : State) : NextKeeps s (noEffect s) := .of_keeps (Keeps.refl s)

/-! ## Branches -/

theorem branchOp_keeps (taken : Bool) (target : Word) (likely : Bool) (link : Option Reg) (s : State) :
    Keeps s (branchOp taken target likely link s).state := by
  unfold branchOp
  split
  · exact (Serves.refuse _ s).toKeeps
  · split
    · refine Keeps.trans ?_ (Serves.toKeeps (Serves.bind (probe_serves _ _ _ _) fun _ t _ => Serves.refl t))
      split
      · exact Keeps.refl s
      · exact (Keeps.writeLink s link).trans (Keeps.setBranch _ _ _)
    · exact (Keeps.writeLink s link).trans (Keeps.setBranch _ _ _)

theorem NextKeeps.branch (taken : Bool) (target : Word) (likely : Bool) (link : Option Reg) (s : State) :
    NextKeeps s (branchOp taken target likely link s).outcome :=
  .outcome (branchOp_keeps taken target likely link s)

/-! ## Memory accesses -/

theorem aligned_of {n : Size} {ea : Word} (h : misaligned n ea = false) : ea.toNat % n.bytes = 0 := by
  simpa [misaligned] using h

theorem loadOp_keeps (n : Size) (ext : Dword → Dword) (rt : Reg) (offset : BitVec 16) (base : Reg) (s : State) :
    Keeps s (loadOp n ext rt offset base s).state :=
  checkAligned_keeps fun _ => Keeps.bind (memRead_serves _ n s).toKeeps fun _ t _ => Keeps.writeGpr t rt _

theorem storeOp_keeps (n : Size) (rt : Reg) (offset : BitVec 16) (base : Reg) (s : State) :
    Keeps s (storeOp n rt offset base s).state :=
  checkAligned_keeps fun h => memWrite_keeps _ s (aligned_of h)

theorem Keeps.setLlbit (s : State) (b : Bool) : Keeps s { s with llbit := b } :=
  Keeps.of_same rfl rfl rfl rfl rfl rfl rfl rfl rfl

theorem linkedLoadOp_keeps (n : Size) (ext : Dword → Dword) (rt : Reg) (offset : BitVec 16) (base : Reg) (s : State) :
    Keeps s (linkedLoadOp n ext rt offset base s).state :=
  Keeps.bind (loadOp_keeps n ext rt offset base s) fun _ t _ => Keeps.setLlbit t true

theorem conditionalStoreOp_keeps (n : Size) (rt : Reg) (offset : BitVec 16) (base : Reg) (s : State) :
    Keeps s (conditionalStoreOp n rt offset base s).state := by
  refine checkAligned_keeps fun h => ?_
  split
  · exact Keeps.bind (memWrite_keeps _ s (aligned_of h)) fun _ t _ => Keeps.writeGpr t rt _
  · exact Keeps.writeGpr s rt _

/-- The aligned unit of an address is at a multiple of its size. -/
theorem toNat_sub_mod {ea : Word} {k : Nat} (hk : k ≤ ea.toNat) : (ea - BitVec.ofNat 32 k).toNat = ea.toNat - k := by
  have := ea.isLt
  rw [BitVec.toNat_sub, BitVec.toNat_ofNat]
  omega

theorem alignedWord_toNat (ea : Word) : (alignedWord ea).toNat = ea.toNat - ea.toNat % 4 :=
  toNat_sub_mod (Nat.mod_le _ _)

theorem alignedDoubleword_toNat (ea : Word) : (alignedDoubleword ea).toNat = ea.toNat - ea.toNat % 8 :=
  toNat_sub_mod (Nat.mod_le _ _)

theorem alignedWord_mod (ea : Word) : (alignedWord ea).toNat % Size.b4.bytes = 0 := by
  rw [alignedWord_toNat]
  show _ % 4 = 0
  omega

theorem alignedDoubleword_mod (ea : Word) : (alignedDoubleword ea).toNat % Size.b8.bytes = 0 := by
  rw [alignedDoubleword_toNat]
  show _ % 8 = 0
  omega

theorem extendLwl_keeps (k : Nat) (v : Word) (s : State) : Keeps s (extendLwl k v s).2 := Keeps.refl s

theorem extendLwr_keeps (k : Nat) (v : Word) (s : State) : Keeps s (extendLwr k v s).2 := by
  unfold extendLwr
  split
  · exact Keeps.draw s
  · exact Keeps.refl s

theorem partialLoadWord_keeps {merge : Nat → Word → Word → Word} {extend : Nat → Word → State → Dword × State}
    (he : ∀ k v s, Keeps s (extend k v s).2) (rt : Reg) (offset : BitVec 16) (base : Reg) (s : State) :
    Keeps s (partialLoadWord merge extend rt offset base s).state :=
  Keeps.bind (memRead_serves _ _ s).toKeeps fun _ _ _ => (he _ _ _).trans (Keeps.writeGpr _ rt _)

theorem partialLoadDoubleword_keeps (merge : Nat → Dword → Dword → Dword) (rt : Reg) (offset : BitVec 16) (base : Reg)
    (s : State) : Keeps s (partialLoadDoubleword merge rt offset base s).state :=
  Keeps.bind (memRead_serves _ _ s).toKeeps fun _ t _ => Keeps.writeGpr t rt _

theorem partialStoreWord_keeps (merge : Nat → Word → Word → Word) (rt : Reg) (offset : BitVec 16) (base : Reg)
    (s : State) : Keeps s (partialStoreWord merge rt offset base s).state :=
  Keeps.bind (memRead_serves _ _ s).toKeeps fun _ t _ => memWrite_keeps _ t (alignedWord_mod _)

theorem partialStoreDoubleword_keeps (merge : Nat → Dword → Dword → Dword) (rt : Reg) (offset : BitVec 16) (base : Reg)
    (s : State) : Keeps s (partialStoreDoubleword merge rt offset base s).state :=
  Keeps.bind (memRead_serves _ _ s).toKeeps fun _ t _ => memWrite_keeps _ t (alignedDoubleword_mod _)

/-! ## Coprocessors -/

theorem moveFromCop0_keeps (rt rd : Reg) (s : State) : Keeps s (moveFromCop0 rt rd s).state :=
  Keeps.bind (cop0Read_serves rd s).toKeeps fun _ t _ => Keeps.writeGpr t rt _

theorem moveToCop0_keeps (rt rd : Reg) (s : State) : Keeps s (moveToCop0 rt rd s).state :=
  (cop0Write_serves rd _ s).toKeeps

/-- What the executor does, where an action among it is one the environment makes. -/
theorem runCop1Op_keeps (o : Cop1Op) (s : State)
    (hf : s.noForeignWrites → ∀ a, o.action = some a → a.foreignWrite = false)
    (hz : s.noZeroWrites → ∀ a, o.action = some a → a.writesZero = false) : Keeps s (runCop1Op o s).state := by
  cases o with
  | act a =>
    exact (performVia_serves callCollaborator_serves a s (fun n => hf n a rfl) fun z => hz z a rfl).toKeeps
  | writeGpr r v => exact Keeps.writeGpr s r v
  | memRead va n =>
    unfold runCop1Op
    refine checkAligned_keeps fun _ => Serves.toKeeps ?_
    exact Serves.bind (memRead_serves va n s) fun _ t _ => Serves.refl t
  | memWrite va n v => exact checkAligned_keeps fun h => memWrite_keeps v s (aligned_of h)
  | regRead i => exact Serves.toKeeps (Serves.bind (callCollaborator_serves _ s) fun _ t _ => Serves.refl t)
  | regWrite i v => exact Serves.toKeeps (Serves.bind (callCollaborator_serves _ s) fun _ t _ => Serves.refl t)

theorem runCop1Ops_keeps (ops : List Cop1Op) (s : State)
    (hf : s.noForeignWrites → ∀ o ∈ ops, ∀ a, o.action = some a → a.foreignWrite = false)
    (hz : s.noZeroWrites → ∀ o ∈ ops, ∀ a, o.action = some a → a.writesZero = false) :
    Keeps s (runCop1Ops ops s).state := by
  induction ops generalizing s with
  | nil => exact Keeps.refl s
  | cons o rest ih =>
    have hk := runCop1Op_keeps o s (fun n => hf n o List.mem_cons_self) fun z => hz z o List.mem_cons_self
    refine Keeps.bind hk fun _ t h => ?_
    rw [h] at hk
    exact ih t
      (fun n p hp => hf (State.noForeignWrites_of_eq hk.script.symm hk.host.symm n) p (List.mem_cons_of_mem _ hp))
      fun z p hp => hz (State.noZeroWrites_of_eq hk.script.symm hk.host.symm z) p (List.mem_cons_of_mem _ hp)

/-- The whole of what an answer has the executor do. -/
theorem runCop1_keeps (a : Answer) (s : State)
    (hf : s.noForeignWrites → ∀ act ∈ a.allActions, act.foreignWrite = false)
    (hz : s.noZeroWrites → ∀ act ∈ a.allActions, act.writesZero = false) : Keeps s (runCop1 a s).state := by
  have mem : ∀ o ∈ a.executorOps, ∀ act, o.action = some act → act ∈ a.allActions := fun o ho act h =>
    List.mem_append_right _ (List.mem_filterMap.2 ⟨o, ho, h⟩)
  have part : ∀ ops, (∀ o ∈ ops, o ∈ a.executorOps) → ∀ t, t.script = s.script → t.host = s.host →
      Keeps t (runCop1Ops ops t).state := fun ops hsub t h1 h2 =>
    runCop1Ops_keeps ops t
      (fun n o ho act h => hf (State.noForeignWrites_of_eq h1.symm h2.symm n) act (mem o (hsub o ho) act h))
      fun z o ho act h => hz (State.noZeroWrites_of_eq h1.symm h2.symm z) act (mem o (hsub o ho) act h)
  have h1 := part a.cop1Ops (fun o ho => List.mem_append_left _ ho) s rfl rfl
  refine Keeps.bind h1 fun _ t e => ?_
  rw [e] at h1
  split
  · exact Keeps.refl t
  · rename_i b hb
    have h2 := branchOp_keeps b.taken b.target b.likely b.link t
    refine Keeps.bind h2 fun _ u e => ?_
    rw [e] at h2
    refine part b.after (fun o ho => List.mem_append_right _ ?_) u (h2.script.trans h1.script) (h2.host.trans h1.host)
    rw [hb]
    exact ho

theorem cop1Class_keeps (w : Word) (s : State) : Keeps s (cop1Class w s).state := by
  unfold cop1Class
  split
  · have hs := callCollaborator_serves (.cop1Exec w s.pc) s
    refine Keeps.bind hs.toKeeps fun a t e => ?_
    rw [e] at hs
    obtain rfl := callCollaborator_answer e
    exact runCop1_keeps _ t
      (fun n => State.nextAnswer_allActions (State.noForeignWrites_of_eq hs.script.symm hs.host.symm n).1)
      fun z => State.nextAnswer_allActions (State.noZeroWrites_of_eq hs.script.symm hs.host.symm z).1
  · exact (Serves.refuse _ s).toKeeps

/-! ## Every handler -/

/-- Every handler answers a next state and does no more than `Keeps` says. -/
theorem exec_keeps (i : Instr) (s : State) : NextKeeps s (exec i s) := by
  cases i with
  | add | addu | sub | subu | addi | addiu | srl | sra | srlv | srav => exact .writeOp32 _ _ _ s
  | dadd | daddu | dsub | dsubu | daddi | daddiu | and | or | xor | nor | andi | ori | xori | lui | slt | sltu
  | slti | sltiu | sll | sllv | dsll | dsrl | dsra | dsll32 | dsrl32 | dsra32 | dsllv | dsrlv | dsrav | mfhi
  | mflo => exact .writeGpr s _ _
  | mult | multu => exact .writeHiLo32 _ _ _ s
  | div | divu => exact .ite (.drawHiLo s) (.writeHiLo32 _ _ _ s)
  | dmult | dmultu | mthi | mtlo => exact .setHiLo s _ _
  | ddiv | ddivu => exact .ite (.drawHiLo s) (.setHiLo s _ _)
  | j | jal | jr | jalr | beq | bne | blez | bgtz | beql | bnel | blezl | bgtzl | bltz | bgez | bltzl | bgezl
  | bltzal | bgezal | bltzall | bgezall => exact .branch _ _ _ _ s
  | lb | lbu | lh | lhu | lw | lwu | ld => exact .outcome (loadOp_keeps _ _ _ _ _ s)
  | lwl => exact .outcome (partialLoadWord_keeps extendLwl_keeps _ _ _ s)
  | lwr => exact .outcome (partialLoadWord_keeps extendLwr_keeps _ _ _ s)
  | ldl | ldr => exact .outcome (partialLoadDoubleword_keeps _ _ _ _ s)
  | ll | lld => exact .outcome (linkedLoadOp_keeps _ _ _ _ _ s)
  | sb | sh | sw | sd => exact .outcome (storeOp_keeps _ _ _ _ s)
  | swl | swr => exact .outcome (partialStoreWord_keeps _ _ _ _ s)
  | sdl | sdr => exact .outcome (partialStoreDoubleword_keeps _ _ _ _ s)
  | sc | scd => exact .outcome (conditionalStoreOp_keeps _ _ _ _ s)
  | sync | cache | tge | tgeu | tlt | tltu | teq | tne | tgei | tgeiu | tlti | tltiu | teqi | tnei => exact .noEffect s
  | syscall | brk => exact .outcome (Serves.refuse (α := Unit) _ s).toKeeps
  | mfc0 | dmfc0 => exact .outcome (moveFromCop0_keeps _ _ s)
  | mtc0 | dmtc0 => exact .outcome (moveToCop0_keeps _ _ s)
  | tlbr | tlbwi | tlbwr | tlbp | eret => exact .outcome (cop0Op_serves _ s).toKeeps
  | cop1 | lwc1 | ldc1 | swc1 | sdc1 => exact .outcome (cop1Class_keeps _ s)

end Sys2Proof.Machine
end

