-- ==== Sys2Proof/Laws/Frames.lean ====
section
/-! SUPPORT. The effect of each shared shape in the words of Safety.lean: a register write, a 32-bit operation, a
branch, a store; and what a read of several bytes is, byte by byte. -/
namespace Sys2Proof.Machine

/-! ## Registers -/

theorem State.withX_writeGpr (s : State) (r : Reg) (v : Dword) : { s.writeGpr r v with x := s.x } = s := by
  unfold State.writeGpr
  split <;> rfl

theorem State.onlyGpr_writeGpr (s : State) (r : Reg) (v : Dword) : s.onlyGpr (s.writeGpr r v) r v :=
  ⟨fun q => State.gpr_writeGpr s r q v, State.withX_writeGpr s r v⟩

theorem fit_iff (s : State) (rs rt : Reg) :
    (isSext32 (s.gpr rs) && isSext32 (s.gpr rt)) = true ↔ ∀ r ∈ [rs, rt], s.gpr r = sext64 (low32 (s.gpr r)) := by
  simp [isSext32]

theorem fit_iff_one (s : State) (rs : Reg) :
    isSext32 (s.gpr rs) = true ↔ ∀ r ∈ [rs], s.gpr r = sext64 (low32 (s.gpr r)) := by
  simp [isSext32]

theorem op32Defined_iff {s : State} {operands : List Reg} {fit : Bool}
    (hf : fit = true ↔ ∀ r ∈ operands, s.gpr r = sext64 (low32 (s.gpr r))) :
    s.op32Defined operands ↔ ¬ (s.cfg.nonSext32 = .draw ∧ fit = false) := by
  unfold State.op32Defined
  rw [← hf]
  cases s.cfg.nonSext32 <;> cases fit <;> simp

/-- The write of a 32-bit operation (41_alu.md R109). -/
theorem writeOp32_op32 {s : State} {operands : List Reg} {fit : Bool} (rd : Reg) (f : Word)
    (hf : fit = true ↔ ∀ r ∈ operands, s.gpr r = sext64 (low32 (s.gpr r))) :
    ∃ t, writeOp32 rd fit f s = .next t ∧ s.op32 t rd operands f := by
  unfold writeOp32
  split
  · rename_i h
    refine ⟨_, rfl, fun hd => absurd h ((op32Defined_iff hf).1 hd), fun _ => ⟨s.draw.1, ?_⟩⟩
    exact State.onlyGpr_writeGpr s.draw.2 rd _
  · rename_i h
    exact ⟨_, rfl, fun _ => State.onlyGpr_writeGpr s rd _, fun hn => absurd ((op32Defined_iff hf).2 h) hn⟩

/-- The write of a 32-bit multiply or divide (43_muldiv.md R155). -/
theorem writeHiLo32_op32HiLo {s : State} {operands : List Reg} {fit : Bool} (h l : Word)
    (hf : fit = true ↔ ∀ r ∈ operands, s.gpr r = sext64 (low32 (s.gpr r))) :
    ∃ t, writeHiLo32 fit h l s = .next t ∧ s.op32HiLo t operands h l := by
  unfold writeHiLo32
  split
  · rename_i hc
    exact ⟨_, rfl, fun hd => absurd hc ((op32Defined_iff hf).1 hd), fun _ => ⟨_, _, rfl⟩⟩
  · rename_i hc
    exact ⟨_, rfl, fun _ => rfl, fun hn => absurd ((op32Defined_iff hf).2 hc) hn⟩

/-! ## Branches -/

theorem State.gpr_writeLink (s : State) (link : Option Reg) (q : Reg) :
    (s.writeLink link).gpr q = if link = some q ∧ q ≠ 0#5 then sext64 (s.pc + 8#32) else s.gpr q := by
  cases link with
  | none => simp [State.writeLink]
  | some r =>
    simp only [State.writeLink, State.gpr_writeGpr, State.linkValue, Option.some.injEq]
    by_cases h : q = r
    · subst h
      simp
    · rw [if_neg fun hc => h hc.1, if_neg fun hc => h hc.1.symm]

theorem State.branched_setBranch (s : State) (link : Option Reg) (target : Word) (b : BranchState) :
    s.branched ((s.writeLink link).setBranch target b) target b link := by
  refine ⟨fun q => State.gpr_writeLink s link q, ?_⟩
  cases link with
  | none => rfl
  | some r =>
    simp only [State.writeLink, State.writeGpr, State.setBranch]
    split <;> rfl

/-- A taken self-branch whose look-ahead fetch is refused ends with its writes made or not, as `lookAheadRefusal` says. -/
theorem branchOp_lookAheadRefused {likely : Bool} {link : Option Reg} {s : State}
    (hok : s.bstate ≠ .jump ∨ s.cfg.branchInDs = .derived) :
    ∃ u, (s.cfg.lookAheadRefusal = .afterWrites → s.branched u s.pc .delaySlot link) ∧
      (s.cfg.lookAheadRefusal = .beforeWrites → u = s) ∧
      ((s.pc + 4#32).toNat % 4 ≠ 0 →
        (branchOp true s.pc likely link s).state = { u with halt := some (.refused .misalignedFetch) }) ∧
      (s.silent → (s.pc + 4#32).toNat % 4 = 0 → translateAddress s.mmu (s.pc + 4#32) .fetch = none →
        (branchOp true s.pc likely link s).state =
          { u with
            halt := some (.refused .translationFault), calls := .translate (s.pc + 4#32) .fetch :: s.calls }) := by
  cases hc : s.cfg.lookAheadRefusal with
  | afterWrites =>
    have hb := branchOp_probe (likely := likely) (link := link) hok (State.refusedUnwritten_of (target := s.pc) (.inl hc))
    refine ⟨_, fun _ => State.branched_setBranch s link s.pc .delaySlot, nofun, fun hm => ?_, fun hs hm htr => ?_⟩
    · rw [hb, probe_misaligned hm]
      rfl
    · have hk := (Keeps.writeLink s link).trans (Keeps.setBranch _ s.pc .delaySlot)
      have hmmu : ((s.writeLink link).setBranch s.pc .delaySlot).mmu = s.mmu := by simp
      have hcalls : ((s.writeLink link).setBranch s.pc .delaySlot).calls = s.calls := by simp
      rw [hb, probe_untranslated (hk.silent hs) hm (by rw [hmmu]; exact htr), hcalls]
      rfl
  | beforeWrites =>
    refine ⟨s, nofun, fun _ => rfl, fun hm => ?_, fun hs hm htr => ?_⟩
    · rw [branchOp_refusedUnwritten hok (State.refusedUnwritten_self hc (State.lookAheadRefused_iff.2 (.inl hm))),
        probe_misaligned hm]
      rfl
    · rw [branchOp_refusedUnwritten hok (State.refusedUnwritten_self hc (State.lookAheadRefused_iff.2 (.inr htr))),
        probe_untranslated hs hm htr]
      rfl

/-- What every branch and jump does (44_branch.md R174), for an instruction whose handler is one `BranchOp`. -/
theorem State.branches_of {s : State} {i : Instr} {taken : Bool} {P : Prop} {target : Word} {likely : Bool}
    {link : Option Reg} (hi : exec i s = (branchOp taken target likely link s).outcome) (hp : taken = true ↔ P) :
    s.branches i P target (if likely then .jump else .delaySlot) link := by
  intro w _
  refine ⟨_, hi, fun hb hc => by rw [branchOp_refused hb hc]; rfl, fun hok => ⟨fun hn => ?_, fun ht hne => ?_, ?_, ?_⟩⟩
  · have hf : taken = false := by simpa using mt hp.1 hn
    refine ⟨_, State.branched_setBranch s link _ _, ?_⟩
    rw [hf, branchOp_untaken hok]
    rfl
  · refine ⟨_, State.branched_setBranch s link target .delaySlot, ?_⟩
    rw [hp.2 ht, branchOp_taken hok hne]
    rfl
  · intro ht _ hl hr
    refine ⟨_, State.branched_setBranch s link target .delaySlot, ?_⟩
    rw [hp.2 ht, branchOp_probe hok (State.refusedUnwritten_of hr), hl]
    cases probe s.pc w target ((s.writeLink link).setBranch target .delaySlot) <;> rfl
  · rintro ht rfl
    rw [hp.2 ht]
    exact branchOp_lookAheadRefused hok

/-! ## Bytes of memory -/

theorem Memory.read_of_lt {m : Memory} {pa : Word} {j count : Nat} (hj : j < count) (hfit : pa.toNat + count ≤ 2 ^ 32) :
    m.read (pa + BitVec.ofNat 32 j).toNat = m.read (pa.toNat + j) := by
  rw [toNat_add_ofNat hj hfit]

theorem Memory.readSize_b1 (m : Memory) (pa : Word) : m.readSize pa .b1 = (m.read pa.toNat).setWidth 64 := by
  simp [Memory.readSize, Size.bytes, Memory.readBytes]

theorem Memory.readSize_b2 (m : Memory) (pa : Word) (hfit : pa.toNat + 2 ≤ 2 ^ 32) :
    m.readSize pa .b2 = (m.read (pa.toNat + 0) ++ m.read (pa.toNat + 1)).setWidth 64 := by
  simp only [Memory.readSize, Size.bytes, Memory.readBytes, Memory.read_of_lt (show 0 < 2 by omega) hfit,
    Memory.read_of_lt (show 1 < 2 by omega) hfit]
  generalize m.read (pa.toNat + 0) = b0
  generalize m.read (pa.toNat + 1) = b1
  apply BitVec.eq_of_getLsbD_eq
  intro i hi
  simp only [BitVec.getLsbD_setWidth, BitVec.getLsbD_or, BitVec.getLsbD_shiftLeft, BitVec.getLsbD_append]
  interval_cases i <;> simp

theorem State.readWord_eq_wordAt (s : State) (pa : Word) (hfit : pa.toNat + 4 ≤ 2 ^ 32) :
    s.mem.readWord pa = s.wordAt pa := by
  have h := Memory.readWord_eq s.mem pa
  rw [h]
  simp only [State.wordAt, State.byteAt]
  have h0 := Memory.read_of_lt (m := s.mem) (show 0 < 4 by omega) hfit
  have h1 := Memory.read_of_lt (m := s.mem) (show 1 < 4 by omega) hfit
  have h2 := Memory.read_of_lt (m := s.mem) (show 2 < 4 by omega) hfit
  have h3 := Memory.read_of_lt (m := s.mem) (show 3 < 4 by omega) hfit
  rw [← h0, ← h1, ← h2, ← h3]

theorem State.low32_readSize (s : State) (pa : Word) (hfit : pa.toNat + 4 ≤ 2 ^ 32) :
    low32 (s.mem.readSize pa .b4) = s.wordAt pa := State.readWord_eq_wordAt s pa hfit

theorem State.readSize_b8 (s : State) (pa : Word) (hfit : pa.toNat + 8 ≤ 2 ^ 32) :
    s.mem.readSize pa .b8 = s.dwordAt pa := by
  simp only [Memory.readSize, Size.bytes, Memory.readBytes, Memory.read_of_lt (show 0 < 8 by omega) hfit,
    Memory.read_of_lt (show 1 < 8 by omega) hfit, Memory.read_of_lt (show 2 < 8 by omega) hfit,
    Memory.read_of_lt (show 3 < 8 by omega) hfit, Memory.read_of_lt (show 4 < 8 by omega) hfit,
    Memory.read_of_lt (show 5 < 8 by omega) hfit, Memory.read_of_lt (show 6 < 8 by omega) hfit,
    Memory.read_of_lt (show 7 < 8 by omega) hfit, State.dwordAt, State.byteAt]
  generalize s.mem.read (pa.toNat + 0) = b0
  generalize s.mem.read (pa.toNat + 1) = b1
  generalize s.mem.read (pa.toNat + 2) = b2
  generalize s.mem.read (pa.toNat + 3) = b3
  generalize s.mem.read (pa.toNat + 4) = b4
  generalize s.mem.read (pa.toNat + 5) = b5
  generalize s.mem.read (pa.toNat + 6) = b6
  generalize s.mem.read (pa.toNat + 7) = b7
  apply BitVec.eq_of_getLsbD_eq
  intro i hi
  simp only [BitVec.getLsbD_setWidth, BitVec.getLsbD_or, BitVec.getLsbD_shiftLeft, BitVec.getLsbD_append]
  interval_cases i <;> simp

/-- A translation of an aligned address is aligned (log entry 6), so its bytes do not wrap. -/
theorem fits_of_translate {windows : List Window} {va pa : Word} {kind : AccessKind} {count : Nat}
    (hcount : count = 1 ∨ count = 2 ∨ count = 4 ∨ count = 8) (ha : va.toNat % count = 0)
    (h : translateAddress windows va kind = some pa) : pa.toNat % count = 0 ∧ pa.toNat + count ≤ 2 ^ 32 := by
  have hlow := congrArg BitVec.toNat (translateAddress_low h)
  rw [toNat_mod_of_low, toNat_mod_of_low] at hlow
  have := pa.isLt
  rcases hcount with rfl | rfl | rfl | rfl <;> omega

/-! ## A store -/

theorem Size.bytes_le (n : Size) : n.bytes ≤ 8 := by cases n <;> decide

theorem Size.bytes_cases (n : Size) : n.bytes = 1 ∨ n.bytes = 2 ∨ n.bytes = 4 ∨ n.bytes = 8 := by cases n <;> decide

/-- The words `Invalidate` goes through are those of 40_fetch_execute.md R91. -/
theorem mem_overlappedWords_iff {pa a : Word} {n : Size} :
    a ∈ overlappedWords pa n.bytes ↔ overlaps pa n.bytes a := by
  refine ⟨fun h => ?_, fun ⟨h0, h1, h2⟩ => mem_overlappedWords h0 n.bytes_le h1 h2⟩
  unfold overlappedWords at h
  obtain ⟨hm, hb⟩ := List.mem_filter.1 h
  have hbase : (pa &&& ~~~3#32).toNat % 4 = 0 := by
    have h2 : (pa &&& ~~~3#32).extractLsb' 0 2 = 0#2 := by
      apply BitVec.eq_of_getLsbD_eq
      intro i hi
      simp only [BitVec.getLsbD_extractLsb', BitVec.getLsbD_and]
      interval_cases i <;> simp
    have := congrArg BitVec.toNat h2
    rw [toNat_mod_of_low] at this
    simpa using this
  refine ⟨?_, by simpa using hb⟩
  simp only [List.mem_cons, List.not_mem_nil, or_false] at hm
  rcases hm with rfl | rfl | rfl
  · exact hbase
  · rw [BitVec.toNat_add, BitVec.toNat_ofNat]
    omega
  · rw [BitVec.toNat_add, BitVec.toNat_ofNat]
    omega

theorem Memory.stored_writeSize {m : Memory} {pa : Word} {n : Size} (v : Dword) (hm : m.wf = true)
    (hfit : pa.toNat + n.bytes ≤ 2 ^ 32) : m.stored (m.writeSize pa n v) pa n.bytes v := by
  refine ⟨fun k hk => Memory.read_writeBytes pa _ v k hm hk hfit, fun a ha => ?_⟩
  refine Memory.read_writeBytes_other pa _ v a hm fun j hj => ?_
  rw [toNat_add_ofNat hj hfit]
  omega

/-- A store to ordinary memory in a silent environment (20_memory.md R58). -/
theorem memWrite_storedOnly {s : State} {va pa : Word} {n : Size} (v : Dword) (hs : s.silent) (hw : s.wf = true)
    (ha : va.toNat % n.bytes = 0) (ht : translateAddress s.mmu va .store = some pa) (hd : isDevice s.cfg pa = false) :
    ∃ t, memWrite va n v s = .ok () t ∧ s.storedOnly t va pa n v := by
  have hfit := (fits_of_translate n.bytes_cases ha ht).2
  have hwf := State.wf_iff.1 hw
  have hst : (s.record (.translate va .store)).storeBytes pa n v =
      { s.record (.translate va .store) with mem := s.mem.writeSize pa n v } := by
    unfold State.storeBytes
    rw [if_neg (by simp [hd])]
    rfl
  refine ⟨_, memWrite_silent v hs ht, ?_, ⟨fun a i ho hi => ?_, fun i hno => ?_⟩, ?_, ?_⟩
  · rw [hst]
    exact Memory.stored_writeSize v hwf.1 hfit
  · rw [hst]
    exact (Cache.find_invalidate pa n i hwf.2).trans (if_pos ⟨a, mem_overlappedWords_iff.2 ho, hi⟩)
  · rw [hst]
    refine (Cache.find_invalidate pa n i hwf.2).trans (if_neg ?_)
    rintro ⟨a, ha, hi⟩
    exact hno a (mem_overlappedWords_iff.1 ha) hi
  · rw [hst]
    rfl
  · rw [hst]
    rfl

end Sys2Proof.Machine
end

