-- ==== Sys2Proof/Laws/Access.lean ====
section
/-! SUPPORT. The loads and stores in a silent environment, as equations over ordinary memory: one lemma per shared
operation of LoadStore.lean, with what it does on a misaligned address and on one that has no translation. -/
namespace Sys2Proof.Machine

theorem misaligned_of_mod {n : Size} {ea : Word} (h : ea.toNat % n.bytes = 0) : misaligned n ea = false := by
  simp [misaligned, h]

theorem misaligned_of_mod_ne {n : Size} {ea : Word} (h : ea.toNat % n.bytes ≠ 0) : misaligned n ea = true := by
  simp [misaligned, h]

/-- The state after the two calls of a read of memory. -/
def State.afterRead (s : State) (va pa : Word) (n : Size) : State :=
  { s with calls := .busRead pa n :: .translate va .load :: s.calls }

theorem State.afterRead_silent {s : State} (va pa : Word) (n : Size) (h : s.silent) : (s.afterRead va pa n).silent :=
  State.silent_record _ (State.silent_record (.translate va .load) h)

theorem memRead_afterRead {s : State} {va pa : Word} {n : Size} (h : s.silent)
    (ht : translateAddress s.mmu va .load = some pa) (hd : isDevice s.cfg pa = false) :
    memRead va n s = .ok (s.mem.readSize pa n) (s.afterRead va pa n) :=
  memRead_silent h ht hd

/-- An aligned load (45_loadstore.md R199). -/
theorem loadOp_silent {s : State} {rt base : Reg} {offset : BitVec 16} {n : Size} {ext : Dword → Dword} {ea pa : Word}
    (hs : s.silent) (he : s.effectiveAddress base offset = ea) (ha : ea.toNat % n.bytes = 0)
    (ht : translateAddress s.mmu ea .load = some pa) (hd : isDevice s.cfg pa = false) :
    loadOp n ext rt offset base s = .ok () ((s.afterRead ea pa n).writeGpr rt (ext (s.mem.readSize pa n))) := by
  unfold loadOp
  rw [he, checkAligned_ok (misaligned_of_mod ha)]
  simp only [he]
  rw [memRead_afterRead hs ht hd, Res.bind_ok]

/-- An aligned store (45_loadstore.md R200). -/
theorem storeOp_silent {s : State} {rt base : Reg} {offset : BitVec 16} {n : Size} {ea pa : Word}
    (hs : s.silent) (hw : s.wf = true) (he : s.effectiveAddress base offset = ea) (ha : ea.toNat % n.bytes = 0)
    (ht : translateAddress s.mmu ea .store = some pa) (hd : isDevice s.cfg pa = false) :
    ∃ t, storeOp n rt offset base s = .ok () t ∧ s.storedOnly t ea pa n (s.gpr rt) := by
  unfold storeOp
  rw [he, checkAligned_ok (misaligned_of_mod ha)]
  simp only [he]
  exact memWrite_storedOnly _ hs hw ha ht hd

/-- A partial load of a word (45_loadstore.md R202). -/
theorem partialLoadWord_silent {s : State} {rt base : Reg} {offset : BitVec 16} {merge : Nat → Word → Word → Word}
    {extend : Nat → Word → State → Dword × State} {ea pa : Word}
    (hs : s.silent) (he : s.effectiveAddress base offset = ea)
    (ht : translateAddress s.mmu (alignedWord ea) .load = some pa) (hd : isDevice s.cfg pa = false) :
    partialLoadWord merge extend rt offset base s =
      let u := s.afterRead (alignedWord ea) pa .b4
      let r := extend (wordOffset ea) (merge (wordOffset ea) (s.wordAt pa) (low32 (s.gpr rt))) u
      .ok () (r.2.writeGpr rt r.1) := by
  unfold partialLoadWord
  rw [he, memRead_afterRead hs ht hd, Res.bind_ok,
    State.low32_readSize s pa (fits_of_translate (Size.bytes_cases .b4) (alignedWord_mod ea) ht).2]
  rfl

/-- A partial load of a doubleword (45_loadstore.md R202). -/
theorem partialLoadDoubleword_silent {s : State} {rt base : Reg} {offset : BitVec 16}
    {merge : Nat → Dword → Dword → Dword} {ea pa : Word}
    (hs : s.silent) (he : s.effectiveAddress base offset = ea)
    (ht : translateAddress s.mmu (alignedDoubleword ea) .load = some pa) (hd : isDevice s.cfg pa = false) :
    partialLoadDoubleword merge rt offset base s =
      .ok () ((s.afterRead (alignedDoubleword ea) pa .b8).writeGpr rt
        (merge (doublewordOffset ea) (s.dwordAt pa) (s.gpr rt))) := by
  unfold partialLoadDoubleword
  rw [he, memRead_afterRead hs ht hd, Res.bind_ok,
    State.readSize_b8 s pa (fits_of_translate (Size.bytes_cases .b8) (alignedDoubleword_mod ea) ht).2]
  rfl

/-- A partial store of a word (45_loadstore.md R202, 20_memory.md R63). -/
theorem partialStoreWord_silent {s : State} {rt base : Reg} {offset : BitVec 16} {merge : Nat → Word → Word → Word}
    {ea pa qa : Word} (hs : s.silent) (hw : s.wf = true) (he : s.effectiveAddress base offset = ea)
    (ht : translateAddress s.mmu (alignedWord ea) .load = some pa) (hd : isDevice s.cfg pa = false)
    (ht' : translateAddress s.mmu (alignedWord ea) .store = some qa) (hd' : isDevice s.cfg qa = false) :
    ∃ t, partialStoreWord merge rt offset base s = .ok () t ∧
      (s.afterRead (alignedWord ea) pa .b4).storedOnly t (alignedWord ea) qa .b4
        ((merge (wordOffset ea) (s.wordAt pa) (low32 (s.gpr rt))).setWidth 64) := by
  unfold partialStoreWord
  rw [he, memRead_afterRead hs ht hd, Res.bind_ok,
    State.low32_readSize s pa (fits_of_translate (Size.bytes_cases .b4) (alignedWord_mod ea) ht).2]
  exact memWrite_storedOnly _ (State.afterRead_silent _ _ _ hs) hw (alignedWord_mod ea) ht' hd'

/-- A partial store of a doubleword (45_loadstore.md R202, 20_memory.md R63). -/
theorem partialStoreDoubleword_silent {s : State} {rt base : Reg} {offset : BitVec 16}
    {merge : Nat → Dword → Dword → Dword} {ea pa qa : Word} (hs : s.silent) (hw : s.wf = true)
    (he : s.effectiveAddress base offset = ea)
    (ht : translateAddress s.mmu (alignedDoubleword ea) .load = some pa) (hd : isDevice s.cfg pa = false)
    (ht' : translateAddress s.mmu (alignedDoubleword ea) .store = some qa) (hd' : isDevice s.cfg qa = false) :
    ∃ t, partialStoreDoubleword merge rt offset base s = .ok () t ∧
      (s.afterRead (alignedDoubleword ea) pa .b8).storedOnly t (alignedDoubleword ea) qa .b8
        (merge (doublewordOffset ea) (s.dwordAt pa) (s.gpr rt)) := by
  unfold partialStoreDoubleword
  rw [he, memRead_afterRead hs ht hd, Res.bind_ok,
    State.readSize_b8 s pa (fits_of_translate (Size.bytes_cases .b8) (alignedDoubleword_mod ea) ht).2]
  exact memWrite_storedOnly _ (State.afterRead_silent _ _ _ hs) hw (alignedDoubleword_mod ea) ht' hd'

/-! ## Where an access does not complete -/

/-- A misaligned halfword or word access reports an address error (20_memory.md R60, 60_exceptions.md R263). -/
theorem misalignedAccess_silent {α : Type} {kind : AccessKind} {n : Size} {ea : Word} {s : State} (hs : s.silent)
    (hn : n ≠ .b8) : (misalignedAccess kind n ea s : Res α) =
      .stop { s with
        calls := .cop0Write s.cfg.cop0Exc (faultCode s.cfg kind) :: .cop0Write s.cfg.cop0BadVAddr ea :: s.calls } := by
  cases n <;> first | exact raiseAddressError_silent kind ea hs | exact absurd rfl hn

theorem memRead_silent_none {s : State} {va : Word} {n : Size} (h : s.silent)
    (ht : translateAddress s.mmu va .load = none) :
    memRead va n s = .stop { s.record (.translate va .load) with halt := some (.refused .translationFault) } := by
  unfold memRead
  rw [translate_silent_none h ht, Res.bind_stop]

theorem memWrite_silent_none {s : State} {va : Word} {n : Size} (v : Dword) (h : s.silent)
    (ht : translateAddress s.mmu va .store = none) :
    memWrite va n v s = .stop { s.record (.translate va .store) with halt := some (.refused .translationFault) } := by
  unfold memWrite
  rw [translate_silent_none h ht, Res.bind_stop]

/-! ## The partial-access tables (45_loadstore.md R202): the shift and the mask of each row -/

theorem lwlMerge_eq {k : Nat} (hk : k < 4) (unit old : Word) :
    lwlMerge k unit old = (unit <<< (8 * k)) ||| (old &&& ((1#32 <<< (8 * k)) - 1#32)) := by
  interval_cases k <;> rfl

theorem lwrMerge_eq {k : Nat} (hk : k < 4) (unit old : Word) :
    lwrMerge k unit old = (unit >>> (8 * (3 - k))) ||| (old &&& ~~~(0xFFFFFFFF#32 >>> (8 * (3 - k)))) := by
  interval_cases k <;> rfl

theorem swlMerge_eq {k : Nat} (hk : k < 4) (unit r : Word) :
    swlMerge k unit r = (unit &&& ~~~(0xFFFFFFFF#32 >>> (8 * k))) ||| (r >>> (8 * k)) := by
  interval_cases k <;> rfl

theorem swrMerge_eq {k : Nat} (hk : k < 4) (unit r : Word) :
    swrMerge k unit r = (r <<< (8 * (3 - k))) ||| (unit &&& ((1#32 <<< (8 * (3 - k))) - 1#32)) := by
  interval_cases k <;> rfl

theorem ldlMerge_eq {k : Nat} (hk : k < 8) (unit old : Dword) :
    ldlMerge k unit old = (unit <<< (8 * k)) ||| (old &&& ((1#64 <<< (8 * k)) - 1#64)) := by
  interval_cases k <;> rfl

theorem ldrMerge_eq {k : Nat} (hk : k < 8) (unit old : Dword) :
    ldrMerge k unit old = (unit >>> (8 * (7 - k))) ||| (old &&& ~~~(0xFFFFFFFFFFFFFFFF#64 >>> (8 * (7 - k)))) := by
  interval_cases k <;> rfl

theorem sdlMerge_eq {k : Nat} (hk : k < 8) (unit r : Dword) :
    sdlMerge k unit r = (unit &&& ~~~(0xFFFFFFFFFFFFFFFF#64 >>> (8 * k))) ||| (r >>> (8 * k)) := by
  interval_cases k <;> rfl

theorem sdrMerge_eq {k : Nat} (hk : k < 8) (unit r : Dword) :
    sdrMerge k unit r = (r <<< (8 * (7 - k))) ||| (unit &&& ((1#64 <<< (8 * (7 - k))) - 1#64)) := by
  interval_cases k <;> rfl

end Sys2Proof.Machine
end

