-- ==== Sys2Proof/Laws/Encode.lean ====
section
/-! SUPPORT. The fields of an encoded word (30_encoding.md R75): each format gives back the field that was put in. -/
namespace Sys2Proof

section
variable (rs rt rd sa : BitVec 5) (op funct : BitVec 6) (imm : BitVec 16) (target : BitVec 26) (code : BitVec 20)

/-! ## R format -/

@[simp] theorem opField_encR : opField (encR rs rt rd sa funct) = 0#6 := by
  unfold opField encR
  apply BitVec.eq_of_getLsbD_eq
  intro i hi
  simp only [BitVec.getLsbD_extractLsb', BitVec.getLsbD_append]
  interval_cases i <;> simp

@[simp] theorem rsField_encR : rsField (encR rs rt rd sa funct) = rs := by
  unfold rsField encR
  apply BitVec.eq_of_getLsbD_eq
  intro i hi
  simp only [BitVec.getLsbD_extractLsb', BitVec.getLsbD_append]
  interval_cases i <;> simp

@[simp] theorem rtField_encR : rtField (encR rs rt rd sa funct) = rt := by
  unfold rtField encR
  apply BitVec.eq_of_getLsbD_eq
  intro i hi
  simp only [BitVec.getLsbD_extractLsb', BitVec.getLsbD_append]
  interval_cases i <;> simp

@[simp] theorem rdField_encR : rdField (encR rs rt rd sa funct) = rd := by
  unfold rdField encR
  apply BitVec.eq_of_getLsbD_eq
  intro i hi
  simp only [BitVec.getLsbD_extractLsb', BitVec.getLsbD_append]
  interval_cases i <;> simp

@[simp] theorem saField_encR : saField (encR rs rt rd sa funct) = sa := by
  unfold saField encR
  apply BitVec.eq_of_getLsbD_eq
  intro i hi
  simp only [BitVec.getLsbD_extractLsb', BitVec.getLsbD_append]
  interval_cases i <;> simp

@[simp] theorem functField_encR : functField (encR rs rt rd sa funct) = funct := by
  unfold functField encR
  apply BitVec.eq_of_getLsbD_eq
  intro i hi
  simp only [BitVec.getLsbD_extractLsb', BitVec.getLsbD_append]
  interval_cases i <;> simp

/-! ## I format, and the fields of a coprocessor-0 move -/

@[simp] theorem opField_encI : opField (encI op rs rt imm) = op := by
  unfold opField encI
  apply BitVec.eq_of_getLsbD_eq
  intro i hi
  simp only [BitVec.getLsbD_extractLsb', BitVec.getLsbD_append]
  interval_cases i <;> simp

@[simp] theorem rsField_encI : rsField (encI op rs rt imm) = rs := by
  unfold rsField encI
  apply BitVec.eq_of_getLsbD_eq
  intro i hi
  simp only [BitVec.getLsbD_extractLsb', BitVec.getLsbD_append]
  interval_cases i <;> simp

@[simp] theorem rtField_encI : rtField (encI op rs rt imm) = rt := by
  unfold rtField encI
  apply BitVec.eq_of_getLsbD_eq
  intro i hi
  simp only [BitVec.getLsbD_extractLsb', BitVec.getLsbD_append]
  interval_cases i <;> simp

@[simp] theorem immField_encI : immField (encI op rs rt imm) = imm := by
  unfold immField encI
  apply BitVec.eq_of_getLsbD_eq
  intro i hi
  simp only [BitVec.getLsbD_extractLsb', BitVec.getLsbD_append]
  simp [hi]

@[simp] theorem rdField_encI_move : rdField (encI op rs rt (rd ++ 0#11)) = rd := by
  unfold rdField encI
  apply BitVec.eq_of_getLsbD_eq
  intro i hi
  simp only [BitVec.getLsbD_extractLsb', BitVec.getLsbD_append]
  interval_cases i <;> simp

@[simp] theorem bit25_encI : (encI op rs rt imm).getLsbD 25 = rs.getLsbD 4 := by
  unfold encI
  simp only [BitVec.getLsbD_append]
  rfl

/-- Bit 25 is the highest bit of the `rs` field, which a coprocessor-0 move has 0 (R81). -/
theorem rsField_bit4 (w : Word) : (rsField w).getLsbD 4 = w.getLsbD 25 := by
  unfold rsField
  simp only [BitVec.getLsbD_extractLsb']
  simp

/-! ## J, R-code and COP0-CO formats -/

@[simp] theorem opField_encJ : opField (encJ op target) = op := by
  unfold opField encJ
  apply BitVec.eq_of_getLsbD_eq
  intro i hi
  simp only [BitVec.getLsbD_extractLsb', BitVec.getLsbD_append]
  interval_cases i <;> simp

@[simp] theorem targetField_encJ : targetField (encJ op target) = target := by
  unfold targetField encJ
  apply BitVec.eq_of_getLsbD_eq
  intro i hi
  simp only [BitVec.getLsbD_extractLsb', BitVec.getLsbD_append]
  simp [hi]

@[simp] theorem opField_encCode : opField (encCode code funct) = 0#6 := by
  unfold opField encCode
  apply BitVec.eq_of_getLsbD_eq
  intro i hi
  simp only [BitVec.getLsbD_extractLsb', BitVec.getLsbD_append]
  interval_cases i <;> simp

@[simp] theorem functField_encCode : functField (encCode code funct) = funct := by
  unfold functField encCode
  apply BitVec.eq_of_getLsbD_eq
  intro i hi
  simp only [BitVec.getLsbD_extractLsb', BitVec.getLsbD_append]
  interval_cases i <;> simp

@[simp] theorem codeField_encCode : codeField (encCode code funct) = code := by
  unfold codeField encCode
  apply BitVec.eq_of_getLsbD_eq
  intro i hi
  simp only [BitVec.getLsbD_extractLsb', BitVec.getLsbD_append]
  interval_cases i <;> simp

@[simp] theorem opField_encCop0Co : opField (encCop0Co funct) = 0x10#6 := by
  unfold opField encCop0Co
  apply BitVec.eq_of_getLsbD_eq
  intro i hi
  simp only [BitVec.getLsbD_extractLsb', BitVec.getLsbD_append]
  interval_cases i <;> simp

@[simp] theorem functField_encCop0Co : functField (encCop0Co funct) = funct := by
  unfold functField encCop0Co
  apply BitVec.eq_of_getLsbD_eq
  intro i hi
  simp only [BitVec.getLsbD_extractLsb', BitVec.getLsbD_append]
  interval_cases i <;> simp

@[simp] theorem bit25_encCop0Co : (encCop0Co funct).getLsbD 25 = true := by
  unfold encCop0Co
  simp only [BitVec.getLsbD_append]
  rfl

end

end Sys2Proof
end

