-- ==== Sys2Proof/Laws/Fetch.lean ====
section
/-! SUPPORT. The fetch through the decode cache in a silent environment (40_fetch_execute.md R89): with a coherent cache
it returns the word in memory and the handler that word resolves to, and changes the calls and at most one entry. -/
namespace Sys2Proof.Machine

/-- A fetch read of ordinary memory. -/
theorem fetchReadVia_silent {s : State} {pa : Word} (h : s.silent) (hd : isDevice s.cfg pa = false) :
    fetchReadVia callCollaborator pa s =
      .ok (s.mem.readWord pa, resolve (s.mem.readWord pa)) (s.record (.busRead pa .b4)) := by
  unfold fetchReadVia busReadVia
  rw [callCollaborator_silent _ h, Res.bind_ok, Res.bind_ok]
  simp only [hd]
  rfl

/-- What a fetch changes, before `lastInstr` is set: the calls, and at most the entry of the word. -/
def State.looked (s t : State) (pa w : Word) : Prop :=
  (∃ l, t.calls = l ++ s.calls) ∧
  (t.cache = s.cache ∨ s.cfg.cacheEnable = true ∧ ∃ i, cacheIndex s.cfg pa = some i ∧
    t.cache = s.cache.fill i { tag := pa, raw := w, handler := resolve w }) ∧
  { t with calls := s.calls, cache := s.cache } = s

/-- The fetch of a word at a physical address with a coherent cache. -/
theorem fetchPhysicalVia_coherent {s : State} {pa : Word} (h : s.silent) (hw : s.wf = true) (hc : s.coherent)
    (hd : isDevice s.cfg pa = false) :
    ∃ t, fetchPhysicalVia callCollaborator pa s = .ok (s.mem.readWord pa, resolve (s.mem.readWord pa)) t ∧
      s.looked t pa (s.mem.readWord pa) := by
  have miss : ∀ i, s.cfg.cacheEnable = true → cacheIndex s.cfg pa = some i →
      ∃ t, fetchMissVia callCollaborator i pa s = .ok (s.mem.readWord pa, resolve (s.mem.readWord pa)) t ∧
        s.looked t pa (s.mem.readWord pa) := by
    intro i he hi
    unfold fetchMissVia
    rw [fetchReadVia_silent h hd, Res.bind_ok]
    exact ⟨_, rfl, ⟨[_], rfl⟩, .inr ⟨he, i, hi, rfl⟩, rfl⟩
  unfold fetchPhysicalVia
  split
  · rename_i i he hi
    split
    · rename_i e hf
      split
      · rename_i ht
        have hr : e.raw = s.mem.readWord pa := by rw [← ht]; exact hc i e hf (by rw [ht]; exact hd)
        have hwf := Cache.entryWf_of_find (State.wf_iff.1 hw).2 hf
        simp only [entryWf, Bool.and_eq_true, decide_eq_true_eq] at hwf
        unfold fetchHitVia
        rw [if_pos (by simp [hr]), hwf.2, hr]
        exact ⟨s, rfl, ⟨[], rfl⟩, .inl rfl, rfl⟩
      · exact miss i he hi
    · exact miss i he hi
  · rw [fetchReadVia_silent h hd]
    exact ⟨_, rfl, ⟨[_], rfl⟩, .inl rfl, rfl⟩

/-- The fetch of the word at a virtual address with a coherent cache. -/
theorem fetchVia_coherent {s : State} {va pa : Word} (h : s.silent) (hw : s.wf = true) (hc : s.coherent)
    (ha : va.toNat % 4 = 0) (ht : translateAddress s.mmu va .fetch = some pa) (hd : isDevice s.cfg pa = false) :
    ∃ t, fetchVia callCollaborator va s = .ok (s.wordAt pa, resolve (s.wordAt pa)) t ∧
      s.looked t pa (s.wordAt pa) := by
  have hfit := (fits_of_translate (count := 4) (by simp) ha ht).2
  have hal : va.extractLsb' 0 2 = 0#2 := BitVec.eq_of_toNat_eq (by rw [toNat_mod_of_low]; simpa using ha)
  obtain ⟨t, h1, h2⟩ :=
    fetchPhysicalVia_coherent (s := s.record (.translate va .fetch)) (State.silent_record _ h) hw hc hd
  rw [show (s.record (.translate va .fetch)).mem = s.mem from rfl, State.readWord_eq_wordAt s pa hfit] at h1 h2
  refine ⟨t, ?_, ?_, ?_, ?_⟩
  · unfold fetchVia translateVia
    rw [if_pos hal, callCollaborator_silent _ h, Res.bind_ok, ht, Res.bind_ok]
    exact h1
  · obtain ⟨l, hl⟩ := h2.1
    exact ⟨l ++ [.translate va .fetch], by rw [hl, State.record_calls, List.append_assoc]; rfl⟩
  · exact h2.2.1
  · have h3 := congrArg (fun u : State => { u with calls := s.calls }) h2.2.2
    exact h3

end Sys2Proof.Machine
end

