-- ==== Sys2Proof/Laws/Quiet.lean ====
section
/-! SUPPORT. What the shared operations leave as it was in a silent environment: an operation that reads or fetches
changes at most the decode cache, the calls, the count of free values and the end of the run. -/
namespace Sys2Proof.Machine

/-- `t` is `s` but for the decode cache, the calls, the count of free values and the end of the run. -/
def Quiet (s t : State) : Prop := { t with cache := s.cache, calls := s.calls, draws := s.draws, halt := s.halt } = s

theorem Quiet.refl (s : State) : Quiet s s := rfl

theorem Quiet.trans {s t u : State} (h : Quiet s t) (k : Quiet t u) : Quiet s u := by
  have e := congrArg (fun v : State =>
    { v with cache := s.cache, calls := s.calls, draws := s.draws, halt := s.halt }) k
  exact e.trans h

theorem Quiet.eq {s t : State} (h : Quiet s t) :
    { t with cache := s.cache, calls := s.calls, draws := s.draws, halt := s.halt } = s := h

theorem Quiet.x {s t : State} (h : Quiet s t) : t.x = s.x := by
  have e := congrArg State.x h.eq
  exact e

theorem Quiet.pc {s t : State} (h : Quiet s t) : t.pc = s.pc := by
  have e := congrArg State.pc h.eq
  exact e

theorem Quiet.hi {s t : State} (h : Quiet s t) : t.hi = s.hi := by
  have e := congrArg State.hi h.eq
  exact e

theorem Quiet.lo {s t : State} (h : Quiet s t) : t.lo = s.lo := by
  have e := congrArg State.lo h.eq
  exact e

theorem Quiet.bstate {s t : State} (h : Quiet s t) : t.bstate = s.bstate := by
  have e := congrArg State.bstate h.eq
  exact e

theorem Quiet.jumpTarget {s t : State} (h : Quiet s t) : t.jumpTarget = s.jumpTarget := by
  have e := congrArg State.jumpTarget h.eq
  exact e

theorem Quiet.llbit {s t : State} (h : Quiet s t) : t.llbit = s.llbit := by
  have e := congrArg State.llbit h.eq
  exact e

theorem Quiet.cpi {s t : State} (h : Quiet s t) : t.cpi = s.cpi := by
  have e := congrArg State.cpi h.eq
  exact e

theorem Quiet.tickCounter {s t : State} (h : Quiet s t) : t.tickCounter = s.tickCounter := by
  have e := congrArg State.tickCounter h.eq
  exact e

theorem Quiet.syncCycles {s t : State} (h : Quiet s t) : t.syncCycles = s.syncCycles := by
  have e := congrArg State.syncCycles h.eq
  exact e

theorem Quiet.lastInstr {s t : State} (h : Quiet s t) : t.lastInstr = s.lastInstr := by
  have e := congrArg State.lastInstr h.eq
  exact e

theorem Quiet.extJump {s t : State} (h : Quiet s t) : t.extJump = s.extJump := by
  have e := congrArg State.extJump h.eq
  exact e

theorem Quiet.mem {s t : State} (h : Quiet s t) : t.mem = s.mem := by
  have e := congrArg State.mem h.eq
  exact e

theorem Quiet.mmu {s t : State} (h : Quiet s t) : t.mmu = s.mmu := by
  have e := congrArg State.mmu h.eq
  exact e


theorem Quiet.bind {α β : Type} {s : State} {r : Res α} {f : α → State → Res β} (hr : Quiet s r.state)
    (hf : ∀ a t, r = .ok a t → Quiet t (f a t).state) : Quiet s (r.bind f).state := by
  cases r with
  | ok a t => exact hr.trans (hf a t rfl)
  | stop t => exact hr

theorem callCollaborator_quiet (c : Call) {s : State} (h : s.silent) : Quiet s (callCollaborator c s).state := by
  rw [callCollaborator_silent c h]
  rfl

theorem translateVia_quiet (va : Word) (kind : AccessKind) {s : State} (h : s.silent) :
    Quiet s (translateVia callCollaborator va kind s).state := by
  refine Quiet.bind (callCollaborator_quiet _ h) fun _ t _ => ?_
  split <;> exact Quiet.refl t

/-- A read of memory. -/
theorem memRead_quiet (va : Word) (n : Size) {s : State} (h : s.silent) : Quiet s (memRead va n s).state := by
  refine Quiet.bind (translateVia_quiet va .load h) fun pa t ht => ?_
  have hk := translate_serves va .load s
  rw [show translate va .load s = .ok pa t from ht] at hk
  have hs : t.silent := hk.toKeeps.silent h
  exact Quiet.bind (callCollaborator_quiet _ hs) fun _ u _ => Quiet.refl u

theorem fetchReadVia_quiet (pa : Word) {s : State} (h : s.silent) :
    Quiet s (fetchReadVia callCollaborator pa s).state := by
  refine Quiet.bind ?_ fun _ t _ => Quiet.refl t
  exact Quiet.bind (callCollaborator_quiet _ h) fun _ t _ => Quiet.refl t

theorem fetchMissVia_quiet (i : Nat) (pa : Word) {s : State} (h : s.silent) :
    Quiet s (fetchMissVia callCollaborator i pa s).state :=
  Quiet.bind (fetchReadVia_quiet pa h) fun _ t _ => show Quiet t { t with cache := _ } from rfl

theorem fetchHitVia_quiet (e : CacheEntry) (pa : Word) {s : State} (h : s.silent) :
    Quiet s (fetchHitVia callCollaborator e pa s).state := by
  have hdraw : Quiet s { s with draws := s.draws + 1 } := rfl
  unfold fetchHitVia
  split
  · exact Quiet.refl s
  · split
    · exact hdraw
    · exact hdraw.trans (fetchReadVia_quiet pa (s := { s with draws := s.draws + 1 }) h)

/-- A fetch, before `lastInstr` is set. -/
theorem fetchVia_quiet (va : Word) {s : State} (h : s.silent) : Quiet s (fetchVia callCollaborator va s).state := by
  unfold fetchVia
  split
  · refine Quiet.bind (translateVia_quiet va .fetch h) fun pa t ht => ?_
    have hk := translateVia_serves callCollaborator_serves va .fetch s
    rw [ht] at hk
    have hs : t.silent := hk.toKeeps.silent h
    unfold fetchPhysicalVia
    split
    · split
      · split
        · exact fetchHitVia_quiet _ pa hs
        · exact fetchMissVia_quiet _ pa hs
      · exact fetchMissVia_quiet _ pa hs
    · exact fetchReadVia_quiet pa hs
  · exact Quiet.refl s

/-- The time skip (40_fetch_execute.md R104). -/
theorem idleSkipVia_quiet {s : State} (h : s.silent) :
    Quiet { s with syncCycles := 0#64 } (idleSkipVia callCollaborator s).state := by
  unfold idleSkipVia
  rw [callCollaborator_silent _ h, Res.bind_ok]
  have h0 : State.silent
      { s.record (.timerClock (s.syncCycles + BitVec.ofNat 64 s.cfg.idleExtra)) with syncCycles := 0#64 } :=
    State.silent_record _ h
  have e : Quiet { s with syncCycles := 0#64 }
      { s.record (.timerClock (s.syncCycles + BitVec.ofNat 64 s.cfg.idleExtra)) with syncCycles := 0#64 } := rfl
  refine e.trans ?_
  generalize ({ s.record (.timerClock (s.syncCycles + BitVec.ofNat 64 s.cfg.idleExtra)) with
    syncCycles := 0#64 } : State) = t at h0
  rw [callCollaborator_silent _ h0, Res.bind_ok]
  have h1 := State.silent_record (.timerRead 4) h0
  split
  · rw [callCollaborator_silent _ h1, Res.bind_ok, callCollaborator_silent _ (State.silent_record _ h1), Res.bind_ok]
    rfl
  · rfl

/-- The probe changes `syncCycles` at most, beside what `Quiet` lists (40_fetch_execute.md R105). -/
theorem probe_quiet (bpc bw target : Word) {s : State} (h : s.silent) :
    Quiet { s with syncCycles := (probe bpc bw target s).state.syncCycles } (probe bpc bw target s).state := by
  have widen : ∀ t : State, Quiet s t → Quiet { s with syncCycles := t.syncCycles } t := by
    intro t q
    have e := congrArg (fun v : State => { v with syncCycles := t.syncCycles }) q.eq
    exact e
  unfold probe probeVia
  split
  · have hf := fetchVia_quiet (bpc + 4#32) h
    have hk := (fetchVia_serves callCollaborator_serves (bpc + 4#32) s).toKeeps
    cases hc : fetchVia callCollaborator (bpc + 4#32) s with
    | stop u =>
      rw [hc] at hf
      exact widen u hf
    | ok w u =>
      rw [hc] at hf hk
      have hu : u.silent := hk.silent h
      simp only [Res.bind_ok]
      split
      · rw [callCollaborator_silent _ hu, Res.bind_ok]
        have hr : Quiet s (u.record .cop0IdleSignals) := hf.trans rfl
        split
        · exact widen _ (hr.trans rfl)
        · split
          · have hi := idleSkipVia_quiet (State.silent_record .cop0IdleSignals hu)
            have hr0 : Quiet { s with syncCycles := 0#64 } { u.record .cop0IdleSignals with syncCycles := 0#64 } := by
              have e := congrArg (fun v : State => { v with syncCycles := 0#64 }) hr.eq
              exact e
            cases hx : idleSkipVia callCollaborator (u.record .cop0IdleSignals) with
            | ok a v =>
              rw [hx] at hi
              have hv : v.syncCycles = 0#64 := Quiet.syncCycles hi
              simp only [Res.bind_ok, Res.state_ok, hv]
              exact hr0.trans hi
            | stop v =>
              rw [hx] at hi
              have hv : v.syncCycles = 0#64 := Quiet.syncCycles hi
              simp only [Res.bind_stop, Res.state_stop, hv]
              exact hr0.trans hi
          · exact widen _ hr
      · exact widen u hf
  · exact widen s (Quiet.refl s)

/-! ## Writes -/

/-- A write of memory: memory too. -/
theorem memWrite_quiet (va : Word) (n : Size) (v : Dword) {s : State} (h : s.silent) :
    Quiet { s with mem := (memWrite va n v s).state.mem } (memWrite va n v s).state := by
  cases ht : translateAddress s.mmu va .store with
  | none =>
    rw [memWrite_silent_none v h ht]
    rfl
  | some pa =>
    rw [memWrite_silent v h ht]
    simp only [Res.state_ok, State.storeBytes]
    split <;> rfl

/-- A write of a register: `x` too. -/
theorem writeGpr_quiet (s : State) (r : Reg) (v : Dword) : Quiet { s with x := (s.writeGpr r v).x } (s.writeGpr r v) := by
  unfold State.writeGpr
  split <;> rfl

/-- An address error, and a misaligned access of any size. -/
theorem misalignedAccess_quiet {α : Type} (kind : AccessKind) (n : Size) (ea : Word) {s : State} (h : s.silent) :
    Quiet s (misalignedAccess kind n ea s : Res α).state := by
  by_cases hn : n = .b8
  · subst hn
    rfl
  · rw [misalignedAccess_silent h hn]
    rfl

/-- A branch operation: the branch state, the target, the link register and `syncCycles` too, and without a refusal the
branch is scheduled (44_branch.md R174). -/
theorem branchOp_quiet (taken : Bool) (target : Word) (likely : Bool) (link : Option Reg) {s : State} (h : s.silent) :
    ∃ b j x c, Quiet { s with bstate := b, jumpTarget := j, x := x, syncCycles := c }
      (branchOp taken target likely link s).state := by
  unfold branchOp
  split
  · exact ⟨s.bstate, s.jumpTarget, s.x, s.syncCycles, rfl⟩
  · have hw : ∀ b j, (s.writeLink link).setBranch j b =
        { s with bstate := b, jumpTarget := j, x := (s.writeLink link).x } := by
      intro b j
      cases link with
      | none => rfl
      | some r =>
        simp only [State.writeLink, State.writeGpr, State.setBranch]
        split <;> rfl
    split
    · have done : ∀ u : State, u.silent → ∃ c, Quiet { u with syncCycles := c }
          ((probe s.pc s.lastInstr target u).bind fun _ t => Res.ok () t).state := by
        intro u hu
        have hq := probe_quiet s.pc s.lastInstr target hu
        refine ⟨_, hq.trans ?_⟩
        cases probe s.pc s.lastInstr target u <;> exact Quiet.refl _
      simp only
      split
      · obtain ⟨c, hq⟩ := done s h
        exact ⟨s.bstate, s.jumpTarget, s.x, c, hq⟩
      · have hs : ((s.writeLink link).setBranch target .delaySlot).silent := by
          rw [hw]
          exact h
        obtain ⟨c, hq⟩ := done _ hs
        rw [hw] at hq ⊢
        exact ⟨.delaySlot, target, (s.writeLink link).x, c, hq⟩
    · refine ⟨if likely then .jump else .delaySlot, s.pc + 8#32, (s.writeLink link).x, s.syncCycles, ?_⟩
      rw [Res.state_ok, hw]
      rfl

end Sys2Proof.Machine
end

