-- ==== Sys2Proof/Laws/Step.lean ====
section
/-! SUPPORT. The parts of a step: the fetch of a word that is in memory, the iteration, the host's turn, and that each
does no more than the invariants allow. -/
namespace Sys2Proof.Machine

theorem State.fetched_of_looked {s t : State} {pa w : Word} (h : s.looked t pa w) :
    s.fetched { t with lastInstr := w } pa w :=
  ⟨rfl, h.1, h.2.1, congrArg (fun u : State => { u with lastInstr := s.lastInstr }) h.2.2⟩

/-- The main loop's fetch with a coherent cache. -/
theorem fetch_coherent {s : State} {va pa : Word} (h : s.silent) (hw : s.wf = true) (hc : s.coherent)
    (ha : va.toNat % 4 = 0) (ht : translateAddress s.mmu va .fetch = some pa) (hd : isDevice s.cfg pa = false) :
    ∃ t, fetch va s = .ok (s.wordAt pa, resolve (s.wordAt pa)) t ∧ s.fetched t pa (s.wordAt pa) := by
  obtain ⟨t, h1, h2⟩ := fetchVia_coherent h hw hc ha ht hd
  refine ⟨{ t with lastInstr := s.wordAt pa }, ?_, State.fetched_of_looked h2⟩
  unfold fetch
  rw [h1]
  rfl

/-- With nothing for the host to do, the step of a running block is one iteration. -/
theorem step_ready {s : State} (h : s.ready) : step s = fetchAndRun (consumeExtJump s) := by
  simp [step, hostThenIterate, h.1, iterate, h.2.1, h.2.2]

/-- The step of a block about to fetch a word: the handler of that word, in the state the fetch leaves. -/
theorem step_fetching {s : State} {pa w : Word} (h : s.fetching pa w) :
    ∃ u, s.fetched u pa w ∧ step s = runHandler w (resolve w) u := by
  obtain ⟨u, h1, h2⟩ := fetch_coherent h.silent h.wf h.coherent h.aligned h.translated h.ordinary
  rw [h.word] at h1 h2
  refine ⟨u, h2, ?_⟩
  rw [step_ready h.ready]
  unfold consumeExtJump
  rw [h.noJump]
  unfold fetchAndRun
  rw [if_neg (by simp), h1]

/-! ## What the parts keep -/

/-- What every step keeps: the parameters and the script, well-formedness, the coherence of the cache, register 0, and
an end that was recorded. -/
structure StepKeeps (s t : State) : Prop where
  cfg : t.cfg = s.cfg
  script : t.script = s.script
  host : ∀ batch ∈ t.host, batch ∈ s.host
  wf : s.wf = true → t.wf = true
  coherent : s.wf = true → s.noForeignWrites → s.coherent → t.coherent
  zero : s.noZeroWrites → s.gpr 0#5 = 0#64 → t.gpr 0#5 = 0#64

theorem StepKeeps.refl (s : State) : StepKeeps s s :=
  ⟨rfl, rfl, fun _ h => h, id, fun _ _ h => h, fun _ h => h⟩

theorem State.noForeignWrites_of_sub {s t : State} (h1 : t.script = s.script) (h2 : ∀ batch ∈ t.host, batch ∈ s.host)
    (h : s.noForeignWrites) : t.noForeignWrites := by
  unfold State.noForeignWrites at *
  rw [h1]
  exact ⟨h.1, fun b hb => h.2 b (h2 b hb)⟩

theorem State.noZeroWrites_of_sub {s t : State} (h1 : t.script = s.script) (h2 : ∀ batch ∈ t.host, batch ∈ s.host)
    (h : s.noZeroWrites) : t.noZeroWrites := by
  unfold State.noZeroWrites at *
  rw [h1]
  exact ⟨h.1, fun b hb => h.2 b (h2 b hb)⟩

theorem StepKeeps.trans {s t u : State} (h : StepKeeps s t) (k : StepKeeps t u) : StepKeeps s u where
  cfg := k.cfg.trans h.cfg
  script := k.script.trans h.script
  host b hb := h.host b (k.host b hb)
  wf w := k.wf (h.wf w)
  coherent w n c := k.coherent (h.wf w) (State.noForeignWrites_of_sub h.script h.host n) (h.coherent w n c)
  zero z g := k.zero (State.noZeroWrites_of_sub h.script h.host z) (h.zero z g)

theorem Keeps.stepKeeps {s t : State} (h : Keeps s t) : StepKeeps s t where
  cfg := h.cfg
  script := h.script
  host b hb := by rwa [h.host] at hb
  wf := h.wf
  coherent w n c := by
    rw [State.coherent_iff] at *
    exact h.coherent _ w n c
  zero z g := (h.zero z).trans g

/-- A change of the fields that none of these is about. -/
theorem StepKeeps.of_same {s t : State} (cfg : t.cfg = s.cfg) (script : t.script = s.script) (host : t.host = s.host)
    (mem : t.mem = s.mem) (cache : t.cache = s.cache) (x : t.x = s.x) : StepKeeps s t where
  cfg := cfg
  script := script
  host b hb := by rwa [host] at hb
  wf w := by
    rw [State.wf_iff] at *
    rwa [cfg, mem, cache]
  coherent _ _ c := by
    intro i e hf hd
    rw [mem]
    rw [cache] at hf
    rw [cfg] at hd
    exact c i e hf hd
  zero _ g := (State.gpr_congr x 0#5).trans g

theorem countCycles_keeps (s : State) : StepKeeps s (countCycles s) := StepKeeps.of_same rfl rfl rfl rfl rfl rfl

theorem syncPoint_keeps (s : State) : StepKeeps s (syncPoint s) := by
  have h : Serves s (syncPoint s) := by
    unfold syncPoint
    refine Serves.bind (callCollaborator_serves _ s) fun _ t _ => ?_
    have ht : Serves t { t with syncCycles := 0#64 } :=
      Serves.of_same rfl rfl rfl rfl (fun _ => rfl) ⟨[], rfl⟩ rfl rfl rfl
    exact ht.trans (Serves.bind (cop0Read_serves _ _) fun _ u _ => cop0Read_serves _ u)
  exact h.toKeeps.stepKeeps

theorem advance_keeps (s : State) : StepKeeps s (advance s) := by
  unfold advance
  split
  · exact StepKeeps.of_same rfl rfl rfl rfl rfl rfl
  · exact StepKeeps.of_same rfl rfl rfl rfl rfl rfl
  · exact StepKeeps.trans (t := { s with pc := s.jumpTarget, bstate := .normal })
      (StepKeeps.of_same rfl rfl rfl rfl rfl rfl) (syncPoint_keeps _)

theorem finishHandler_keeps (s : State) : StepKeeps s (finishHandler s) := by
  unfold finishHandler
  split
  · exact StepKeeps.refl s
  · exact (countCycles_keeps s).trans (advance_keeps _)

theorem fetchAndRun_keeps {s t : State} (h : fetchAndRun s = .next t) : StepKeeps s t := by
  have hf := (fetch_serves s.pc s).toKeeps.stepKeeps
  unfold fetchAndRun at h
  cases hfetch : fetch s.pc s with
  | stop u =>
    rw [hfetch] at h hf
    injection h with h
    subst h
    exact hf
  | ok wh u =>
    rw [hfetch] at h hf
    simp only [Res.state_ok, runHandler] at h hf
    split at h
    · injection h with h
      subst h
      exact hf.trans (Serves.fatal _ _ _ u : Serves u (fatal (α := Unit) _ _ _ u).state).toKeeps.stepKeeps
    · rename_i i _
      obtain ⟨v, hv, hk⟩ := exec_keeps i u
      rw [hv] at h
      injection h with h
      subst h
      exact (hf.trans hk.stepKeeps).trans (finishHandler_keeps v)

theorem consumeExtJump_keeps (s : State) : StepKeeps s (consumeExtJump s) := by
  unfold consumeExtJump
  split
  · exact StepKeeps.of_same rfl rfl rfl rfl rfl rfl
  · exact StepKeeps.refl s

theorem iterate_keeps {s t : State} (h : iterate s = .next t) : StepKeeps s t := by
  unfold iterate at h
  split at h
  · cases h
  · cases h
  · split at h
    · exact (consumeExtJump_keeps s).trans (fetchAndRun_keeps h)
    · cases h

/-! ## The host's turn -/

theorem Cache.wf_nil (cfg : Params) : Cache.wf cfg [] = true := rfl

theorem State.gpr_zero_afterReset (s : State) (l : Launch) : (s.afterReset l).gpr 0#5 = 0#64 := by
  simp [State.gpr, State.afterReset]

/-- A machine reset (70_reset_and_hazards.md R282). -/
theorem afterReset_keeps (s : State) (l : Launch) : StepKeeps s (s.afterReset l) where
  cfg := rfl
  script := rfl
  host _ h := h
  wf w := State.wf_iff.2 ⟨(State.wf_iff.1 w).1, Cache.wf_nil s.cfg⟩
  coherent _ _ _ := fun i e hf => by simp [State.afterReset, Cache.find] at hf
  zero _ _ := State.gpr_zero_afterReset s l

/-- One action of the host. -/
theorem hostPerform_keeps (a : HostAction) (s : State) (hf : s.noForeignWrites → a.foreignWrite = false)
    (hz : s.noZeroWrites → a.writesZero = false) : StepKeeps s (hostPerform a s).state := by
  cases a with
  | act b => exact (performVia_serves callCollaborator_serves b s hf hz).toKeeps.stepKeeps
  | setRunning b => exact StepKeeps.of_same rfl rfl rfl rfl rfl rfl
  | machineReset l =>
    show StepKeeps s (if s.running then s else s.afterReset l)
    split
    · exact StepKeeps.refl s
    · exact afterReset_keeps s l

theorem hostPerform_host (a : HostAction) (s : State) : (hostPerform a s).state.host = s.host := by
  cases a with
  | act b => cases b with
    | ctlRead index width =>
      have h : Serves s ((ctlReadVia callCollaborator index width s).bind fun _ t => Res.ok () t).state :=
        Serves.bind (ctlReadVia_serves callCollaborator_serves index width s) fun _ t _ => Serves.refl t
      exact h.host
    | ctlWrite index width v =>
      by_cases h : index = 0
      · subst h
        rfl
      · exact (ctlWriteVia_serves callCollaborator_serves index width v s fun _ => h).host
    | memWrite pa b => rfl
    | remap windows => rfl
  | setRunning b => rfl
  | machineReset l =>
    show (if s.running then s else s.afterReset l).host = s.host
    split <;> rfl

/-- The host's turn, made of actions of a batch that is still in `host`. -/
theorem hostTurn_keeps (actions : List HostAction) (s : State) (batch : List HostAction) (hb : batch ∈ s.host)
    (ha : ∀ a ∈ actions, a ∈ batch) : StepKeeps s (hostTurn actions s) := by
  induction actions generalizing s with
  | nil => exact StepKeeps.refl s
  | cons a rest ih =>
    have h1 := hostPerform_keeps a s (fun n => n.2 batch hb a (ha a List.mem_cons_self))
      fun z => z.2 batch hb a (ha a List.mem_cons_self)
    exact h1.trans (ih _ (by rwa [hostPerform_host]) fun b hb => ha b (List.mem_cons_of_mem _ hb))

/-- Taking a batch off `host` when its turn is over. -/
theorem popHost_keeps (s : State) (rest : List (List HostAction)) (h : ∀ b ∈ rest, b ∈ s.host) :
    StepKeeps s { s with host := rest } where
  cfg := rfl
  script := rfl
  host := h
  wf w := w
  coherent _ _ c := c
  zero _ g := g

theorem hostTurn_host (actions : List HostAction) (s : State) : (hostTurn actions s).host = s.host := by
  induction actions generalizing s with
  | nil => rfl
  | cons a rest ih => exact (ih _).trans (hostPerform_host a s)

/-- The host's turn of a step, and the iteration after it. -/
theorem turn_keeps {s : State} {batch : List HostAction} {rest : List (List HostAction)} (h : s.host = batch :: rest) :
    StepKeeps s { hostTurn batch s with host := rest } :=
  (hostTurn_keeps batch s batch (by simp [h]) fun _ ha => ha).trans
    (popHost_keeps _ rest fun b hb => by rw [hostTurn_host, h]; exact List.mem_cons_of_mem _ hb)

end Sys2Proof.Machine
end

