-- ==== Sys2Proof/Tests/Slice0.lean ====
section
/-! SUPPORT. The model's own tests: the instructions that WellFormed refuses, the decoding of every constructor from a word
written out field by field from 30_encoding.md, vectors of 95_test_vectors.md, and for every statement of
Obligations.lean that has hypotheses a state that meets them together. -/
namespace Sys2Proof.Tests
open Sys2Proof.Machine

/-! ## Words and their instructions -/

/-- Every word of the list decodes to the instruction beside it. -/
def decodesTo (l : List (Word × Instr)) : Prop := ∀ p ∈ l, decode p.1 = some p.2

/-- Every instruction of the list is refused by WellFormed. -/
theorem test_shift_amounts_out_of_range :
    ∀ i ∈ [Instr.sll 1#5 2#5 32, .srl 1#5 2#5 32, .sra 1#5 2#5 32, .dsll 1#5 2#5 32, .dsrl 1#5 2#5 32,
      .dsra 1#5 2#5 32, .dsll32 1#5 2#5 31, .dsrl32 1#5 2#5 31, .dsra32 1#5 2#5 31, .dsll32 1#5 2#5 64,
      .dsrl32 1#5 2#5 64, .dsra32 1#5 2#5 64], i.wellFormed = false := by decide

/-- The words of 41_alu.md, their fields as 30_encoding.md R75 to R82 lays them out. -/
theorem test_decode_alu :
    decodesTo
      [(0b000000_00001_00010_00011_00000_100000#32, .add 3#5 1#5 2#5),
       (0b000000_00001_00010_00011_00000_100001#32, .addu 3#5 1#5 2#5),
       (0b000000_00001_00010_00011_00000_100010#32, .sub 3#5 1#5 2#5),
       (0b000000_00001_00010_00011_00000_100011#32, .subu 3#5 1#5 2#5),
       (0b000000_00001_00010_00011_00000_100100#32, .and 3#5 1#5 2#5),
       (0b000000_00001_00010_00011_00000_100101#32, .or 3#5 1#5 2#5),
       (0b000000_00001_00010_00011_00000_100110#32, .xor 3#5 1#5 2#5),
       (0b000000_00001_00010_00011_00000_100111#32, .nor 3#5 1#5 2#5),
       (0b000000_00001_00010_00011_00000_101010#32, .slt 3#5 1#5 2#5),
       (0b000000_00001_00010_00011_00000_101011#32, .sltu 3#5 1#5 2#5),
       (0b000000_00001_00010_00011_00000_101100#32, .dadd 3#5 1#5 2#5),
       (0b000000_00001_00010_00011_00000_101101#32, .daddu 3#5 1#5 2#5),
       (0b000000_00001_00010_00011_00000_101110#32, .dsub 3#5 1#5 2#5),
       (0b000000_00001_00010_00011_00000_101111#32, .dsubu 3#5 1#5 2#5),
       (0b001000_00001_00010_1000000000000101#32, .addi 2#5 1#5 0x8005#16),
       (0b001001_00001_00010_1000000000000101#32, .addiu 2#5 1#5 0x8005#16),
       (0b001010_00001_00010_1000000000000101#32, .slti 2#5 1#5 0x8005#16),
       (0b001011_00001_00010_1000000000000101#32, .sltiu 2#5 1#5 0x8005#16),
       (0b001100_00001_00010_1000000000000101#32, .andi 2#5 1#5 0x8005#16),
       (0b001101_00001_00010_1000000000000101#32, .ori 2#5 1#5 0x8005#16),
       (0b001110_00001_00010_1000000000000101#32, .xori 2#5 1#5 0x8005#16),
       (0b001111_00000_00010_1000000000000101#32, .lui 2#5 0x8005#16),
       (0b011000_00001_00010_1000000000000101#32, .daddi 2#5 1#5 0x8005#16),
       (0b011001_00001_00010_1000000000000101#32, .daddiu 2#5 1#5 0x8005#16)] := by
  unfold decodesTo; decide

/-- The words of 42_shift.md, their fields as 30_encoding.md R75 to R82 lays them out. -/
theorem test_decode_shift :
    decodesTo
      [(0b000000_00000_00010_00011_00100_000000#32, .sll 3#5 2#5 4),
       (0b000000_00000_00010_00011_00100_000010#32, .srl 3#5 2#5 4),
       (0b000000_00000_00010_00011_00100_000011#32, .sra 3#5 2#5 4),
       (0b000000_00001_00010_00011_00000_000100#32, .sllv 3#5 2#5 1#5),
       (0b000000_00001_00010_00011_00000_000110#32, .srlv 3#5 2#5 1#5),
       (0b000000_00001_00010_00011_00000_000111#32, .srav 3#5 2#5 1#5),
       (0b000000_00001_00010_00011_00000_010100#32, .dsllv 3#5 2#5 1#5),
       (0b000000_00001_00010_00011_00000_010110#32, .dsrlv 3#5 2#5 1#5),
       (0b000000_00001_00010_00011_00000_010111#32, .dsrav 3#5 2#5 1#5),
       (0b000000_00000_00010_00011_00100_111000#32, .dsll 3#5 2#5 4),
       (0b000000_00000_00010_00011_00100_111010#32, .dsrl 3#5 2#5 4),
       (0b000000_00000_00010_00011_00100_111011#32, .dsra 3#5 2#5 4),
       (0b000000_00000_00010_00011_00100_111100#32, .dsll32 3#5 2#5 36),
       (0b000000_00000_00010_00011_00100_111110#32, .dsrl32 3#5 2#5 36),
       (0b000000_00000_00010_00011_00100_111111#32, .dsra32 3#5 2#5 36)] := by
  unfold decodesTo; decide

/-- The words of 43_muldiv.md, their fields as 30_encoding.md R75 to R82 lays them out. -/
theorem test_decode_muldiv :
    decodesTo
      [(0b000000_00000_00000_00011_00000_010000#32, .mfhi 3#5),
       (0b000000_00001_00000_00000_00000_010001#32, .mthi 1#5),
       (0b000000_00000_00000_00011_00000_010010#32, .mflo 3#5),
       (0b000000_00001_00000_00000_00000_010011#32, .mtlo 1#5),
       (0b000000_00001_00010_00000_00000_011000#32, .mult 1#5 2#5),
       (0b000000_00001_00010_00000_00000_011001#32, .multu 1#5 2#5),
       (0b000000_00001_00010_00000_00000_011010#32, .div 1#5 2#5),
       (0b000000_00001_00010_00000_00000_011011#32, .divu 1#5 2#5),
       (0b000000_00001_00010_00000_00000_011100#32, .dmult 1#5 2#5),
       (0b000000_00001_00010_00000_00000_011101#32, .dmultu 1#5 2#5),
       (0b000000_00001_00010_00000_00000_011110#32, .ddiv 1#5 2#5),
       (0b000000_00001_00010_00000_00000_011111#32, .ddivu 1#5 2#5)] := by
  unfold decodesTo; decide

/-- The words of 44_branch.md, their fields as 30_encoding.md R75 to R82 lays them out. -/
theorem test_decode_branch :
    decodesTo
      [(0b000000_00001_00000_00000_00000_001000#32, .jr 1#5),
       (0b000000_00001_00000_00011_00000_001001#32, .jalr 3#5 1#5),
       (0b000001_00001_00000_1000000000000101#32, .bltz 1#5 0x8005#16),
       (0b000001_00001_00001_1000000000000101#32, .bgez 1#5 0x8005#16),
       (0b000001_00001_00010_1000000000000101#32, .bltzl 1#5 0x8005#16),
       (0b000001_00001_00011_1000000000000101#32, .bgezl 1#5 0x8005#16),
       (0b000001_00001_10000_1000000000000101#32, .bltzal 1#5 0x8005#16),
       (0b000001_00001_10001_1000000000000101#32, .bgezal 1#5 0x8005#16),
       (0b000001_00001_10010_1000000000000101#32, .bltzall 1#5 0x8005#16),
       (0b000001_00001_10011_1000000000000101#32, .bgezall 1#5 0x8005#16),
       (0b000010_10001101000101011001111000#32, .j 0x2345678#26),
       (0b000011_10001101000101011001111000#32, .jal 0x2345678#26),
       (0b000100_00001_00010_1000000000000101#32, .beq 1#5 2#5 0x8005#16),
       (0b000101_00001_00010_1000000000000101#32, .bne 1#5 2#5 0x8005#16),
       (0b000110_00001_00000_1000000000000101#32, .blez 1#5 0x8005#16),
       (0b000111_00001_00000_1000000000000101#32, .bgtz 1#5 0x8005#16),
       (0b010100_00001_00010_1000000000000101#32, .beql 1#5 2#5 0x8005#16),
       (0b010101_00001_00010_1000000000000101#32, .bnel 1#5 2#5 0x8005#16),
       (0b010110_00001_00000_1000000000000101#32, .blezl 1#5 0x8005#16),
       (0b010111_00001_00000_1000000000000101#32, .bgtzl 1#5 0x8005#16)] := by
  unfold decodesTo; decide

/-- The words of 45_loadstore.md, their fields as 30_encoding.md R75 to R82 lays them out. -/
theorem test_decode_loadstore :
    decodesTo
      [(0b011010_00001_00010_1000000000000101#32, .ldl 2#5 0x8005#16 1#5),
       (0b011011_00001_00010_1000000000000101#32, .ldr 2#5 0x8005#16 1#5),
       (0b100000_00001_00010_1000000000000101#32, .lb 2#5 0x8005#16 1#5),
       (0b100001_00001_00010_1000000000000101#32, .lh 2#5 0x8005#16 1#5),
       (0b100010_00001_00010_1000000000000101#32, .lwl 2#5 0x8005#16 1#5),
       (0b100011_00001_00010_1000000000000101#32, .lw 2#5 0x8005#16 1#5),
       (0b100100_00001_00010_1000000000000101#32, .lbu 2#5 0x8005#16 1#5),
       (0b100101_00001_00010_1000000000000101#32, .lhu 2#5 0x8005#16 1#5),
       (0b100110_00001_00010_1000000000000101#32, .lwr 2#5 0x8005#16 1#5),
       (0b100111_00001_00010_1000000000000101#32, .lwu 2#5 0x8005#16 1#5),
       (0b101000_00001_00010_1000000000000101#32, .sb 2#5 0x8005#16 1#5),
       (0b101001_00001_00010_1000000000000101#32, .sh 2#5 0x8005#16 1#5),
       (0b101010_00001_00010_1000000000000101#32, .swl 2#5 0x8005#16 1#5),
       (0b101011_00001_00010_1000000000000101#32, .sw 2#5 0x8005#16 1#5),
       (0b101100_00001_00010_1000000000000101#32, .sdl 2#5 0x8005#16 1#5),
       (0b101101_00001_00010_1000000000000101#32, .sdr 2#5 0x8005#16 1#5),
       (0b101110_00001_00010_1000000000000101#32, .swr 2#5 0x8005#16 1#5),
       (0b110000_00001_00010_1000000000000101#32, .ll 2#5 0x8005#16 1#5),
       (0b110100_00001_00010_1000000000000101#32, .lld 2#5 0x8005#16 1#5),
       (0b110111_00001_00010_1000000000000101#32, .ld 2#5 0x8005#16 1#5),
       (0b111000_00001_00010_1000000000000101#32, .sc 2#5 0x8005#16 1#5),
       (0b111100_00001_00010_1000000000000101#32, .scd 2#5 0x8005#16 1#5),
       (0b111111_00001_00010_1000000000000101#32, .sd 2#5 0x8005#16 1#5)] := by
  unfold decodesTo; decide

/-- The words of 46_system.md, their fields as 30_encoding.md R75 to R82 lays them out. -/
theorem test_decode_system :
    decodesTo
      [(0b000000_10101011110011011110_001100#32, .syscall 0xABCDE#20),
       (0b000000_10101011110011011110_001101#32, .brk 0xABCDE#20),
       (0b000000_00000_00000_00000_00000_001111#32, .sync),
       (0b000000_00001_00010_00000_00000_110000#32, .tge 1#5 2#5),
       (0b000000_00001_00010_00000_00000_110001#32, .tgeu 1#5 2#5),
       (0b000000_00001_00010_00000_00000_110010#32, .tlt 1#5 2#5),
       (0b000000_00001_00010_00000_00000_110011#32, .tltu 1#5 2#5),
       (0b000000_00001_00010_00000_00000_110100#32, .teq 1#5 2#5),
       (0b000000_00001_00010_00000_00000_110110#32, .tne 1#5 2#5),
       (0b000001_00001_01000_1000000000000101#32, .tgei 1#5 0x8005#16),
       (0b000001_00001_01001_1000000000000101#32, .tgeiu 1#5 0x8005#16),
       (0b000001_00001_01010_1000000000000101#32, .tlti 1#5 0x8005#16),
       (0b000001_00001_01011_1000000000000101#32, .tltiu 1#5 0x8005#16),
       (0b000001_00001_01100_1000000000000101#32, .teqi 1#5 0x8005#16),
       (0b000001_00001_01110_1000000000000101#32, .tnei 1#5 0x8005#16),
       (0b101111_00001_10101_1000000000000101#32, .cache 0x15#5 0x8005#16 1#5),
       (0b110001_00001_00010_1000000000000101#32, .lwc1 2#5 0x8005#16 1#5),
       (0b110101_00001_00010_1000000000000101#32, .ldc1 2#5 0x8005#16 1#5),
       (0b111001_00001_00010_1000000000000101#32, .swc1 2#5 0x8005#16 1#5),
       (0b111101_00001_00010_1000000000000101#32, .sdc1 2#5 0x8005#16 1#5),
       (0b010000_00000_00010_00011_00000_000000#32, .mfc0 2#5 3#5),
       (0b010000_00001_00010_00011_00000_000000#32, .dmfc0 2#5 3#5),
       (0b010000_00100_00010_00011_00000_000000#32, .mtc0 2#5 3#5),
       (0b010000_00101_00010_00011_00000_000000#32, .dmtc0 2#5 3#5),
       (0b010000_1_0000000000000000000_000001#32, .tlbr),
       (0b010000_1_0000000000000000000_000010#32, .tlbwi),
       (0b010000_1_0000000000000000000_000110#32, .tlbwr),
       (0b010000_1_0000000000000000000_001000#32, .tlbp),
       (0b010000_1_0000000000000000000_011000#32, .eret),
       (0b010001_10001101000101011001111000#32, .cop1 0x2345678#26)] := by
  unfold decodesTo; decide

/-! ## Vectors of 95_test_vectors.md -/

/-- The block started at `0x1000` (section 2: "each vector is one instruction executed with `pc = 0x1000`"). -/
def start : State := { State.reset with running := true, pc := 0x1000#32 }

/-- The state with values put in registers. -/
def putRegs (l : List (Reg × Dword)) (s : State) : State := l.foldl (fun s p => s.setGpr p.1 p.2) s

/-- The handler of a word that has just been fetched. -/
def runWord (w : Word) (s : State) : State :=
  match decode w with
  | some i =>
    match exec i { s with lastInstr := w } with
    | .next t => t
    | .fault _ => s
    | .refused _ => s
  | none => s

/-- The word, run with values in `r1` and `r2`, leaves a value in a register. -/
abbrev gprVector (w : Word) (r1 r2 : Dword) (r : Reg) (v : Dword) : Prop :=
  (runWord w (putRegs [(1#5, r1), (2#5, r2)] start)).gpr r = v

/-- The word, run with values in `r1` and `r2`, leaves `hi` and `lo`. -/
abbrev hiLoVector (w : Word) (r1 r2 h l : Dword) : Prop :=
  (runWord w (putRegs [(1#5, r1), (2#5, r2)] start)).hi = h ∧
  (runWord w (putRegs [(1#5, r1), (2#5, r2)] start)).lo = l

/-- The branch, run at `0x80001000` with values in registers, leaves `jumpTarget`, `bstate` and a register. -/
abbrev branchVector (w : Word) (regs : List (Reg × Dword)) (target : Word) (b : BranchState) (r : Reg) (v : Dword) : Prop :=
  let t := runWord w (putRegs regs { start with pc := 0x80001000#32 })
  t.jumpTarget = target ∧ t.bstate = b ∧ t.gpr r = v

/-- 95_test_vectors.md 2.1: the word, `r1`, `r2`, the register written and its value. -/
theorem test_vectors_alu :
    gprVector 0x00221820#32 0x000000007FFFFFFF#64 0x0000000000000001#64 3#5 0xFFFFFFFF80000000#64 ∧
    gprVector 0x00221821#32 0x00000000FFFFFFFF#64 0x0000000000000001#64 3#5 0x0000000000000000#64 ∧
    gprVector 0x00221821#32 0x0000000123456789#64 0x0000000000000000#64 3#5 0x0000000023456789#64 ∧
    gprVector 0x00221822#32 0xFFFFFFFF80000000#64 0x0000000000000001#64 3#5 0x000000007FFFFFFF#64 ∧
    gprVector 0x00221823#32 0x0000000000000000#64 0x0000000000000001#64 3#5 0xFFFFFFFFFFFFFFFF#64 ∧
    gprVector 0x0022182C#32 0x7FFFFFFFFFFFFFFF#64 0x0000000000000001#64 3#5 0x8000000000000000#64 ∧
    gprVector 0x0022182D#32 0xFFFFFFFFFFFFFFFF#64 0x0000000000000002#64 3#5 0x0000000000000001#64 ∧
    gprVector 0x0022182E#32 0x8000000000000000#64 0x0000000000000001#64 3#5 0x7FFFFFFFFFFFFFFF#64 ∧
    gprVector 0x0022182F#32 0x0000000000000000#64 0x0000000000000001#64 3#5 0xFFFFFFFFFFFFFFFF#64 ∧
    gprVector 0x00221824#32 0xFF00FF00FF00FF00#64 0x0FF00FF00FF00FF0#64 3#5 0x0F000F000F000F00#64 ∧
    gprVector 0x00221825#32 0xFF00FF00FF00FF00#64 0x0FF00FF00FF00FF0#64 3#5 0xFFF0FFF0FFF0FFF0#64 ∧
    gprVector 0x00221826#32 0xFF00FF00FF00FF00#64 0x0FF00FF00FF00FF0#64 3#5 0xF0F0F0F0F0F0F0F0#64 ∧
    gprVector 0x00221827#32 0x0000000000000000#64 0x0000000000000000#64 3#5 0xFFFFFFFFFFFFFFFF#64 ∧
    gprVector 0x0022182A#32 0xFFFFFFFFFFFFFFFF#64 0x0000000000000001#64 3#5 0x0000000000000001#64 ∧
    gprVector 0x0022182B#32 0xFFFFFFFFFFFFFFFF#64 0x0000000000000001#64 3#5 0x0000000000000000#64 ∧
    gprVector 0x0022182B#32 0x7FFFFFFFFFFFFFFF#64 0x8000000000000000#64 3#5 0x0000000000000001#64 ∧
    gprVector 0x0021182A#32 0x0000000000000005#64 0x0000000000000000#64 3#5 0x0000000000000000#64 ∧
    gprVector 0x2023FFFF#32 0x0000000000000000#64 0x0000000000000000#64 3#5 0xFFFFFFFFFFFFFFFF#64 ∧
    gprVector 0x24238000#32 0x000000007FFFFFFF#64 0x0000000000000000#64 3#5 0x000000007FFF7FFF#64 ∧
    gprVector 0x6023FFFF#32 0x0000000000000000#64 0x0000000000000000#64 3#5 0xFFFFFFFFFFFFFFFF#64 ∧
    gprVector 0x64230001#32 0x7FFFFFFFFFFFFFFF#64 0x0000000000000000#64 3#5 0x8000000000000000#64 ∧
    gprVector 0x2823FFFF#32 0xFFFFFFFFFFFFFFFE#64 0x0000000000000000#64 3#5 0x0000000000000001#64 ∧
    gprVector 0x2C23FFFF#32 0x000000007FFFFFFF#64 0x0000000000000000#64 3#5 0x0000000000000001#64 ∧
    gprVector 0x3023FFFF#32 0xFFFFFFFFFFFFFFFF#64 0x0000000000000000#64 3#5 0x000000000000FFFF#64 ∧
    gprVector 0x34238000#32 0x0000000000000000#64 0x0000000000000000#64 3#5 0x0000000000008000#64 ∧
    gprVector 0x3823FFFF#32 0xFFFFFFFFFFFF0000#64 0x0000000000000000#64 3#5 0xFFFFFFFFFFFFFFFF#64 ∧
    gprVector 0x3C038000#32 0x0000000000000000#64 0x0000000000000000#64 3#5 0xFFFFFFFF80000000#64 ∧
    gprVector 0x3C037FFF#32 0x0000000000000000#64 0x0000000000000000#64 3#5 0x000000007FFF0000#64 := by
  and_intros <;> decide

/-- 95_test_vectors.md 2.2: the word, `r1`, `r2`, the register written and its value. -/
theorem test_vectors_shift :
    gprVector 0x00011800#32 0x0000000012345678#64 0x0000000000000000#64 3#5 0x0000000012345678#64 ∧
    gprVector 0x00011800#32 0x00000000FFFFFFFF#64 0x0000000000000000#64 3#5 0xFFFFFFFFFFFFFFFF#64 ∧
    gprVector 0x00011842#32 0xFFFFFFFF80000000#64 0x0000000000000000#64 3#5 0x0000000040000000#64 ∧
    gprVector 0x00011802#32 0xFFFFFFFF80000000#64 0x0000000000000000#64 3#5 0xFFFFFFFF80000000#64 ∧
    gprVector 0x00011FC3#32 0xFFFFFFFF80000000#64 0x0000000000000000#64 3#5 0xFFFFFFFFFFFFFFFF#64 ∧
    gprVector 0x00011903#32 0x000000007FFFFFF0#64 0x0000000000000000#64 3#5 0x0000000007FFFFFF#64 ∧
    gprVector 0x00411804#32 0x0000000000000001#64 0x0000000000000021#64 3#5 0x0000000000000002#64 ∧
    gprVector 0x00411806#32 0xFFFFFFFFFFFFFFFF#64 0x000000000000001F#64 3#5 0x0000000000000001#64 ∧
    gprVector 0x00411807#32 0xFFFFFFFF80000000#64 0x00000000000000FF#64 3#5 0xFFFFFFFFFFFFFFFF#64 ∧
    gprVector 0x00011FF8#32 0x0000000000000003#64 0x0000000000000000#64 3#5 0x0000000180000000#64 ∧
    gprVector 0x0001193A#32 0x8000000000000000#64 0x0000000000000000#64 3#5 0x0800000000000000#64 ∧
    gprVector 0x0001193B#32 0x8000000000000000#64 0x0000000000000000#64 3#5 0xF800000000000000#64 ∧
    gprVector 0x0001183C#32 0x0000000089ABCDEF#64 0x0000000000000000#64 3#5 0x89ABCDEF00000000#64 ∧
    gprVector 0x00011FFE#32 0x8000000000000000#64 0x0000000000000000#64 3#5 0x0000000000000001#64 ∧
    gprVector 0x00011FFF#32 0x8000000000000000#64 0x0000000000000000#64 3#5 0xFFFFFFFFFFFFFFFF#64 ∧
    gprVector 0x00411814#32 0x0000000000000001#64 0x000000000000007F#64 3#5 0x8000000000000000#64 ∧
    gprVector 0x00411816#32 0xF000000000000000#64 0x0000000000000040#64 3#5 0xF000000000000000#64 ∧
    gprVector 0x00411817#32 0xF000000000000000#64 0x000000000000003C#64 3#5 0xFFFFFFFFFFFFFFFF#64 := by
  and_intros <;> decide

/-- 95_test_vectors.md 2.3: the word, `r1`, `r2`, `hi` and `lo`. -/
theorem test_vectors_muldiv :
    hiLoVector 0x00220018#32 0xFFFFFFFFFFFFFFFF#64 0xFFFFFFFFFFFFFFFF#64 0x0000000000000000#64 0x0000000000000001#64 ∧
    hiLoVector 0x00220018#32 0x000000007FFFFFFF#64 0x000000007FFFFFFF#64 0x000000003FFFFFFF#64 0x0000000000000001#64 ∧
    hiLoVector 0x00220019#32 0x00000000FFFFFFFF#64 0x00000000FFFFFFFF#64 0xFFFFFFFFFFFFFFFE#64 0x0000000000000001#64 ∧
    hiLoVector 0x00220019#32 0xFFFFFFFFFFFFFFFF#64 0x0000000000000002#64 0x0000000000000001#64 0xFFFFFFFFFFFFFFFE#64 ∧
    hiLoVector 0x0022001A#32 0x0000000000000007#64 0xFFFFFFFFFFFFFFFD#64 0x0000000000000001#64 0xFFFFFFFFFFFFFFFE#64 ∧
    hiLoVector 0x0022001A#32 0xFFFFFFFFFFFFFFF9#64 0x0000000000000003#64 0xFFFFFFFFFFFFFFFF#64 0xFFFFFFFFFFFFFFFE#64 ∧
    hiLoVector 0x0022001B#32 0x00000000FFFFFFFF#64 0x0000000000000002#64 0x0000000000000001#64 0x000000007FFFFFFF#64 ∧
    hiLoVector 0x0022001B#32 0x00000000FFFFFFFF#64 0x00000000FFFFFFFF#64 0x0000000000000000#64 0x0000000000000001#64 ∧
    hiLoVector 0x0022001C#32 0xFFFFFFFFFFFFFFFF#64 0xFFFFFFFFFFFFFFFF#64 0x0000000000000000#64 0x0000000000000001#64 ∧
    hiLoVector 0x0022001C#32 0x8000000000000000#64 0x8000000000000000#64 0x4000000000000000#64 0x0000000000000000#64 ∧
    hiLoVector 0x0022001D#32 0xFFFFFFFFFFFFFFFF#64 0xFFFFFFFFFFFFFFFF#64 0xFFFFFFFFFFFFFFFE#64 0x0000000000000001#64 ∧
    hiLoVector 0x0022001D#32 0x123456789ABCDEF0#64 0x0FEDCBA987654321#64 0x0121FA00AD77D742#64 0x2236D88FE5618CF0#64 ∧
    hiLoVector 0x0022001E#32 0x8000000000000000#64 0xFFFFFFFFFFFFFFFF#64 0x0000000000000000#64 0x8000000000000000#64 ∧
    hiLoVector 0x0022001E#32 0xFFFFFFFFFFFFFFF9#64 0x0000000000000002#64 0xFFFFFFFFFFFFFFFF#64 0xFFFFFFFFFFFFFFFD#64 ∧
    hiLoVector 0x0022001F#32 0xFFFFFFFFFFFFFFFF#64 0x0000000000000010#64 0x000000000000000F#64 0x0FFFFFFFFFFFFFFF#64 := by
  and_intros <;> decide

/-- 95_test_vectors.md 2.3: the HI and LO moves. -/
theorem test_vectors_hilo_moves :
    (runWord 0x00200011#32 (putRegs [(1#5, 0x0123456789ABCDEF#64)] start)).hi = 0x0123456789ABCDEF#64 ∧
    (runWord 0x00200013#32 (putRegs [(1#5, 0xFFFFFFFF80000000#64)] start)).lo = 0xFFFFFFFF80000000#64 ∧
    (runWord 0x00001810#32 { start with hi := 0xFFFFFFFFFFFFFFFE#64 }).gpr 3#5 = 0xFFFFFFFFFFFFFFFE#64 ∧
    (runWord 0x00001812#32 { start with lo := 1#64 }).gpr 3#5 = 1#64 := by decide

/-- 95_test_vectors.md 2.3: a division by zero counts two free values; the run goes on. -/
theorem test_divide_by_zero_goes_on :
    (runWord 0x0022001A#32 (putRegs [(1#5, 5#64)] start)).draws = 2 ∧
    (runWord 0x0022001F#32 (putRegs [(1#5, 5#64)] start)).draws = 2 ∧
    (runWord 0x0022001A#32 (putRegs [(1#5, 5#64)] start)).halt = none := by decide

/-- 95_test_vectors.md 2.4: the word, the registers before, `jumpTarget`, `bstate`, and a register with its value. -/
theorem test_vectors_branch :
    branchVector 0x08000800#32 [] 0x80002000#32 .delaySlot 0#5 0x0000000000000000#64 ∧
    branchVector 0x0C000800#32 [] 0x80002000#32 .delaySlot 31#5 0xFFFFFFFF80001008#64 ∧
    branchVector 0x00A00008#32 [(5#5, 0xFFFFFFFF80002000#64)] 0x80002000#32 .delaySlot 0#5 0x0000000000000000#64 ∧
    branchVector 0x00A0F809#32 [(5#5, 0x0000000080002000#64)] 0x80002000#32 .delaySlot 31#5 0xFFFFFFFF80001008#64 ∧
    branchVector 0x00A02809#32 [(5#5, 0x0000000080002000#64)] 0x80002000#32 .delaySlot 5#5 0xFFFFFFFF80001008#64 ∧
    branchVector 0x10220010#32 [(1#5, 0x0000000000000005#64), (2#5, 0x0000000000000005#64)] 0x80001044#32 .delaySlot 0#5 0x0000000000000000#64 ∧
    branchVector 0x10220010#32 [(1#5, 0x0000000000000005#64), (2#5, 0x0000000000000006#64)] 0x80001008#32 .delaySlot 0#5 0x0000000000000000#64 ∧
    branchVector 0x1422FFF0#32 [(1#5, 0x0000000000000005#64), (2#5, 0x0000000000000006#64)] 0x80000FC4#32 .delaySlot 0#5 0x0000000000000000#64 ∧
    branchVector 0x18200004#32 [(1#5, 0x0000000000000000#64)] 0x80001014#32 .delaySlot 0#5 0x0000000000000000#64 ∧
    branchVector 0x1C200004#32 [(1#5, 0x8000000000000000#64)] 0x80001008#32 .delaySlot 0#5 0x0000000000000000#64 ∧
    branchVector 0x50220004#32 [(1#5, 0x0000000000000005#64), (2#5, 0x0000000000000006#64)] 0x80001008#32 .jump 0#5 0x0000000000000000#64 ∧
    branchVector 0x54220004#32 [(1#5, 0x0000000000000005#64), (2#5, 0x0000000000000006#64)] 0x80001014#32 .delaySlot 0#5 0x0000000000000000#64 ∧
    branchVector 0x58200004#32 [(1#5, 0x0000000000000001#64)] 0x80001008#32 .jump 0#5 0x0000000000000000#64 ∧
    branchVector 0x5C200004#32 [(1#5, 0x0000000000000001#64)] 0x80001014#32 .delaySlot 0#5 0x0000000000000000#64 ∧
    branchVector 0x04200004#32 [(1#5, 0xFFFFFFFFFFFFFFFF#64)] 0x80001014#32 .delaySlot 0#5 0x0000000000000000#64 ∧
    branchVector 0x04210004#32 [(1#5, 0x0000000000000000#64)] 0x80001014#32 .delaySlot 0#5 0x0000000000000000#64 ∧
    branchVector 0x04220004#32 [(1#5, 0x0000000000000000#64)] 0x80001008#32 .jump 0#5 0x0000000000000000#64 ∧
    branchVector 0x04230004#32 [(1#5, 0x0000000000000000#64)] 0x80001014#32 .delaySlot 0#5 0x0000000000000000#64 ∧
    branchVector 0x04300004#32 [(1#5, 0x0000000000000000#64)] 0x80001008#32 .delaySlot 31#5 0xFFFFFFFF80001008#64 ∧
    branchVector 0x04310004#32 [(1#5, 0x0000000000000000#64)] 0x80001014#32 .delaySlot 31#5 0xFFFFFFFF80001008#64 ∧
    branchVector 0x04320004#32 [(1#5, 0x0000000000000000#64)] 0x80001008#32 .jump 31#5 0xFFFFFFFF80001008#64 ∧
    branchVector 0x04330004#32 [(1#5, 0x0000000000000000#64)] 0x80001014#32 .delaySlot 31#5 0xFFFFFFFF80001008#64 ∧
    branchVector 0x07F00004#32 [(31#5, 0xFFFFFFFFFFFFFFFF#64)] 0x80001014#32 .delaySlot 31#5 0xFFFFFFFF80001008#64 := by
  and_intros <;> decide

/-- The start state of 95_test_vectors.md 2.5. -/
def memStart : State :=
  putRegs [(8#5, 0x1000#64), (9#5, 0xAABBCCDDEEFF0011#64)]
    { start with
      mem :=
        (Memory.writeSize [] 0x1000#32 .b8 0x1122334455667788#64).writeSize 0x1008#32 .b8 0x8899AABBCCDDEEFF#64 }

/-- The load, run in `memStart`, leaves `r9`. -/
abbrev loadVector (w : Word) (v : Dword) : Prop := (runWord w memStart).gpr 9#5 = v

/-- The store, run in `memStart` with `llbit` 1, leaves sixteen bytes at `0x1000`. -/
abbrev storeVector (w : Word) (a b : Dword) : Prop :=
  let t := runWord w { memStart with llbit := true }
  t.mem.readSize 0x1000#32 .b8 = a ∧ t.mem.readSize 0x1008#32 .b8 = b

/-- 95_test_vectors.md 2.5: a load, and `r9` after it. -/
theorem test_vectors_load :
    loadVector 0x81090007#32 0xFFFFFFFFFFFFFF88#64 ∧
    loadVector 0x8109FFFF#32 0x0000000000000000#64 ∧
    loadVector 0x91090007#32 0x0000000000000088#64 ∧
    loadVector 0x85090006#32 0x0000000000007788#64 ∧
    loadVector 0x95090006#32 0x0000000000007788#64 ∧
    loadVector 0x8D090004#32 0x0000000055667788#64 ∧
    loadVector 0x8D090008#32 0xFFFFFFFF8899AABB#64 ∧
    loadVector 0x9D090008#32 0x000000008899AABB#64 ∧
    loadVector 0xDD090008#32 0x8899AABBCCDDEEFF#64 ∧
    loadVector 0xC1090000#32 0x0000000011223344#64 ∧
    loadVector 0xD1090000#32 0x1122334455667788#64 ∧
    loadVector 0x89090001#32 0x0000000022334411#64 ∧
    loadVector 0x89090002#32 0x0000000033440011#64 ∧
    loadVector 0x99090001#32 0xFFFFFFFFEEFF1122#64 ∧
    loadVector 0x99090002#32 0xFFFFFFFFEE112233#64 ∧
    loadVector 0x6909000B#32 0xBBCCDDEEFFFF0011#64 ∧
    loadVector 0x6909000F#32 0xFFBBCCDDEEFF0011#64 ∧
    loadVector 0x6D09000B#32 0xAABBCCDD8899AABB#64 ∧
    loadVector 0x6D09000F#32 0x8899AABBCCDDEEFF#64 := by
  and_intros <;> decide

/-- 95_test_vectors.md 2.5: a store (with `llbit` 1), and the sixteen bytes after it. -/
theorem test_vectors_store :
    storeVector 0xA1090001#32 0x1111334455667788#64 0x8899AABBCCDDEEFF#64 ∧
    storeVector 0xA5090002#32 0x1122001155667788#64 0x8899AABBCCDDEEFF#64 ∧
    storeVector 0xAD090004#32 0x11223344EEFF0011#64 0x8899AABBCCDDEEFF#64 ∧
    storeVector 0xFD090008#32 0x1122334455667788#64 0xAABBCCDDEEFF0011#64 ∧
    storeVector 0xA9090001#32 0x11EEFF0055667788#64 0x8899AABBCCDDEEFF#64 ∧
    storeVector 0xA9090002#32 0x1122EEFF55667788#64 0x8899AABBCCDDEEFF#64 ∧
    storeVector 0xB9090001#32 0x0011334455667788#64 0x8899AABBCCDDEEFF#64 ∧
    storeVector 0xB9090002#32 0xFF00114455667788#64 0x8899AABBCCDDEEFF#64 ∧
    storeVector 0xB109000B#32 0x1122334455667788#64 0x8899AAAABBCCDDEE#64 ∧
    storeVector 0xB109000F#32 0x1122334455667788#64 0x8899AABBCCDDEEAA#64 ∧
    storeVector 0xB509000B#32 0x1122334455667788#64 0xEEFF0011CCDDEEFF#64 ∧
    storeVector 0xB509000F#32 0x1122334455667788#64 0xAABBCCDDEEFF0011#64 ∧
    storeVector 0xE1090000#32 0xEEFF001155667788#64 0x8899AABBCCDDEEFF#64 ∧
    storeVector 0xF1090008#32 0x1122334455667788#64 0xAABBCCDDEEFF0011#64 := by
  and_intros <;> decide

/-- 95_test_vectors.md 2.5: `r9` and `llbit` around the linked loads and conditional stores. -/
theorem test_vectors_linked :
    (runWord 0xC1090000#32 memStart).llbit = true ∧ (runWord 0xD1090000#32 memStart).llbit = true ∧
    (runWord 0xE1090000#32 { memStart with llbit := true }).gpr 9#5 = 1#64 ∧
    (runWord 0xE1090000#32 { memStart with llbit := true }).llbit = true ∧
    (runWord 0xE1090000#32 memStart).gpr 9#5 = 0#64 ∧ (runWord 0xE1090000#32 memStart).mem = memStart.mem := by
  decide

/-- 95_test_vectors.md 1.2, 2.5: a misaligned halfword or word access makes the two coprocessor-0 writes. -/
theorem test_vectors_address_error :
    (runWord 0x8D090002#32 memStart).calls =
      [.cop0Write Config.cop0Exc Config.codeAdel, .cop0Write Config.cop0BadVAddr 0x1002#32] ∧
    (runWord 0x8D090002#32 memStart).x = memStart.x ∧
    (runWord 0xA5090003#32 memStart).calls =
      [.cop0Write Config.cop0Exc Config.codeAdes, .cop0Write Config.cop0BadVAddr 0x1003#32] ∧
    (runWord 0xE1090002#32 memStart).calls =
      [.cop0Write Config.cop0Exc Config.codeAdes, .cop0Write Config.cop0BadVAddr 0x1002#32] :=
  ⟨rfl, by decide, rfl, rfl⟩

/-- 95_test_vectors.md 2.5: a misaligned doubleword access is refused. -/
theorem test_vectors_misaligned_doubleword :
    (runWord 0xDD090004#32 memStart).halt = some (.refused .misalignedDoubleword) ∧
    (runWord 0xFD09000C#32 memStart).halt = some (.refused .misalignedDoubleword) := by decide

/-- An answer that returns a value and does nothing. -/
def returns (v : Dword) : Answer :=
  { value := v, permanentLoop := false, safeIdle := false, actions := [], cop1Ops := [], cop1Branch := none }

/-- An answer during which the collaborator does something. -/
def acts (actions : List Action) : Answer := { returns 0#64 with actions := actions }

/-- 95_test_vectors.md 2.6: the coprocessor-0 moves. -/
theorem test_vectors_cop0_moves :
    (runWord 0x40096000#32 { start with script := [(0, returns 0x80000000#64)] }).gpr 9#5 =
      0xFFFFFFFF80000000#64 ∧
    (runWord 0x40297000#32 { start with script := [(0, returns 0x80001234#64)] }).gpr 9#5 =
      0xFFFFFFFF80001234#64 ∧
    (runWord 0x40006000#32 { start with script := [(0, returns 5#64)] }).gpr 0#5 = 0#64 ∧
    (runWord 0x40006000#32 { start with script := [(0, returns 5#64)] }).calls = [.cop0Read 12#5] ∧
    (runWord 0x40896000#32 (putRegs [(9#5, 1#64)] start)).calls = [.cop0Write 12#5 1#32] ∧
    (runWord 0x40A97000#32 (putRegs [(9#5, 0xFFFFFFFF80001000#64)] start)).calls =
      [.cop0Write 14#5 0x80001000#32] := by decide

/-- 95_test_vectors.md 2.6: the CO operations are forwarded; the collaborator returns from a trap during ERET. -/
theorem test_vectors_cop0_operations :
    (runWord 0x42000001#32 start).calls = [.cop0Op 0x01#6] ∧ (runWord 0x42000002#32 start).calls = [.cop0Op 0x02#6] ∧
    (runWord 0x42000006#32 start).calls = [.cop0Op 0x06#6] ∧ (runWord 0x42000008#32 start).calls = [.cop0Op 0x08#6] ∧
    (let t := runWord 0x42000018#32 { start with script := [(0, acts [.ctlWrite 32 .w32 0x80001234#64])] }
     t.bstate = .jump ∧ t.jumpTarget = 0x80001234#32) := by decide

/-- 95_test_vectors.md 2.6: the refusals. -/
theorem test_vectors_refusals :
    (runWord 0x0000000C#32 start).halt = some (.refused .syscallBreak) ∧
    (runWord 0x0000000D#32 start).halt = some (.refused .syscallBreak) ∧
    (runWord 0x44000000#32 start).halt = some (.refused .cop1Unmodelled) ∧
    (runWord 0xC4000000#32 start).halt = some (.refused .cop1Unmodelled) := by decide

/-- 95_test_vectors.md 2.6: SYNC, CACHE, TEQ and TEQI, the conditions of the traps holding, change nothing. -/
theorem test_vectors_no_ops :
    let s := putRegs [(1#5, 5#64), (2#5, 5#64), (8#5, 0x1000#64)] start
    runWord 0x0000000F#32 s = { s with lastInstr := 0x0000000F#32 } ∧
    runWord 0xBD100000#32 s = { s with lastInstr := 0xBD100000#32 } ∧
    runWord 0x00220034#32 s = { s with lastInstr := 0x00220034#32 } ∧
    runWord 0x042C0005#32 s = { s with lastInstr := 0x042C0005#32 } := ⟨rfl, rfl, rfl, rfl⟩

/-! ## The loop, the decode cache, the control surface and the probe -/

/-- The state a step leaves; the state itself where there is none. -/
def stepState (s : State) : State :=
  match step s with
  | .next t => t
  | .fault _ => s
  | .refused _ => s

/-- The word placed where the next step fetches it. -/
def placed (w : Word) (s : State) : State := s.withFetchWord 32 w.toNat

/-- 95_test_vectors.md 2.7: one ordinary instruction, an aborted one, a refused and a fatal one. -/
theorem test_vectors_count :
    (let t := stepState (placed 0x24030001#32 { start with cpi := 3#32, tickCounter := 10#64, syncCycles := 4#64 })
     t.tickCounter = 13#64 ∧ t.syncCycles = 7#64 ∧ t.pc = 0x1004#32) ∧
    (let t := stepState (placed 0x8D0E0002#32 (putRegs [(8#5, 0x1000#64)] start))
     t.tickCounter = 1#64 ∧ t.pc = 0x1004#32) ∧
    (let t := stepState (placed 0x0000000C#32 start); t.tickCounter = 0#64 ∧ t.pc = 0x1000#32) ∧
    (let t := stepState (placed 0x42000010#32 start)
     t.halt = some (.fatal .unknownOpcode 0x1000#32 0x42000010#32) ∧ t.tickCounter = 0#64) := by decide

/-- 95_test_vectors.md 2.7: a pending external jump, and the slot of a taken branch, which lands with a sync point. -/
theorem test_vectors_landing :
    (let t := stepState { start with extJump := true, jumpTarget := 0x2000#32 }
     t.pc = 0x2004#32 ∧ t.extJump = false ∧ t.bstate = .normal) ∧
    (let t := stepState { start with bstate := .jump, jumpTarget := 0x2000#32, syncCycles := 1#64 }
     t.pc = 0x2000#32 ∧ t.bstate = .normal ∧ t.syncCycles = 0#64 ∧
     t.calls.getD 2 .cop0IdleSignals = .timerClock 2#64) := by decide

/-- 95_test_vectors.md 2.8: a first fetch fills entry 64, a byte store to it invalidates it, a doubleword store both. -/
theorem test_vectors_cache :
    (let s := stepState (placed 0x24020001#32 { start with pc := 0x100#32 })
     s.cache = [(64, { tag := 0x100#32, raw := 0x24020001#32, handler := resolve 0x24020001#32 })] ∧
     (runWord 0xA0090102#32 s).cache = [] ∧
     (runWord 0xFC090100#32 s).cache = [] ∧
     (runWord 0xAC090104#32 s).cache = s.cache) ∧
    (stepState { start with pc := 0x4000#32 }).cache = [] ∧
    (stepState { start with pc := 0x102#32 }).halt = some (.refused .misalignedFetch) ∧
    (stepState { start with mmu := [] }).halt = some (.refused .translationFault) := by decide

/-- 95_test_vectors.md 2.9: control-surface accesses. -/
theorem test_vectors_control_surface :
    (ctlWriteVia callCollaborator 5 .w8 0x80#64 start).state.gpr 5#5 = 0xFFFFFFFFFFFFFF80#64 ∧
    (ctlWriteVia callCollaborator 0 .w64 7#64 start).state.gpr 0#5 = 7#64 ∧
    (ctlWriteVia callCollaborator 43 .w64 0xDEADBEEF#64 start).state.lo = 0xDEADBEEF00000000#64 ∧
    (ctlWriteVia callCollaborator 32 .w32 0x80000400#64 State.reset).state.pc = 0x80000400#32 ∧
    (ctlWriteVia callCollaborator 33 .w32 2#64 start).state.calls = [.cop0SetCpi 2#32] ∧
    (ctlWriteVia callCollaborator 37 .w32 0#64 { start with pc := 0x100#32 }).state.jumpTarget = 0x108#32 ∧
    (ctlWriteVia callCollaborator 37 .w32 0#64 { start with pc := 0x100#32 }).state.bstate = .jump ∧
    (ctlReadVia callCollaborator 64 .w32 start).state.halt = some (.refused .unmappedControl) ∧
    (ctlWriteVia callCollaborator 38 .w32 0#64 start).state.halt = some (.refused .unmappedControl) := by decide

/-- 95_test_vectors.md 2.10: the verdicts on the word after a self-branch. -/
theorem test_vectors_classify :
    classify 0x00000000#32 0x1022FFFF#32 = true ∧ classify 0x24630001#32 0x1022FFFF#32 = true ∧
    classify 0x24210001#32 0x1022FFFF#32 = false ∧ classify 0x00411821#32 0x1022FFFF#32 = true ∧
    classify 0x00220018#32 0x1022FFFF#32 = true ∧ classify 0x8C220000#32 0x1022FFFF#32 = false ∧
    classify 0xAC230000#32 0x1022FFFF#32 = false ∧ classify 0x40026000#32 0x1022FFFF#32 = false ∧
    classify 0x40036000#32 0x1022FFFF#32 = true ∧ classify 0x40836000#32 0x1022FFFF#32 = false ∧
    classify 0x24110001#32 0x0431FFFF#32 = false := by decide

/-! ## Witnesses: states that meet the hypotheses of the statements of Obligations.lean -/

/-- An outcome is a next state. -/
def isNext (o : Out) : Bool :=
  match o with
  | .next _ => true
  | .fault _ => false
  | .refused _ => false

/-- A step that is a next state answers `stepState`. -/
theorem step_eq {s : State} (h : isNext (step s) = true) : step s = .next (stepState s) := by
  unfold stepState
  cases hs : step s <;> simp_all [isNext]

/-- The state a handler leaves. -/
def execState (i : Instr) (s : State) : State :=
  match exec i s with
  | .next t => t
  | .fault _ => s
  | .refused _ => s

/-- Every handler answers `execState`. -/
theorem exec_eq (i : Instr) (s : State) : exec i s = .next (execState i s) := by
  obtain ⟨t, ht, _⟩ := exec_keeps i s
  simp [execState, ht]

/-- A state whose script lists only silent answers is silent. -/
theorem silent_of_script {s : State} (h : ∀ p ∈ s.script, p.2.silent) : s.silent := by
  intro n a _ hf
  have key : ∀ l : List (Nat × Answer), findAnswer l n = some a → ∃ p ∈ l, p.2 = a := by
    intro l
    induction l with
    | nil => intro hl; simp [findAnswer] at hl
    | cons p rest ih =>
      intro hl
      simp only [findAnswer] at hl
      split at hl
      · exact ⟨p, by simp, by simpa using hl⟩
      · obtain ⟨q, hq, he⟩ := ih hl
        exact ⟨q, by simp [hq], he⟩
  obtain ⟨p, hp, he⟩ := key _ hf
  exact he ▸ h p hp

/-- A state with an empty script is silent. -/
theorem silent_of_empty {s : State} (h : s.script = []) : s.silent :=
  silent_of_script (by simp [h])

/-- A state with an empty decode cache is coherent. -/
theorem coherent_of_empty {s : State} (h : s.cache = []) : s.coherent := by
  intro i e hf
  simp [h, Cache.find] at hf

/-- The block about to fetch a NOP at `0x1000`, by branch state. -/
def nopAt (b : BranchState) : State := { start with bstate := b, jumpTarget := 0x2000#32 }

/-- The block about to fetch the word placed at `0x1000`. -/
def wordAt1000 (w : Word) : State := { start with mem := Memory.writeSize [] 0x1000#32 .b4 (w.setWidth 64) }

theorem fetching_nop (b : BranchState) : (nopAt b).fetching 0x1000#32 0#32 where
  ready := ⟨rfl, rfl, rfl⟩
  noJump := rfl
  silent := silent_of_empty rfl
  wf := rfl
  coherent := coherent_of_empty rfl
  aligned := (by decide : start.pc.toNat % 4 = 0)
  translated := (by decide : translateAddress start.mmu start.pc .fetch = some 0x1000#32)
  ordinary := rfl
  word := by cases b <;> decide

theorem fetching_word (w : Word) (hw : (wordAt1000 w).wordAt 0x1000#32 = w) (hm : (wordAt1000 w).wf = true) :
    (wordAt1000 w).fetching 0x1000#32 w where
  ready := ⟨rfl, rfl, rfl⟩
  noJump := rfl
  silent := silent_of_empty rfl
  wf := hm
  coherent := coherent_of_empty rfl
  aligned := (by decide : start.pc.toNat % 4 = 0)
  translated := (by decide : translateAddress start.mmu start.pc .fetch = some 0x1000#32)
  ordinary := rfl
  word := hw

theorem witness_reset : ∃ (s : State) (l : Launch), s.host = [[.machineReset l]] ∧ s.running = false :=
  ⟨{ State.reset with host := [[.machineReset Launch.zero]] }, Launch.zero, rfl, rfl⟩

/-- The three ends, the running block, the host's two changes of `running`, and a step by the host on an ended run. -/
theorem witness_ends :
    (State.reset.host = [] ∧ State.reset.stoppedEnd) ∧
    (∃ s : State, s.host = [] ∧ s.halt = some (.fatal .unknownOpcode 0x1000#32 1#32)) ∧
    (∃ s : State, s.host = [] ∧ s.halt = some (.refused .syscallBreak)) ∧
    (start.host = [] ∧ start.halt = none ∧ start.running = true) ∧
    (∃ s : State, s.halt = none ∧ s.host = [[.setRunning false]]) ∧
    (∃ s : State, s.halt = none ∧ s.host = [[.setRunning true]]) ∧
    (∃ s t : State, step s = .next t ∧ s.halt ≠ none ∧
      ∀ batch ∈ s.host, ∀ l, HostAction.machineReset l ∉ batch) :=
  ⟨⟨rfl, rfl, rfl⟩, ⟨{ start with halt := some (.fatal .unknownOpcode 0x1000#32 1#32) }, rfl, rfl⟩,
    ⟨{ start with halt := some (.refused .syscallBreak) }, rfl, rfl⟩, ⟨rfl, rfl, rfl⟩,
    ⟨{ start with host := [[.setRunning false]] }, rfl, rfl⟩, ⟨{ start with host := [[.setRunning true]] }, rfl, rfl⟩,
    ⟨{ start with halt := some (.refused .syscallBreak), host := [[.setRunning false]] }, _, rfl, by simp, by simp⟩⟩

theorem witness_top_of_loop :
    (∃ s : State, s.host = [] ∧ s.halt ≠ none) ∧ (State.reset.host = [] ∧ State.reset.running = false) ∧
    ∃ s : State, s.host = [] ∧ s.halt = none ∧ s.running = true ∧ s.extJump = true :=
  ⟨⟨{ start with halt := some (.refused .syscallBreak) }, rfl, by decide⟩, ⟨rfl, rfl⟩,
    ⟨{ start with extJump := true }, rfl, rfl, rfl, rfl⟩⟩

/-- A step that completes and one that ends the run. -/
theorem witness_step_runs :
    ((nopAt .normal).fetching 0x1000#32 0#32 ∧ decode 0#32 = some (.sll 0#5 0#5 0) ∧
      (execState (.sll 0#5 0#5 0) (nopAt .normal)).halt = none) ∧
    ((wordAt1000 0x0000000C#32).fetching 0x1000#32 0x0000000C#32 ∧
      decode 0x0000000C#32 = some (.syscall 0#20) ∧ (execState (.syscall 0#20) start).halt ≠ none) :=
  ⟨⟨fetching_nop .normal, by decide, by decide⟩, fetching_word _ (by decide) (by decide), by decide, by decide⟩

theorem witness_count :
    start.bstate = .normal ∧ (nopAt .delaySlot).bstate = .delaySlot ∧
    (nopAt .jump).bstate = .jump ∧ (nopAt .jump).silent := ⟨rfl, rfl, rfl, silent_of_empty rfl⟩

theorem witness_delay_slot :
    (nopAt .jump).fetching 0x1000#32 0#32 ∧ (nopAt .jump).bstate = .jump ∧ (nopAt .jump).cfg.branchInDs = .refuse ∧
    ∃ t, step (nopAt .jump) = .next t ∧ t.halt = none :=
  ⟨fetching_nop .jump, rfl, rfl, stepState (nopAt .jump), step_eq (by decide), by decide⟩

/-- No branch, a taken branch (J), a likely branch not taken (`BNEL r0, r0, +4`). -/
theorem witness_outside_delay_slot :
    ∀ w ∈ [0x00000000#32, 0x08000800#32, 0x54000004#32], (wordAt1000 w).fetching 0x1000#32 w ∧
      (wordAt1000 w).bstate = .normal ∧ (∃ i, decode w = some i) ∧
      ∃ t, step (wordAt1000 w) = .next t ∧ t.halt = none := by
  intro w hw
  simp only [List.mem_cons, List.not_mem_nil, or_false] at hw
  rcases hw with rfl | rfl | rfl <;>
    exact ⟨fetching_word _ (by decide) (by decide), rfl, ⟨_, rfl⟩, _, step_eq (by decide), by decide⟩

/-- The three operands that WellFormed bounds, at the ends of their ranges. -/
theorem witness_well_formed :
    (Instr.sll 1#5 2#5 31).wellFormed = true ∧ (Instr.sll 1#5 2#5 0).wellFormed = true ∧
    (Instr.dsra32 1#5 2#5 32).wellFormed = true ∧ (Instr.dsra32 1#5 2#5 63).wellFormed = true := by decide

theorem witness_unassigned_word :
    ∀ w ∈ [0x42000010#32, 0x40400000#32, 0x4C000000#32, 0x00000001#32, 0x04040000#32],
      (wordAt1000 w).fetching 0x1000#32 w ∧ unassigned w := by
  intro w hw
  simp only [List.mem_cons, List.not_mem_nil, or_false] at hw
  rcases hw with rfl | rfl | rfl | rfl | rfl <;>
    exact ⟨fetching_word _ (by decide) (by decide), by unfold unassigned; decide⟩

theorem witness_refused_fetch :
    (∃ s : State, s.ready ∧ s.extJump = false ∧ s.pc.toNat % 4 ≠ 0) ∧
    ∃ s : State, s.ready ∧ s.extJump = false ∧ s.pc.toNat % 4 = 0 ∧ s.silent ∧
      translateAddress s.mmu s.pc .fetch = none :=
  ⟨⟨{ start with pc := 0x1003#32 }, ⟨rfl, rfl, rfl⟩, rfl, by decide⟩,
    ⟨{ start with mmu := [] }, ⟨rfl, rfl, rfl⟩, rfl, rfl, silent_of_empty rfl, rfl⟩⟩

/-- The state after one fetch of a NOP at `0x1000`: entry `0x400` is valid. -/
def cached : State := { start with cache := [(0x400, { tag := 0x1000#32, raw := 0#32, handler := resolve 0#32 })] }

theorem cached_coherent : cached.coherent := by
  intro i e hf _
  simp only [cached, start, Cache.find] at hf
  split at hf
  · cases hf; rfl
  · simp at hf

theorem witness_fetch :
    (start.silent ∧ start.wf = true ∧ start.coherent ∧ (0x1000#32).toNat % 4 = 0 ∧
      translateAddress start.mmu 0x1000#32 .fetch = some 0x1000#32 ∧ isDevice start.cfg 0x1000#32 = false) ∧
    cached.silent ∧ cached.wf = true ∧ cached.coherent :=
  ⟨⟨silent_of_empty rfl, rfl, coherent_of_empty rfl, rfl, rfl, rfl⟩, silent_of_empty rfl, by decide, cached_coherent⟩

/-- The cached word about to be overwritten, `llbit` 1. -/
def storeOver : State := { putRegs [(8#5, 0x1000#64), (9#5, 0x24020002#64)] cached with llbit := true }

/-- A store of each kind over the cached word, at the ends of its ranges. -/
theorem witness_store_then_fetch :
    storeOver.silent ∧ storeOver.wf = true ∧
    ∀ o ∈ [(Instr.sb 9#5 3#16 8#5, 0x1003#32, Size.b1), (.sh 9#5 2#16 8#5, 0x1002#32, .b2),
        (.sw 9#5 0#16 8#5, 0x1000#32, .b4), (.sd 9#5 0#16 8#5, 0x1000#32, .b8), (.sc 9#5 0#16 8#5, 0x1000#32, .b4),
        (.scd 9#5 0#16 8#5, 0x1000#32, .b8), (.swl 9#5 3#16 8#5, 0x1000#32, .b4), (.swr 9#5 3#16 8#5, 0x1000#32, .b4),
        (.sdl 9#5 7#16 8#5, 0x1000#32, .b8), (.sdr 9#5 7#16 8#5, 0x1000#32, .b8)],
      storeOver.storesAt o.1 o.2.1 o.2.2 ∧ o.2.1.toNat % o.2.2.bytes = 0 ∧
      translateAddress storeOver.mmu o.2.1 .store = some o.2.1 ∧ isDevice storeOver.cfg o.2.1 = false ∧
      (∃ t, exec o.1 storeOver = .next t ∧ t.halt = none ∧ translateAddress t.mmu 0x1000#32 .fetch = some 0x1000#32) ∧
      overlaps o.2.1 o.2.2.bytes 0x1000#32 := by
  refine ⟨silent_of_empty rfl, by decide, fun o ho => ?_⟩
  simp only [List.mem_cons, List.not_mem_nil, or_false] at ho
  rcases ho with rfl | rfl | rfl | rfl | rfl | rfl | rfl | rfl | rfl | rfl <;>
    exact ⟨by simp only [State.storesAt]; decide, by decide, by decide, by decide,
      ⟨_, exec_eq _ _, by decide, by decide⟩, by unfold overlaps; decide⟩

/-- Another agent has written `0x24020002` over the cached word; the cache is disabled. -/
theorem witness_stale_entry :
    (∃ s : State, s.silent ∧ translateAddress s.mmu 0x1000#32 .fetch = some 0x1000#32 ∧
      isDevice s.cfg 0x1000#32 = false ∧ s.cfg.cacheEnable = false) ∧
    ∃ (s : State) (e : CacheEntry), s.silent ∧ translateAddress s.mmu 0x1000#32 .fetch = some 0x1000#32 ∧
      isDevice s.cfg 0x1000#32 = false ∧ s.cfg.cacheEnable = true ∧ cacheIndex s.cfg 0x1000#32 = some 0x400 ∧
      s.cache.find 0x400 = some e ∧ e.tag = 0x1000#32 ∧ e.raw ≠ s.wordAt 0x1000#32 :=
  ⟨⟨{ start with cfg := { start.cfg with cacheEnable := false } }, silent_of_empty rfl, rfl, rfl, rfl⟩,
    { wordAt1000 0x24020002#32 with cache := cached.cache }, _, silent_of_empty rfl, rfl, rfl, rfl, rfl, rfl, rfl,
    by decide⟩

/-- A cache with an entry; the doubleword at `0x1000` overlaps its word, the byte at `0x1004` does not. -/
theorem witness_invalidate :
    cached.cache.wf cached.cfg = true ∧ overlaps 0x1000#32 8 0x1000#32 ∧ overlaps 0x1000#32 8 0x1004#32 ∧
    ¬ overlaps 0x1004#32 1 0x1000#32 ∧ cacheIndex cached.cfg 0x1000#32 = some 0x400 := by
  unfold overlaps; decide

/-- `P_NONSEXT32 = Draw` with an operand that does not fit. -/
def unfit : State := putRegs [(1#5, 0x123456789#64), (2#5, 1#64)] { start with cfg := { start.cfg with nonSext32 := .draw } }

/-- A 32-bit operation on operands that fit, on any operands with Truncate, and outside R109's condition. -/
theorem witness_op32 :
    start.op32Defined [1#5, 2#5] ∧ unfit.op32Defined [2#5] ∧ ¬ unfit.op32Defined [1#5, 2#5] :=
  ⟨.inl rfl, .inr (by decide), by unfold State.op32Defined; decide⟩

theorem witness_shift_amounts : (0 : Nat) < 32 ∧ (31 : Nat) < 32 := by decide

/-- The limbs of the vector of 95_test_vectors.md 2.3 "carries between limbs". -/
theorem witness_limbs :
    ∃ (s : State) (p0 p1 p2 p3 mid : Dword),
      p0 = ((s.gpr 1#5).extractLsb' 0 32).setWidth 64 * ((s.gpr 2#5).extractLsb' 0 32).setWidth 64 ∧
      p1 = ((s.gpr 1#5).extractLsb' 0 32).setWidth 64 * ((s.gpr 2#5).extractLsb' 32 32).setWidth 64 ∧
      p2 = ((s.gpr 1#5).extractLsb' 32 32).setWidth 64 * ((s.gpr 2#5).extractLsb' 0 32).setWidth 64 ∧
      p3 = ((s.gpr 1#5).extractLsb' 32 32).setWidth 64 * ((s.gpr 2#5).extractLsb' 32 32).setWidth 64 ∧
      mid = (p0.extractLsb' 32 32).setWidth 64 + (p1.extractLsb' 0 32).setWidth 64 +
        (p2.extractLsb' 0 32).setWidth 64 ∧
      s.gpr 1#5 = 0x123456789ABCDEF0#64 ∧ s.gpr 2#5 = 0x0FEDCBA987654321#64 :=
  ⟨putRegs [(1#5, 0x123456789ABCDEF0#64), (2#5, 0x0FEDCBA987654321#64)] start, _, _, _, _, _, rfl, rfl, rfl, rfl, rfl,
    by decide, by decide⟩

/-- Divisors that are not zero, the two overflows, and divisors that are zero. -/
theorem witness_divide :
    (let s := putRegs [(1#5, 0xFFFFFFFF80000000#64), (2#5, 0xFFFFFFFFFFFFFFFF#64)] start
     s.u32 2#5 ≠ 0 ∧ s.u64 2#5 ≠ 0 ∧ s.op32Defined [1#5, 2#5] ∧ low32 (s.gpr 1#5) = 0x80000000#32 ∧
       low32 (s.gpr 2#5) = 0xFFFFFFFF#32) ∧
    (let s := putRegs [(1#5, 0x8000000000000000#64), (2#5, 0xFFFFFFFFFFFFFFFF#64)] start
     s.gpr 1#5 = 0x8000000000000000#64 ∧ s.gpr 2#5 = 0xFFFFFFFFFFFFFFFF#64) ∧
    start.u32 2#5 = 0 ∧ start.u64 2#5 = 0 ∧
    (let s := putRegs [(2#5, 0x100000000#64)] start; s.u32 2#5 = 0 ∧ s.u64 2#5 ≠ 0) := by
  refine ⟨⟨by decide, by decide, .inl rfl, by decide, by decide⟩, by decide, by decide, by decide, by decide⟩

/-- A branch in a delay slot with both values of `P_BRANCH_IN_DS`, and outside one. -/
theorem witness_branch_state :
    ((nopAt .jump).bstate = .jump ∧ (nopAt .jump).cfg.branchInDs = .refuse) ∧
    (∃ s : State, s.bstate = .jump ∧ s.cfg.branchInDs = .derived) ∧ start.bstate ≠ .jump :=
  ⟨⟨rfl, rfl⟩, ⟨{ nopAt .jump with cfg := { start.cfg with branchInDs := .derived } }, rfl, rfl⟩, by decide⟩

/-- The conditions of the branches, held and not held, at the ends of their ranges. -/
theorem witness_branch_conditions :
    (let s := putRegs [(1#5, 1#64), (2#5, 0xFFFFFFFFFFFFFFFF#64)] start
     s.gpr 3#5 = s.gpr 4#5 ∧ s.gpr 1#5 ≠ s.gpr 2#5 ∧ s.s64 3#5 ≤ 0 ∧ ¬ s.s64 1#5 ≤ 0 ∧ 0 < s.s64 1#5 ∧ ¬ 0 < s.s64 3#5 ∧
       s.s64 2#5 < 0 ∧ ¬ s.s64 3#5 < 0 ∧ 0 ≤ s.s64 3#5 ∧ ¬ 0 ≤ s.s64 2#5) := by decide

/-- The address of a self-branch at `0x1004` is mapped, that of its delay slot is not. -/
def lastMapped (l : LookAheadRefusal) : State :=
  { start with
    pc := 0x1004#32
    cfg := { start.cfg with lookAheadRefusal := l }
    mmu := [{ forFetch := true, forLoad := true, forStore := true, vbase := 0x200#29, count := 1, pbase := 0x200#29 }] }

/-- A target that is not the branch, the self-branch of 95_test_vectors.md 1.1 with its word fetched, and self-branches
whose look-ahead fetch is misaligned (a state no run reaches) or has no translation. -/
theorem witness_branch_target :
    start.offsetTarget 0x0004#16 ≠ start.pc ∧ start.offsetTarget 0xFFFF#16 = start.pc ∧
    (∃ s : State, decode 0x1022FFFF#32 = some (.beq 1#5 2#5 0xFFFF#16) ∧ s.lastInstr = 0x1022FFFF#32 ∧
      s.gpr 1#5 = s.gpr 2#5 ∧ s.offsetTarget 0xFFFF#16 = s.pc ∧ s.lookAheadRefused = false) ∧
    (∀ l, ∃ s : State, s.cfg.lookAheadRefusal = l ∧ s.bstate ≠ .jump ∧ s.gpr 1#5 = s.gpr 2#5 ∧
      s.offsetTarget 0xFFFF#16 = s.pc ∧ (s.pc + 4#32).toNat % 4 ≠ 0) ∧
    (∀ l, ∃ s : State, s.cfg.lookAheadRefusal = l ∧ s.bstate ≠ .jump ∧ s.gpr 1#5 = s.gpr 2#5 ∧
      s.offsetTarget 0xFFFF#16 = s.pc ∧ s.silent ∧ (s.pc + 4#32).toNat % 4 = 0 ∧ translateAddress s.mmu s.pc .fetch = some s.pc ∧
      translateAddress s.mmu (s.pc + 4#32) .fetch = none) ∧
    (∃ s : State, decode 0x01000008#32 = some (.jr 8#5) ∧ s.lastInstr = 0x01000008#32 ∧ low32 (s.gpr 8#5) = s.pc) ∧
    (∃ s : State, decode 0x08000400#32 = some (.j 0x400#26) ∧ s.lastInstr = 0x08000400#32 ∧
      (s.pc + 4#32).extractLsb' 28 4 ++ 0x400#26 ++ 0#2 = s.pc) :=
  ⟨by decide, by decide, ⟨{ start with lastInstr := 0x1022FFFF#32 }, by decide, rfl, rfl, by decide, by decide⟩,
    fun l => ⟨{ start with pc := 0x1002#32, cfg := { start.cfg with lookAheadRefusal := l } }, rfl,
      (by decide : start.bstate ≠ .jump), rfl, (by decide : ({ start with pc := 0x1002#32 } : State).offsetTarget 0xFFFF#16 = 0x1002#32),
      (by decide : (0x1002#32 + 4#32).toNat % 4 ≠ 0)⟩,
    fun l => ⟨lastMapped l, rfl, by cases l <;> decide, rfl, by cases l <;> decide, silent_of_empty rfl,
      by cases l <;> decide, by cases l <;> decide, by cases l <;> decide⟩,
    ⟨putRegs [(8#5, 0x1000#64)] { start with lastInstr := 0x01000008#32 }, by decide, by decide, by decide⟩,
    ⟨{ start with lastInstr := 0x08000400#32 }, by decide, rfl, by decide⟩⟩

/-- The answer to `Cop0IdleSignals`, the third call of a probe that reads the bus. -/
def signals (permanent safe : Bool) : List (Nat × Answer) :=
  [(2, { returns 0#64 with permanentLoop := permanent, safeIdle := safe })]

theorem signals_silent (permanent safe : Bool) (s : State) : ({ s with script := signals permanent safe } : State).silent :=
  silent_of_script (by simp [signals, returns, Answer.silent])

/-- The state after the look-ahead fetch of a probe, in which `Cop0IdleSignals` is answered. -/
def lookedAhead (permanent safe : Bool) : State :=
  { start with script := signals permanent safe, calls := [.busRead 0x1004#32 .b4, .translate 0x1004#32 .fetch] }

theorem witness_probe :
    (0x0FFC#32 ≠ 0x1000#32) ∧
    (∀ permanent safe, ({ start with script := signals permanent safe } : State).silent) ∧
    (start.wf = true ∧ start.coherent ∧ (0x1000#32 + 4#32).toNat % 4 = 0 ∧
      translateAddress start.mmu (0x1000#32 + 4#32) .fetch = some 0x1004#32 ∧ isDevice start.cfg 0x1004#32 = false ∧
      start.wordAt 0x1004#32 = 0#32) ∧
    classify 0x00000000#32 0x1022FFFF#32 = true ∧ classify 0x24210001#32 0x1022FFFF#32 = false ∧
    (lookedAhead true false).nextAnswer.permanentLoop = true ∧
    ((lookedAhead false false).nextAnswer.permanentLoop = false ∧
      (lookedAhead false false).nextAnswer.safeIdle = false) ∧
    ((lookedAhead false true).nextAnswer.permanentLoop = false ∧
      (lookedAhead false true).nextAnswer.safeIdle = true) :=
  ⟨by decide, fun p q => signals_silent p q start, ⟨rfl, coherent_of_empty rfl, rfl, rfl, rfl, rfl⟩, by decide,
    by decide, rfl, ⟨rfl, rfl⟩, rfl, rfl⟩

/-- The scenario of 95_test_vectors.md 1.1: the probe of the self-branch, with the signals of the fatal end. -/
theorem test_permanent_loop :
    (stepState { placed 0x1022FFFF#32 (putRegs [(1#5, 5#64), (2#5, 5#64)] start) with
      script := [(4, { returns 0#64 with permanentLoop := true })] }).halt =
        some (.fatal .permanentLoop 0x1000#32 0x1022FFFF#32) := by decide

/-- The timer answers a positive, a zero and a negative number of cycles. -/
theorem witness_idle_skip :
    ∀ v : Dword, ∃ s : State, s.silent ∧
      low32 (State.nextAnswer { s with
        calls := .timerClock (s.syncCycles + BitVec.ofNat 64 s.cfg.idleExtra) :: s.calls }).value = low32 v :=
  fun v => ⟨{ start with script := [(1, returns v)] }, silent_of_script (by simp [returns, Answer.silent]), rfl⟩

theorem witness_idle_skip_signs :
    0 < (low32 1#64).toInt ∧ (low32 0#64).toInt ≤ 0 ∧ (low32 0x80000000#64).toInt ≤ 0 := by decide

/-- A silent environment. -/
theorem witness_silent : start.silent ∧ memStart.silent := ⟨silent_of_empty rfl, silent_of_empty rfl⟩

/-- Safe words of each row of R103's table, with the branch `BEQ r1, r2, -4`. -/
theorem witness_safe_word :
    ∀ w ∈ [0x00411821#32, 0x00220018#32, 0x24630001#32, 0x8C230000#32, 0x40036000#32, 0x00000000#32],
      start.silent ∧ classify w 0x1022FFFF#32 = true ∧ (decode w).isSome = true := by
  intro w hw
  refine ⟨silent_of_empty rfl, ?_⟩
  simp only [List.mem_cons, List.not_mem_nil, or_false] at hw
  rcases hw with rfl | rfl | rfl | rfl | rfl | rfl <;> decide

/-- An address at the end of a word, and one aligned to 8, translated and ordinary, for loads and stores. -/
theorem witness_access (b : Bool) :
    let s : State := { memStart with llbit := b }
    (s.silent ∧ s.wf = true ∧ s.llbit = b) ∧
    (s.effectiveAddress 8#5 8#16 = 0x1008#32 ∧ translateAddress s.mmu 0x1008#32 .load = some 0x1008#32 ∧
      translateAddress s.mmu 0x1008#32 .store = some 0x1008#32 ∧ isDevice s.cfg 0x1008#32 = false ∧
      (0x1008#32).toNat % 8 = 0) ∧
    (s.effectiveAddress 8#5 7#16 = 0x1007#32 ∧ translateAddress s.mmu 0x1007#32 .load = some 0x1007#32 ∧
      translateAddress s.mmu 0x1007#32 .store = some 0x1007#32 ∧ isDevice s.cfg 0x1007#32 = false) ∧
    (s.effectiveAddress 0#5 0xFFFC#16 = 0xFFFFFFFC#32 ∧
      translateAddress s.mmu 0xFFFFFFFC#32 .load = some 0xFFFFFFFC#32 ∧
      translateAddress s.mmu 0xFFFFFFFC#32 .store = some 0xFFFFFFFC#32 ∧ isDevice s.cfg 0xFFFFFFFC#32 = false ∧
      (0xFFFFFFFC#32).toNat % 4 = 0) :=
  ⟨⟨silent_of_empty rfl, (by decide : memStart.wf = true), rfl⟩, by cases b <;> decide, by cases b <;> decide,
    by cases b <;> decide⟩

/-- The partial accesses at the first and the last byte of a word and of a doubleword, with both `P_LWR_UPPER`. -/
theorem witness_partial :
    let s : State := memStart
    (s.effectiveAddress 8#5 0#16 = 0x1000#32 ∧ 0 = (0x1000#32).toNat % 4 ∧ 0 = (0x1000#32).toNat % 8 ∧
      translateAddress s.mmu (0x1000#32 - BitVec.ofNat 32 0) .load = some 0x1000#32) ∧
    (s.effectiveAddress 8#5 7#16 = 0x1007#32 ∧ 3 = (0x1007#32).toNat % 4 ∧ 7 = (0x1007#32).toNat % 8 ∧
      translateAddress s.mmu (0x1007#32 - BitVec.ofNat 32 3) .load = some 0x1004#32 ∧
      translateAddress s.mmu (0x1007#32 - BitVec.ofNat 32 7) .load = some 0x1000#32 ∧
      translateAddress s.mmu (0x1007#32 - BitVec.ofNat 32 7) .store = some 0x1000#32) ∧
    isDevice s.cfg 0x1000#32 = false ∧ isDevice s.cfg 0x1004#32 = false ∧ s.cfg.lwrUpper = .signExtend ∧
    ∃ u : State, u.silent ∧ u.cfg.lwrUpper = .draw :=
  ⟨by decide, by decide, by decide, by decide, rfl,
    { memStart with cfg := { memStart.cfg with lwrUpper := .draw } }, silent_of_empty rfl, rfl⟩

/-- The two pairs, at an aligned address and at the last byte of a unit. -/
theorem witness_pairs :
    ∀ o ∈ [(0#16, 3#16, 7#16, 0x1000#32), (7#16, 10#16, 14#16, 0x1007#32)],
      memStart.effectiveAddress 8#5 o.1 = o.2.2.2 ∧ memStart.effectiveAddress 8#5 o.2.1 = o.2.2.2 + 3#32 ∧
      memStart.effectiveAddress 8#5 o.2.2.1 = o.2.2.2 + 7#32 ∧ (9#5 : Reg) ≠ 8#5 ∧ (9#5 : Reg) ≠ 0#5 ∧
      (∀ ea ∈ [o.2.2.2, o.2.2.2 + 3#32],
        translateAddress memStart.mmu (alignedWord ea) .load = some (alignedWord ea) ∧
        translateAddress memStart.mmu (alignedWord ea) .store = some (alignedWord ea) ∧
        isDevice memStart.cfg (alignedWord ea) = false) ∧
      ∀ ea ∈ [o.2.2.2, o.2.2.2 + 7#32],
        translateAddress memStart.mmu (alignedDoubleword ea) .load = some (alignedDoubleword ea) ∧
        translateAddress memStart.mmu (alignedDoubleword ea) .store = some (alignedDoubleword ea) ∧
        isDevice memStart.cfg (alignedDoubleword ea) = false := by
  intro o ho
  simp only [List.mem_cons, List.not_mem_nil, or_false] at ho
  rcases ho with rfl | rfl <;> refine ⟨by decide, by decide, by decide, by decide, by decide, ?_, ?_⟩ <;>
    (intro ea he
     simp only [List.mem_cons, List.not_mem_nil, or_false] at he
     rcases he with rfl | rfl <;> decide)

/-- The pairs run, whatever the state: their two handlers answer next states. -/
theorem witness_pairs_run (s : State) :
    (∃ t u, exec (.lwl 9#5 7#16 8#5) s = .next t ∧ exec (.lwr 9#5 10#16 8#5) t = .next u) ∧
    (∃ t u, exec (.ldl 9#5 7#16 8#5) s = .next t ∧ exec (.ldr 9#5 14#16 8#5) t = .next u) ∧
    (∃ t u, exec (.swl 9#5 7#16 8#5) s = .next t ∧ exec (.swr 9#5 10#16 8#5) t = .next u) ∧
    (∃ t u, exec (.sdl 9#5 7#16 8#5) s = .next t ∧ exec (.sdr 9#5 14#16 8#5) t = .next u) :=
  ⟨⟨_, _, exec_eq _ _, exec_eq _ _⟩, ⟨_, _, exec_eq _ _, exec_eq _ _⟩, ⟨_, _, exec_eq _ _, exec_eq _ _⟩,
    ⟨_, _, exec_eq _ _, exec_eq _ _⟩⟩

/-- Misaligned addresses, each size at its least and its greatest remainder. -/
theorem witness_misaligned :
    memStart.silent ∧ memStart.effectiveAddress 8#5 1#16 = 0x1001#32 ∧ (0x1001#32).toNat % 2 ≠ 0 ∧
    (0x1001#32).toNat % 4 ≠ 0 ∧ (0x1001#32).toNat % 8 ≠ 0 ∧ (0x1003#32).toNat % 4 ≠ 0 ∧ (0x1007#32).toNat % 8 ≠ 0 ∧
    memStart.effectiveAddress 8#5 7#16 = 0x1007#32 :=
  ⟨silent_of_empty rfl, by decide⟩

/-- An MMU that maps nothing, and one that maps loads only. -/
theorem witness_untranslatable :
    (∃ s : State, s.silent ∧ translateAddress s.mmu (alignedDoubleword 0x1000#32) .load = some 0x1000#32 ∧
      translateAddress s.mmu (alignedDoubleword 0x1000#32) .store = none ∧ alignedWord 0x1000#32 = 0x1000#32) ∧
    ∃ s : State, s.silent ∧ s.llbit = true ∧ s.effectiveAddress 8#5 0#16 = 0x1000#32 ∧ (0x1000#32).toNat % 8 = 0 ∧
      translateAddress s.mmu 0x1000#32 .load = none ∧ translateAddress s.mmu 0x1000#32 .store = none ∧
      translateAddress s.mmu (alignedWord 0x1000#32) .load = none ∧
      translateAddress s.mmu (alignedDoubleword 0x1000#32) .load = none :=
  ⟨⟨{ memStart with
      mmu := [{ forFetch := true, forLoad := true, forStore := false, vbase := 0#29, count := 0x20000000,
                pbase := 0#29 }] }, silent_of_empty rfl, by decide, by decide, by decide⟩,
    { memStart with mmu := [], llbit := true }, silent_of_empty rfl, rfl, by decide, rfl, rfl, rfl, rfl, rfl⟩

theorem witness_syscall : start.host = [] := rfl

/-- The collaborator's writes during ERET, and silent answers after it. -/
theorem witness_eret :
    (∃ (s : State) (a : Answer), s.running = true ∧ s.halt = none ∧ findAnswer s.script s.calls.length = some a ∧
      (∀ n b, s.calls.length < n → findAnswer s.script n = some b → b.silent) ∧
      a.actions = [.ctlWrite 32 .w32 0x80001234#64]) ∧
    ∃ (s : State) (a : Answer), s.running = true ∧ s.halt = none ∧ findAnswer s.script s.calls.length = some a ∧
      (∀ n b, s.calls.length < n → findAnswer s.script n = some b → b.silent) ∧
      a.actions = [.ctlWrite 32 .w32 0x80001234#64, .ctlWrite 64 .w32 1#64, .ctlWrite 35 .w32 0#64] :=
  ⟨⟨{ start with script := [(0, acts [.ctlWrite 32 .w32 0x80001234#64])] }, _, rfl, rfl, rfl,
      fun n b h hf => by simp [findAnswer, start, State.reset, State.afterReset] at h hf; omega, rfl⟩,
    ⟨{ start with
        script := [(0, acts [.ctlWrite 32 .w32 0x80001234#64, .ctlWrite 64 .w32 1#64, .ctlWrite 35 .w32 0#64])] },
      _, rfl, rfl, rfl, fun n b h hf => by simp [findAnswer, start, State.reset, State.afterReset] at h hf; omega,
      rfl⟩⟩

/-- A misaligned load whose report redirects the block, and a landing whose second interrupt read does. -/
theorem witness_trap :
    (∃ (s t : State) (a b : Answer), s.running = true ∧ s.halt = none ∧
      (s.effectiveAddress 8#5 2#16).toNat % 4 ≠ 0 ∧ findAnswer s.script s.calls.length = some a ∧ a.actions = [] ∧
      findAnswer s.script (s.calls.length + 1) = some b ∧
      b.actions = [.ctlWrite 32 .w32 0x80000180#64, .ctlWrite 64 .w32 1#64] ∧
      (∀ n c, s.calls.length + 1 < n → findAnswer s.script n = some c → c.silent) ∧
      exec (.lw 14#5 2#16 8#5) s = .next t) ∧
    ∃ (s : State) (a b c : Answer), s.running = true ∧ s.halt = none ∧ s.bstate = .jump ∧
      findAnswer s.script s.calls.length = some a ∧ a.actions = [] ∧
      findAnswer s.script (s.calls.length + 1) = some b ∧ b.actions = [] ∧
      findAnswer s.script (s.calls.length + 2) = some c ∧
      c.actions = [.ctlWrite 32 .w32 0x80000180#64, .ctlWrite 64 .w32 1#64] :=
  ⟨⟨{ memStart with
        script := [(0, returns 0#64), (1, acts [.ctlWrite 32 .w32 0x80000180#64, .ctlWrite 64 .w32 1#64])] },
      _, _, _, rfl, rfl, by decide, rfl, rfl, rfl, rfl,
      fun n c h hf => by
        have h' : 1 < n := h
        have h0 : (0 = n) = False := by simp; omega
        have h1 : (1 = n) = False := by simp; omega
        simp [findAnswer, h0, h1] at hf, exec_eq _ _⟩,
    ⟨{ nopAt .jump with
        script := [(0, returns 0#64), (1, returns 0#64),
          (2, acts [.ctlWrite 32 .w32 0x80000180#64, .ctlWrite 64 .w32 1#64])] },
      _, _, _, rfl, rfl, rfl, rfl, rfl, rfl, rfl, rfl, rfl⟩⟩

/-- The block with a coprocessor-1 executor, whose first answer is `a`. -/
def cop1State (b : BranchState) (a : Answer) : State :=
  { start with
    bstate := b, cfg := { start.cfg with cop1Exec := true }, script := [(0, a)], lastInstr := 0xC5020004#32 }

/-- The executor does nothing but the operations, then branches or does not. -/
def cop1Answer (ops : List Cop1Op) (branch : Option Cop1Branch) : Answer :=
  { returns 0#64 with cop1Ops := ops, cop1Branch := branch }

theorem cop1_forwards (b : BranchState) (ops : List Cop1Op) (branch : Option Cop1Branch) (w : Word) :
    (cop1State b (cop1Answer ops branch)).forwards
      ((cop1State b (cop1Answer ops branch)).record (.cop1Exec w 0x1000#32)) w (cop1Answer ops branch) where
  given := rfl
  answer := rfl
  quiet := rfl
  later := fun n c h hf => by
    have h0 : ¬ (0 = n) := by
      have : 0 < n := h
      omega
    simp [cop1State, findAnswer, h0] at hf
  called := rfl

/-- A coprocessor-1 executor that is absent or silent, or whose answer holds the operations of a clause: aligned and
misaligned addresses at the ends of each size, and a branch in each branch state, to its own address and elsewhere. -/
theorem witness_cop1 :
    decode 0xC5020004#32 = some (.lwc1 2#5 4#16 8#5) ∧ start.cfg.cop1Exec = false ∧
    (∃ s : State, s.cfg.cop1Exec = true ∧ s.silent) ∧
    (∀ (b : BranchState) (ops : List Cop1Op) (branch : Option Cop1Branch), ∃ (s u : State) (a : Answer),
      s.forwards u 0xC5020004#32 a ∧ a.cop1Ops = ops ∧ a.cop1Branch = branch ∧ s.wf = true ∧
      s.lastInstr = 0xC5020004#32 ∧ s.bstate = b ∧ s.pc = 0x1000#32 ∧ s.lookAheadRefused = false ∧ s.cfg.branchInDs = .refuse ∧
      translateAddress s.mmu 0x1008#32 .load = some 0x1008#32 ∧
      translateAddress s.mmu 0x1008#32 .store = some 0x1008#32 ∧ isDevice s.cfg 0x1008#32 = false) ∧
    (0x1008#32).toNat % Size.b8.bytes = 0 ∧ (0x1001#32).toNat % Size.b2.bytes ≠ 0 ∧
    (0x1003#32).toNat % Size.b4.bytes ≠ 0 ∧ (0x1007#32).toNat % Size.b8.bytes ≠ 0 ∧
    ∃ s : State, s.bstate = .jump ∧ s.cfg.cop1Exec = true ∧ s.cfg.branchInDs = .derived :=
  ⟨by decide, rfl, ⟨{ start with cfg := { start.cfg with cop1Exec := true } }, rfl, silent_of_empty rfl⟩,
    fun b ops branch =>
      ⟨_, _, _, cop1_forwards b ops branch 0xC5020004#32, rfl, rfl, rfl, rfl, rfl, rfl,
        (by decide : start.lookAheadRefused = false), rfl,
        (by decide : translateAddress start.mmu 0x1008#32 .load = some 0x1008#32),
        (by decide : translateAddress start.mmu 0x1008#32 .store = some 0x1008#32), rfl⟩,
    by decide, by decide, by decide, by decide,
    { start with bstate := .jump, cfg := { start.cfg with cop1Exec := true, branchInDs := .derived } }, rfl, rfl, rfl⟩

/-- 46_system.md R256: a branch of the executor, and a register it writes after it. -/
theorem test_cop1_branch_then_write :
    (let t := runWord 0x44000000#32 (cop1State .normal (cop1Answer [] (some
       { taken := true, target := 0x2000#32, likely := false, link := some 31#5, after := [.writeGpr 31#5 7#64] })))
     t.bstate = .delaySlot ∧ t.jumpTarget = 0x2000#32 ∧ t.gpr 31#5 = 7#64) ∧
    (runWord 0x44000000#32 (cop1State .jump (cop1Answer [.writeGpr 1#5 7#64] (some
       { taken := true, target := 0x2000#32, likely := false, link := none, after := [.writeGpr 2#5 7#64] })))).x =
      (start.setGpr 1#5 7#64).x := by decide

/-- 46_system.md R256: the operations of the executor in order, another agent's among them, up to a misaligned one. -/
theorem test_cop1_operations :
    let t := runWord 0x44000000#32 (cop1State .normal (cop1Answer
      [.memWrite 0x1008#32 .b4 5#64, .act (.memWrite 0x100B#32 6#8), .writeGpr 2#5 8#64, .memRead 0x1002#32 .b4,
        .writeGpr 3#5 9#64] none))
    t.mem.readSize 0x1008#32 .b4 = 6#64 ∧ t.gpr 2#5 = 8#64 ∧ t.gpr 3#5 = 0#64 ∧ t.halt = none := by decide

/-- A verdict of the probe on both sides, a probe that ends the run, `running` on both sides, the values the branch
indices tell apart, and the indices where the clauses meet. -/
theorem witness_control_surface :
    (∃ t, probe start.pc start.lastInstr start.jumpTarget start = .ok false t) ∧
    (∃ s t, probe s.pc s.lastInstr s.jumpTarget s = .stop t) ∧ start.silent ∧
    start.running = true ∧ State.reset.running = false ∧ (0#64 : Dword) = 0#64 ∧ (1#64 : Dword) ≠ 0#64 ∧
    (31#5 : Reg).toNat = 31 ∧ (∀ index, index ∈ [34, 36, 45] → index = 34 ∨ index = 36 ∨ 45 ≤ index) ∧
    ∀ index, index ∈ [34, 36, 39, 45, 63, 65] → index ∈ [34, 36, 38, 39] ∨ 45 ≤ index ∧ index ≠ 64 :=
  ⟨⟨_, rfl⟩, ⟨{ start with mmu := [], jumpTarget := 0x1000#32 }, _, rfl⟩, silent_of_empty rfl, rfl, rfl, rfl, by decide,
    rfl, by decide, by decide⟩

/-- The control surface at the last index of each range and the first of the next. -/
theorem test_control_surface_boundaries :
    (ctlReadVia callCollaborator 31 .w32 (putRegs [(31#5, 7#64)] start)) = .ok 7#64 (putRegs [(31#5, 7#64)] start) ∧
    (∀ index ∈ [34, 36, 45], (ctlReadVia callCollaborator index .w32 start).state.halt = some (.refused .unmappedControl)) ∧
    (ctlWriteVia callCollaborator 31 .w32 7#64 start).state.gpr 31#5 = 7#64 ∧
    ∀ index ∈ [34, 45, 63, 65],
      (ctlWriteVia callCollaborator index .w32 0#64 start).state.halt = some (.refused .unmappedControl) :=
  ⟨rfl, by decide, by decide, by decide⟩

/-- 60_exceptions.md R269: what is scripted for a call that an action makes is done during that call: during the call of
ERET a read of index 38 reads coprocessor 0 twice, and register 5 is written during the second of those calls. -/
theorem test_call_within_a_call :
    let t := runWord 0x42000018#32 { start with
      script := [(0, acts [.ctlRead 38 .w32]), (2, acts [.ctlWrite 5 .w64 9#64])] }
    t.gpr 5#5 = 9#64 ∧ t.calls = [.cop0Read start.cfg.intRegB, .cop0Read start.cfg.intRegA, .cop0Op 0x18#6] :=
  ⟨by decide, rfl⟩

/-- Log entry 8: a load returns what another agent writes during its bus read. -/
theorem test_write_during_a_bus_read :
    (runWord 0x91090007#32 { memStart with script := [(1, acts [.memWrite 0x1007#32 0x5A#8])] }).gpr 9#5 = 0x5A#64 := by
  decide

/-- A self-branch that is refused for its look-ahead fetch has written nothing (60_exceptions.md R266) or its link,
`jumpTarget` and `bstate` (44_branch.md R174), by the parameter of log entry 13. -/
theorem test_look_ahead_refused :
    (let t := runWord 0x0411FFFF#32 (lastMapped .beforeWrites)
     t.halt = some (.refused .translationFault) ∧ t.x = start.x ∧ t.bstate = .normal ∧ t.jumpTarget = 0#32) ∧
    (let t := runWord 0x0411FFFF#32 (lastMapped .afterWrites)
     t.halt = some (.refused .translationFault) ∧ t.gpr 31#5 = 0x100C#64 ∧ t.bstate = .delaySlot ∧
       t.jumpTarget = 0x1004#32) := by
  decide

/-- Instructions that change a general-purpose register, `hi`, `llbit`, memory, the decode cache, the branch state,
`syncCycles` and `halt`. -/
theorem witness_writers :
    memStart.silent ∧ (runWord 0x24090001#32 memStart).gpr 9#5 ≠ memStart.gpr 9#5 ∧
    (runWord 0x01000011#32 memStart).hi ≠ memStart.hi ∧
    (runWord 0xC1090000#32 memStart).llbit ≠ memStart.llbit ∧ (runWord 0xAD090000#32 memStart).mem ≠ memStart.mem ∧
    (runWord 0xE1090000#32 { memStart with llbit := true }).mem ≠ memStart.mem ∧
    (runWord 0xAD090000#32 storeOver).cache ≠ storeOver.cache ∧
    (runWord 0x08000800#32 memStart).bstate ≠ memStart.bstate ∧
    (runWord 0x54000004#32 memStart).jumpTarget ≠ memStart.jumpTarget ∧
    (runWord 0x0000000C#32 memStart).halt ≠ memStart.halt ∧
    (runWord 0x1022FFFF#32 { start with
      script := signals false true ++ [(4, returns 0#64)], syncCycles := 9#64 }).syncCycles = 0#64 :=
  ⟨silent_of_empty rfl, by decide, by decide, by decide, by decide, by decide, by decide, by decide, by decide,
    by decide, by decide⟩

/-- A step from a state of each invariant. -/
theorem witness_step_invariants :
    cached.gpr 0#5 = 0#64 ∧ cached.noZeroWrites ∧ cached.wf = true ∧ cached.coherent ∧ cached.noForeignWrites ∧
    ∃ t, step cached = .next t :=
  ⟨rfl, ⟨fun n a h => by simp [findAnswer, cached, start, State.reset, State.afterReset] at h, by simp [cached, start, State.reset, State.afterReset]⟩,
    by decide, cached_coherent,
    ⟨fun n a h => by simp [findAnswer, cached, start, State.reset, State.afterReset] at h, by simp [cached, start, State.reset, State.afterReset]⟩,
    _, step_eq (by decide)⟩

end Sys2Proof.Tests
end

section
/-! SUPPORT. A whole step keeps what the invariants say; a machine reset; a fetch that is refused (10_state.md R22, R25,
R36, R52). -/
namespace Sys2Proof.Machine

/-! ## A step -/

/-- A step, with the host's turn before it, does no more than the invariants allow. -/
theorem step_keeps {s t : State} (h : step s = .next t) : StepKeeps s t := by
  unfold step hostThenIterate at h
  split at h
  · exact iterate_keeps h
  · rename_i batch rest hhost
    have hturn := turn_keeps hhost
    simp only at h
    split at h
    · exact hturn.trans (iterate_keeps h)
    · injection h with h
      exact h ▸ hturn

/-- Settles O58: every part of a step keeps `x[0]` where nobody writes index 0, and adds nothing to what the
environment will do. -/
theorem stepKeepsRegisterZero : Obligations.StepKeepsRegisterZero := by
  intro s t hzero hquiet hstep
  have hkeeps := step_keeps hstep
  exact ⟨hkeeps.zero hquiet hzero, State.noZeroWrites_of_sub hkeeps.script hkeeps.host hquiet⟩

/-- Settles O59: every part of a step keeps well-formedness and the launch parameters. -/
theorem stepKeepsWellFormedness : Obligations.StepKeepsWellFormedness := by
  intro s t hwf hstep
  have hkeeps := step_keeps hstep
  exact ⟨hkeeps.wf hwf, hkeeps.cfg⟩

/-! ## Reset -/

/-- A reset takes every register but `x[0]` from the launch parameters (10_state.md R52). -/
theorem State.gpr_afterReset (s : State) (l : Launch) {r : Reg} (h : r ≠ 0#5) :
    (s.afterReset l).gpr r = l.x[r.toNat]'r.isLt := by
  have hr : 0 ≠ r.toNat := fun e => h (BitVec.eq_of_toNat_eq e.symm)
  exact Vector.getElem_set_ne (by decide) r.isLt hr

/-- A turn of the host that is one reset of a stopped block is the whole step (70_reset_and_hazards.md R282). -/
theorem step_machineReset {s : State} {l : Launch} (hhost : s.host = [[.machineReset l]])
    (hstopped : s.running = false) : step s = .next (State.afterReset { s with host := [] } l) := by
  have hturn : hostTurn [.machineReset l] s = s.afterReset l := by
    simp [hostTurn, hostPerform, hstopped]
  simp [step, hostThenIterate, hhost, hturn, canIterate, State.afterReset]

/-- Settles O1: the fields of `afterReset`, and the step that applies it. -/
theorem resetGivesTheStatedValues : Obligations.ResetGivesTheStatedValues := by
  refine ⟨fun s l => ?_, _, Launch.zero, rfl⟩
  exact ⟨rfl, rfl, rfl, rfl, rfl, rfl, rfl, rfl, State.gpr_zero_afterReset s l, rfl,
    fun _ hr => State.gpr_afterReset s l hr, rfl, rfl, rfl, rfl, rfl, rfl, rfl, step_machineReset⟩

/-! ## A refused fetch -/

/-- With no jump pending, a fetch that ends there is the whole step. -/
theorem step_of_fetch_stop {s t : State} (hready : s.ready) (hjump : s.extJump = false)
    (hfetch : fetch s.pc s = .stop t) : step s = .next t := by
  have hsame : consumeExtJump s = s := by simp [consumeExtJump, hjump]
  rw [step_ready hready, hsame]
  unfold fetchAndRun
  rw [hfetch]

/-- A misaligned fetch is refused before any call (10_state.md R25). -/
theorem fetch_misaligned {va : Word} (s : State) (h : va.toNat % 4 ≠ 0) :
    fetch va s = .stop { s with halt := some (.refused .misalignedFetch) } := by
  unfold fetch fetchVia
  rw [if_neg (mt (aligned_iff va).1 h)]
  rfl

/-- A fetch without a translation is refused after the call for one (20_memory.md R54). -/
theorem fetch_untranslated {va : Word} {s : State} (hs : s.silent) (h : va.toNat % 4 = 0)
    (ht : translateAddress s.mmu va .fetch = none) :
    fetch va s =
      .stop { s with halt := some (.refused .translationFault), calls := .translate va .fetch :: s.calls } := by
  have htr := translate_silent_none hs ht
  unfold translate at htr
  unfold fetch fetchVia
  rw [if_pos ((aligned_iff va).2 h), htr]
  rfl

/-- Settles O13: both refusals end the fetch, and with it the step. -/
theorem refusedFetch : Obligations.RefusedFetch := by
  intro s hready hjump
  exact ⟨fun hpc => step_of_fetch_stop hready hjump (fetch_misaligned s hpc),
    fun hpc hs ht => step_of_fetch_stop hready hjump (fetch_untranslated hs hpc ht)⟩

end Sys2Proof.Machine
end

section
/-! SUPPORT. The control surface (10_state.md R40 to R51): what a read and a write of each index do. -/
namespace Sys2Proof.Machine

/-! ## Views of a register -/

/-- The low `k` bits of a register, as a view of the control surface has them (10_state.md R41). -/
theorem setWidth_setWidth_eq_ofNat (k : Nat) (v : Dword) :
    (v.setWidth k).setWidth 64 = BitVec.ofNat 64 (v.toNat % 2 ^ k) := by
  rw [← BitVec.ofNat_toNat, BitVec.toNat_setWidth]

theorem setWidth_highHalf (v : Dword) : (v.extractLsb' 32 32).setWidth 64 = v >>> 32 := by
  apply BitVec.eq_of_toNat_eq
  rw [BitVec.toNat_setWidth, BitVec.extractLsb'_toNat, BitVec.toNat_ushiftRight, Nat.shiftRight_eq_div_pow]
  have := v.isLt
  omega

theorem setWidth_lowHalf (v : Dword) : (v.extractLsb' 0 32).setWidth 64 = BitVec.ofNat 64 (v.toNat % 2 ^ 32) := by
  rw [← BitVec.ofNat_toNat, BitVec.extractLsb'_toNat, Nat.shiftRight_zero]

theorem toNat_append_halves (h l : Word) : (h ++ l).toNat = h.toNat * 2 ^ 32 + l.toNat := by
  rw [BitVec.toNat_append, ← Nat.shiftLeft_add_eq_or_of_lt l.isLt, Nat.shiftLeft_eq]

/-- A write of a high half keeps the low one. -/
theorem toNat_replaceHigh (v old : Dword) :
    (low32 v ++ old.extractLsb' 0 32).toNat = (v.toNat % 2 ^ 32) * 2 ^ 32 + old.toNat % 2 ^ 32 := by
  rw [toNat_append_halves, BitVec.toNat_setWidth, BitVec.extractLsb'_toNat, Nat.shiftRight_zero]

/-- A write of a low half keeps the high one. -/
theorem toNat_replaceLow (v old : Dword) :
    (old.extractLsb' 32 32 ++ low32 v).toNat = (old.toNat / 2 ^ 32) * 2 ^ 32 + v.toNat % 2 ^ 32 := by
  rw [toNat_append_halves, BitVec.toNat_setWidth, BitVec.extractLsb'_toNat, Nat.shiftRight_eq_div_pow]
  have := old.isLt
  omega

/-- A narrow write of a register stores the value sign-extended (10_state.md R41). -/
theorem Width.toInt_stored_w8 (v : Dword) : (Width.w8.stored v).toInt = (v.setWidth 8).toInt :=
  BitVec.toInt_signExtend_of_le (by decide)

theorem Width.toInt_stored_w16 (v : Dword) : (Width.w16.stored v).toInt = (v.setWidth 16).toInt :=
  BitVec.toInt_signExtend_of_le (by decide)

theorem Width.toInt_stored_w32 (v : Dword) : (Width.w32.stored v).toInt = (v.setWidth 32).toInt :=
  BitVec.toInt_signExtend_of_le (by decide)

/-! ## Reads of the control surface -/

/-- A read of indices 0 to 31 (10_state.md R41). -/
theorem ctlReadVia_register (call : Caller) (r : Reg) (n : Width) (s : State) :
    ctlReadVia call r.toNat n s = .ok (n.view (s.gpr r)) s := by
  unfold ctlReadVia
  rw [if_pos r.isLt, BitVec.ofNat_toNat, BitVec.setWidth_eq]

/-- A read of an index that the map does not have (10_state.md R51). -/
theorem ctlReadVia_unmapped (call : Caller) {index : Nat} (n : Width) (s : State)
    (h : index = 34 ∨ index = 36 ∨ 45 ≤ index) :
    ctlReadVia call index n s = .stop { s with halt := some (.refused .unmappedControl) } := by
  unfold ctlReadVia
  rw [if_neg (by omega)]
  split
  case h_12 => rfl
  all_goals omega

/-- A read of the interrupt registers in a silent environment: both are read, whatever the first gives
(10_state.md R46). -/
theorem ctlReadVia_interrupts (n : Width) {s : State} (hs : s.silent) :
    ctlReadVia callCollaborator 38 n s = .ok
      ((low32 s.nextAnswer.value &&& low32 (s.record (.cop0Read s.cfg.intRegA)).nextAnswer.value).setWidth 64)
      ((s.record (.cop0Read s.cfg.intRegA)).record (.cop0Read s.cfg.intRegB)) := by
  show ((callCollaborator _ s).bind _ : Res Dword) = _
  rw [callCollaborator_silent _ hs, Res.bind_ok, callCollaborator_silent _ (State.silent_record _ hs)]
  rfl

/-- A read of index 39 runs the probe and gives its verdict, unless the probe ends the run (10_state.md R47). -/
theorem ctlReadVia_probe (n : Width) (s : State) :
    ctlReadVia callCollaborator 39 n s =
      (probe s.pc s.lastInstr s.jumpTarget s).bind fun verdict t => .ok (if verdict then 1#64 else 0#64) t := rfl

theorem ctlReadVia_bstate (call : Caller) (n : Width) (s : State) :
    ctlReadVia call 37 n s = .ok (branchCode s.bstate) s := rfl

/-- Settles O54: each index by its row of the map, the registers by their views. -/
theorem controlSurfaceReads : Obligations.ControlSurfaceReads := by
  intro s n
  refine ⟨fun r => ⟨?_, ?_, ?_, ctlReadVia_register _ r .w64 s⟩, ?_, rfl, rfl, ?_, fun hs => ?_,
    fun verdict t h => ?_, fun t h => ?_, ?_, ?_, ?_, ?_, ?_,
    fun index h => ctlReadVia_unmapped callCollaborator n s h⟩
  · exact (ctlReadVia_register _ r .w8 s).trans (congrArg (Res.ok · s) (setWidth_setWidth_eq_ofNat 8 _))
  · exact (ctlReadVia_register _ r .w16 s).trans (congrArg (Res.ok · s) (setWidth_setWidth_eq_ofNat 16 _))
  · exact (ctlReadVia_register _ r .w32 s).trans (congrArg (Res.ok · s) (setWidth_setWidth_eq_ofNat 32 _))
  · exact congrArg (Res.ok · s) (BitVec.ofNat_toNat 64 s.pc).symm
  · rw [ctlReadVia_bstate]
    cases s.bstate <;> rfl
  · rw [ctlReadVia_interrupts n hs, ← BitVec.ofNat_toNat]
    rfl
  · rw [ctlReadVia_probe, h, Res.bind_ok]
  · rw [ctlReadVia_probe, h, Res.bind_stop]
  · exact congrArg (Res.ok · s) (BitVec.ofNat_toNat 64 s.lastInstr).symm
  · exact congrArg (Res.ok · s) (setWidth_highHalf s.hi)
  · exact congrArg (Res.ok · s) (setWidth_lowHalf s.hi)
  · exact congrArg (Res.ok · s) (setWidth_highHalf s.lo)
  · exact congrArg (Res.ok · s) (setWidth_lowHalf s.lo)

/-! ## Writes of the control surface -/

/-- A write of indices 0 to 31, without a guard for register 0 (10_state.md R41). -/
theorem ctlWriteVia_register (call : Caller) (r : Reg) (n : Width) (v : Dword) (s : State) :
    ctlWriteVia call r.toNat n v s = .ok () (s.setGpr r (n.stored v)) := by
  unfold ctlWriteVia
  rw [if_pos r.isLt, BitVec.ofNat_toNat, BitVec.setWidth_eq]

/-- A write of `pc`, or of the place to jump to while the block runs (10_state.md R42). -/
theorem ctlWriteVia_pc (call : Caller) (n : Width) (v : Dword) (s : State) :
    ctlWriteVia call 32 n v s =
      .ok () (if s.running then s.setBranch (low32 v) .jump else { s with pc := low32 v }) := rfl

/-- A write of `cpi` in a silent environment: it is forwarded (10_state.md R43). -/
theorem ctlWriteVia_cpi (n : Width) (v : Dword) {s : State} (hs : s.silent) :
    ctlWriteVia callCollaborator 33 n v s =
      .ok () (State.record { s with cpi := low32 v } (.cop0SetCpi (low32 v))) := by
  show (callCollaborator _ _).bind _ = _
  rw [callCollaborator_silent _ (show State.silent { s with cpi := low32 v } from hs), Res.bind_ok]

/-- A write of index 37 or 40 (10_state.md R45, R48). -/
theorem ctlWriteVia_force (call : Caller) {index : Nat} (n : Width) (v : Dword) (s : State) (h : index ∈ [37, 40]) :
    ctlWriteVia call index n v s = .ok () (s.forceBranch v) := by
  simp only [List.mem_cons, List.not_mem_nil, or_false] at h
  rcases h with rfl | rfl <;> rfl

/-- A write of an index that the map does not let be written (10_state.md R51). -/
theorem ctlWriteVia_unmapped (call : Caller) {index : Nat} (n : Width) (v : Dword) (s : State)
    (h : index ∈ [34, 36, 38, 39] ∨ 45 ≤ index ∧ index ≠ 64) :
    ctlWriteVia call index n v s = .stop { s with halt := some (.refused .unmappedControl) } := by
  simp only [List.mem_cons, List.not_mem_nil, or_false] at h
  unfold ctlWriteVia
  rw [if_neg (by omega)]
  split
  case h_11 => rfl
  all_goals omega

/-- Settles O55: each index by its row of the map, the registers and halves by what they then hold. -/
theorem controlSurfaceWrites : Obligations.ControlSurfaceWrites := by
  intro s n v
  have written : ∀ r : Reg, (s.setGpr r (n.stored v)).gpr r = n.stored v := fun r => by
    rw [State.gpr_setGpr, if_pos rfl]
  refine ⟨fun r => ⟨_, ctlWriteVia_register _ r n v s, rfl, fun q hq => ?_, ?_, ?_, ?_, ?_⟩, fun h => ?_, fun h => ?_,
    ctlWriteVia_cpi n v, rfl, fun index hi => ⟨fun h => ?_, fun h => ?_⟩, ⟨_, rfl, toNat_replaceHigh v s.hi⟩,
    ⟨_, rfl, toNat_replaceLow v s.hi⟩, ⟨_, rfl, toNat_replaceHigh v s.lo⟩, ⟨_, rfl, toNat_replaceLow v s.lo⟩, rfl,
    fun index h => ctlWriteVia_unmapped _ n v s h⟩
  · rw [State.gpr_setGpr, if_neg hq]
  · rintro rfl
    rw [written, Width.toInt_stored_w8]
  · rintro rfl
    rw [written, Width.toInt_stored_w16]
  · rintro rfl
    rw [written, Width.toInt_stored_w32]
  · rintro rfl
    exact written r
  · rw [ctlWriteVia_pc, if_neg (by simp [h])]
  · rw [ctlWriteVia_pc, if_pos h]
    rfl
  · rw [ctlWriteVia_force _ n v s hi, State.forceBranch, if_pos h]
    rfl
  · rw [ctlWriteVia_force _ n v s hi, State.forceBranch, if_neg h]

end Sys2Proof.Machine
end

section
/-! SUPPORT. Which instruction writes which piece of state in a silent environment (10_state.md R20 to R36): each shared
operation changes only what its group of instructions may, and every handler is one of them. -/
namespace Sys2Proof.Machine

/-- The groups whose instructions end in `BranchOp`. -/
def InstrGroup.branches (g : InstrGroup) : Prop := g = .branch ∨ g = .likely

/-- The groups whose instructions write memory. -/
def InstrGroup.stores (g : InstrGroup) : Prop := g = .store ∨ g = .conditionalStore

/-- The groups whose instructions may end the run (60_exceptions.md R265, R266). -/
def InstrGroup.ends (g : InstrGroup) : Prop :=
  g ∈ [.load, .linkedLoad, .store, .conditionalStore, .branch, .likely, .call, .cop1]

theorem InstrGroup.branches.ends {g : InstrGroup} (h : g.branches) : g.ends := by
  rcases h with rfl | rfl <;> simp [InstrGroup.ends]

theorem InstrGroup.stores.ends {g : InstrGroup} (h : g.stores) : g.ends := by
  rcases h with rfl | rfl <;> simp [InstrGroup.ends]

theorem InstrGroup.ends_load : InstrGroup.ends .load := by simp [InstrGroup.ends]
theorem InstrGroup.ends_call : InstrGroup.ends .call := by simp [InstrGroup.ends]
theorem InstrGroup.ends_cop1 : InstrGroup.ends .cop1 := by simp [InstrGroup.ends]

/-- `t` differs from `s` in no piece of state but those that an instruction of group `g` with destination `d` writes. -/
structure Within (g : InstrGroup) (d : Option Reg) (s t : State) : Prop where
  gpr : ∀ q, t.gpr q = s.gpr q ∨ (d = some q ∧ q ≠ 0#5)
  hi : t.hi = s.hi ∨ g = .hiLo
  lo : t.lo = s.lo ∨ g = .hiLo
  llbit : t.llbit = s.llbit ∨ (g = .linkedLoad ∧ t.llbit = true)
  mem : t.mem = s.mem ∨ g.stores
  bstate : t.bstate = s.bstate ∨ g.branches
  jumpTarget : t.jumpTarget = s.jumpTarget ∨ g.branches
  syncCycles : t.syncCycles = s.syncCycles ∨ g.branches
  cache : t.cache = s.cache ∨ g.stores ∨ g.branches
  halt : t.halt = s.halt ∨ g.ends
  tickCounter : t.tickCounter = s.tickCounter
  cpi : t.cpi = s.cpi
  extJump : t.extJump = s.extJump
  mmu : t.mmu = s.mmu
  lastInstr : t.lastInstr = s.lastInstr
  pc : t.pc = s.pc
  running : t.running = s.running

/-- Two changes in a row, each made only where `P` permits it. -/
theorem unchanged_or_trans {α : Type} {a b c : α} {P : Prop} (h : b = a ∨ P) (k : c = b ∨ P) : c = a ∨ P :=
  h.elim (fun e => k.imp_left (·.trans e)) .inr

section
variable {g : InstrGroup} {d : Option Reg}

theorem Within.refl (s : State) : Within g d s s where
  gpr _ := .inl rfl
  hi := .inl rfl
  lo := .inl rfl
  llbit := .inl rfl
  mem := .inl rfl
  bstate := .inl rfl
  jumpTarget := .inl rfl
  syncCycles := .inl rfl
  cache := .inl rfl
  halt := .inl rfl
  tickCounter := rfl
  cpi := rfl
  extJump := rfl
  mmu := rfl
  lastInstr := rfl
  pc := rfl
  running := rfl

theorem Within.trans {s t u : State} (h : Within g d s t) (k : Within g d t u) : Within g d s u where
  gpr q := unchanged_or_trans (h.gpr q) (k.gpr q)
  hi := unchanged_or_trans h.hi k.hi
  lo := unchanged_or_trans h.lo k.lo
  llbit := by
    rcases k.llbit with e | set
    · rw [e]
      exact h.llbit
    · exact .inr set
  mem := unchanged_or_trans h.mem k.mem
  bstate := unchanged_or_trans h.bstate k.bstate
  jumpTarget := unchanged_or_trans h.jumpTarget k.jumpTarget
  syncCycles := unchanged_or_trans h.syncCycles k.syncCycles
  cache := unchanged_or_trans h.cache k.cache
  halt := unchanged_or_trans h.halt k.halt
  tickCounter := k.tickCounter.trans h.tickCounter
  cpi := k.cpi.trans h.cpi
  extJump := k.extJump.trans h.extJump
  mmu := k.mmu.trans h.mmu
  lastInstr := k.lastInstr.trans h.lastInstr
  pc := k.pc.trans h.pc
  running := k.running.trans h.running

theorem Within.bind {α β : Type} {s : State} {r : Res α} {f : α → State → Res β} (hr : Within g d s r.state)
    (hf : ∀ a t, r = .ok a t → Within g d t (f a t).state) : Within g d s (r.bind f).state := by
  cases r with
  | ok a t => exact hr.trans (hf a t rfl)
  | stop t => exact hr

/-! ## The updates of the state -/

/-- The calls made and the free values drawn are no piece of state that `Within` names. -/
theorem Within.record (s : State) (c : Call) : Within g d s (s.record c) := { Within.refl s with }

theorem Within.draw (s : State) : Within g d s s.draw.2 := { Within.refl s with }

theorem Within.setHalt (h : g.ends) (s : State) (e : Option Ending) : Within g d s { s with halt := e } :=
  { Within.refl s with halt := .inr h }

theorem Within.setLlbit (h : g = .linkedLoad) (s : State) : Within g d s { s with llbit := true } :=
  { Within.refl s with llbit := .inr ⟨h, rfl⟩ }

theorem Within.setHiLo (h : g = .hiLo) (s : State) (u l : Dword) : Within g d s (s.setHiLo u l) :=
  { Within.refl s with hi := .inr h, lo := .inr h }

theorem Within.setBranch (h : g.branches) (s : State) (t : Word) (b : BranchState) : Within g d s (s.setBranch t b) :=
  { Within.refl s with bstate := .inr h, jumpTarget := .inr h }

theorem Within.setSyncCycles (h : g.branches) (s : State) (c : Dword) : Within g d s { s with syncCycles := c } :=
  { Within.refl s with syncCycles := .inr h }

theorem Within.invalidate (h : g.stores) (s : State) (pa : Word) (n : Size) : Within g d s (s.invalidate pa n) :=
  { Within.refl s with cache := .inr (.inl h) }

theorem Within.storeBytes (h : g.stores) (s : State) (pa : Word) (n : Size) (v : Dword) :
    Within g d s (s.storeBytes pa n v) := by
  unfold State.storeBytes
  split
  · exact Within.refl s
  · exact { Within.refl s with mem := .inr h }

/-- A write to the destination; register 0 is not changed by it (10_state.md R22). -/
theorem Within.writeGpr (s : State) (r : Reg) (v : Dword) : Within g (some r) s (s.writeGpr r v) := by
  unfold State.writeGpr
  split
  · exact Within.refl s
  · rename_i hr
    refine { Within.refl (g := g) (d := some r) s with gpr := fun q => ?_ }
    rw [State.gpr_setGpr]
    split
    · rename_i hq
      exact .inr ⟨congrArg some hq.symm, hq ▸ hr⟩
    · exact .inl rfl

theorem Within.writeLink (s : State) (link : Option Reg) : Within g link s (s.writeLink link) := by
  cases link with
  | none => exact Within.refl s
  | some r => exact Within.writeGpr s r _

/-- The pieces that `Quiet` leaves open, a branch may change. -/
theorem Within.of_quiet (h : g.branches) {s t : State} (q : Quiet s t) (running : t.running = s.running) :
    Within g d s t where
  gpr r := .inl (State.gpr_congr q.x r)
  hi := .inl q.hi
  lo := .inl q.lo
  llbit := .inl q.llbit
  mem := .inl q.mem
  bstate := .inl q.bstate
  jumpTarget := .inl q.jumpTarget
  syncCycles := .inl q.syncCycles
  cache := .inr (.inr h)
  halt := .inr h.ends
  tickCounter := q.tickCounter
  cpi := q.cpi
  extJump := q.extJump
  mmu := q.mmu
  lastInstr := q.lastInstr
  pc := q.pc
  running := running

/-! ## The operations of the handlers -/

theorem memRead_within (h : g.ends) (va : Word) (n : Size) {s : State} (hs : s.silent) :
    Within g d s (memRead va n s).state := by
  cases ht : translateAddress s.mmu va .load with
  | none =>
    rw [memRead_silent_none hs ht]
    exact (Within.record s _).trans (Within.setHalt h _ _)
  | some pa =>
    unfold memRead
    rw [translate_silent hs ht, Res.bind_ok, busRead_silent pa n (State.silent_record _ hs)]
    exact (Within.record s _).trans (Within.record _ _)

theorem memWrite_within (h : g.stores) (va : Word) (n : Size) (v : Dword) {s : State} (hs : s.silent) :
    Within g d s (memWrite va n v s).state := by
  cases ht : translateAddress s.mmu va .store with
  | none =>
    rw [memWrite_silent_none v hs ht]
    exact (Within.record s _).trans (Within.setHalt h.ends _ _)
  | some pa =>
    rw [memWrite_silent v hs ht]
    exact (((Within.record s _).trans (Within.storeBytes h _ pa n v)).trans (Within.record _ _)).trans
      (Within.invalidate h _ pa n)

theorem misalignedAccess_within {α : Type} (h : g.ends) (kind : AccessKind) (n : Size) (ea : Word) {s : State}
    (hs : s.silent) : Within g d s (misalignedAccess kind n ea s : Res α).state := by
  by_cases hn : n = .b8
  · subst hn
    exact Within.setHalt h s _
  · rw [misalignedAccess_silent hs hn]
    exact { Within.refl s with }

theorem checkAligned_within {α : Type} (h : g.ends) {kind : AccessKind} {n : Size} {ea : Word} {access : State → Res α}
    {s : State} (hs : s.silent) (ha : Within g d s (access s).state) :
    Within g d s (checkAligned kind n ea access s).state := by
  unfold checkAligned
  split
  · exact misalignedAccess_within h kind n ea hs
  · exact ha

theorem loadOp_within (h : g.ends) (n : Size) (ext : Dword → Dword) (rt : Reg) (offset : BitVec 16) (base : Reg)
    {s : State} (hs : s.silent) : Within g (some rt) s (loadOp n ext rt offset base s).state :=
  checkAligned_within h hs (Within.bind (memRead_within h _ n hs) fun _ t _ => Within.writeGpr t rt _)

theorem linkedLoadOp_within (h : g = .linkedLoad) (n : Size) (ext : Dword → Dword) (rt : Reg) (offset : BitVec 16)
    (base : Reg) {s : State} (hs : s.silent) : Within g (some rt) s (linkedLoadOp n ext rt offset base s).state :=
  Within.bind (loadOp_within (by simp [h, InstrGroup.ends]) n ext rt offset base hs) fun _ t _ => Within.setLlbit h t

theorem storeOp_within (h : g.stores) (n : Size) (rt : Reg) (offset : BitVec 16) (base : Reg) {s : State}
    (hs : s.silent) : Within g d s (storeOp n rt offset base s).state :=
  checkAligned_within h.ends hs (memWrite_within h _ n _ hs)

theorem conditionalStoreOp_within (h : g.stores) (n : Size) (rt : Reg) (offset : BitVec 16) (base : Reg) {s : State}
    (hs : s.silent) : Within g (some rt) s (conditionalStoreOp n rt offset base s).state := by
  refine checkAligned_within h.ends hs ?_
  split
  · exact Within.bind (memWrite_within h _ n _ hs) fun _ t _ => Within.writeGpr t rt _
  · exact Within.writeGpr s rt _

theorem extendLwr_within (k : Nat) (v : Word) (s : State) : Within g d s (extendLwr k v s).2 := by
  unfold extendLwr
  split
  · exact Within.draw s
  · exact Within.refl s

theorem partialLoadWord_within (h : g.ends) (merge : Nat → Word → Word → Word)
    {extend : Nat → Word → State → Dword × State} {rt : Reg} (he : ∀ k v s, Within g (some rt) s (extend k v s).2)
    (offset : BitVec 16) (base : Reg) {s : State} (hs : s.silent) :
    Within g (some rt) s (partialLoadWord merge extend rt offset base s).state :=
  Within.bind (memRead_within h _ _ hs) fun _ _ _ => (he _ _ _).trans (Within.writeGpr _ rt _)

theorem partialLoadDoubleword_within (h : g.ends) (merge : Nat → Dword → Dword → Dword) (rt : Reg) (offset : BitVec 16)
    (base : Reg) {s : State} (hs : s.silent) :
    Within g (some rt) s (partialLoadDoubleword merge rt offset base s).state :=
  Within.bind (memRead_within h _ _ hs) fun _ t _ => Within.writeGpr t rt _

/-- What a read of memory goes on from is as silent as what it began from. -/
theorem memRead_keeps_silent {va : Word} {n : Size} {s t : State} {v : Dword} (hs : s.silent)
    (h : memRead va n s = .ok v t) : t.silent := by
  have hserves := memRead_serves va n s
  rw [h] at hserves
  exact hserves.toKeeps.silent hs

theorem partialStoreWord_within (h : g.stores) (merge : Nat → Word → Word → Word) (rt : Reg) (offset : BitVec 16)
    (base : Reg) {s : State} (hs : s.silent) : Within g d s (partialStoreWord merge rt offset base s).state :=
  Within.bind (memRead_within h.ends _ _ hs) fun _ _ e => memWrite_within h _ _ _ (memRead_keeps_silent hs e)

theorem partialStoreDoubleword_within (h : g.stores) (merge : Nat → Dword → Dword → Dword) (rt : Reg)
    (offset : BitVec 16) (base : Reg) {s : State} (hs : s.silent) :
    Within g d s (partialStoreDoubleword merge rt offset base s).state :=
  Within.bind (memRead_within h.ends _ _ hs) fun _ _ e => memWrite_within h _ _ _ (memRead_keeps_silent hs e)

theorem probe_within (h : g.branches) (bpc bw target : Word) {s : State} (hs : s.silent) :
    Within g d s (probe bpc bw target s).state :=
  (Within.setSyncCycles h s _).trans
    (Within.of_quiet h (probe_quiet bpc bw target hs) (probe_serves bpc bw target s).running)

theorem branchOp_within (h : g.branches) (taken : Bool) (target : Word) (likely : Bool) (link : Option Reg) {s : State}
    (hs : s.silent) : Within g link s (branchOp taken target likely link s).state := by
  have written : ∀ t b, Within g link s ((s.writeLink link).setBranch t b) := fun t b =>
    (Within.writeLink s link).trans (Within.setBranch h _ t b)
  have probed : ∀ u : State, u.silent →
      Within g link u ((probe s.pc s.lastInstr target u).bind fun _ t => Res.ok () t).state := fun u hu =>
    Within.bind (probe_within h _ _ _ hu) fun _ t _ => Within.refl t
  unfold branchOp
  split
  · exact Within.setHalt h.ends s _
  · split
    · simp only
      split
      · exact probed s hs
      · exact (written _ _).trans (probed _ (((Keeps.writeLink s link).trans (Keeps.setBranch _ _ _)).silent hs))
    · exact written _ _

theorem moveFromCop0_within (rt rd : Reg) {s : State} (hs : s.silent) :
    Within g (some rt) s (moveFromCop0 rt rd s).state := by
  unfold moveFromCop0
  rw [cop0Read_silent rd hs]
  exact (Within.record s _).trans (Within.writeGpr _ rt _)

theorem moveToCop0_within (rt rd : Reg) {s : State} (hs : s.silent) : Within g d s (moveToCop0 rt rd s).state := by
  unfold moveToCop0
  rw [cop0Write_silent _ _ hs]
  exact Within.record s _

theorem cop0Op_within (funct : BitVec 6) {s : State} (hs : s.silent) : Within g d s (cop0Op funct s).state := by
  rw [cop0Op_silent funct hs]
  exact Within.record s _

/-- An executor whose answer is silent does nothing. -/
theorem runCop1_silent {a : Answer} (h : a.silent) (s : State) : runCop1 a s = .ok () s := by
  obtain ⟨_, hops, hbranch⟩ := h
  unfold runCop1
  rw [hops, hbranch]
  rfl

theorem cop1Class_within (h : g.ends) (w : Word) {s : State} (hs : s.silent) :
    Within g d s (cop1Class w s).state := by
  unfold cop1Class
  split
  · rw [callCollaborator_silent _ hs, Res.bind_ok, runCop1_silent (State.nextAnswer_silent hs)]
    exact Within.record s _
  · exact Within.setHalt h s _

/-! ## Every handler -/

/-- Where the outcome is a next state, it is within what the group and the destination permit. -/
def NextWithin (g : InstrGroup) (d : Option Reg) (s : State) (o : Out) : Prop := ∀ t, o = .next t → Within g d s t

theorem NextWithin.of_within {s t : State} (h : Within g d s t) : NextWithin g d s (.next t) := by
  rintro _ ⟨rfl⟩
  exact h

theorem NextWithin.outcome {α : Type} {s : State} {r : Res α} (h : Within g d s r.state) :
    NextWithin g d s r.outcome :=
  .of_within h

theorem NextWithin.writeGpr (s : State) (r : Reg) (v : Dword) : NextWithin g (some r) s (.next (s.writeGpr r v)) :=
  .of_within (Within.writeGpr s r v)

theorem NextWithin.writeOp32 (rd : Reg) (fit : Bool) (f : Word) (s : State) :
    NextWithin g (some rd) s (writeOp32 rd fit f s) := by
  unfold Machine.writeOp32
  split
  · exact .of_within ((Within.draw s).trans (Within.writeGpr _ rd _))
  · exact .writeGpr s rd _

theorem NextWithin.setHiLo (h : g = .hiLo) (s : State) (u l : Dword) : NextWithin g d s (.next (s.setHiLo u l)) :=
  .of_within (Within.setHiLo h s u l)

theorem NextWithin.drawHiLo (h : g = .hiLo) (s : State) : NextWithin g d s (drawHiLo s) :=
  .of_within (((Within.draw s).trans (Within.draw _)).trans (Within.setHiLo h _ _ _))

theorem NextWithin.writeHiLo32 (h : g = .hiLo) (fit : Bool) (u l : Word) (s : State) :
    NextWithin g d s (writeHiLo32 fit u l s) := by
  unfold Machine.writeHiLo32
  split
  · exact .drawHiLo h s
  · exact .setHiLo h s _ _

theorem NextWithin.ite {s : State} {c : Prop} [Decidable c] {a b : Out} (ha : NextWithin g d s a)
    (hb : NextWithin g d s b) : NextWithin g d s (if c then a else b) := by
  split
  · exact ha
  · exact hb

end

/-- Every handler changes only what its group and its destination permit. -/
theorem exec_within (i : Instr) {s : State} (hs : s.silent) :
    NextWithin (instrGroup i) (destination i) s (exec i s) := by
  cases i with
  | add | addu | sub | subu | addi | addiu | srl | sra | srlv | srav => exact .writeOp32 _ _ _ s
  | dadd | daddu | dsub | dsubu | daddi | daddiu | and | or | xor | nor | andi | ori | xori | lui | slt | sltu
  | slti | sltiu | sll | sllv | dsll | dsrl | dsra | dsll32 | dsrl32 | dsra32 | dsllv | dsrlv | dsrav | mfhi
  | mflo => exact .writeGpr s _ _
  | mult | multu => exact .writeHiLo32 rfl _ _ _ s
  | div | divu => exact .ite (.drawHiLo rfl s) (.writeHiLo32 rfl _ _ _ s)
  | dmult | dmultu | mthi | mtlo => exact .setHiLo rfl s _ _
  | ddiv | ddivu => exact .ite (.drawHiLo rfl s) (.setHiLo rfl s _ _)
  | j | jal | jr | jalr | beq | bne | blez | bgtz | bltz | bgez | bltzal | bgezal =>
    exact .outcome (branchOp_within (.inl rfl) _ _ _ _ hs)
  | beql | bnel | blezl | bgtzl | bltzl | bgezl | bltzall | bgezall =>
    exact .outcome (branchOp_within (.inr rfl) _ _ _ _ hs)
  | lb | lbu | lh | lhu | lw | lwu | ld =>
    exact .outcome (loadOp_within InstrGroup.ends_load _ _ _ _ _ hs)
  | lwl =>
    exact .outcome (partialLoadWord_within InstrGroup.ends_load _ (fun _ _ => Within.refl) _ _ hs)
  | lwr =>
    exact .outcome (partialLoadWord_within InstrGroup.ends_load _ extendLwr_within _ _ hs)
  | ldl | ldr =>
    exact .outcome (partialLoadDoubleword_within InstrGroup.ends_load _ _ _ _ hs)
  | ll | lld => exact .outcome (linkedLoadOp_within rfl _ _ _ _ _ hs)
  | sb | sh | sw | sd => exact .outcome (storeOp_within (.inl rfl) _ _ _ _ hs)
  | swl | swr => exact .outcome (partialStoreWord_within (.inl rfl) _ _ _ _ hs)
  | sdl | sdr => exact .outcome (partialStoreDoubleword_within (.inl rfl) _ _ _ _ hs)
  | sc | scd => exact .outcome (conditionalStoreOp_within (.inr rfl) _ _ _ _ hs)
  | sync | cache | tge | tgeu | tlt | tltu | teq | tne | tgei | tgeiu | tlti | tltiu | teqi | tnei =>
    exact .of_within (Within.refl s)
  | syscall | brk => exact .of_within (Within.setHalt InstrGroup.ends_call s _)
  | mfc0 | dmfc0 => exact .outcome (moveFromCop0_within _ _ hs)
  | mtc0 | dmtc0 => exact .outcome (moveToCop0_within _ _ hs)
  | tlbr | tlbwi | tlbwr | tlbp | eret => exact .outcome (cop0Op_within _ hs)
  | cop1 | lwc1 | ldc1 | swc1 | sdc1 =>
    exact .outcome (cop1Class_within InstrGroup.ends_cop1 _ hs)

/-- Settles O57: what `exec_within` permits, read as who may have made a change. -/
theorem eachPieceOfStateHasItsWriters : Obligations.EachPieceOfStateHasItsWriters := by
  intro i s t hs hexec
  have h := exec_within i hs t hexec
  have hcache : ∀ g : InstrGroup, g.stores ∨ g.branches → g ∈ [.store, .conditionalStore, .branch, .likely] := by
    simp [InstrGroup.stores, InstrGroup.branches, or_assoc]
  exact ⟨fun c => c.elim h.hi.resolve_left h.lo.resolve_left, h.llbit.resolve_left, h.mem.resolve_left,
    fun c => c.elim h.bstate.resolve_left h.jumpTarget.resolve_left, h.syncCycles.resolve_left,
    fun q => (h.gpr q).resolve_left, fun c => hcache _ (h.cache.resolve_left c), h.halt.resolve_left, h.tickCounter,
    h.cpi, h.extJump, h.mmu, h.lastInstr, h.pc, h.running⟩

end Sys2Proof.Machine
end

section
/-! SUPPORT. Accesses that do not complete: a misaligned one, and one whose address has no translation (20_memory.md
R54, R60, R61, 60_exceptions.md R263). -/
namespace Sys2Proof.Machine

/-! ## A misaligned access -/

section
variable {s : State} {rt base : Reg} {offset : BitVec 16} {n : Size} {ea : Word}

/-- A misaligned access ends the handler, so nothing of what would follow is done. -/
theorem misalignedAccess_bind {α β : Type} (kind : AccessKind) (n : Size) (ea : Word) (s : State)
    (f : α → State → Res β) : (misalignedAccess kind n ea s).bind f = misalignedAccess kind n ea s := by
  have raised : (raiseAddressError kind ea s : Res α).bind f = raiseAddressError kind ea s := by
    unfold raiseAddressError
    cases cop0Write s.cfg.cop0BadVAddr ea s with
    | stop u => rfl
    | ok _ u =>
      simp only [Res.bind_ok]
      cases cop0Write u.cfg.cop0Exc (faultCode u.cfg kind) u <;> rfl
  cases n with
  | b1 | b2 | b4 => exact raised
  | b8 => rfl

theorem loadOp_misaligned (ext : Dword → Dword) (he : s.effectiveAddress base offset = ea)
    (ha : ea.toNat % n.bytes ≠ 0) : loadOp n ext rt offset base s = misalignedAccess .load n ea s := by
  unfold loadOp
  rw [he, checkAligned_bad (misaligned_of_mod_ne ha)]

theorem linkedLoadOp_misaligned (ext : Dword → Dword) (he : s.effectiveAddress base offset = ea)
    (ha : ea.toNat % n.bytes ≠ 0) : linkedLoadOp n ext rt offset base s = misalignedAccess .load n ea s := by
  unfold linkedLoadOp
  rw [loadOp_misaligned ext he ha, misalignedAccess_bind]

theorem storeOp_misaligned (he : s.effectiveAddress base offset = ea) (ha : ea.toNat % n.bytes ≠ 0) :
    storeOp n rt offset base s = misalignedAccess .store n ea s := by
  unfold storeOp
  rw [he, checkAligned_bad (misaligned_of_mod_ne ha)]

theorem conditionalStoreOp_misaligned (he : s.effectiveAddress base offset = ea) (ha : ea.toNat % n.bytes ≠ 0) :
    conditionalStoreOp n rt offset base s = misalignedAccess .store n ea s := by
  unfold conditionalStoreOp
  rw [he, checkAligned_bad (misaligned_of_mod_ne ha)]

end

/-- Settles O45: each access is its `misalignedAccess`, which reports a halfword or a word and refuses a doubleword. -/
theorem misalignedAccesses : Obligations.MisalignedAccesses := by
  intro s rt base offset ea he
  have reported : ∀ {r : Res Unit} {kind : AccessKind} {n : Size}, s.silent → n ≠ .b8 →
      r = misalignedAccess kind n ea s → r.outcome = .next { s with
        calls := .cop0Write s.cfg.cop0Exc (faultCode s.cfg kind) :: .cop0Write s.cfg.cop0BadVAddr ea :: s.calls } :=
    fun hs hn hr => congrArg Res.outcome (hr.trans (misalignedAccess_silent hs hn))
  have refused : ∀ {r : Res Unit} {kind : AccessKind}, r = misalignedAccess kind .b8 ea s →
      r.outcome = .next { s with halt := some (.refused .misalignedDoubleword) } := fun hr => congrArg Res.outcome hr
  simp only [List.forall_mem_cons, List.not_mem_nil, false_implies, implies_true, and_true]
  refine ⟨fun hs ha => ?_, fun hs ha => ?_, fun ha => ?_⟩
  · have hn : Size.b2 ≠ .b8 := by decide
    exact ⟨⟨reported hs hn (loadOp_misaligned _ he ha), reported hs hn (loadOp_misaligned _ he ha)⟩,
      reported hs hn (storeOp_misaligned he ha)⟩
  · have hn : Size.b4 ≠ .b8 := by decide
    exact ⟨⟨reported hs hn (loadOp_misaligned _ he ha), reported hs hn (loadOp_misaligned _ he ha),
        reported hs hn (linkedLoadOp_misaligned _ he ha)⟩,
      reported hs hn (storeOp_misaligned he ha), reported hs hn (conditionalStoreOp_misaligned he ha)⟩
  · exact ⟨refused (loadOp_misaligned _ he ha), refused (linkedLoadOp_misaligned _ he ha),
      refused (storeOp_misaligned he ha), refused (conditionalStoreOp_misaligned he ha)⟩

/-! ## An address without a translation -/

/-- `s` after an access that has no translation: the call for one, and the refusal (20_memory.md R54). -/
def State.untranslated (s : State) (va : Word) (kind : AccessKind) : State :=
  { s with halt := some (.refused .translationFault), calls := .translate va kind :: s.calls }

section
variable {s : State} {rt base : Reg} {offset : BitVec 16} {n : Size} {ea va pa : Word}

/-- Whatever would follow a read, the refusal of the read is all that is done. -/
theorem memRead_bind_untranslated {α : Type} (f : Dword → State → Res α) (hs : s.silent)
    (ht : translateAddress s.mmu va .load = none) : (memRead va n s).bind f = .stop (s.untranslated va .load) := by
  rw [memRead_silent_none hs ht, Res.bind_stop]
  rfl

/-- A read in a silent environment, from ordinary memory or a device: the value apart, only the two calls. -/
theorem memRead_completes (hs : s.silent) (ht : translateAddress s.mmu va .load = some pa) :
    ∃ v, memRead va n s = .ok v (s.afterRead va pa n) := by
  unfold memRead
  rw [translate_silent hs ht, Res.bind_ok, busRead_silent pa n (State.silent_record _ hs)]
  exact ⟨_, rfl⟩

/-- A read and a write back (20_memory.md R63) whose write has no translation: refused after the read. -/
theorem memRead_bind_memWrite_untranslated (f : Dword → State → Dword) (hs : s.silent)
    (hr : translateAddress s.mmu va .load = some pa) (hw : translateAddress s.mmu va .store = none) :
    ((memRead va n s).bind fun v u => memWrite va n (f v u) u) =
      .stop ((s.afterRead va pa n).untranslated va .store) := by
  obtain ⟨v, hv⟩ := memRead_completes (n := n) hs hr
  rw [hv, Res.bind_ok]
  exact memWrite_silent_none _ (State.afterRead_silent va pa n hs) hw

theorem loadOp_untranslated (ext : Dword → Dword) (hs : s.silent) (he : s.effectiveAddress base offset = ea)
    (ht : translateAddress s.mmu ea .load = none) (ha : ea.toNat % n.bytes = 0) :
    loadOp n ext rt offset base s = .stop (s.untranslated ea .load) := by
  unfold loadOp
  rw [he, checkAligned_ok (misaligned_of_mod ha)]
  simp only [he]
  exact memRead_bind_untranslated _ hs ht

theorem linkedLoadOp_untranslated (ext : Dword → Dword) (hs : s.silent) (he : s.effectiveAddress base offset = ea)
    (ht : translateAddress s.mmu ea .load = none) (ha : ea.toNat % n.bytes = 0) :
    linkedLoadOp n ext rt offset base s = .stop (s.untranslated ea .load) := by
  unfold linkedLoadOp
  rw [loadOp_untranslated ext hs he ht ha, Res.bind_stop]

theorem storeOp_untranslated (hs : s.silent) (he : s.effectiveAddress base offset = ea)
    (ht : translateAddress s.mmu ea .store = none) (ha : ea.toNat % n.bytes = 0) :
    storeOp n rt offset base s = .stop (s.untranslated ea .store) := by
  unfold storeOp
  rw [he, checkAligned_ok (misaligned_of_mod ha)]
  simp only [he]
  exact memWrite_silent_none _ hs ht

/-- A conditional store while `llbit` is 1 is a store, then the write of 1 to `x[rt]` (45_loadstore.md R226, R227). -/
theorem conditionalStoreOp_linked (hl : s.llbit = true) (he : s.effectiveAddress base offset = ea)
    (ha : ea.toNat % n.bytes = 0) :
    conditionalStoreOp n rt offset base s =
      (storeOp n rt offset base s).bind fun _ u => .ok () (u.writeGpr rt 1#64) := by
  unfold conditionalStoreOp storeOp
  rw [he, checkAligned_ok (misaligned_of_mod ha), checkAligned_ok (misaligned_of_mod ha), if_pos hl]

theorem conditionalStoreOp_untranslated (hs : s.silent) (hl : s.llbit = true)
    (he : s.effectiveAddress base offset = ea) (ht : translateAddress s.mmu ea .store = none)
    (ha : ea.toNat % n.bytes = 0) :
    conditionalStoreOp n rt offset base s = .stop (s.untranslated ea .store) := by
  rw [conditionalStoreOp_linked hl he ha, storeOp_untranslated hs he ht ha, Res.bind_stop]

end

/-- Settles O46: the refused read or write is the first thing the handler does, but for the write of a partial store,
which comes after its read. -/
theorem untranslatableAccesses : Obligations.UntranslatableAccesses := by
  intro s rt base offset ea hs he
  refine ⟨fun ht i n hi => ?_, fun ht i n hi => ?_, fun i unit hi ht => ?_, fun i unit pa n hi hr hw => ?_⟩
  · have load : ∀ (n : Size) (ext : Dword → Dword), ea.toNat % n.bytes = 0 →
        (loadOp n ext rt offset base s).outcome = .next (s.untranslated ea .load) :=
      fun _ ext ha => congrArg Res.outcome (loadOp_untranslated ext hs he ht ha)
    have linked : ∀ (n : Size) (ext : Dword → Dword), ea.toNat % n.bytes = 0 →
        (linkedLoadOp n ext rt offset base s).outcome = .next (s.untranslated ea .load) :=
      fun _ ext ha => congrArg Res.outcome (linkedLoadOp_untranslated ext hs he ht ha)
    simp only [List.mem_cons, Prod.mk.injEq, List.not_mem_nil, or_false] at hi
    obtain ⟨rfl, rfl⟩ | ⟨rfl, rfl⟩ | ⟨rfl, rfl⟩ | ⟨rfl, rfl⟩ | ⟨rfl, rfl⟩ | ⟨rfl, rfl⟩ | ⟨rfl, rfl⟩ | ⟨rfl, rfl⟩ |
      ⟨rfl, rfl⟩ := hi
    exacts [load .b1 _, load .b1 _, load .b2 _, load .b2 _, load .b4 _, load .b4 _, linked .b4 _, load .b8 _,
      linked .b8 _]
  · have store : ∀ n : Size, ea.toNat % n.bytes = 0 →
        (storeOp n rt offset base s).outcome = .next (s.untranslated ea .store) :=
      fun _ ha => congrArg Res.outcome (storeOp_untranslated hs he ht ha)
    have conditional : ∀ n : Size, s.llbit = true → ea.toNat % n.bytes = 0 →
        (conditionalStoreOp n rt offset base s).outcome = .next (s.untranslated ea .store) :=
      fun _ hl ha => congrArg Res.outcome (conditionalStoreOp_untranslated hs hl he ht ha)
    simp only [List.mem_cons, Prod.mk.injEq, List.not_mem_nil, or_false] at hi
    obtain (⟨rfl, rfl⟩ | ⟨rfl, rfl⟩ | ⟨rfl, rfl⟩ | ⟨rfl, rfl⟩) | ⟨hl, ⟨rfl, rfl⟩ | ⟨rfl, rfl⟩⟩ := hi
    exacts [store .b1, store .b2, store .b4, store .b8, conditional .b4 hl, conditional .b8 hl]
  · subst he
    have read : ∀ (n : Size) (f : Dword → State → Res Unit),
        ((memRead unit n s).bind f).outcome = .next (s.untranslated unit .load) :=
      fun _ f => congrArg Res.outcome (memRead_bind_untranslated f hs ht)
    simp only [List.mem_cons, List.not_mem_nil, or_false] at hi
    obtain ⟨rfl | rfl | rfl | rfl, rfl⟩ | ⟨rfl | rfl | rfl | rfl, rfl⟩ := hi
    exacts [read .b4 _, read .b4 _, read .b4 _, read .b4 _, read .b8 _, read .b8 _, read .b8 _, read .b8 _]
  · subst he
    have write : ∀ f : Dword → State → Dword,
        ((memRead unit n s).bind fun v u => memWrite unit n (f v u) u).outcome =
          .next ((s.afterRead unit pa n).untranslated unit .store) :=
      fun f => congrArg Res.outcome (memRead_bind_memWrite_untranslated f hs hr hw)
    simp only [List.mem_cons, List.not_mem_nil, or_false] at hi
    obtain ⟨rfl | rfl, rfl, rfl⟩ | ⟨rfl | rfl, rfl, rfl⟩ := hi
    exacts [write _, write _, write _, write _]

end Sys2Proof.Machine
end

section
/-! SUPPORT. A store as the next fetch sees it: the bytes in memory, and no valid entry of a word they overlap
(20_memory.md R58, R72, 40_fetch_execute.md R91, R93). -/
namespace Sys2Proof.Machine

/-! ## What a store leaves -/

/-- The bytes of `v` are in the memory of `t` and no entry of a word they overlap is valid: what a fetch meets of a
store (20_memory.md R58, R72). -/
def State.wrote (s t : State) (pa : Word) (n : Size) (v : Dword) : Prop :=
  s.mem.stored t.mem pa n.bytes v ∧ s.cache.invalidated s.cfg t.cache pa n.bytes

theorem State.wrote_of_storedOnly {s t : State} {va pa : Word} {n : Size} {v : Dword}
    (h : s.storedOnly t va pa n v) : s.wrote t pa n v :=
  ⟨h.1, h.2.1⟩

theorem State.wrote_writeGpr {s t : State} {pa : Word} {n : Size} {v : Dword} (h : s.wrote t pa n v) (r : Reg)
    (w : Dword) : s.wrote (t.writeGpr r w) pa n v := by
  unfold State.wrote
  rwa [State.writeGpr_mem, State.writeGpr_cache]

section
variable {s : State} {rt base : Reg} {offset : BitVec 16} {n : Size} {va pa : Word}

theorem storeOp_wrote (hs : s.silent) (hw : s.wf = true) (ha : (s.effectiveAddress base offset).toNat % n.bytes = 0)
    (ht : translateAddress s.mmu (s.effectiveAddress base offset) .store = some pa) (hd : isDevice s.cfg pa = false) :
    s.wrote (storeOp n rt offset base s).state pa n (s.gpr rt) := by
  obtain ⟨t, hop, hst⟩ := storeOp_silent (rt := rt) hs hw rfl ha ht hd
  rw [hop]
  exact State.wrote_of_storedOnly hst

theorem conditionalStoreOp_wrote (hs : s.silent) (hw : s.wf = true) (hl : s.llbit = true)
    (ha : (s.effectiveAddress base offset).toNat % n.bytes = 0)
    (ht : translateAddress s.mmu (s.effectiveAddress base offset) .store = some pa) (hd : isDevice s.cfg pa = false) :
    s.wrote (conditionalStoreOp n rt offset base s).state pa n (s.gpr rt) := by
  obtain ⟨t, hop, hst⟩ := storeOp_silent (rt := rt) hs hw rfl ha ht hd
  rw [conditionalStoreOp_linked hl rfl ha, hop, Res.bind_ok]
  exact State.wrote_writeGpr (State.wrote_of_storedOnly hst) rt _

/-- A read and a write back that is not refused has written some value. -/
theorem memRead_bind_memWrite_wrote (f : Dword → State → Dword) (hs : s.silent) (hw : s.wf = true)
    (ha : va.toNat % n.bytes = 0) (ht : translateAddress s.mmu va .store = some pa) (hd : isDevice s.cfg pa = false)
    (hh : ((memRead va n s).bind fun v u => memWrite va n (f v u) u).state.halt = none) :
    ∃ v, s.wrote ((memRead va n s).bind fun v u => memWrite va n (f v u) u).state pa n v := by
  cases hr : translateAddress s.mmu va .load with
  | none =>
    rw [memRead_bind_untranslated _ hs hr] at hh
    cases hh
  | some qa =>
    obtain ⟨v, hv⟩ := memRead_completes (n := n) hs hr
    obtain ⟨t, hop, hst⟩ :=
      memWrite_storedOnly (f v (s.afterRead va qa n)) (State.afterRead_silent va qa n hs) hw ha ht hd
    rw [hv, Res.bind_ok, hop]
    exact ⟨_, hst.1, hst.2.1⟩

end

/-- Every store of the block is one of the three shapes above; a partial one may be refused for its read, so the end
of the run tells whether it completed. -/
theorem exec_wrote {s t : State} {i : Instr} {va pa : Word} {n : Size} (hs : s.silent) (hw : s.wf = true)
    (hi : s.storesAt i va n) (ha : va.toNat % n.bytes = 0) (ht : translateAddress s.mmu va .store = some pa)
    (hd : isDevice s.cfg pa = false) (hx : exec i s = .next t) (hh : t.halt = none) :
    ∃ v, s.wrote t pa n v ∧ s.storesWhole i v := by
  cases i with
  | sb rt offset base | sh rt offset base | sw rt offset base | sd rt offset base =>
    obtain ⟨rfl, rfl⟩ := hi
    cases hx
    exact ⟨_, storeOp_wrote hs hw ha ht hd, rfl⟩
  | sc rt offset base | scd rt offset base =>
    obtain ⟨rfl, rfl, hl⟩ := hi
    cases hx
    exact ⟨_, conditionalStoreOp_wrote hs hw hl ha ht hd, rfl⟩
  | swl rt offset base | swr rt offset base | sdl rt offset base | sdr rt offset base =>
    obtain ⟨rfl, rfl⟩ := hi
    cases hx
    obtain ⟨v, hv⟩ := memRead_bind_memWrite_wrote _ hs hw ha ht hd hh
    exact ⟨v, hv, trivial⟩
  | _ => exact hi.elim

/-! ## The fetch after it -/

theorem doublewordOf_toNat (a : Word) : (doublewordOf a).toNat = a.toNat / 8 := by
  have := a.isLt
  rw [doublewordOf, BitVec.extractLsb'_toNat, Nat.shiftRight_eq_div_pow, Nat.mod_eq_of_lt (by omega)]

/-- A word that shares a byte with an aligned access is in the same doubleword, so both are a device's or neither is. -/
theorem isDevice_of_overlaps {cfg : Params} {pa a : Word} {n : Size} (hpa : pa.toNat % n.bytes = 0)
    (h : overlaps pa n.bytes a) : isDevice cfg a = isDevice cfg pa := by
  obtain ⟨ha, hle, hge⟩ := h
  have hsame : doublewordOf a = doublewordOf pa := by
    apply BitVec.eq_of_toNat_eq
    rw [doublewordOf_toNat, doublewordOf_toNat]
    rcases n.bytes_cases with hn | hn | hn | hn <;> rw [hn] at hpa hle <;> omega
  unfold isDevice
  rw [hsame]

section
variable {s : State} {va pa : Word}

/-- Where no entry of the word is valid, a fetch reads memory, whether or not it then fills the entry. -/
theorem fetchPhysicalVia_uncached (hs : s.silent) (hd : isDevice s.cfg pa = false)
    (hc : ∀ i, s.cfg.cacheEnable = true → cacheIndex s.cfg pa = some i → s.cache.find i = none) :
    ∃ u, fetchPhysicalVia callCollaborator pa s = .ok (s.mem.readWord pa, resolve (s.mem.readWord pa)) u := by
  unfold fetchPhysicalVia
  split
  · rename_i i he hi
    simp only [hc i he hi, fetchMissVia, fetchReadVia_silent hs hd, Res.bind_ok]
    exact ⟨_, rfl⟩
  · exact ⟨_, fetchReadVia_silent hs hd⟩

theorem fetch_uncached (hs : s.silent) (ha : va.toNat % 4 = 0) (ht : translateAddress s.mmu va .fetch = some pa)
    (hd : isDevice s.cfg pa = false)
    (hc : ∀ i, s.cfg.cacheEnable = true → cacheIndex s.cfg pa = some i → s.cache.find i = none) :
    ∃ u, fetch va s = .ok (s.wordAt pa, resolve (s.wordAt pa)) u := by
  have hfit := (fits_of_translate (count := 4) (by simp) ha ht).2
  have htr : translateVia callCollaborator va .fetch s = _ := translate_silent hs ht
  obtain ⟨u, hu⟩ := fetchPhysicalVia_uncached (s := s.record (.translate va .fetch)) (State.silent_record _ hs) hd hc
  rw [State.record_mem, State.readWord_eq_wordAt s pa hfit] at hu
  unfold fetch fetchVia
  rw [if_pos ((aligned_iff va).2 ha), htr, Res.bind_ok, hu]
  exact ⟨_, rfl⟩

end

/-- The word at an address where the low word of `v` was stored. -/
theorem State.wordAt_of_stored {m : Memory} {t : State} {pa : Word} {v : Dword} (h : m.stored t.mem pa 4 v) :
    t.wordAt pa = low32 v := by
  obtain ⟨hbytes, -⟩ := h
  simp only [State.wordAt, State.byteAt, low32]
  rw [hbytes 0 (by decide), hbytes 1 (by decide), hbytes 2 (by decide), hbytes 3 (by decide)]
  apply BitVec.eq_of_getLsbD_eq
  intro i hi
  simp only [BitVec.getLsbD_append, BitVec.getLsbD_setWidth, BitVec.getLsbD_ushiftRight]
  interval_cases i <;> simp

/-- Settles O15: the store has left no valid entry of the fetched word, so the fetch reads it from memory. -/
theorem storeIsSeenByTheNextFetch : Obligations.StoreIsSeenByTheNextFetch := by
  intro s t i va pa fva wa n hs hw hi ha ht hd hx hh hfa hft ho
  obtain ⟨u, hu, hkeeps⟩ := exec_keeps i s
  cases hx.symm.trans hu
  obtain ⟨v, ⟨hmem, hcache, -⟩, hwhole⟩ := exec_wrote hs hw hi ha ht hd hx hh
  have hpa := (fits_of_translate n.bytes_cases ha ht).1
  refine ⟨fetch_uncached (hkeeps.silent hs) hfa hft ?_ fun j _ hj => ?_, ⟨v, hmem, hwhole⟩,
    fun rt offset base hsw => ?_⟩
  · rw [hkeeps.cfg, isDevice_of_overlaps hpa ho, hd]
  · rw [hkeeps.cfg] at hj
    exact hcache wa j ho hj
  · have hword : n = .b4 ∧ v = s.gpr rt := by
      rcases hsw with rfl | rfl
      · exact ⟨hi.2, hwhole⟩
      · exact ⟨hi.2.1, hwhole⟩
    obtain ⟨rfl, rfl⟩ := hword
    obtain ⟨hwa, hle, hge⟩ := ho
    have hsame : wa = pa := BitVec.eq_of_toNat_eq (by simp only [Size.bytes] at hpa hle; omega)
    rw [hsame]
    exact State.wordAt_of_stored hmem

end Sys2Proof.Machine
end

section
/-! SUPPORT. The dispatch of a word (30_encoding.md R77 to R83): the instruction that each format's word selects, the
words that select an unassigned slot, and the step that fetches one. -/
namespace Sys2Proof

/-! ## The table a word reads (R77, R81) -/

section
variable {w : Word}

theorem resolve_of_special (h : opField w = 0x00#6) : resolve w = resolveSpecial w := by
  unfold resolve
  rw [h]
  rfl

theorem resolve_of_regimm (h : opField w = 0x01#6) : resolve w = resolveRegimm w := by
  unfold resolve
  rw [h]
  rfl

theorem resolve_of_cop0Mov (h : opField w = 0x10#6) (hco : w.getLsbD 25 = false) : resolve w = resolveCop0Mov w := by
  unfold resolve
  rw [h, hco]
  rfl

theorem resolve_of_cop0Co (h : opField w = 0x10#6) (hco : w.getLsbD 25 = true) : resolve w = resolveCop0Co w := by
  unfold resolve
  rw [h, hco]
  rfl

theorem decode_of_handler {i : Instr} (h : resolve w = .handler i) : decode w = some i := by
  unfold decode
  rw [h]

end

/-! ## Decoding a word of each format (R75) -/

section
variable {rs rt rd sa : BitVec 5} {op funct : BitVec 6} {imm : BitVec 16} {target : BitVec 26} {code : BitVec 20}
  {i : Instr}

theorem decode_encR (h : resolveSpecial (encR rs rt rd sa funct) = .handler i) :
    decode (encR rs rt rd sa funct) = some i :=
  decode_of_handler ((resolve_of_special (opField_encR rs rt rd sa funct)).trans h)

theorem decode_encCode (h : resolveSpecial (encCode code funct) = .handler i) : decode (encCode code funct) = some i :=
  decode_of_handler ((resolve_of_special (opField_encCode funct code)).trans h)

theorem decode_encI (h : resolve (encI op rs rt imm) = .handler i) : decode (encI op rs rt imm) = some i :=
  decode_of_handler h

theorem decode_encI_regimm (h : resolveRegimm (encI 0x01#6 rs rt imm) = .handler i) :
    decode (encI 0x01#6 rs rt imm) = some i :=
  decode_of_handler ((resolve_of_regimm (opField_encI rs rt 0x01#6 imm)).trans h)

theorem decode_encI_cop0 (hco : rs.getLsbD 4 = false) (h : resolveCop0Mov (encI 0x10#6 rs rt imm) = .handler i) :
    decode (encI 0x10#6 rs rt imm) = some i :=
  decode_of_handler ((resolve_of_cop0Mov (opField_encI rs rt 0x10#6 imm) ((bit25_encI ..).trans hco)).trans h)

theorem decode_encJ (h : resolve (encJ op target) = .handler i) : decode (encJ op target) = some i :=
  decode_of_handler h

theorem decode_encCop0Co (h : resolveCop0Co (encCop0Co funct) = .handler i) : decode (encCop0Co funct) = some i :=
  decode_of_handler ((resolve_of_cop0Co (opField_encCop0Co funct) (bit25_encCop0Co funct)).trans h)

end

/-- The number in the `sa` field of an `sa` form (42_shift.md R137). -/
theorem toNat_ofNat_of_saInRange {sa : Nat} (h : Instr.saInRange sa = true) : (BitVec.ofNat 5 sa).toNat = sa :=
  (BitVec.toNat_ofNat sa 5).trans (Nat.mod_eq_of_lt (of_decide_eq_true h))

/-- The number in the `sa` field of an `sa32` form is 32 less than what it shifts by (R137). -/
theorem toNat_ofNat_of_sa32InRange {sa : Nat} (h : Instr.sa32InRange sa = true) :
    (BitVec.ofNat 5 (sa - 32)).toNat + 32 = sa := by
  have hsa : 32 ≤ sa ∧ sa < 64 := of_decide_eq_true h
  rw [BitVec.toNat_ofNat]
  omega

/-- Settles O9: the word of an instruction has in its fields what the encoder put there, the table that its format
reads selects the instruction's row, and the row's operands are those fields. -/
theorem decodeOfEncode : Obligations.DecodeOfEncode := by
  intro i hwf
  cases i with
  | add | addu | sub | subu | dadd | daddu | dsub | dsubu | and | or | xor | nor | slt | sltu
  | sllv | srlv | srav | dsllv | dsrlv | dsrav | mult | multu | div | divu | dmult | dmultu | ddiv | ddivu
  | mfhi | mflo | mthi | mtlo | jr | jalr | sync | tge | tgeu | tlt | tltu | teq | tne =>
    refine decode_encR ?_
    unfold resolveSpecial
    rw [functField_encR, rsField_encR, rtField_encR, rdField_encR]
    rfl
  | sll rd rt sa | srl rd rt sa | sra rd rt sa | dsll rd rt sa | dsrl rd rt sa | dsra rd rt sa =>
    refine decode_encR ?_
    unfold resolveSpecial
    rw [functField_encR, rtField_encR, rdField_encR, saField_encR, toNat_ofNat_of_saInRange hwf]
    rfl
  | dsll32 rd rt sa | dsrl32 rd rt sa | dsra32 rd rt sa =>
    refine decode_encR ?_
    unfold resolveSpecial
    rw [functField_encR, rtField_encR, rdField_encR, saField_encR, toNat_ofNat_of_sa32InRange hwf]
    rfl
  | syscall | brk =>
    refine decode_encCode ?_
    unfold resolveSpecial
    rw [functField_encCode, codeField_encCode]
    rfl
  | bltz | bgez | bltzl | bgezl | bltzal | bgezal | bltzall | bgezall
  | tgei | tgeiu | tlti | tltiu | teqi | tnei =>
    refine decode_encI_regimm ?_
    unfold resolveRegimm
    rw [rtField_encI, rsField_encI, immField_encI]
    rfl
  | mfc0 | dmfc0 | mtc0 | dmtc0 =>
    refine decode_encI_cop0 rfl ?_
    unfold resolveCop0Mov
    rw [rsField_encI, rtField_encI, rdField_encI_move]
    rfl
  | tlbr | tlbwi | tlbwr | tlbp | eret =>
    refine decode_encCop0Co ?_
    unfold resolveCop0Co
    rw [functField_encCop0Co]
    rfl
  | j | jal | cop1 =>
    refine decode_encJ ?_
    unfold resolve
    rw [opField_encJ, targetField_encJ]
    rfl
  | addi | addiu | daddi | daddiu | slti | sltiu | andi | ori | xori | lui
  | beq | bne | blez | bgtz | beql | bnel | blezl | bgtzl
  | lb | lbu | lh | lhu | lw | lwu | ld | lwl | lwr | ldl | ldr | ll | lld
  | sb | sh | sw | sd | swl | swr | sdl | sdr | sc | scd | cache | lwc1 | ldc1 | swc1 | sdc1 =>
    refine decode_encI ?_
    unfold resolve
    rw [opField_encI, rsField_encI, rtField_encI, immField_encI]
    rfl

/-! ## The unassigned slots (R78 to R81, R83) -/

/-- What a word selects is the fallback handler (R83). -/
def Resolved.isFallback (r : Resolved) : Bool :=
  match r with
  | .handler _ => false
  | .fallback _ => true

theorem Resolved.isFallback_iff {r : Resolved} : r.isFallback = true ↔ ∃ slot, r = .fallback slot := by
  cases r <;> simp [isFallback]

theorem decode_eq_none_iff {w : Word} : decode w = none ↔ (resolve w).isFallback = true := by
  unfold decode
  cases resolve w <;> simp [Resolved.isFallback]

section
variable (w : Word)

/-! Whether a table has a fallback for a word depends on the selecting field only (R82): the word with that field and
zeros elsewhere has one too. -/

theorem resolveSpecial_isFallback_eq :
    (resolveSpecial w).isFallback = (resolveSpecial (encR 0#5 0#5 0#5 0#5 (functField w))).isFallback := by
  unfold resolveSpecial
  rw [functField_encR]
  split <;> rfl

theorem resolveRegimm_isFallback_eq :
    (resolveRegimm w).isFallback = (resolveRegimm (encI 0x01#6 0#5 (rtField w) 0#16)).isFallback := by
  unfold resolveRegimm
  rw [rtField_encI]
  split <;> rfl

/-- The `primary` table itself, where it does not send the word to another one. -/
theorem resolve_isFallback_eq (h : opField w ∉ [0x00#6, 0x01#6, 0x10#6]) :
    (resolve w).isFallback = (resolve (encJ (opField w) 0#26)).isFallback := by
  unfold resolve
  rw [opField_encJ]
  split
  case h_1 | h_2 | h_3 => simp_all
  all_goals rfl

/-- The slots marked `*` in R79. -/
theorem resolveSpecial_isFallback_iff : (resolveSpecial w).isFallback = true ↔ functField w ∈
    [0x01#6, 0x05#6, 0x0A#6, 0x0B#6, 0x0E#6, 0x15#6, 0x28#6, 0x29#6, 0x35#6, 0x37#6, 0x39#6, 0x3D#6] := by
  rw [resolveSpecial_isFallback_eq]
  generalize functField w = funct
  revert funct
  decide

/-- The slots marked `*` in R80. -/
theorem resolveRegimm_isFallback_iff : (resolveRegimm w).isFallback = true ↔ rtField w ∈
    [0x04#5, 0x05#5, 0x06#5, 0x07#5, 0x0D#5, 0x0F#5, 0x14#5, 0x15#5, 0x16#5, 0x17#5, 0x18#5, 0x19#5, 0x1A#5, 0x1B#5,
      0x1C#5, 0x1D#5, 0x1E#5, 0x1F#5] := by
  rw [resolveRegimm_isFallback_eq]
  generalize rtField w = sub
  revert sub
  decide

theorem resolveCop0Mov_isFallback_iff :
    (resolveCop0Mov w).isFallback = true ↔ rsField w ∉ [0x00#5, 0x01#5, 0x04#5, 0x05#5] := by
  unfold resolveCop0Mov
  split <;> simp_all [Resolved.isFallback]

theorem resolveCop0Co_isFallback_iff :
    (resolveCop0Co w).isFallback = true ↔ functField w ∉ [0x01#6, 0x02#6, 0x06#6, 0x08#6, 0x18#6] := by
  unfold resolveCop0Co
  split <;> simp_all [Resolved.isFallback]

/-- The slots marked `*` in R78. -/
theorem resolve_isFallback_iff (h : opField w ∉ [0x00#6, 0x01#6, 0x10#6]) :
    (resolve w).isFallback = true ↔ opField w ∈
      [0x12#6, 0x13#6, 0x1C#6, 0x1D#6, 0x1E#6, 0x1F#6, 0x32#6, 0x33#6, 0x36#6, 0x3A#6, 0x3B#6, 0x3E#6] := by
  rw [resolve_isFallback_eq w h]
  revert h
  generalize opField w = op
  revert op
  decide

end

/-- Settles O10: the table that a word reads has a fallback exactly in the slots listed for it. -/
theorem unassignedSlots : Obligations.UnassignedSlots := by
  intro w
  rw [decode_eq_none_iff]
  unfold Machine.unassigned
  by_cases hspecial : opField w = 0x00#6
  · simp [resolve_of_special hspecial, resolveSpecial_isFallback_iff, hspecial]
  by_cases hregimm : opField w = 0x01#6
  · simp [resolve_of_regimm hregimm, resolveRegimm_isFallback_iff, hregimm]
  by_cases hcop0 : opField w = 0x10#6
  · cases hco : w.getLsbD 25 with
    | false => simp [resolve_of_cop0Mov hcop0 hco, resolveCop0Mov_isFallback_iff, hcop0]
    | true => simp [resolve_of_cop0Co hcop0 hco, resolveCop0Co_isFallback_iff, hcop0]
  simp [resolve_isFallback_iff, hspecial, hregimm, hcop0]

namespace Machine

/-! ## The step that fetches a word of an unassigned slot (R83) -/

section
variable {s t : State} {pa w : Word}

theorem State.fetched.pc (h : s.fetched t pa w) : t.pc = s.pc := by
  obtain ⟨-, -, -, hsame⟩ := h
  rw [← hsame]

theorem State.fetched.host (h : s.fetched t pa w) : t.host = s.host := by
  obtain ⟨-, -, -, hsame⟩ := h
  rw [← hsame]

/-- A word whose slot has no instruction resolves to the fallback handler. -/
theorem resolve_of_unassigned (h : unassigned w) : ∃ slot, resolve w = .fallback slot :=
  Resolved.isFallback_iff.1 (decode_eq_none_iff.1 ((unassignedSlots w).2 h))

/-- The fallback handler records the fatal end and does nothing else (60_exceptions.md R265). -/
theorem runHandler_fallback (w : Word) (slot : Slot) (s : State) :
    runHandler w (.fallback slot) s = .next { s with halt := some (.fatal .unknownOpcode s.pc w) } := by
  simp [runHandler]

/-- With nothing for the host to do, the step of a run that ended as fatal is that end (40_fetch_execute.md R107). -/
theorem step_of_fatal {reason : FatalReason} {pc : Word} (hhost : s.host = [])
    (hhalt : s.halt = some (.fatal reason pc w)) : step s = .fault (.fatal reason pc w) := by
  simp [step, hostThenIterate, iterate, hhost, hhalt]

end

/-- Settles O12: the step is the fallback handler in the state the fetch leaves, which is not counted. -/
theorem unassignedWordIsFatal : Obligations.UnassignedWordIsFatal := by
  intro s pa w hfetching hslot
  obtain ⟨slot, hresolve⟩ := resolve_of_unassigned hslot
  obtain ⟨u, hfetched, hstep⟩ := step_fetching hfetching
  have hhost : u.host = [] := hfetched.host.trans hfetching.ready.1
  refine ⟨u, hfetched, ?_, step_of_fatal hhost rfl⟩
  rw [hstep, hresolve, runHandler_fallback, hfetched.pc]

end Machine
end Sys2Proof
end

section
/-! SUPPORT. What every step keeps and what every handler answers, and the top of the loop: the ends of a run, the
host's turn on an ended run, the pending external jump (10_state.md R33 to R35, 40_fetch_execute.md R88, R93, R94,
R107). -/
namespace Sys2Proof.Machine

/-- Settles O60: every part of a step keeps the cache coherent where only the block writes memory, and adds nothing to
what the environment will do. -/
theorem stepKeepsTheCacheCoherent : Obligations.StepKeepsTheCacheCoherent := by
  intro s t hwf hcoherent hquiet hstep
  have hkeeps := step_keeps hstep
  exact ⟨hkeeps.coherent hwf hquiet hcoherent, State.noForeignWrites_of_sub hkeeps.script hkeeps.host hquiet⟩

/-- Settles O56: the part of what every handler keeps that the statement lists. -/
theorem everyHandlerEndsAndLeavesPc : Obligations.EveryHandlerEndsAndLeavesPc := by
  intro i s
  obtain ⟨t, hexec, hkeeps⟩ := exec_keeps i s
  exact ⟨t, hexec, hkeeps.pc, hkeeps.running, hkeeps.cfg, hkeeps.script, hkeeps.host, hkeeps.calls⟩

/-! ## The top of the loop (40_fetch_execute.md R88, R107) -/

section
variable {s t : State}

/-- With nothing for the host to do, a step is an iteration. -/
theorem step_of_host_nil (h : s.host = []) : step s = iterate s := by
  simp [step, hostThenIterate, h]

/-- Only a block that runs and has not ended has an iteration. -/
theorem canIterate_of_iterate_next (h : iterate s = .next t) : s.halt = none ∧ s.running = true := by
  unfold iterate at h
  split at h
  · cases h
  · cases h
  · rename_i hhalt
    split at h
    · rename_i hrunning
      exact ⟨hhalt, hrunning⟩
    · cases h

theorem step_of_stopped (hhost : s.host = []) (h : s.stoppedEnd) : step s = .fault .stopped := by
  obtain ⟨hhalt, hrunning⟩ := h
  simp [step_of_host_nil hhost, iterate, hhalt, hrunning]

theorem step_of_refused {reason : RefuseReason} (hhost : s.host = []) (hhalt : s.halt = some (.refused reason)) :
    step s = .refused (.recorded reason) := by
  simp [step_of_host_nil hhost, iterate, hhalt]

/-- The handler of a word answers a next state, the fallback handler too. -/
theorem runHandler_next (w : Word) (h : Resolved) (s : State) : ∃ t, runHandler w h s = .next t := by
  cases h with
  | fallback slot => exact ⟨_, rfl⟩
  | handler i =>
    obtain ⟨t, hexec, _⟩ := exec_keeps i s
    exact ⟨finishHandler t, by simp [runHandler, hexec]⟩

/-- An iteration that fetches answers a next state, whether or not the fetch is refused. -/
theorem fetchAndRun_next (s : State) : ∃ t, fetchAndRun s = .next t := by
  unfold fetchAndRun
  cases fetch s.pc s with
  | stop u => exact ⟨u, rfl⟩
  | ok wh u => exact runHandler_next wh.1 wh.2 u

/-- The step consumes a pending external jump before it fetches, and does nothing else first. -/
theorem step_of_extJump (h : s.ready) (hjump : s.extJump = true) :
    step s = step { s with pc := s.jumpTarget, bstate := .normal, extJump := false } := by
  have hready : State.ready { s with pc := s.jumpTarget, bstate := .normal, extJump := false } := h
  rw [step_ready h, step_ready hready]
  simp [consumeExtJump, hjump]

end

/-- Settles O4: a step that the host does not begin is an iteration, which needs `halt` to be `None` and `running`. -/
theorem topOfTheLoop : Obligations.TopOfTheLoop := by
  intro s hhost
  have hnext : ∀ t, step s = .next t → s.halt = none ∧ s.running = true := by
    rw [step_of_host_nil hhost]
    exact fun t => canIterate_of_iterate_next
  refine ⟨fun hhalt t h => hhalt (hnext t h).1, fun hstopped t h => ?_, fun hhalt hrunning hjump => ?_⟩
  · rw [(hnext t h).2] at hstopped
    cases hstopped
  · exact step_of_extJump ⟨hhost, hhalt, hrunning⟩ hjump

/-! ## The host's turn (60_exceptions.md R270, 10_state.md R34, R35) -/

/-- The host's turn that stops a running block is the whole step. -/
theorem step_of_stopping {s : State} (hhost : s.host = [[.setRunning false]]) :
    step s = .next { s with running := false, host := [] } := by
  simp [step, hostThenIterate, hhost, hostTurn, hostPerform, canIterate]

/-- The host's turn that resumes the block is followed by an iteration in the same step. -/
theorem step_of_resuming {s : State} (hhalt : s.halt = none) (hhost : s.host = [[.setRunning true]]) :
    step s = step { s with running := true, host := [] } := by
  simp [step, hostThenIterate, hhost, hostTurn, hostPerform, canIterate, hhalt]

/-- No action of the host but a reset clears `halt`. -/
theorem hostPerform_halt {a : HostAction} {s : State} (hf : s.noForeignWrites → a.foreignWrite = false)
    (hz : s.noZeroWrites → a.writesZero = false) (hr : ∀ l, a ≠ .machineReset l) (h : s.halt ≠ none) :
    (hostPerform a s).state.halt ≠ none := by
  cases a with
  | act b => exact (performVia_serves callCollaborator_serves b s hf hz).halt h
  | setRunning b => exact h
  | machineReset l => exact absurd rfl (hr l)

/-- A turn without a reset, of actions that are still in `host`, leaves an ended run ended. -/
theorem hostTurn_halt {actions batch : List HostAction} {s : State} (hb : batch ∈ s.host)
    (ha : ∀ a ∈ actions, a ∈ batch) (hr : ∀ l, HostAction.machineReset l ∉ batch) (h : s.halt ≠ none) :
    (hostTurn actions s).halt ≠ none := by
  induction actions generalizing s with
  | nil => exact h
  | cons a rest ih =>
    have hmem := ha a List.mem_cons_self
    refine ih (by rwa [hostPerform_host]) (fun b hmem => ha b (List.mem_cons_of_mem _ hmem)) ?_
    exact hostPerform_halt (fun n => n.2 batch hb a hmem) (fun z => z.2 batch hb a hmem)
      (fun l e => hr l (e ▸ hmem)) h

/-- A step of an ended run is the host's turn alone, and without a reset the run stays ended. -/
theorem step_keeps_halt {s t : State} (hstep : step s = .next t) (hhalt : s.halt ≠ none)
    (hr : ∀ batch ∈ s.host, ∀ l, HostAction.machineReset l ∉ batch) : t.halt ≠ none := by
  cases hhost : s.host with
  | nil =>
    rw [step_of_host_nil hhost] at hstep
    exact absurd (canIterate_of_iterate_next hstep).1 hhalt
  | cons batch rest =>
    have hbatch : batch ∈ s.host := by simp [hhost]
    have hended := hostTurn_halt hbatch (fun _ => id) (hr batch hbatch) hhalt
    unfold step hostThenIterate at hstep
    simp only [hhost] at hstep
    split at hstep
    · exact absurd (canIterate_of_iterate_next hstep).1 hended
    · injection hstep with hstep
      exact hstep ▸ hended

/-- Settles O3: the four cases of an iteration, the host's two changes of `running`, and its turn on an ended run. -/
theorem theEndsOfARun : Obligations.TheEndsOfARun := by
  refine ⟨fun s hhost => ⟨step_of_stopped hhost, fun _ _ _ => step_of_fatal hhost, fun _ => step_of_refused hhost,
    fun hhalt hrunning => ?_⟩, fun s hhalt => ⟨step_of_stopping, step_of_resuming hhalt⟩, fun s t => step_keeps_halt⟩
  rw [step_ready ⟨hhost, hhalt, hrunning⟩]
  exact fetchAndRun_next _

end Sys2Proof.Machine
end

section
/-! SUPPORT. One step from the fetch to the advance: the decoded instruction runs, the cycles are counted, and `pc` goes
where the branch state says (40_fetch_execute.md R87, R94 to R101). -/
namespace Sys2Proof.Machine

/-! ## The count and the advance (R95, R96, R97) -/

/-- The sync point where nothing is done during its calls (R97). -/
theorem syncPoint_silent {s : State} (hs : s.silent) :
    syncPoint s =
      { s with
        syncCycles := 0#64
        calls := .cop0Read s.cfg.intRegB :: .cop0Read s.cfg.intRegA :: .timerClock s.syncCycles :: s.calls } := by
  have h1 : State.silent { s.record (.timerClock s.syncCycles) with syncCycles := 0#64 } := State.silent_record _ hs
  unfold syncPoint
  rw [callCollaborator_silent _ hs, Res.bind_ok, cop0Read_silent _ h1, Res.bind_ok,
    cop0Read_silent _ (State.silent_record _ h1)]
  rfl

section
variable {s : State}

theorem advance_normal (h : s.bstate = .normal) : advance s = { s with pc := s.pc + 4#32 } := by
  simp [advance, h]

theorem advance_delaySlot (h : s.bstate = .delaySlot) : advance s = { s with pc := s.pc + 4#32, bstate := .jump } := by
  simp [advance, h]

theorem advance_jump (h : s.bstate = .jump) :
    advance s = syncPoint { s with pc := s.jumpTarget, bstate := .normal } := by
  simp [advance, h]

/-- The landing of a branch in a silent environment, its sync point included. -/
theorem advance_jump_silent (hs : s.silent) (h : s.bstate = .jump) :
    advance s =
      { s with
        pc := s.jumpTarget, bstate := .normal, syncCycles := 0#64
        calls := .cop0Read s.cfg.intRegB :: .cop0Read s.cfg.intRegA :: .timerClock s.syncCycles :: s.calls } := by
  have hs' : State.silent { s with pc := s.jumpTarget, bstate := .normal } := hs
  rw [advance_jump h, syncPoint_silent hs']

end

theorem State.silent.countCycles {s : State} (h : s.silent) : (countCycles s).silent := h

/-- Settles O6: the three cases of the advance, and the sync point of the third. -/
theorem countThenAdvance : Obligations.CountThenAdvance := by
  intro s
  have hcount : (countCycles s).bstate = s.bstate := State.countCycles_bstate s
  refine ⟨fun h => advance_normal (hcount.trans h), fun h => advance_delaySlot (hcount.trans h),
    fun h => advance_jump (hcount.trans h), fun h hs => ?_⟩
  exact advance_jump_silent hs.countCycles (hcount.trans h)

/-! ## The step runs the decoded instruction (R87, R94) -/

theorem resolve_of_decode {w : Word} {i : Instr} (h : decode w = some i) : resolve w = .handler i := by
  unfold decode at h
  split at h
  · rename_i hresolve
    rw [hresolve, Option.some.inj h]
  · cases h

section
variable {s t : State}

theorem finishHandler_completed (h : s.halt = none) : finishHandler s = advance (countCycles s) := by
  simp [finishHandler, h]

theorem finishHandler_ended (h : s.halt ≠ none) : finishHandler s = s := by
  simp [finishHandler, Option.isSome_iff_ne_none.2 h]

theorem runHandler_handler (w : Word) {i : Instr} (h : exec i s = .next t) :
    runHandler w (.handler i) s = .next (finishHandler t) := by
  simp [runHandler, h]

end

/-- Settles O5: after the fetch the step is the handler of the decoded instruction and what follows it. -/
theorem stepRunsTheDecodedInstruction : Obligations.StepRunsTheDecodedInstruction := by
  intro s pa w i hfetching hdecode
  obtain ⟨u, hfetched, hstep⟩ := step_fetching hfetching
  obtain ⟨v, hexec, _⟩ := exec_keeps i u
  rw [resolve_of_decode hdecode, runHandler_handler w hexec] at hstep
  exact ⟨u, v, hfetched, hexec, fun h => by rw [hstep, finishHandler_completed h],
    fun h => by rw [hstep, finishHandler_ended h]⟩

section
variable {s t : State} {pa w : Word}

theorem State.fetched.bstate (h : s.fetched t pa w) : t.bstate = s.bstate := by
  obtain ⟨-, -, -, hsame⟩ := h
  rw [← hsame]

theorem State.fetched.jumpTarget (h : s.fetched t pa w) : t.jumpTarget = s.jumpTarget := by
  obtain ⟨-, -, -, hsame⟩ := h
  rw [← hsame]

theorem State.fetched.cfg (h : s.fetched t pa w) : t.cfg = s.cfg := by
  obtain ⟨-, -, -, hsame⟩ := h
  rw [← hsame]

theorem State.fetched.mem (h : s.fetched t pa w) : t.mem = s.mem := by
  obtain ⟨-, -, -, hsame⟩ := h
  rw [← hsame]

theorem State.fetched.script (h : s.fetched t pa w) : t.script = s.script := by
  obtain ⟨-, -, -, hsame⟩ := h
  rw [← hsame]

theorem State.fetched.silent (h : s.fetched t pa w) (hs : s.silent) : t.silent := by
  obtain ⟨-, ⟨l, hcalls⟩, -⟩ := id h
  exact State.silent_of h.script (by simp [hcalls]) hs

/-- A step that does not end the run is the handler of an instruction that the word decodes to, in the state the fetch
leaves, then the count and the advance. -/
theorem step_completes (hfetching : s.fetching pa w) (hstep : step s = .next t) (hhalt : t.halt = none) :
    ∃ i u v, decode w = some i ∧ s.fetched u pa w ∧ exec i u = .next v ∧ v.halt = none ∧
      t = advance (countCycles v) := by
  cases hdecode : decode w with
  | none =>
    obtain ⟨u, -, hfatal, -⟩ := unassignedWordIsFatal s pa w hfetching ((unassignedSlots w).1 hdecode)
    cases hstep.symm.trans hfatal
    cases hhalt
  | some i =>
    obtain ⟨u, v, hfetched, hexec, hcompleted, hended⟩ := stepRunsTheDecodedInstruction s pa w i hfetching hdecode
    by_cases hv : v.halt = none
    · cases hstep.symm.trans (hcompleted hv)
      exact ⟨i, u, v, rfl, hfetched, hexec, hv, rfl⟩
    · cases hstep.symm.trans (hended hv)
      exact absurd hhalt hv

end

/-! ## Branches and the branch state (R98, R99, R101) -/

/-- The handler of a branch or jump is one `BranchOp`, likely where the instruction is (44_branch.md R174). -/
theorem exec_branch {i : Instr} (h : (instrGroup i).branches) (s : State) :
    ∃ taken target link,
      exec i s = (branchOp taken target (decide (instrGroup i = .likely)) link s).outcome := by
  cases i with
  | j | jal | jr | jalr | beq | bne | blez | bgtz | beql | bnel | blezl | bgtzl | bltz | bgez | bltzl | bgezl
  | bltzal | bgezal | bltzall | bgezall => exact ⟨_, _, _, rfl⟩
  | _ => simp [InstrGroup.branches, instrGroup] at h

/-- A handler leaves a silent environment silent. -/
theorem exec_silent {i : Instr} {s t : State} (hs : s.silent) (hexec : exec i s = .next t) : t.silent := by
  obtain ⟨u, hnext, hkeeps⟩ := exec_keeps i s
  cases hexec.symm.trans hnext
  exact hkeeps.silent hs

/-- In a delay slot with `P_BRANCH_IN_DS = Refuse` no branch completes, and nothing else writes the branch state. -/
theorem exec_keeps_branchState {i : Instr} {s t : State} (hs : s.silent) (hb : s.bstate = .jump)
    (hcfg : s.cfg.branchInDs = .refuse) (hexec : exec i s = .next t) (hhalt : t.halt = none) :
    t.bstate = s.bstate ∧ t.jumpTarget = s.jumpTarget := by
  have hwithin := exec_within i hs t hexec
  by_cases hbranch : (instrGroup i).branches
  · obtain ⟨taken, target, link, hop⟩ := exec_branch hbranch s
    rw [branchOp_refused hb hcfg] at hop
    cases hexec.symm.trans hop
    cases hhalt
  · exact ⟨hwithin.bstate.resolve_right hbranch, hwithin.jumpTarget.resolve_right hbranch⟩

/-- Settles O7: the handler leaves `bstate` at `Jump` and `jumpTarget` as it was, so that the advance lands there. -/
theorem delaySlotLandsOnTheTarget : Obligations.DelaySlotLandsOnTheTarget := by
  intro s t pa w hfetching hb hcfg hstep hhalt
  obtain ⟨i, u, v, -, hfetched, hexec, hv, rfl⟩ := step_completes hfetching hstep hhalt
  have hu := hfetched.silent hfetching.silent
  have hub : u.bstate = .jump := hfetched.bstate.trans hb
  obtain ⟨hvb, hvt⟩ := exec_keeps_branchState hu hub (by rw [hfetched.cfg, hcfg]) hexec hv
  have hcs := (exec_silent hu hexec).countCycles
  rw [advance_jump_silent hcs (hvb.trans hub)]
  exact ⟨hvt.trans hfetched.jumpTarget, rfl, rfl⟩

/-- A self-branch whose look-ahead fetch is refused before its writes ends the run. -/
theorem branchOp_refusedUnwritten_ends {target : Word} {s : State} (likely : Bool) (link : Option Reg) (hs : s.silent)
    (hok : s.bstate ≠ .jump ∨ s.cfg.branchInDs = .derived) (hr : s.refusedUnwritten target = true) :
    (branchOp true target likely link s).state.halt ≠ none := by
  simp only [State.refusedUnwritten, Bool.and_eq_true, decide_eq_true_eq] at hr
  obtain ⟨⟨rfl, hrefused⟩, -⟩ := hr
  obtain ⟨u, -, -, hmisaligned, huntranslated⟩ := branchOp_lookAheadRefused (likely := likely) (link := link) hok
  by_cases ha : (s.pc + 4#32).toNat % 4 = 0
  · have ht := (State.lookAheadRefused_iff.1 hrefused).resolve_left (not_not.2 ha)
    simp [huntranslated hs ha ht]
  · simp [hmisaligned ha]

/-- What the probe of a taken branch leaves of the branch state that the branch has written (R105). -/
theorem branchOp_taken_bstate {target : Word} {s : State} (likely : Bool) (link : Option Reg) (hs : s.silent)
    (hok : s.bstate ≠ .jump ∨ s.cfg.branchInDs = .derived) (hr : s.refusedUnwritten target = false) :
    (branchOp true target likely link s).state.bstate = .delaySlot := by
  have hwritten : ((s.writeLink link).setBranch target .delaySlot).silent :=
    ((Keeps.writeLink s link).trans (Keeps.setBranch _ _ _)).silent hs
  have hquiet := probe_quiet s.pc s.lastInstr target hwritten
  rw [branchOp_probe hok hr]
  cases hp : probe s.pc s.lastInstr target ((s.writeLink link).setBranch target .delaySlot) with
  | ok _ v | stop v =>
    rw [hp] at hquiet
    exact hquiet.bstate

/-- The end of a `BranchOp` outside a delay slot that does not end the run: the next instruction is a delay slot, or the
branch is a likely one that lands past it (44_branch.md R174). -/
theorem branchOp_schedules {taken likely : Bool} {target : Word} {link : Option Reg} {s t : State} (hs : s.silent)
    (hok : s.bstate ≠ .jump ∨ s.cfg.branchInDs = .derived)
    (ht : (branchOp taken target likely link s).state = t) (hhalt : t.halt = none) :
    t.bstate = .delaySlot ∨ (likely = true ∧ t.bstate = .jump ∧ t.jumpTarget = s.pc + 8#32) := by
  subst ht
  cases taken with
  | false =>
    rw [branchOp_untaken hok]
    cases likely with
    | false => exact .inl rfl
    | true => exact .inr ⟨rfl, rfl, rfl⟩
  | true =>
    cases hr : s.refusedUnwritten target with
    | true => exact absurd hhalt (branchOp_refusedUnwritten_ends likely link hs hok hr)
    | false => exact .inl (branchOp_taken_bstate likely link hs hok hr)

/-- Settles O8: an instruction that is no branch keeps `bstate` at `Normal`; a branch leaves what `branchOp_schedules`
says, from which the advance goes on. -/
theorem stepOutsideADelaySlot : Obligations.StepOutsideADelaySlot := by
  intro s t pa w i hfetching hb hdecode hstep hhalt
  obtain ⟨i', u, v, hdecode', hfetched, hexec, hv, rfl⟩ := step_completes hfetching hstep hhalt
  obtain rfl := Option.some.inj (hdecode.symm.trans hdecode')
  have hu := hfetched.silent hfetching.silent
  have hub : u.bstate = .normal := hfetched.bstate.trans hb
  have hwithin := exec_within i hu v hexec
  have hpc : (countCycles v).pc = s.pc := hwithin.pc.trans hfetched.pc
  have hcount : (countCycles v).bstate = v.bstate := State.countCycles_bstate v
  by_cases hbranch : (instrGroup i).branches
  · obtain ⟨taken, target, link, hop⟩ := exec_branch hbranch u
    have hstate : (branchOp taken target (decide (instrGroup i = .likely)) link u).state = v := by
      simpa using hop.symm.trans hexec
    rcases branchOp_schedules hu (.inl (by simp [hub])) hstate hv with hvb | ⟨hlikely, hvb, hvt⟩
    · refine .inr (.inl ?_)
      rw [advance_delaySlot (hcount.trans hvb)]
      exact ⟨rfl, congrArg (· + 4#32) hpc, hbranch⟩
    · have hcs := (exec_silent hu hexec).countCycles
      refine .inr (.inr ?_)
      rw [advance_jump_silent hcs (hcount.trans hvb)]
      exact ⟨rfl, hvt.trans (congrArg (· + 8#32) hfetched.pc), of_decide_eq_true hlikely⟩
  · have hvb : v.bstate = .normal := (hwithin.bstate.resolve_right hbranch).trans hub
    refine .inl ?_
    rw [advance_normal (hcount.trans hvb)]
    exact ⟨hcount.trans hvb, congrArg (· + 4#32) hpc, not_or.1 hbranch⟩

end Sys2Proof.Machine
end

section
/-! SUPPORT. The fetch through the decode cache where its entries hold the words in memory, and where another agent has
overwritten one; and what `Invalidate` leaves (40_fetch_execute.md R89, R91 to R93). -/
namespace Sys2Proof.Machine

/-! ## A coherent cache (R93) -/

section
variable {s t : State} {va pa w : Word}

/-- After a fetch of the word in memory every valid entry is one that was there, or holds that word. -/
theorem State.fetched.coherent (h : s.fetched t pa w) (hword : w = s.mem.readWord pa) (hw : s.wf = true)
    (hc : s.coherent) : t.coherent := by
  intro i e hfind hd
  rw [h.cfg] at hd
  rw [h.mem]
  obtain ⟨-, -, hcache, -⟩ := h
  rcases hcache with hcache | ⟨-, j, -, hcache⟩
  · rw [hcache] at hfind
    exact hc i e hfind hd
  · rw [hcache, Cache.find_fill j i _ (Cache.rising_of_wf (State.wf_iff.1 hw).2)] at hfind
    split at hfind
    · obtain rfl := Option.some.inj hfind
      exact hword
    · exact hc i e hfind hd

/-- A fetch that returns leaves a well-formed state. -/
theorem fetch_wf {wh : Word × Resolved} (h : fetch va s = .ok wh t) (hw : s.wf = true) : t.wf = true := by
  have hserves := fetch_serves va s
  rw [h] at hserves
  exact hserves.wf hw

end

/-- Settles O14: the switch of the cache is no part of what makes a state silent, well-formed and coherent, and from
such a state the fetch returns the word in memory. -/
theorem fetchReturnsTheWordInMemory : Obligations.FetchReturnsTheWordInMemory := by
  intro s va pa enabled hs hw hc ha ht hd
  have hs' : State.silent { s with cfg := { s.cfg with cacheEnable := enabled } } := hs
  have hw' : State.wf { s with cfg := { s.cfg with cacheEnable := enabled } } = true := hw
  have hc' : State.coherent { s with cfg := { s.cfg with cacheEnable := enabled } } := hc
  obtain ⟨t, hfetch, hfetched⟩ := fetch_coherent hs' hw' hc' ha ht hd
  have hfit := (fits_of_translate (count := 4) (by simp) ha ht).2
  have hword := (State.readWord_eq_wordAt s pa hfit).symm
  exact ⟨t, hfetch, hfetched, fetch_wf hfetch hw', hfetched.coherent hword hw' hc'⟩

/-! ## An overwritten word (R92) -/

section
variable {s : State} {va pa : Word}

/-- The fetch of an aligned, translated address: the call for the translation, the fetch at the physical address, and
`lastInstr` (R89). -/
theorem fetch_translated (hs : s.silent) (ha : va.toNat % 4 = 0) (ht : translateAddress s.mmu va .fetch = some pa) :
    fetch va s = (fetchPhysicalVia callCollaborator pa (s.record (.translate va .fetch))).bind
      fun wh t => .ok wh { t with lastInstr := wh.1 } := by
  have htr : translateVia callCollaborator va .fetch s = _ := translate_silent hs ht
  unfold fetch fetchVia
  rw [if_pos ((aligned_iff va).2 ha), htr, Res.bind_ok]

/-- A hit on an entry of ordinary memory whose word is overwritten draws which of the two words it returns. -/
theorem fetchHitVia_stale {e : CacheEntry} (hs : s.silent) (hd : isDevice s.cfg pa = false)
    (hstale : e.raw ≠ s.mem.readWord pa) :
    ∃ t, (fetchHitVia callCollaborator e pa s = .ok (e.raw, e.handler) t ∨
        fetchHitVia callCollaborator e pa s = .ok (s.mem.readWord pa, resolve (s.mem.readWord pa)) t) ∧
      t.mem = s.mem ∧ t.cache = s.cache := by
  have hs' : State.silent { s with draws := s.draws + 1 } := hs
  unfold fetchHitVia
  rw [if_neg (by simp [hd, hstale.symm])]
  simp only
  split
  · exact ⟨_, .inl rfl, rfl, rfl⟩
  · rw [fetchReadVia_silent hs' hd]
    exact ⟨_, .inr rfl, rfl, rfl⟩

theorem fetchPhysicalVia_hit {i : Nat} {e : CacheEntry} (call : Caller) (he : s.cfg.cacheEnable = true)
    (hi : cacheIndex s.cfg pa = some i) (hfind : s.cache.find i = some e) (htag : e.tag = pa) :
    fetchPhysicalVia call pa s = fetchHitVia call e pa s := by
  unfold fetchPhysicalVia
  simp only [he, hi, hfind, if_pos htag]

theorem fetchPhysicalVia_disabled (call : Caller) (he : s.cfg.cacheEnable = false) :
    fetchPhysicalVia call pa s = fetchReadVia call pa s := by
  unfold fetchPhysicalVia
  simp only [he]

end

/-- Settles O16: such a hit draws between the entry and a read of memory; with the cache disabled there is the read
alone. -/
theorem staleEntryFetchReturnsEither : Obligations.StaleEntryFetchReturnsEither := by
  refine ⟨fun _ _ _ => rfl, fun s va pa hs ha ht hd => ?_⟩
  have hs' := State.silent_record (.translate va .fetch) hs
  have hfit := (fits_of_translate (count := 4) (by simp) ha ht).2
  have hfetch := fetch_translated hs ha ht
  rw [← State.readWord_eq_wordAt s pa hfit]
  refine ⟨fun i e he hi hfind htag hstale => ?_, fun he => ?_⟩
  · rw [fetchPhysicalVia_hit (s := s.record (.translate va .fetch)) _ he hi hfind htag] at hfetch
    obtain ⟨t, hhit, hmem, hcache⟩ := fetchHitVia_stale (s := s.record (.translate va .fetch)) hs' hd hstale
    rcases hhit with hhit | hhit
    · rw [hhit] at hfetch
      exact ⟨_, .inl hfetch, hmem, hcache⟩
    · rw [hhit] at hfetch
      exact ⟨_, .inr hfetch, hmem, hcache⟩
  · rw [fetchPhysicalVia_disabled (s := s.record (.translate va .fetch)) _ he, fetchReadVia_silent hs' hd] at hfetch
    exact ⟨_, hfetch, rfl⟩

/-! ## `Invalidate` (R91) -/

/-- Settles O17: `Invalidate` goes through the overlapped words and drops the entry of each. -/
theorem invalidateClearsTheOverlappedEntries : Obligations.InvalidateClearsTheOverlappedEntries := by
  intro cfg c pa n hwf
  refine ⟨fun a i hover hi => ?_, fun i hnone => ?_⟩
  · rw [Cache.find_invalidate pa n i hwf, if_pos ⟨a, mem_overlappedWords_iff.2 hover, hi⟩]
  · rw [Cache.find_invalidate pa n i hwf, if_neg]
    rintro ⟨a, hmem, hi⟩
    exact hnone a (mem_overlappedWords_iff.1 hmem) hi

end Sys2Proof.Machine
end

section
/-! SUPPORT. The idle-loop probe and its time skip in a silent environment, step by step (40_fetch_execute.md R102,
R104, R105). -/
namespace Sys2Proof.Machine

/-! ## The time skip (R104) -/

/-- After the first call of the time skip: the timer has the elapsed cycles, and `syncCycles` is reset. -/
def State.idleClocked (s : State) : State :=
  { s.record (.timerClock (s.syncCycles + BitVec.ofNat 64 s.cfg.idleExtra)) with syncCycles := 0#64 }

/-- The time skip where nothing is done during its calls: the sign of what timer register 4 holds decides on the last
two. -/
theorem idleSkipVia_silent {s : State} (hs : s.silent) :
    idleSkipVia callCollaborator s =
      if 0 < (low32 s.idleClocked.nextAnswer.value).toInt then
        .ok () (((s.idleClocked.record (.timerRead 4)).record
          (.cop0Advance (low32 s.idleClocked.nextAnswer.value))).record (.timerWrite 4 s.cfg.timerCancel))
      else .ok () (s.idleClocked.record (.timerRead 4)) := by
  have hclocked : s.idleClocked.silent := State.silent_record _ hs
  have hread := State.silent_record (.timerRead 4) hclocked
  unfold idleSkipVia
  rw [callCollaborator_silent _ hs, Res.bind_ok]
  change (callCollaborator (.timerRead 4) s.idleClocked).bind _ = _
  rw [callCollaborator_silent _ hclocked, Res.bind_ok, callCollaborator_silent _ hread, Res.bind_ok,
    callCollaborator_silent _ (State.silent_record _ hread)]
  rfl

/-- Settles O33: the two cases of `idleSkipVia_silent`, with the calls written out. -/
theorem idleSkipMakesItsCalls : Obligations.IdleSkipMakesItsCalls := by
  intro s d hs hd
  have hvalue : low32 s.idleClocked.nextAnswer.value = d := hd.symm
  rw [idleSkipVia_silent hs, hvalue]
  exact ⟨fun hpositive => if_pos hpositive, fun hnot => if_neg (by omega)⟩

/-- The time skip always returns. -/
theorem idleSkipVia_returns {s : State} (hs : s.silent) : ∃ t, idleSkipVia callCollaborator s = .ok () t := by
  rw [idleSkipVia_silent hs]
  split
  · exact ⟨_, rfl⟩
  · exact ⟨_, rfl⟩

/-! ## The probe (R102) -/

section
variable {s t : State} {bpc bw pa dw : Word}

/-- The look-ahead fetch leaves `lastInstr` as it was. -/
theorem State.looked.lastInstr (h : s.looked t pa dw) : t.lastInstr = s.lastInstr := by
  obtain ⟨-, -, hsame⟩ := h
  rw [← hsame]

theorem State.looked.silent (h : s.looked t pa dw) (hs : s.silent) : t.silent := by
  obtain ⟨⟨l, hcalls⟩, -, hsame⟩ := h
  have hscript : t.script = s.script := by rw [← hsame]
  exact State.silent_of hscript (by simp [hcalls]) hs

/-- In the words of a fetch: what the look-ahead changes beside `lastInstr`. -/
theorem State.looked.fetched (h : s.looked t pa dw) :
    State.fetched { s with lastInstr := dw } { t with lastInstr := dw } pa dw := by
  obtain ⟨hcalls, hcache, hsame⟩ := h
  exact ⟨rfl, hcalls, hcache, congrArg (fun u : State => { u with lastInstr := dw }) hsame⟩

variable {h : Resolved} (hfetch : fetchVia callCollaborator (bpc + 4#32) s = .ok (dw, h) t)
include hfetch

/-- A word that is not safe ends the probe after the look-ahead fetch. -/
theorem probe_notSafe (hclass : classify dw bw = false) : probe bpc bw bpc s = .ok false t := by
  unfold probe probeVia
  rw [if_pos rfl, hfetch, Res.bind_ok]
  simp only [hclass]
  rfl

/-- Behind a safe word the idle signals decide: the fatal end, the time skip, or neither. -/
theorem probe_safe (ht : t.silent) (hclass : classify dw bw = true) :
    probe bpc bw bpc s =
      if t.nextAnswer.permanentLoop then fatal .permanentLoop bpc bw (t.record .cop0IdleSignals)
      else if t.nextAnswer.safeIdle then
        (idleSkipVia callCollaborator (t.record .cop0IdleSignals)).bind fun _ u => .ok true u
      else .ok true (t.record .cop0IdleSignals) := by
  unfold probe probeVia
  rw [if_pos rfl, hfetch, Res.bind_ok]
  simp only [hclass, if_true]
  rw [callCollaborator_silent _ ht, Res.bind_ok]

end

/-- Settles O32: the look-ahead fetch with a coherent cache, then the classification and the idle signals. -/
theorem probeFollowsItsSteps : Obligations.ProbeFollowsItsSteps := by
  refine ⟨fun s _ _ _ => probe_other s, fun s bpc bw pa dw hs hw hc ha ht hd hword => ?_⟩
  obtain ⟨t, hfetch, hlooked⟩ := fetchVia_coherent hs hw hc ha ht hd
  rw [hword] at hfetch hlooked
  have hsilent := hlooked.silent hs
  have hsame : { t with lastInstr := s.lastInstr } = t := by rw [← hlooked.lastInstr]
  have hcalled : { t with lastInstr := s.lastInstr, calls := .cop0IdleSignals :: t.calls } =
      t.record .cop0IdleSignals := congrArg (State.record · .cop0IdleSignals) hsame
  have hanswer : State.nextAnswer { t with lastInstr := dw } = t.nextAnswer := rfl
  refine ⟨{ t with lastInstr := dw }, hlooked.fetched, ?_⟩
  rw [hanswer, hsame, hcalled]
  refine ⟨probe_notSafe hfetch, fun hclass hpermanent => ?_, fun hclass hpermanent hidle => ?_,
    fun hclass hpermanent hidle => ?_⟩
  · simp [probe_safe hfetch hsilent hclass, hpermanent, ← hcalled]
  · simp [probe_safe hfetch hsilent hclass, hpermanent, hidle]
  · obtain ⟨u, hskip⟩ := idleSkipVia_returns (State.silent_record .cop0IdleSignals hsilent)
    exact ⟨u, hskip, by simp [probe_safe hfetch hsilent hclass, hpermanent, hidle, hskip]⟩

/-- Settles O34: the probe changes `syncCycles`, the cache, the calls, the free values and `halt` at most. -/
theorem probeChangesNoArchitecturalState : Obligations.ProbeChangesNoArchitecturalState := by
  intro s bpc bw target hs
  have hquiet := probe_quiet bpc bw target hs
  exact ⟨hquiet.x, hquiet.hi, hquiet.lo, hquiet.pc, hquiet.bstate, hquiet.jumpTarget, hquiet.llbit, hquiet.mem⟩

end Sys2Proof.Machine
end

section
/-! SUPPORT. The classification of a delay-slot word (40_fetch_execute.md R103): its rows by the selecting fields of the
word, and why a safe word leaves the operands of the branch as they were. -/
namespace Sys2Proof.Machine

/-! ## The row of a word -/

/-- The row of what a word resolves to; the fallback handler has none of the safe ones (R103). -/
def resolvedIdleClass (r : Resolved) : IdleClass :=
  match r with
  | .handler i => idleClass i
  | .fallback _ => .notSafe

@[simp] theorem resolvedIdleClass_handler (i : Instr) : resolvedIdleClass (.handler i) = idleClass i := rfl

@[simp] theorem resolvedIdleClass_fallback (slot : Slot) : resolvedIdleClass (.fallback slot) = .notSafe := rfl

/-- A word is safe by its row, and by its `rd` or `rt` where the row asks for it. -/
theorem classify_iff {dw bw : Word} :
    classify dw bw = true ↔
      (resolvedIdleClass (resolve dw) = .safeIfRd ∧ destOk bw (rdField dw) = true) ∨
      resolvedIdleClass (resolve dw) = .safe ∨
      (resolvedIdleClass (resolve dw) = .safeIfRt ∧ destOk bw (rtField dw) = true) := by
  unfold classify
  cases resolve dw with
  | fallback slot => simp
  | handler i =>
    simp only [resolvedIdleClass_handler]
    cases h : idleClass i <;> simp

theorem destOk_iff {bw : Word} {d : Reg} : destOk bw d = true ↔ d = 0#5 ∨ d ≠ rsField bw ∧ d ≠ rtField bw := by
  simp [destOk]

/-! ## The rows of each table: the row depends on the selecting field only (R82) -/

section
variable (w : Word)

theorem resolvedIdleClass_special_eq :
    resolvedIdleClass (resolveSpecial w) =
      resolvedIdleClass (resolveSpecial (encR 0#5 0#5 0#5 0#5 (functField w))) := by
  unfold resolveSpecial
  rw [functField_encR]
  split <;> rfl

/-- The rows of the `special` table. -/
theorem resolvedIdleClass_special :
    (resolvedIdleClass (resolveSpecial w) = .safeIfRd ↔ functField w ∈
      [0x00#6, 0x02#6, 0x03#6, 0x04#6, 0x06#6, 0x07#6, 0x38#6, 0x3A#6, 0x3B#6, 0x3C#6, 0x3E#6, 0x3F#6, 0x14#6, 0x16#6,
        0x17#6, 0x20#6, 0x21#6, 0x22#6, 0x23#6, 0x2C#6, 0x2D#6, 0x2E#6, 0x2F#6, 0x24#6, 0x25#6, 0x26#6, 0x27#6, 0x2A#6,
        0x2B#6, 0x10#6, 0x12#6, 0x11#6, 0x13#6]) ∧
    (resolvedIdleClass (resolveSpecial w) = .safe ↔ functField w ∈
      [0x18#6, 0x19#6, 0x1A#6, 0x1B#6, 0x1C#6, 0x1D#6, 0x1E#6, 0x1F#6]) ∧
    resolvedIdleClass (resolveSpecial w) ≠ .safeIfRt := by
  rw [resolvedIdleClass_special_eq]
  generalize functField w = funct
  revert funct
  decide

/-- No word of the `regimm` table is safe. -/
theorem resolvedIdleClass_regimm : resolvedIdleClass (resolveRegimm w) = .notSafe := by
  unfold resolveRegimm
  split <;> rfl

/-- Of the coprocessor-0 words the moves from coprocessor 0 alone may be safe. -/
theorem resolvedIdleClass_cop0Mov :
    (resolvedIdleClass (resolveCop0Mov w) = .safeIfRt ↔ rsField w ∈ [0x00#5, 0x01#5]) ∧
    resolvedIdleClass (resolveCop0Mov w) ≠ .safeIfRd ∧ resolvedIdleClass (resolveCop0Mov w) ≠ .safe := by
  unfold resolveCop0Mov
  split <;> simp_all [idleClass]

theorem resolvedIdleClass_cop0Co : resolvedIdleClass (resolveCop0Co w) = .notSafe := by
  unfold resolveCop0Co
  split <;> rfl

theorem resolvedIdleClass_primary_eq (h : opField w ∉ [0x00#6, 0x01#6, 0x10#6]) :
    resolvedIdleClass (resolve w) = resolvedIdleClass (resolve (encJ (opField w) 0#26)) := by
  unfold resolve
  rw [opField_encJ]
  split
  case h_1 | h_2 | h_3 => simp_all
  all_goals rfl

/-- The rows of the `primary` table, where it does not send the word to another one. -/
theorem resolvedIdleClass_primary (h : opField w ∉ [0x00#6, 0x01#6, 0x10#6]) :
    (resolvedIdleClass (resolve w) = .safeIfRt ↔ opField w ∈
      [0x08#6, 0x09#6, 0x0A#6, 0x0B#6, 0x0C#6, 0x0D#6, 0x0E#6, 0x0F#6, 0x18#6, 0x19#6, 0x20#6, 0x24#6, 0x21#6, 0x25#6,
        0x23#6, 0x27#6, 0x22#6, 0x26#6, 0x37#6, 0x1A#6, 0x1B#6]) ∧
    resolvedIdleClass (resolve w) ≠ .safeIfRd ∧ resolvedIdleClass (resolve w) ≠ .safe := by
  rw [resolvedIdleClass_primary_eq w h]
  revert h
  generalize opField w = op
  revert op
  decide

end

/-- Bit 25, which tells the coprocessor-0 operations, is the top bit of the field that tells the moves (R81). -/
theorem getLsbD_rsField_top (w : Word) : (rsField w).getLsbD 4 = w.getLsbD 25 := by
  simp [rsField]

/-- A coprocessor-0 operation has none of the sub-opcodes of the moves from coprocessor 0. -/
theorem rsField_of_cop0Co {w : Word} (h : w.getLsbD 25 = true) : rsField w ∉ [0x00#5, 0x01#5] := by
  rw [← getLsbD_rsField_top] at h
  revert h
  generalize rsField w = sub
  revert sub
  decide

/-- Settles O35: the table that a word reads has the rows listed for it. -/
theorem classifyIsTheTable : Obligations.ClassifyIsTheTable := by
  intro dw bw
  rw [classify_iff, destOk_iff, destOk_iff]
  by_cases hspecial : opField dw = 0x00#6
  · obtain ⟨hrd, hsafe, hrt⟩ := resolvedIdleClass_special dw
    simp [resolve_of_special hspecial, hrd, hsafe, hrt, hspecial]
  by_cases hregimm : opField dw = 0x01#6
  · simp [resolve_of_regimm hregimm, resolvedIdleClass_regimm, hregimm]
  by_cases hcop0 : opField dw = 0x10#6
  · cases hco : dw.getLsbD 25 with
    | false =>
      obtain ⟨hrt, hrd, hsafe⟩ := resolvedIdleClass_cop0Mov dw
      simp [resolve_of_cop0Mov hcop0 hco, hrd, hsafe, hrt, hcop0]
    | true => simp [resolve_of_cop0Co hcop0 hco, resolvedIdleClass_cop0Co, hcop0, rsField_of_cop0Co hco]
  obtain ⟨hrt, hrd, hsafe⟩ := resolvedIdleClass_primary dw (by simp [hspecial, hregimm, hcop0])
  simp [hrd, hsafe, hrt, hspecial, hcop0]

/-! ## What a safe word leaves as it was (R103, R105) -/

/-- The register that the row tests is the only one an instruction of that row may write. -/
def destinationIsTested (w : Word) (i : Instr) : Prop :=
  match idleClass i with
  | .safeIfRd => ∀ q, destination i = some q → q = rdField w
  | .safeIfRt => ∀ q, destination i = some q → q = rtField w
  | .safe => destination i = none
  | .notSafe => True

section
variable {w : Word} {i : Instr}

theorem destinationIsTested_special (h : resolveSpecial w = .handler i) : destinationIsTested w i := by
  unfold resolveSpecial at h
  split at h <;> cases h <;> simp [destinationIsTested, idleClass, destination]

theorem destinationIsTested_regimm (h : resolveRegimm w = .handler i) : destinationIsTested w i := by
  unfold resolveRegimm at h
  split at h <;> cases h <;> trivial

theorem destinationIsTested_cop0Mov (h : resolveCop0Mov w = .handler i) : destinationIsTested w i := by
  unfold resolveCop0Mov at h
  split at h <;> cases h <;> simp [destinationIsTested, idleClass, destination]

theorem destinationIsTested_cop0Co (h : resolveCop0Co w = .handler i) : destinationIsTested w i := by
  unfold resolveCop0Co at h
  split at h <;> cases h <;> trivial

/-- The instruction of a word has its destination in the field that its row tests (30_encoding.md R75, R103). -/
theorem destinationIsTested_of_resolve (h : resolve w = .handler i) : destinationIsTested w i := by
  unfold resolve at h
  split at h
  · exact destinationIsTested_special h
  · exact destinationIsTested_regimm h
  · split at h
    · exact destinationIsTested_cop0Co h
    · exact destinationIsTested_cop0Mov h
  all_goals cases h <;> simp [destinationIsTested, idleClass, destination]

/-- An instruction of a row that may be safe writes a register, `hi` and `lo`, or makes a read. -/
theorem instrGroup_of_idleClass (h : idleClass i ≠ .notSafe) : instrGroup i ∈ [.register, .hiLo, .load, .cop0] := by
  cases i with
  | add | addu | sub | subu | dadd | daddu | dsub | dsubu | and | or | xor | nor | slt | sltu | addi | addiu | daddi
  | daddiu | slti | sltiu | andi | ori | xori | lui | sll | srl | sra | sllv | srlv | srav | dsll | dsrl | dsra
  | dsll32 | dsrl32 | dsra32 | dsllv | dsrlv | dsrav | mfhi | mflo | mthi | mtlo | mult | multu | div | divu | dmult
  | dmultu | ddiv | ddivu | lb | lbu | lh | lhu | lw | lwu | ld | lwl | lwr | ldl | ldr | mfc0 | dmfc0 =>
    simp [instrGroup]
  | _ => exact absurd rfl h

variable {bw : Word} {q : Reg}

theorem idleClass_of_classify (hclass : classify w bw = true) (hdecode : decode w = some i) :
    idleClass i ≠ .notSafe := by
  intro hrow
  simp [classify_iff, resolve_of_decode hdecode, hrow] at hclass

/-- The destination of a safe word is register 0 or no operand of the branch. -/
theorem destination_of_classify (hclass : classify w bw = true) (hdecode : decode w = some i)
    (hq : destination i = some q) : q = 0#5 ∨ q ≠ rsField bw ∧ q ≠ rtField bw := by
  have hresolve := resolve_of_decode hdecode
  have htested := destinationIsTested_of_resolve hresolve
  rw [classify_iff, destOk_iff, destOk_iff, hresolve, resolvedIdleClass_handler] at hclass
  unfold destinationIsTested at htested
  rcases hclass with ⟨hrow, hok⟩ | hrow | ⟨hrow, hok⟩ <;> rw [hrow] at htested
  · exact htested q hq ▸ hok
  · cases htested.symm.trans hq
  · exact htested q hq ▸ hok

end

/-- Settles O36: what a handler may change by its group and destination, for the groups and destinations of safe
words. -/
theorem safeWordLeavesTheBranchOperands : Obligations.SafeWordLeavesTheBranchOperands := by
  intro s dw bw i hs hclass hdecode
  obtain ⟨t, hexec, -⟩ := exec_keeps i s
  have hwithin := exec_within i hs t hexec
  have hgroup := instrGroup_of_idleClass (idleClass_of_classify hclass hdecode)
  have hstores : ¬ (instrGroup i).stores := by
    rintro (h | h) <;> simp [h] at hgroup
  have hbranches : ¬ (instrGroup i).branches := by
    rintro (h | h) <;> simp [h] at hgroup
  have hlinked : ¬ (instrGroup i = .linkedLoad ∧ t.llbit = true) := by
    rintro ⟨h, -⟩
    simp [h] at hgroup
  have hkept : ∀ q, q = rsField bw ∨ q = rtField bw → t.gpr q = s.gpr q := by
    refine fun q hoperand => (hwithin.gpr q).resolve_right ?_
    rintro ⟨hq, hzero⟩
    obtain ⟨hrs, hrt⟩ := (destination_of_classify hclass hdecode hq).resolve_left hzero
    exact hoperand.elim hrs hrt
  exact ⟨t, hexec, hkept _ (.inl rfl), hkept _ (.inr rfl), hwithin.mem.resolve_right hstores,
    hwithin.llbit.resolve_right hlinked, hwithin.bstate.resolve_right hbranches,
    hwithin.jumpTarget.resolve_right hbranches⟩

end Sys2Proof.Machine
end

section
/-! SUPPORT. The register instructions of 41_alu.md: the words of an instruction by the row of its table, an instruction
that is one register write or one 32-bit operation, and the values they write as integers (00_scope.md R12). -/
namespace Sys2Proof.Machine

/-! ## The words of an instruction, by its row of the table (30_encoding.md R78, R79, R82) -/

section
variable {i : Word → Instr}

/-- The words of a row of the `special` table; the row is read off the table unless it is given. -/
theorem specialWords_of_row {funct : BitVec 6}
    (hrow : ∀ w, functField w = funct → resolveSpecial w = .handler (i w) := by
      intro w hfunct; simp [resolveSpecial, hfunct]) :
    specialWords funct i :=
  fun w hop hfunct => decode_of_handler ((resolve_of_special hop).trans (hrow w hfunct))

/-- The words of a row of the `primary` table; the row is read off the table unless it is given. -/
theorem primaryWords_of_row {op : BitVec 6}
    (hrow : ∀ w, opField w = op → resolve w = .handler (i w) := by intro w hop; simp [resolve, hop]) :
    primaryWords op i :=
  fun w hop => decode_of_handler (hrow w hop)

end

/-! ## One register write, one 32-bit operation -/

section
variable {s : State} {i : Instr} {rd : Reg}

/-- An instruction whose handler is one `WriteGPR`. -/
theorem exec_onlyGpr {v v' : Dword} (hexec : exec i s = .next (s.writeGpr rd v)) (hv : v = v') :
    ∃ t, exec i s = .next t ∧ s.onlyGpr t rd v' :=
  ⟨_, hexec, hv ▸ State.onlyGpr_writeGpr s rd v⟩

/-- An instruction whose handler is one `WriteGPR`, its value said by a property. -/
theorem exec_onlyGpr_of {v : Dword} {p : Dword → Prop} (hexec : exec i s = .next (s.writeGpr rd v)) (hv : p v) :
    ∃ t v, exec i s = .next t ∧ s.onlyGpr t rd v ∧ p v :=
  ⟨_, v, hexec, State.onlyGpr_writeGpr s rd v, hv⟩

/-- An instruction of two registers whose handler is one `Op32` (41_alu.md R109). -/
theorem exec_op32 {rs rt : Reg} {f f' : Word}
    (hexec : exec i s = writeOp32 rd (isSext32 (s.gpr rs) && isSext32 (s.gpr rt)) f s) (hf : f = f') :
    ∃ t, exec i s = .next t ∧ s.op32 t rd [rs, rt] f' := by
  rw [hexec, ← hf]
  exact writeOp32_op32 rd f (fit_iff s rs rt)

/-- An instruction of one register whose handler is one `Op32`. -/
theorem exec_op32_one {rs : Reg} {f f' : Word} (hexec : exec i s = writeOp32 rd (isSext32 (s.gpr rs)) f s)
    (hf : f = f') : ∃ t, exec i s = .next t ∧ s.op32 t rd [rs] f' := by
  rw [hexec, ← hf]
  exact writeOp32_op32 rd f (fit_iff_one s rs)

end

/-! ## Sums and differences as integers -/

section
variable {n : Nat} (a b : BitVec n)

theorem add_eq_ofInt_toInt : a + b = BitVec.ofInt n (a.toInt + b.toInt) := by
  simp [BitVec.ofInt_add]

theorem add_eq_ofNat_toNat : a + b = BitVec.ofNat n (a.toNat + b.toNat) := by
  simp [BitVec.ofNat_add]

theorem sub_eq_ofInt_toInt : a - b = BitVec.ofInt n (a.toInt - b.toInt) := by
  simp [Int.sub_eq_add_neg, BitVec.ofInt_add, BitVec.ofInt_neg, BitVec.sub_eq_add_neg]

theorem sub_eq_ofInt_toNat : a - b = BitVec.ofInt n (a.toNat - b.toNat) := by
  simp [Int.sub_eq_add_neg, BitVec.ofInt_add, BitVec.ofInt_neg, BitVec.sub_eq_add_neg]

end

/-! ## Immediates and comparison results (30_encoding.md R76, 41_alu.md R125) -/

section
variable (imm : BitVec 16)

@[simp] theorem toInt_simm32 : (simm32 imm).toInt = imm.toInt := BitVec.toInt_signExtend_of_le (by decide)

@[simp] theorem toInt_simm64 : (simm64 imm).toInt = imm.toInt := BitVec.toInt_signExtend_of_le (by decide)

theorem add_simm32_eq (a : Word) : a + simm32 imm = BitVec.ofInt 32 (a.toInt + imm.toInt) := by
  rw [add_eq_ofInt_toInt, toInt_simm32]

theorem add_simm64_eq (a : Dword) : a + simm64 imm = BitVec.ofInt 64 (a.toInt + imm.toInt) := by
  rw [add_eq_ofInt_toInt, toInt_simm64]

/-- The bits above the sixteen of the immediate are zero in both. -/
@[simp] theorem getLsbD_zimm64 (k : Nat) : (zimm64 imm).getLsbD k = imm.getLsbD k := by
  by_cases hk : k < 64
  · simp [zimm64, hk]
  · simp [zimm64, BitVec.getLsbD_of_ge, show 16 ≤ k by omega, show 64 ≤ k by omega]

/-- `luimm` is the sixteen bits as a signed value, times 2^16 (41_alu.md R136). -/
theorem luimm_eq_ofInt : luimm imm = BitVec.ofInt 64 (imm.toInt * 2 ^ 16) := by
  have htoInt : (imm ++ 0#16).toInt = imm.toInt * 2 ^ 16 := BitVec.toInt_append.trans (by simp [Int.mul_comm])
  exact congrArg (BitVec.ofInt 64) htoInt

end

theorem boolDword_ltS (a b : Dword) : boolDword (ltS a b) = if a.toInt < b.toInt then 1#64 else 0#64 := by
  simp [boolDword, ltS]

theorem boolDword_ltU (a b : Dword) : boolDword (ltU a b) = if a.toNat < b.toNat then 1#64 else 0#64 := by
  simp [boolDword, ltU]

theorem boolDword_ltS_simm64 (a : Dword) (imm : BitVec 16) :
    boolDword (ltS a (simm64 imm)) = if a.toInt < imm.toInt then 1#64 else 0#64 := by
  rw [boolDword_ltS, toInt_simm64]

/-! ## The instructions of 41_alu.md -/

/-- Settles O18: each is one 32-bit operation, of the sum or difference of the low words. -/
theorem wordAddAndSubtract : Obligations.WordAddAndSubtract := by
  refine ⟨specialWords_of_row, specialWords_of_row, specialWords_of_row, specialWords_of_row, primaryWords_of_row,
    primaryWords_of_row, fun s rd rs rt imm => ⟨?add, ?addu, ?sub, ?subu, ?addi, ?addiu⟩⟩
  case add => exact exec_op32 rfl (add_eq_ofInt_toInt _ _)
  case addu => exact exec_op32 rfl (add_eq_ofNat_toNat _ _)
  case sub => exact exec_op32 rfl (sub_eq_ofInt_toInt _ _)
  case subu => exact exec_op32 rfl (sub_eq_ofInt_toNat _ _)
  case addi | addiu => exact exec_op32_one rfl (add_simm32_eq imm _)

/-- Settles O19: each is one register write, of the 64-bit sum or difference. -/
theorem doublewordAddAndSubtract : Obligations.DoublewordAddAndSubtract := by
  refine ⟨specialWords_of_row, specialWords_of_row, specialWords_of_row, specialWords_of_row, primaryWords_of_row,
    primaryWords_of_row, fun s rd rs rt imm => ⟨?dadd, ?daddu, ?dsub, ?dsubu, ?daddi, ?daddiu⟩⟩
  case dadd => exact exec_onlyGpr rfl (add_eq_ofInt_toInt _ _)
  case daddu => exact exec_onlyGpr rfl (add_eq_ofNat_toNat _ _)
  case dsub => exact exec_onlyGpr rfl (sub_eq_ofInt_toInt _ _)
  case dsubu => exact exec_onlyGpr rfl (sub_eq_ofInt_toNat _ _)
  case daddi | daddiu => exact exec_onlyGpr rfl (add_simm64_eq imm _)

/-- Settles O20: each is one register write, whose bits are the operation on the bits of the operands. -/
theorem logicalAndUpperImmediate : Obligations.LogicalAndUpperImmediate := by
  refine ⟨specialWords_of_row, specialWords_of_row, specialWords_of_row, specialWords_of_row, primaryWords_of_row,
    primaryWords_of_row, primaryWords_of_row, primaryWords_of_row,
    fun s rd rs rt imm => ⟨?and, ?or, ?xor, ?nor, ?andi, ?ori, ?xori, ?lui⟩⟩
  case and => exact exec_onlyGpr_of rfl fun k => BitVec.getLsbD_and
  case or => exact exec_onlyGpr_of rfl fun k => BitVec.getLsbD_or
  case xor => exact exec_onlyGpr_of rfl fun k => BitVec.getLsbD_xor
  case nor => exact exec_onlyGpr_of rfl fun k hk => by simp [hk]
  case andi => exact exec_onlyGpr_of rfl fun k => by rw [BitVec.getLsbD_and, getLsbD_zimm64]
  case ori => exact exec_onlyGpr_of rfl fun k => by rw [BitVec.getLsbD_or, getLsbD_zimm64]
  case xori => exact exec_onlyGpr_of rfl fun k => by rw [BitVec.getLsbD_xor, getLsbD_zimm64]
  case lui => exact exec_onlyGpr rfl (luimm_eq_ofInt imm)

/-- Settles O21: each is one register write, of the comparison's result. -/
theorem setOnLessThan : Obligations.SetOnLessThan := by
  refine ⟨specialWords_of_row, specialWords_of_row, primaryWords_of_row, primaryWords_of_row,
    fun s rd rs rt imm => ⟨?slt, ?sltu, ?slti, ?sltiu⟩⟩
  case slt => exact exec_onlyGpr rfl (boolDword_ltS _ _)
  case sltu => exact exec_onlyGpr rfl (boolDword_ltU _ _)
  case slti => exact exec_onlyGpr rfl (boolDword_ltS_simm64 _ imm)
  case sltiu => exact exec_onlyGpr rfl (boolDword_ltU _ _)

end Sys2Proof.Machine
end

section
/-! SUPPORT. The shifts of 42_shift.md: a shift by `k` as the product or the quotient with `2^k`, of the unsigned or the
signed value (00_scope.md R12), and the amounts of the variable forms. -/
namespace Sys2Proof.Machine

/-! ## Shifts as integers -/

section
variable {n : Nat} (a : BitVec n) (k : Nat)

theorem shiftLeft_eq_ofNat : a <<< k = BitVec.ofNat n (a.toNat * 2 ^ k) :=
  congrArg (BitVec.ofNat n) (Nat.shiftLeft_eq a.toNat k)

theorem ushiftRight_eq_ofNat : a >>> k = BitVec.ofNat n (a.toNat / 2 ^ k) := by
  rw [← Nat.shiftRight_eq_div_pow, ← BitVec.toNat_ushiftRight, BitVec.ofNat_toNat, BitVec.setWidth_eq]

/-- The signed quotient is rounded down, as the copies of the sign bit have it. -/
theorem sshiftRight_eq_ofInt : a.sshiftRight k = BitVec.ofInt n (a.toInt / 2 ^ k) :=
  congrArg (BitVec.ofInt n) (Int.shiftRight_eq_div_pow a.toInt k)

end

/-! ## The amounts of the variable forms (30_encoding.md R76) -/

section
variable (s : State) (rs : Reg)

theorem vs32_gpr : vs32 (s.gpr rs) = s.u64 rs % 32 := BitVec.toNat_setWidth 5 (s.gpr rs)

theorem vs64_gpr : vs64 (s.gpr rs) = s.u64 rs % 64 := BitVec.toNat_setWidth 6 (s.gpr rs)

end

/-! ## The instructions of 42_shift.md -/

/-- Settles O22: a left shift is one register write, a right shift one 32-bit operation, of the low word's product or
quotient. -/
theorem wordShifts : Obligations.WordShifts := by
  refine ⟨specialWords_of_row, specialWords_of_row, specialWords_of_row, specialWords_of_row, specialWords_of_row,
    specialWords_of_row, fun s rd rt rs sa _ => ?_⟩
  rw [← vs32_gpr s rs]
  refine ⟨?sll, ?srl, ?sra, ?sllv, ?srlv, ?srav⟩
  case sll | sllv => exact exec_onlyGpr rfl (congrArg sext64 (shiftLeft_eq_ofNat _ _))
  case srl | srlv => exact exec_op32_one rfl (ushiftRight_eq_ofNat _ _)
  case sra | srav => exact exec_op32_one rfl (sshiftRight_eq_ofInt _ _)

/-- Settles O23: each is one register write, of the register's product or quotient. -/
theorem doublewordShifts : Obligations.DoublewordShifts := by
  refine ⟨specialWords_of_row, specialWords_of_row, specialWords_of_row, specialWords_of_row, specialWords_of_row,
    specialWords_of_row, specialWords_of_row, specialWords_of_row, specialWords_of_row, fun s rd rt rs sa _ => ?_⟩
  rw [← vs64_gpr s rs]
  refine ⟨?dsll, ?dsrl, ?dsra, ?dsll32, ?dsrl32, ?dsra32, ?dsllv, ?dsrlv, ?dsrav⟩
  case dsll | dsll32 | dsllv => exact exec_onlyGpr rfl (shiftLeft_eq_ofNat _ _)
  case dsrl | dsrl32 | dsrlv => exact exec_onlyGpr rfl (ushiftRight_eq_ofNat _ _)
  case dsra | dsra32 | dsrav => exact exec_onlyGpr rfl (sshiftRight_eq_ofInt _ _)

end Sys2Proof.Machine
end

section
/-! SUPPORT. The multiplies, divides and HI/LO moves of 43_muldiv.md: the exact products and their halves, the limb form
of the unsigned 64-bit product (R158), and the quotient that rounds toward zero with its remainder (R157). -/
namespace Sys2Proof.Machine

/-! ## Exact products (R158) -/

section
variable {n : Nat} (a b : BitVec n)

/-- The signed product of two `n`-bit values fits in `2n` bits. -/
theorem toInt_ofInt_mul (hn : 0 < n) : (BitVec.ofInt (n + n) (a.toInt * b.toInt)).toInt = a.toInt * b.toInt := by
  have hpow : (2 : Int) ^ (n * 2 - 2) < 2 ^ (n + n - 1) := pow_lt_pow_right₀ (by decide) (by omega)
  have hlow : -2 ^ (n * 2 - 2) ≤ a.toInt * b.toInt := BitVec.le_toInt_mul_toInt
  have hhigh : a.toInt * b.toInt ≤ 2 ^ (n * 2 - 2) := BitVec.toInt_mul_toInt_le
  exact BitVec.toInt_ofInt_eq_self (by omega) (by omega) (by omega)

/-- The unsigned product of two `n`-bit values fits in `2n` bits. -/
theorem toNat_ofInt_mul : (BitVec.ofInt (n + n) (a.toNat * b.toNat : Nat)).toNat = a.toNat * b.toNat := by
  have hlt : a.toNat * b.toNat < 2 ^ (n + n) := Nat.pow_add 2 n n ▸ Nat.mul_lt_mul'' a.isLt b.isLt
  rw [BitVec.ofInt_natCast, BitVec.toNat_ofNat, Nat.mod_eq_of_lt hlt]

end

theorem productHalves32 (p : Int) : productHigh32 p ++ productLow32 p = BitVec.ofInt 64 p :=
  BitVec.extractLsb'_append_extractLsb' (w := 32) (len := 32)

theorem productHalves64 (p : Int) : productHigh64 p ++ productLow64 p = BitVec.ofInt 128 p :=
  BitVec.extractLsb'_append_extractLsb' (w := 64) (len := 64)

/-- The halves of a product hold all of it (R160, R161, R164, R165). -/
theorem toInt_productHalves32 (a b : Word) :
    (productHigh32 (a.toInt * b.toInt) ++ productLow32 (a.toInt * b.toInt)).toInt = a.toInt * b.toInt := by
  rw [productHalves32, toInt_ofInt_mul a b (by decide)]

theorem toNat_productHalves32 (a b : Word) :
    (productHigh32 (a.toNat * b.toNat : Nat) ++ productLow32 (a.toNat * b.toNat : Nat)).toNat = a.toNat * b.toNat := by
  rw [productHalves32, toNat_ofInt_mul a b]

theorem toInt_productHalves64 (a b : Dword) :
    (productHigh64 (a.toInt * b.toInt) ++ productLow64 (a.toInt * b.toInt)).toInt = a.toInt * b.toInt := by
  rw [productHalves64, toInt_ofInt_mul a b (by decide)]

theorem toNat_productHalves64 (a b : Dword) :
    (productHigh64 (a.toNat * b.toNat : Nat) ++ productLow64 (a.toNat * b.toNat : Nat)).toNat = a.toNat * b.toNat := by
  rw [productHalves64, toNat_ofInt_mul a b]

theorem toNat_productHigh64 (p : Nat) : (productHigh64 p).toNat = p / 2 ^ 64 % 2 ^ 64 := by
  rw [productHigh64, BitVec.extractLsb'_toNat, BitVec.ofInt_natCast, BitVec.toNat_ofNat, Nat.shiftRight_eq_div_pow]
  omega

theorem toNat_productLow64 (p : Nat) : (productLow64 p).toNat = p % 2 ^ 64 := by
  rw [productLow64, BitVec.extractLsb'_toNat, BitVec.ofInt_natCast, BitVec.toNat_ofNat, Nat.shiftRight_zero]
  omega

/-! ## The limb form of the unsigned 64-bit product (R158) -/

section
variable (v : Dword)

theorem toNat_highLimb : (v.extractLsb' 32 32).toNat = v.toNat / 2 ^ 32 := by
  rw [BitVec.extractLsb'_toNat, Nat.shiftRight_eq_div_pow]
  have := v.isLt
  omega

theorem toNat_lowLimb : (v.extractLsb' 0 32).toNat = v.toNat % 2 ^ 32 := by
  rw [BitVec.extractLsb'_toNat, Nat.shiftRight_zero]

theorem toNat_eq_limbs : v.toNat = (v.extractLsb' 32 32).toNat * 2 ^ 32 + (v.extractLsb' 0 32).toNat := by
  rw [toNat_highLimb, toNat_lowLimb]
  omega

end

section
variable (x y : Word)

theorem toNat_setWidth_limb : (x.setWidth 64).toNat = x.toNat :=
  BitVec.toNat_setWidth_of_le (by decide)

theorem limbProduct_le : x.toNat * y.toNat ≤ (2 ^ 32 - 1) * (2 ^ 32 - 1) :=
  Nat.mul_le_mul (Nat.le_pred_of_lt x.isLt) (Nat.le_pred_of_lt y.isLt)

/-- A partial product does not wrap. -/
theorem toNat_limbProduct : (x.setWidth 64 * y.setWidth 64).toNat = x.toNat * y.toNat := by
  have := limbProduct_le x y
  rw [BitVec.toNat_mul, toNat_setWidth_limb, toNat_setWidth_limb]
  omega

end

/-- The middle column of the partial products: the high limb of `p0` and the low limbs of `p1` and `p2`. -/
def limbMid (p0 p1 p2 : Dword) : Dword :=
  (p0.extractLsb' 32 32).setWidth 64 + (p1.extractLsb' 0 32).setWidth 64 + (p2.extractLsb' 0 32).setWidth 64

/-- Three limbs do not wrap in 64 bits. -/
theorem toNat_limbMid (p0 p1 p2 : Dword) :
    (limbMid p0 p1 p2).toNat = p0.toNat / 2 ^ 32 + p1.toNat % 2 ^ 32 + p2.toNat % 2 ^ 32 := by
  have := p0.isLt
  simp only [limbMid, BitVec.toNat_add, toNat_setWidth_limb, toNat_highLimb, toNat_lowLimb]
  omega

section
variable {p : Nat} {p0 p1 p2 p3 : Dword}
  (hp : p = p3.toNat * 2 ^ 64 + (p1.toNat + p2.toNat) * 2 ^ 32 + p0.toNat)
include hp

theorem productHigh64_eq_limbs :
    productHigh64 p = p3 + (p1.extractLsb' 32 32).setWidth 64 + (p2.extractLsb' 32 32).setWidth 64 +
      ((limbMid p0 p1 p2).extractLsb' 32 32).setWidth 64 := by
  apply BitVec.eq_of_toNat_eq
  simp only [toNat_productHigh64, BitVec.toNat_add, toNat_setWidth_limb, toNat_highLimb, toNat_limbMid]
  omega

theorem productLow64_eq_limbs :
    productLow64 p = (limbMid p0 p1 p2).extractLsb' 0 32 ++ p0.extractLsb' 0 32 := by
  apply BitVec.eq_of_toNat_eq
  rw [toNat_productLow64, toNat_append_halves, toNat_lowLimb, toNat_lowLimb, toNat_limbMid]
  omega

end

/-- The four partial products at their places add up to the product. -/
theorem mul_eq_limbProducts {a b p0 p1 p2 p3 : Dword}
    (h0 : p0 = (a.extractLsb' 0 32).setWidth 64 * (b.extractLsb' 0 32).setWidth 64)
    (h1 : p1 = (a.extractLsb' 0 32).setWidth 64 * (b.extractLsb' 32 32).setWidth 64)
    (h2 : p2 = (a.extractLsb' 32 32).setWidth 64 * (b.extractLsb' 0 32).setWidth 64)
    (h3 : p3 = (a.extractLsb' 32 32).setWidth 64 * (b.extractLsb' 32 32).setWidth 64) :
    a.toNat * b.toNat = p3.toNat * 2 ^ 64 + (p1.toNat + p2.toNat) * 2 ^ 32 + p0.toNat := by
  subst h0 h1 h2 h3
  simp only [toNat_limbProduct]
  rw [toNat_eq_limbs a, toNat_eq_limbs b]
  ring

/-! ## Quotient and remainder (R157) -/

theorem toInt_eq_zero_iff {n : Nat} {a : BitVec n} : a.toInt = 0 ↔ a.toNat = 0 := by
  rw [← BitVec.toInt_zero (w := n), BitVec.toInt_inj, BitVec.toNat_eq, BitVec.toNat_ofNat, Nat.zero_mod]

theorem tmod_mul_self_nonneg (a b : Int) : 0 ≤ a.tmod b * a := by
  rcases Int.le_total 0 a with ha | ha
  · exact Int.mul_nonneg (Int.tmod_nonneg b ha) ha
  · have hneg : 0 ≤ (-a).tmod b := Int.tmod_nonneg b (by omega)
    rw [Int.neg_tmod] at hneg
    exact Int.mul_nonneg_of_nonpos_of_nonpos (by omega) ha

/-- The quotient rounded toward zero and its remainder, as R157 defines them. -/
theorem tdiv_tmod_spec (a : Int) {b : Int} (hb : b ≠ 0) :
    a = a.tdiv b * b + a.tmod b ∧ (a.tmod b).natAbs < b.natAbs ∧ 0 ≤ a.tmod b * a := by
  refine ⟨(Int.tdiv_mul_add_tmod a b).symm, ?_, tmod_mul_self_nonneg a b⟩
  rw [Int.natAbs_tmod]
  exact Nat.mod_lt _ (Int.natAbs_pos.2 hb)

/-! ## Writes of `hi` and `lo`, and the handlers by their divisor (R155, R156) -/

section
variable {s : State} {i : Instr} {rs rt : Reg}

/-- An instruction whose handler writes `hi` and `lo` with one 32-bit multiply or divide (R155). -/
theorem exec_op32HiLo {h l : Word} (hexec : exec i s = writeHiLo32 (bothFit s rs rt) h l s) :
    ∃ t, exec i s = .next t ∧ s.op32HiLo t [rs, rt] h l := by
  rw [hexec]
  exact writeHiLo32_op32HiLo h l (fit_iff s rs rt)

/-- An instruction whose handler draws `hi` and `lo` (R156). -/
theorem exec_drawHiLo (hexec : exec i s = drawHiLo s) :
    ∃ h l, exec i s = .next { s with hi := h, lo := l, draws := s.draws + 2 } :=
  ⟨_, _, hexec⟩

theorem exec_div_of_ne (h : s.u32 rt ≠ 0) :
    exec (.div rs rt) s = writeHiLo32 (bothFit s rs rt) (BitVec.ofInt 32 ((s.s32 rs).tmod (s.s32 rt)))
      (BitVec.ofInt 32 ((s.s32 rs).tdiv (s.s32 rt))) s :=
  if_neg (mt toInt_eq_zero_iff.1 h)

theorem exec_divu_of_ne (h : s.u32 rt ≠ 0) :
    exec (.divu rs rt) s = writeHiLo32 (bothFit s rs rt) (BitVec.ofNat 32 (s.u32 rs % s.u32 rt))
      (BitVec.ofNat 32 (s.u32 rs / s.u32 rt)) s :=
  if_neg h

theorem exec_ddiv_of_ne (h : s.u64 rt ≠ 0) :
    exec (.ddiv rs rt) s = .next { s with
      hi := BitVec.ofInt 64 ((s.s64 rs).tmod (s.s64 rt)), lo := BitVec.ofInt 64 ((s.s64 rs).tdiv (s.s64 rt)) } :=
  if_neg (mt toInt_eq_zero_iff.1 h)

theorem exec_ddivu_of_ne (h : s.u64 rt ≠ 0) :
    exec (.ddivu rs rt) s = .next { s with
      hi := BitVec.ofNat 64 (s.u64 rs % s.u64 rt), lo := BitVec.ofNat 64 (s.u64 rs / s.u64 rt) } :=
  if_neg h

/-- The most negative value by -1: the exact quotient wraps to the dividend (R157). -/
theorem exec_div_overflow (hfit : s.op32Defined [rs, rt]) (hrs : low32 (s.gpr rs) = 0x80000000#32)
    (hrt : low32 (s.gpr rt) = 0xFFFFFFFF#32) :
    exec (.div rs rt) s = .next { s with hi := 0#64, lo := 0xFFFFFFFF80000000#64 } := by
  have hne : s.u32 rt ≠ 0 := by simp [State.u32, hrt]
  obtain ⟨t, hexec, hdefined, -⟩ := exec_op32HiLo (exec_div_of_ne (rs := rs) hne)
  rw [hexec, hdefined hfit, State.s32, State.s32, hrs, hrt]
  rfl

theorem exec_ddiv_overflow (hrs : s.gpr rs = 0x8000000000000000#64) (hrt : s.gpr rt = 0xFFFFFFFFFFFFFFFF#64) :
    exec (.ddiv rs rt) s = .next { s with hi := 0#64, lo := 0x8000000000000000#64 } := by
  have hne : s.u64 rt ≠ 0 := by simp [State.u64, hrt]
  rw [exec_ddiv_of_ne hne, State.s64, State.s64, hrs, hrt]
  rfl

end

/-! ## The instructions of 43_muldiv.md -/

/-- Settles O24: the halves are cut out of the exact product, which fits in the two of them. -/
theorem multiplyWritesTheExactProduct : Obligations.MultiplyWritesTheExactProduct := by
  refine ⟨specialWords_of_row, specialWords_of_row, specialWords_of_row, specialWords_of_row,
    fun s rs rt => ⟨?mult, ?multu, ?dmult, ?dmultu⟩⟩
  case mult =>
    obtain ⟨t, hexec, hwrite⟩ := exec_op32HiLo (i := .mult rs rt) (s := s) rfl
    exact ⟨t, _, _, hexec, toInt_productHalves32 _ _, hwrite⟩
  case multu =>
    obtain ⟨t, hexec, hwrite⟩ := exec_op32HiLo (i := .multu rs rt) (s := s) rfl
    exact ⟨t, _, _, hexec, toNat_productHalves32 _ _, hwrite⟩
  case dmult => exact ⟨_, _, rfl, toInt_productHalves64 _ _⟩
  case dmultu => exact ⟨_, _, rfl, toNat_productHalves64 _ _⟩

/-- Settles O25: the partial products at their places add up to the product, and no column of limbs wraps. -/
theorem unsignedProductIsTheLimbForm : Obligations.UnsignedProductIsTheLimbForm := by
  rintro s rs rt p0 p1 p2 p3 mid h0 h1 h2 h3 rfl
  have hproduct := mul_eq_limbProducts h0 h1 h2 h3
  have hexec : exec (.dmultu rs rt) s = .next (s.setHiLo (productHigh64 ((s.gpr rs).toNat * (s.gpr rt).toNat : Nat))
    (productLow64 ((s.gpr rs).toNat * (s.gpr rt).toNat : Nat))) := rfl
  rw [hexec, productHigh64_eq_limbs hproduct, productLow64_eq_limbs hproduct]
  rfl

/-- Settles O26: the quotient rounded toward zero and its remainder, or two draws where the divisor is 0. -/
theorem divideWritesQuotientAndRemainder : Obligations.DivideWritesQuotientAndRemainder := by
  refine ⟨specialWords_of_row, specialWords_of_row, specialWords_of_row, specialWords_of_row,
    fun s rs rt hne => ⟨?div, ?divu⟩, fun s rs rt hne => ⟨?ddiv, ?ddivu⟩,
    fun s rs rt => ⟨exec_div_overflow, exec_ddiv_overflow, fun hzero => ⟨?div0, ?divu0⟩,
      fun hzero => ⟨?ddiv0, ?ddivu0⟩⟩⟩
  case div =>
    obtain ⟨t, hexec, hwrite⟩ := exec_op32HiLo (exec_div_of_ne (rs := rs) hne)
    obtain ⟨heq, hlt, hsign⟩ := tdiv_tmod_spec (s.s32 rs) (mt toInt_eq_zero_iff.1 hne)
    exact ⟨t, _, _, hexec, heq, hlt, hsign, hwrite⟩
  case divu =>
    obtain ⟨t, hexec, hwrite⟩ := exec_op32HiLo (exec_divu_of_ne (rs := rs) hne)
    exact ⟨t, _, _, hexec, (Nat.div_add_mod' _ _).symm, Nat.mod_lt _ (Nat.pos_of_ne_zero hne), hwrite⟩
  case ddiv =>
    obtain ⟨heq, hlt, hsign⟩ := tdiv_tmod_spec (s.s64 rs) (mt toInt_eq_zero_iff.1 hne)
    exact ⟨_, _, heq, hlt, hsign, exec_ddiv_of_ne hne⟩
  case ddivu =>
    exact ⟨_, _, (Nat.div_add_mod' _ _).symm, Nat.mod_lt _ (Nat.pos_of_ne_zero hne), exec_ddivu_of_ne hne⟩
  case div0 | ddiv0 => exact exec_drawHiLo (if_pos (toInt_eq_zero_iff.2 hzero))
  case divu0 | ddivu0 => exact exec_drawHiLo (if_pos hzero)

/-- Settles O27: each is one write, of the register named. -/
theorem hiLoMoves : Obligations.HiLoMoves := by
  refine ⟨specialWords_of_row, specialWords_of_row, specialWords_of_row, specialWords_of_row,
    fun s r => ⟨?mfhi, ?mflo, rfl, rfl⟩⟩
  case mfhi | mflo => exact exec_onlyGpr rfl rfl

end Sys2Proof.Machine
end

section
/-! SUPPORT. The branches and jumps of 44_branch.md: the words of a REGIMM row, the target of an offset as an integer
(00_scope.md R12), and a conditional branch as one `BranchOp`. -/
namespace Sys2Proof.Machine

/-- The words of a row of the `regimm` table (30_encoding.md R80); the row is read off the table unless it is given. -/
theorem regimmWords_of_row {sub : BitVec 5} {i : Word → Instr}
    (hrow : ∀ w, rtField w = sub → resolveRegimm w = .handler (i w) := by
      intro w hsub; simp [resolveRegimm, hsub]) :
    regimmWords sub i :=
  fun w hop hsub => decode_of_handler ((resolve_of_regimm hop).trans (hrow w hsub))

section
variable (offset : BitVec 16)

/-- `boff` is the sixteen bits as a signed value, times 4 (30_encoding.md R76). -/
theorem boff_eq_ofInt : boff offset = BitVec.ofInt 32 (4 * offset.toInt) := by
  have htoInt : (offset ++ 0#2).toInt = 4 * offset.toInt := BitVec.toInt_append.trans (by simp)
  exact congrArg (BitVec.ofInt 32) htoInt

theorem State.branchTarget_eq_offsetTarget (s : State) : s.branchTarget offset = s.offsetTarget offset := by
  simp [State.branchTarget, State.offsetTarget, boff_eq_ofInt, BitVec.ofInt_add]

end

/-- A conditional branch: one `BranchOp` on its condition and its offset. -/
theorem State.branches_of_offset {s : State} {i : Instr} {P : Prop} [Decidable P] {offset : BitVec 16}
    (likely : Bool) {link : Option Reg}
    (hi : exec i s = (branchOp (decide P) (s.branchTarget offset) likely link s).outcome) :
    s.branches i P (s.offsetTarget offset) (if likely then .jump else .delaySlot) link :=
  State.branches_of (s.branchTarget_eq_offsetTarget offset ▸ hi) decide_eq_true_iff

/-! ## The instructions of 44_branch.md -/

/-- Settles O28: each is one `BranchOp` that is always taken. -/
theorem jumps : Obligations.Jumps := by
  refine ⟨primaryWords_of_row, primaryWords_of_row, specialWords_of_row, specialWords_of_row,
    fun s target rd rs => ⟨?j, ?jal, ?jr, ?jalr⟩⟩
  case j | jal | jr | jalr => exact State.branches_of (likely := false) rfl (iff_of_true rfl trivial)

/-- Settles O29: each is one `BranchOp` that leaves the delay slot to run when not taken. -/
theorem ordinaryBranches : Obligations.OrdinaryBranches := by
  refine ⟨primaryWords_of_row, primaryWords_of_row, primaryWords_of_row, primaryWords_of_row, regimmWords_of_row,
    regimmWords_of_row, fun s rs rt offset => ⟨?beq, ?bne, ?blez, ?bgtz, ?bltz, ?bgez⟩⟩
  case beq | bne | blez | bgtz | bltz | bgez => exact State.branches_of_offset false rfl

/-- Settles O30: each is one `BranchOp` that annuls the delay slot when not taken. -/
theorem likelyBranches : Obligations.LikelyBranches := by
  refine ⟨primaryWords_of_row, primaryWords_of_row, primaryWords_of_row, primaryWords_of_row, regimmWords_of_row,
    regimmWords_of_row, fun s rs rt offset => ⟨?beql, ?bnel, ?blezl, ?bgtzl, ?bltzl, ?bgezl⟩⟩
  case beql | bnel | blezl | bgtzl | bltzl | bgezl => exact State.branches_of_offset true rfl

/-- Settles O31: each is one `BranchOp` with link register 31; its condition is read before the link is written. -/
theorem linkBranches : Obligations.LinkBranches := by
  refine ⟨regimmWords_of_row, regimmWords_of_row, regimmWords_of_row, regimmWords_of_row,
    fun s rs offset => ⟨?bltzal, ?bgezal, ?bltzall, ?bgezall⟩⟩
  case bltzal | bgezal => exact State.branches_of_offset false rfl
  case bltzall | bgezall => exact State.branches_of_offset true rfl

end Sys2Proof.Machine
end

section
/-! SUPPORT. The loads and stores of 45_loadstore.md that complete: the effective address as an integer, the bytes a
load reads, and each handler as the write of one register or one store after the calls it makes (R198 to R200, R202). -/
namespace Sys2Proof.Machine

/-! ## The effective address (R198) -/

theorem low32_ofInt (n : Int) : low32 (BitVec.ofInt 64 n) = BitVec.ofInt 32 n := by
  apply BitVec.eq_of_toNat_eq
  rw [BitVec.toNat_setWidth, BitVec.toNat_ofInt, BitVec.toNat_ofInt]
  omega

theorem State.effectiveAddress_eq_ofInt (s : State) (base : Reg) (offset : BitVec 16) :
    s.effectiveAddress base offset = BitVec.ofInt 32 (s.s64 base + offset.toInt) :=
  (congrArg low32 (add_simm64_eq offset _)).trans (low32_ofInt _)

/-! ## The bytes a load reads (20_memory.md R56) -/

section
variable (s : State) (pa : Word)

theorem State.byte_readSize : (s.mem.readSize pa .b1).setWidth 8 = s.byteAt pa 0 := by
  rw [Memory.readSize_b1, BitVec.setWidth_setWidth_of_le _ (by decide), BitVec.setWidth_eq]
  rfl

theorem State.half_readSize (hfit : pa.toNat + 2 ≤ 2 ^ 32) :
    (s.mem.readSize pa .b2).setWidth 16 = s.byteAt pa 0 ++ s.byteAt pa 1 := by
  rw [Memory.readSize_b2 _ _ hfit, BitVec.setWidth_setWidth_of_le _ (by decide), BitVec.setWidth_eq]
  rfl

end

/-! ## Whole loads (R199, R205 to R211, R216, R217) -/

theorem State.writeGpr_setLlbit (s : State) (r : Reg) (v : Dword) (b : Bool) :
    { s.writeGpr r v with llbit := b } = State.writeGpr { s with llbit := b } r v := by
  unfold State.writeGpr
  split <;> rfl

section
variable {s : State} {i : Instr} {rt base : Reg} {offset : BitVec 16} {n : Size} {ext : Dword → Dword} {ea pa : Word}
  {v : Dword}

/-- An aligned load that completes writes one register, after the two calls of its read (45_loadstore.md R199). -/
theorem exec_load_onlyGpr (hexec : exec i s = (loadOp n ext rt offset base s).outcome) (hs : s.silent)
    (he : s.effectiveAddress base offset = ea) (ha : ea.toNat % n.bytes = 0)
    (ht : translateAddress s.mmu ea .load = some pa) (hd : isDevice s.cfg pa = false)
    (hv : ext (s.mem.readSize pa n) = v) :
    ∃ t, exec i s = .next t ∧ (s.afterRead ea pa n).onlyGpr t rt v := by
  rw [hexec, loadOp_silent hs he ha ht hd, hv]
  exact ⟨_, rfl, State.onlyGpr_writeGpr _ rt v⟩

/-- A linked load that completes also sets `llbit` (45_loadstore.md R216, R217). -/
theorem exec_linkedLoad_onlyGpr (hexec : exec i s = (linkedLoadOp n ext rt offset base s).outcome) (hs : s.silent)
    (he : s.effectiveAddress base offset = ea) (ha : ea.toNat % n.bytes = 0)
    (ht : translateAddress s.mmu ea .load = some pa) (hd : isDevice s.cfg pa = false)
    (hv : ext (s.mem.readSize pa n) = v) :
    ∃ t, exec i s = .next t ∧ State.onlyGpr { s.afterRead ea pa n with llbit := true } t rt v := by
  rw [hexec, linkedLoadOp, loadOp_silent hs he ha ht hd, hv, Res.bind_ok, State.writeGpr_setLlbit]
  exact ⟨_, rfl, State.onlyGpr_writeGpr _ rt v⟩

end

/-- Settles O37: each is one register write, of the bytes read and their extension. -/
theorem alignedLoads : Obligations.AlignedLoads := by
  refine ⟨primaryWords_of_row, primaryWords_of_row, primaryWords_of_row, primaryWords_of_row, primaryWords_of_row,
    primaryWords_of_row, primaryWords_of_row, State.effectiveAddress_eq_ofInt,
    fun s rt base offset ea pa hs he ht hd => ?_⟩
  have hfit : ∀ n : Size, ea.toNat % n.bytes = 0 → pa.toNat + n.bytes ≤ 2 ^ 32 :=
    fun n ha => (fits_of_translate n.bytes_cases ha ht).2
  refine ⟨?lb, ?lbu, fun ha => ⟨?lh, ?lhu⟩, fun ha => ⟨?lw, ?lwu⟩, fun ha => ?ld⟩
  case lb => exact exec_load_onlyGpr rfl hs he (Nat.mod_one _) ht hd (congrArg (·.signExtend 64) (s.byte_readSize pa))
  case lbu => exact exec_load_onlyGpr rfl hs he (Nat.mod_one _) ht hd (congrArg (·.setWidth 64) (s.byte_readSize pa))
  case lh => exact exec_load_onlyGpr rfl hs he ha ht hd (congrArg (·.signExtend 64) (s.half_readSize pa (hfit .b2 ha)))
  case lhu => exact exec_load_onlyGpr rfl hs he ha ht hd (congrArg (·.setWidth 64) (s.half_readSize pa (hfit .b2 ha)))
  case lw => exact exec_load_onlyGpr rfl hs he ha ht hd (congrArg sext64 (s.low32_readSize pa (hfit .b4 ha)))
  case lwu => exact exec_load_onlyGpr rfl hs he ha ht hd (congrArg (·.setWidth 64) (s.low32_readSize pa (hfit .b4 ha)))
  case ld => exact exec_load_onlyGpr rfl hs he ha ht hd (s.readSize_b8 pa (hfit .b8 ha))

/-- Settles O40: each is the load, which writes one register, and then `llbit`. -/
theorem linkedLoads : Obligations.LinkedLoads := by
  refine ⟨primaryWords_of_row, primaryWords_of_row, fun s rt base offset ea pa hs he ht hd => ?_⟩
  have hfit : ∀ n : Size, ea.toNat % n.bytes = 0 → pa.toNat + n.bytes ≤ 2 ^ 32 :=
    fun n ha => (fits_of_translate n.bytes_cases ha ht).2
  refine ⟨fun ha => ?ll, fun ha => ?lld⟩
  case ll =>
    exact exec_linkedLoad_onlyGpr rfl hs he ha ht hd (congrArg sext64 (s.low32_readSize pa (hfit .b4 ha)))
  case lld => exact exec_linkedLoad_onlyGpr rfl hs he ha ht hd (s.readSize_b8 pa (hfit .b8 ha))

/-! ## Whole stores (R200, R218 to R221) -/

/-- An aligned store that completes (45_loadstore.md R200). -/
theorem exec_store_storedOnly {s : State} {i : Instr} {rt base : Reg} {offset : BitVec 16} {n : Size} {ea pa : Word}
    (hexec : exec i s = (storeOp n rt offset base s).outcome) (hs : s.silent) (hw : s.wf = true)
    (he : s.effectiveAddress base offset = ea) (ha : ea.toNat % n.bytes = 0)
    (ht : translateAddress s.mmu ea .store = some pa) (hd : isDevice s.cfg pa = false) :
    ∃ t, exec i s = .next t ∧ s.storedOnly t ea pa n (s.gpr rt) := by
  obtain ⟨t, hop, hstored⟩ := storeOp_silent (rt := rt) hs hw he ha ht hd
  exact ⟨t, hexec.trans (congrArg Res.outcome hop), hstored⟩

/-- Settles O41: each is one store of the register. -/
theorem alignedStores : Obligations.AlignedStores := by
  refine ⟨primaryWords_of_row, primaryWords_of_row, primaryWords_of_row, primaryWords_of_row,
    fun s rt base offset ea pa hs hw he ht hd => ⟨?sb, fun ha => ?sh, fun ha => ?sw, fun ha => ?sd⟩⟩
  case sb => exact exec_store_storedOnly rfl hs hw he (Nat.mod_one _) ht hd
  case sh | sw | sd => exact exec_store_storedOnly rfl hs hw he ha ht hd

/-! ## Conditional stores (R226, R227) -/

section
variable {s : State} {i : Instr} {rt base : Reg} {offset : BitVec 16} {n : Size} {ea pa : Word}

/-- While `llbit` is 0, a conditional store writes 0 to `x[rt]` and makes no access. -/
theorem exec_conditionalStore_unlinked (hexec : exec i s = (conditionalStoreOp n rt offset base s).outcome)
    (he : s.effectiveAddress base offset = ea) (hl : s.llbit = false) (ha : ea.toNat % n.bytes = 0) :
    ∃ t, exec i s = .next t ∧ s.onlyGpr t rt 0#64 := by
  rw [hexec, conditionalStoreOp, he, checkAligned_ok (misaligned_of_mod ha), if_neg (by simp [hl])]
  exact ⟨_, rfl, State.onlyGpr_writeGpr s rt _⟩

/-- While `llbit` is 1, it stores and then writes 1. -/
theorem exec_conditionalStore_linked (hexec : exec i s = (conditionalStoreOp n rt offset base s).outcome)
    (he : s.effectiveAddress base offset = ea) (hl : s.llbit = true) (hs : s.silent) (hw : s.wf = true)
    (ha : ea.toNat % n.bytes = 0) (ht : translateAddress s.mmu ea .store = some pa) (hd : isDevice s.cfg pa = false) :
    ∃ u t, exec i s = .next t ∧ s.storedOnly u ea pa n (s.gpr rt) ∧ u.onlyGpr t rt 1#64 := by
  obtain ⟨u, hop, hstored⟩ := storeOp_silent (rt := rt) hs hw he ha ht hd
  rw [hexec, conditionalStoreOp_linked hl he ha, hop, Res.bind_ok]
  exact ⟨u, _, rfl, hstored, State.onlyGpr_writeGpr u rt _⟩

end

/-- Settles O44: the two cases of `llbit`. -/
theorem conditionalStores : Obligations.ConditionalStores := by
  refine ⟨primaryWords_of_row, primaryWords_of_row, fun s rt base offset ea he =>
    ⟨fun hl => ⟨fun ha => ?sc0, fun ha => ?scd0⟩, fun pa hl hs hw ht hd => ⟨fun ha => ?sc1, fun ha => ?scd1⟩⟩⟩
  case sc0 | scd0 => exact exec_conditionalStore_unlinked rfl he hl ha
  case sc1 | scd1 => exact exec_conditionalStore_linked rfl he hl hs hw ha ht hd

/-! ## Partial loads (R202, R203, R212 to R215) -/

section
variable {s : State} {k : Nat} (v : Word)

theorem extendLwr_signExtend (h : s.cfg.lwrUpper = .signExtend ∨ k = 3) :
    extendLwr k v s = (sext64 v, s) := by
  unfold extendLwr
  refine if_neg fun ⟨hdraw, hk⟩ => ?_
  rcases h with h | h
  · cases h.symm.trans hdraw
  · exact hk h

theorem extendLwr_draw (h : s.cfg.lwrUpper = .draw) (hk : k ≠ 3) :
    extendLwr k v s = (s.draw.1.extractLsb' 32 32 ++ v, s.draw.2) :=
  if_pos ⟨h, hk⟩

/-- The write of LWR: the sign extension, or with `P_LWR_UPPER = Draw` and `k` in 0 to 2 a free high half (R203). -/
theorem onlyGpr_writeGpr_extendLwr (rt : Reg) :
    (s.cfg.lwrUpper = .signExtend ∨ k = 3 →
      s.onlyGpr ((extendLwr k v s).2.writeGpr rt (extendLwr k v s).1) rt (sext64 v)) ∧
    (s.cfg.lwrUpper = .draw → k ≠ 3 → ∃ high : Word, State.onlyGpr { s with draws := s.draws + 1 }
      ((extendLwr k v s).2.writeGpr rt (extendLwr k v s).1) rt (high ++ v)) := by
  refine ⟨fun h => ?_, fun h hk => ⟨s.draw.1.extractLsb' 32 32, ?_⟩⟩
  · rw [extendLwr_signExtend v h]
    exact State.onlyGpr_writeGpr s rt _
  · rw [extendLwr_draw v h hk]
    exact State.onlyGpr_writeGpr s.draw.2 rt _

end

section
variable {s : State} {i : Instr} {rt base : Reg} {offset : BitVec 16} {ea pa : Word} (hs : s.silent)
  (he : s.effectiveAddress base offset = ea) (hd : isDevice s.cfg pa = false)
include hs he hd

theorem exec_lwl {v : Word} (ht : translateAddress s.mmu (alignedWord ea) .load = some pa)
    (hv : lwlMerge (wordOffset ea) (s.wordAt pa) (low32 (s.gpr rt)) = v) :
    ∃ t, exec (.lwl rt offset base) s = .next t ∧ (s.afterRead (alignedWord ea) pa .b4).onlyGpr t rt (sext64 v) :=
  ⟨_, congrArg Res.outcome (partialLoadWord_silent hs he ht hd), hv ▸ State.onlyGpr_writeGpr _ rt _⟩

theorem exec_lwr {v : Word} (ht : translateAddress s.mmu (alignedWord ea) .load = some pa)
    (hv : lwrMerge (wordOffset ea) (s.wordAt pa) (low32 (s.gpr rt)) = v) :
    ∃ t, exec (.lwr rt offset base) s = .next t ∧
      (s.cfg.lwrUpper = .signExtend ∨ wordOffset ea = 3 →
        (s.afterRead (alignedWord ea) pa .b4).onlyGpr t rt (sext64 v)) ∧
      (s.cfg.lwrUpper = .draw → wordOffset ea ≠ 3 → ∃ high : Word,
        State.onlyGpr { s.afterRead (alignedWord ea) pa .b4 with draws := s.draws + 1 } t rt (high ++ v)) := by
  subst hv
  exact ⟨_, congrArg Res.outcome (partialLoadWord_silent hs he ht hd),
    onlyGpr_writeGpr_extendLwr (s := s.afterRead (alignedWord ea) pa .b4) _ rt⟩

theorem exec_partialLoadDoubleword {merge : Nat → Dword → Dword → Dword} {v : Dword}
    (hexec : exec i s = (partialLoadDoubleword merge rt offset base s).outcome)
    (ht : translateAddress s.mmu (alignedDoubleword ea) .load = some pa)
    (hv : merge (doublewordOffset ea) (s.dwordAt pa) (s.gpr rt) = v) :
    ∃ t, exec i s = .next t ∧ (s.afterRead (alignedDoubleword ea) pa .b8).onlyGpr t rt v :=
  ⟨_, hexec.trans (congrArg Res.outcome (partialLoadDoubleword_silent hs he ht hd)),
    hv ▸ State.onlyGpr_writeGpr _ rt _⟩

end

theorem wordOffset_lt (ea : Word) : wordOffset ea < 4 := Nat.mod_lt _ (by decide)

theorem doublewordOffset_lt (ea : Word) : doublewordOffset ea < 8 := Nat.mod_lt _ (by decide)

/-- Settles O38: each writes the merge of the unit and the register, whose table is a shift and a mask of `k`. -/
theorem partialLoads : Obligations.PartialLoads := by
  refine ⟨primaryWords_of_row, primaryWords_of_row, primaryWords_of_row, primaryWords_of_row,
    fun s rt base offset ea pa k hs he hd => ⟨fun hk ht => ⟨_, rfl, ?lwl, ?lwr⟩, fun hk ht => ⟨_, rfl, ?ldl, ?ldr⟩⟩⟩
  all_goals subst hk
  case lwl => exact exec_lwl hs he hd ht (lwlMerge_eq (wordOffset_lt ea) _ _)
  case lwr =>
    obtain ⟨t, hexec, hwrites⟩ := exec_lwr hs he hd ht (lwrMerge_eq (wordOffset_lt ea) _ _)
    exact ⟨t, _, hexec, rfl, hwrites⟩
  case ldl => exact exec_partialLoadDoubleword hs he hd rfl ht (ldlMerge_eq (doublewordOffset_lt ea) _ _)
  case ldr => exact exec_partialLoadDoubleword hs he hd rfl ht (ldrMerge_eq (doublewordOffset_lt ea) _ _)

/-! ## Partial stores (R202, R222 to R225) -/

section
variable {s : State} {i : Instr} {rt base : Reg} {offset : BitVec 16} {ea pa qa : Word} (hs : s.silent)
  (hw : s.wf = true) (he : s.effectiveAddress base offset = ea) (hd : isDevice s.cfg pa = false)
  (hd' : isDevice s.cfg qa = false)
include hs hw he hd hd'

theorem exec_partialStoreWord {merge : Nat → Word → Word → Word} {v : Word}
    (hexec : exec i s = (partialStoreWord merge rt offset base s).outcome)
    (ht : translateAddress s.mmu (alignedWord ea) .load = some pa)
    (ht' : translateAddress s.mmu (alignedWord ea) .store = some qa)
    (hv : merge (wordOffset ea) (s.wordAt pa) (low32 (s.gpr rt)) = v) :
    ∃ t, exec i s = .next t ∧
      (s.afterRead (alignedWord ea) pa .b4).storedOnly t (alignedWord ea) qa .b4 (v.setWidth 64) := by
  obtain ⟨t, hop, hstored⟩ := partialStoreWord_silent (rt := rt) (merge := merge) hs hw he ht hd ht' hd'
  exact ⟨t, hexec.trans (congrArg Res.outcome hop), hv ▸ hstored⟩

theorem exec_partialStoreDoubleword {merge : Nat → Dword → Dword → Dword} {v : Dword}
    (hexec : exec i s = (partialStoreDoubleword merge rt offset base s).outcome)
    (ht : translateAddress s.mmu (alignedDoubleword ea) .load = some pa)
    (ht' : translateAddress s.mmu (alignedDoubleword ea) .store = some qa)
    (hv : merge (doublewordOffset ea) (s.dwordAt pa) (s.gpr rt) = v) :
    ∃ t, exec i s = .next t ∧
      (s.afterRead (alignedDoubleword ea) pa .b8).storedOnly t (alignedDoubleword ea) qa .b8 v := by
  obtain ⟨t, hop, hstored⟩ := partialStoreDoubleword_silent (rt := rt) (merge := merge) hs hw he ht hd ht' hd'
  exact ⟨t, hexec.trans (congrArg Res.outcome hop), hv ▸ hstored⟩

end

/-- Settles O42: each reads the unit and stores its merge with the register, whose table is a shift and a mask of
`k`. -/
theorem partialStores : Obligations.PartialStores := by
  refine ⟨primaryWords_of_row, primaryWords_of_row, primaryWords_of_row, primaryWords_of_row,
    fun s rt base offset ea unit pa qa k hs hw he hunit ht hd ht' hd' =>
      ⟨fun hk => ⟨_, rfl, ?swl, ?swr⟩, fun hk => ⟨_, rfl, ?sdl, ?sdr⟩⟩⟩
  all_goals subst hk hunit
  case swl => exact exec_partialStoreWord hs hw he hd hd' rfl ht ht' (swlMerge_eq (wordOffset_lt ea) _ _)
  case swr => exact exec_partialStoreWord hs hw he hd hd' rfl ht ht' (swrMerge_eq (wordOffset_lt ea) _ _)
  case sdl => exact exec_partialStoreDoubleword hs hw he hd hd' rfl ht ht' (sdlMerge_eq (doublewordOffset_lt ea) _ _)
  case sdr => exact exec_partialStoreDoubleword hs hw he hd hd' rfl ht ht' (sdrMerge_eq (doublewordOffset_lt ea) _ _)

end Sys2Proof.Machine
end

section
/-! SUPPORT. The pairs of partial accesses to one unaligned unit (45_loadstore.md R202): a partial access in the bytes
of its unit and of its register, and how the two units of a pair share the bytes of the unaligned one. -/
namespace Sys2Proof.Machine

/-! ## The merges, bit by bit -/

section
variable {w : Nat} (n : Nat) (a b : BitVec w)

/-- `a` moved up by `n` bits, and below it the low `n` bits of `b`. -/
def mergeUp : BitVec w := (a <<< n) ||| (b &&& ((1#w <<< n) - 1#w))

/-- `a` moved down by `n` bits, and above it the high `n` bits of `b`. -/
def mergeDown : BitVec w := (a >>> n) ||| (b &&& ~~~(BitVec.allOnes w >>> n))

end

section
variable {k : Nat}

theorem lwlMerge_eq_mergeUp (hk : k < 4) (unit old : Word) : lwlMerge k unit old = mergeUp (8 * k) unit old :=
  lwlMerge_eq hk unit old

theorem lwrMerge_eq_mergeDown (hk : k < 4) (unit old : Word) :
    lwrMerge k unit old = mergeDown (8 * (3 - k)) unit old :=
  lwrMerge_eq hk unit old

theorem swlMerge_eq_mergeDown (hk : k < 4) (unit r : Word) : swlMerge k unit r = mergeDown (8 * k) r unit :=
  (swlMerge_eq hk unit r).trans (BitVec.or_comm _ _)

theorem swrMerge_eq_mergeUp (hk : k < 4) (unit r : Word) : swrMerge k unit r = mergeUp (8 * (3 - k)) r unit :=
  swrMerge_eq hk unit r

theorem ldlMerge_eq_mergeUp (hk : k < 8) (unit old : Dword) : ldlMerge k unit old = mergeUp (8 * k) unit old :=
  ldlMerge_eq hk unit old

theorem ldrMerge_eq_mergeDown (hk : k < 8) (unit old : Dword) :
    ldrMerge k unit old = mergeDown (8 * (7 - k)) unit old :=
  ldrMerge_eq hk unit old

theorem sdlMerge_eq_mergeDown (hk : k < 8) (unit r : Dword) : sdlMerge k unit r = mergeDown (8 * k) r unit :=
  (sdlMerge_eq hk unit r).trans (BitVec.or_comm _ _)

theorem sdrMerge_eq_mergeUp (hk : k < 8) (unit r : Dword) : sdrMerge k unit r = mergeUp (8 * (7 - k)) r unit :=
  sdrMerge_eq hk unit r

end

section
variable {w n i : Nat}

theorem toNat_lowMask (hn : n < w) : ((1#w <<< n) - 1#w).toNat = 2 ^ n - 1 := by
  have hone : 1 < 2 ^ w := Nat.one_lt_two_pow (by omega)
  have hlt : 2 ^ n < 2 ^ w := Nat.pow_lt_pow_right (by decide) hn
  have hpos : 0 < 2 ^ n := Nat.two_pow_pos n
  have hshift : (1#w <<< n).toNat = 2 ^ n := by
    rw [BitVec.toNat_shiftLeft, BitVec.toNat_ofNat, Nat.mod_eq_of_lt hone, Nat.shiftLeft_eq, Nat.one_mul,
      Nat.mod_eq_of_lt hlt]
  have honeNat : (1#w).toNat = 1 := Nat.mod_eq_of_lt hone
  rw [BitVec.toNat_sub_of_le (by rw [BitVec.le_def]; omega), hshift, honeNat]

theorem getLsbD_mergeUp (a b : BitVec w) (hn : n < w) (hi : i < w) :
    (mergeUp n a b).getLsbD i = if i < n then b.getLsbD i else a.getLsbD (i - n) := by
  have hmask : ((1#w <<< n) - 1#w).getLsbD i = decide (i < n) := by
    rw [BitVec.getLsbD, toNat_lowMask hn, Nat.testBit_two_pow_sub_one]
  simp only [mergeUp, BitVec.getLsbD_or, BitVec.getLsbD_shiftLeft, BitVec.getLsbD_and, hmask]
  by_cases h : i < n <;> simp [h, hi]

theorem getLsbD_mergeDown (a b : BitVec w) (hi : i < w) :
    (mergeDown n a b).getLsbD i = if n + i < w then a.getLsbD (n + i) else b.getLsbD i := by
  simp only [mergeDown, BitVec.getLsbD_or, BitVec.getLsbD_ushiftRight, BitVec.getLsbD_and, BitVec.getLsbD_not,
    BitVec.getLsbD_allOnes]
  by_cases h : n + i < w
  · simp [h]
  · simp [h, hi, BitVec.getLsbD_of_ge a (n + i) (by omega)]

end

/-! ## The bytes of a value (20_memory.md R56) -/

/-- Byte `j` of the low `count` bytes of a value, byte 0 the most significant. -/
def byteOf {w : Nat} (count : Nat) (v : BitVec w) (j : Nat) : Byte := (v >>> (8 * (count - 1 - j))).setWidth 8

theorem getLsbD_byteOf {w : Nat} (count : Nat) (v : BitVec w) (j i : Nat) :
    (byteOf count v j).getLsbD i = (decide (i < 8) && v.getLsbD (8 * (count - 1 - j) + i)) := by
  simp only [byteOf, BitVec.getLsbD_setWidth, BitVec.getLsbD_ushiftRight]

theorem byteOf_setWidth {w n : Nat} (count : Nat) (v : BitVec w) (j : Nat) (hn : w ≤ n) :
    byteOf count (v.setWidth n) j = byteOf count v j := by
  apply BitVec.eq_of_getLsbD_eq
  intro i hi
  rw [getLsbD_byteOf, getLsbD_byteOf, BitVec.getLsbD_setWidth]
  by_cases h : 8 * (count - 1 - j) + i < n
  · simp [h]
  · simp [h, BitVec.getLsbD_of_ge v _ (show w ≤ 8 * (count - 1 - j) + i by omega)]

section
variable {w count k j : Nat} (hw : w = 8 * count) {a b : BitVec w}
include hw

theorem byteOf_mergeUp (hk : k < count) (hj : j < count) :
    byteOf count (mergeUp (8 * k) a b) j = if k + j < count then byteOf count a (k + j) else byteOf count b j := by
  apply BitVec.eq_of_getLsbD_eq
  intro i hi
  rw [getLsbD_byteOf, getLsbD_mergeUp a b (by omega) (by omega), apply_ite (BitVec.getLsbD · i), getLsbD_byteOf,
    getLsbD_byteOf]
  by_cases h : k + j < count
  · rw [if_neg (by omega), if_pos h, show 8 * (count - 1 - j) + i - 8 * k = 8 * (count - 1 - (k + j)) + i by omega]
  · rw [if_pos (by omega), if_neg h]

theorem byteOf_mergeDown (hj : j < count) :
    byteOf count (mergeDown (8 * k) a b) j = if k ≤ j then byteOf count a (j - k) else byteOf count b j := by
  apply BitVec.eq_of_getLsbD_eq
  intro i hi
  rw [getLsbD_byteOf, getLsbD_mergeDown a b (by omega), apply_ite (BitVec.getLsbD · i), getLsbD_byteOf,
    getLsbD_byteOf]
  by_cases h : k ≤ j
  · rw [if_pos (by omega), if_pos h, show 8 * k + (8 * (count - 1 - j) + i) = 8 * (count - 1 - (j - k)) + i by omega]
  · rw [if_neg (by omega), if_neg h]

theorem eq_of_byteOf_eq (h : ∀ j, j < count → byteOf count a j = byteOf count b j) : a = b := by
  apply BitVec.eq_of_getLsbD_eq
  intro i hi
  have hbit := congrArg (BitVec.getLsbD · (i % 8)) (h (count - 1 - i / 8) (by omega))
  simp only [getLsbD_byteOf] at hbit
  rw [show 8 * (count - 1 - (count - 1 - i / 8)) + i % 8 = i by omega] at hbit
  simpa [Nat.mod_lt] using hbit

end

section
variable (b : Nat → Byte)

theorem byteOf_one (j : Nat) (hj : j < 1) : byteOf 1 (b 0) j = b j := by
  obtain rfl : j = 0 := by omega
  rfl

/-- A value that ends in one more byte. -/
theorem byteOf_append {w count : Nat} {a : BitVec w} (h : ∀ j, j < count → byteOf count a j = b j) (j : Nat)
    (hj : j < count + 1) : byteOf (count + 1) (a ++ b count) j = b j := by
  have hbits : byteOf (count + 1) (a ++ b count) j = if j < count then byteOf count a j else b count := by
    apply BitVec.eq_of_getLsbD_eq
    intro i hi
    rw [getLsbD_byteOf, apply_ite (BitVec.getLsbD · i), getLsbD_byteOf, BitVec.getLsbD_append]
    by_cases hjc : j < count
    · rw [if_neg (by omega), if_pos hjc, show 8 * (count + 1 - 1 - j) + i - 8 = 8 * (count - 1 - j) + i by omega]
    · rw [if_pos (by omega), if_neg hjc, show 8 * (count + 1 - 1 - j) + i = i by omega]
      simp [hi]
  rw [hbits]
  by_cases hjc : j < count
  · rw [if_pos hjc, h j hjc]
  · rw [if_neg hjc, show j = count by omega]

theorem byteOf_word : ∀ j, j < 4 → byteOf (w := 32) 4 (b 0 ++ b 1 ++ b 2 ++ b 3) j = b j :=
  byteOf_append b (byteOf_append b (byteOf_append b (byteOf_one b)))

theorem byteOf_dword : ∀ j, j < 8 →
    byteOf (w := 64) 8 (b 0 ++ b 1 ++ b 2 ++ b 3 ++ b 4 ++ b 5 ++ b 6 ++ b 7) j = b j :=
  byteOf_append b (byteOf_append b (byteOf_append b (byteOf_append b (byteOf_word b))))

end

section
variable (s : State) (pa : Word)

theorem State.byteOf_wordAt : ∀ j, j < 4 → byteOf 4 (s.wordAt pa) j = s.byteAt pa j := byteOf_word (s.byteAt pa)

theorem State.byteOf_dwordAt : ∀ j, j < 8 → byteOf 8 (s.dwordAt pa) j = s.byteAt pa j := byteOf_dword (s.byteAt pa)

end

/-! ## The two units of a pair -/

/-- The left access is at offset `k` in the unit at `pa`, the right one, `count - 1` bytes on, at offset `l` in the unit
at `qa`: in the same unit where `k` is 0, in the next one otherwise. -/
def PairOffsets (count k l : Nat) (pa qa : Word) : Prop := (k = 0 ∧ l + 1 = count ∧ qa = pa) ∨ l + 1 = k

section
variable {windows : List Window} {kind : AccessKind} {ea pa qa : Word}

theorem pairOffsets_word (ht : translateAddress windows (alignedWord ea) kind = some pa)
    (hq : translateAddress windows (alignedWord (ea + 3#32)) kind = some qa) :
    PairOffsets 4 (wordOffset ea) (wordOffset (ea + 3#32)) pa qa := by
  have hadd : (ea + 3#32).toNat = (ea.toNat + 3) % 2 ^ 32 := BitVec.toNat_add ea 3#32
  unfold PairOffsets wordOffset
  by_cases hk : ea.toNat % 4 = 0
  · have hsame : alignedWord (ea + 3#32) = alignedWord ea :=
      BitVec.eq_of_toNat_eq (by rw [alignedWord_toNat, alignedWord_toNat]; omega)
    rw [hsame] at hq
    exact .inl ⟨hk, by omega, Option.some.inj (hq.symm.trans ht)⟩
  · exact .inr (by omega)

theorem pairOffsets_doubleword (ht : translateAddress windows (alignedDoubleword ea) kind = some pa)
    (hq : translateAddress windows (alignedDoubleword (ea + 7#32)) kind = some qa) :
    PairOffsets 8 (doublewordOffset ea) (doublewordOffset (ea + 7#32)) pa qa := by
  have hadd : (ea + 7#32).toNat = (ea.toNat + 7) % 2 ^ 32 := BitVec.toNat_add ea 7#32
  unfold PairOffsets doublewordOffset
  by_cases hk : ea.toNat % 8 = 0
  · have hsame : alignedDoubleword (ea + 7#32) = alignedDoubleword ea :=
      BitVec.eq_of_toNat_eq (by rw [alignedDoubleword_toNat, alignedDoubleword_toNat]; omega)
    rw [hsame] at hq
    exact .inl ⟨hk, by omega, Option.some.inj (hq.symm.trans ht)⟩
  · exact .inr (by omega)

end

/-- What the second access of a pair finds as the first one did: the environment, the translation, memory after a
load, and every register that the first one does not write. -/
theorem exec_leaves {i : Instr} {s t : State} (hs : s.silent) (hexec : exec i s = .next t) :
    t.silent ∧ (s.wf = true → t.wf = true) ∧ t.cfg = s.cfg ∧ t.mmu = s.mmu ∧
      (¬ (instrGroup i).stores → t.mem = s.mem) ∧ ∀ q, destination i ≠ some q → t.gpr q = s.gpr q := by
  have hwithin := exec_within i hs t hexec
  obtain ⟨_, hnext, hkeeps⟩ := exec_keeps i s
  cases hexec.symm.trans hnext
  exact ⟨hkeeps.silent hs, hkeeps.wf, hkeeps.cfg, hwithin.mmu, hwithin.mem.resolve_right,
    fun q hq => (hwithin.gpr q).resolve_right fun h => hq h.1⟩

theorem State.effectiveAddress_congr {s t : State} {base : Reg} (h : t.gpr base = s.gpr base) (offset : BitVec 16) :
    t.effectiveAddress base offset = s.effectiveAddress base offset :=
  congrArg (fun x => low32 (x + simm64 offset)) h

/-! ## A pair of loads -/

/-- What a pair leaves in the register: each byte is of the right unit where the right access has loaded it, else of the
left unit. -/
theorem loadPair_eq {w count k l : Nat} {s : State} {pa qa : Word} {left right old v : BitVec w} {b : Nat → Byte}
    (hw : w = 8 * count) (hk : k < count) (hp : PairOffsets count k l pa qa)
    (hleft : ∀ j, j < count → byteOf count left j = s.byteAt pa j)
    (hright : ∀ j, j < count → byteOf count right j = s.byteAt qa j)
    (hb : ∀ j, j < count → b j = if k + j < count then s.byteAt pa (k + j) else s.byteAt qa (k + j - count))
    (hv : ∀ j, j < count → byteOf count v j = b j) :
    mergeDown (8 * (count - 1 - l)) right (mergeUp (8 * k) left old) = v := by
  refine eq_of_byteOf_eq hw fun j hj => ?_
  rw [hv j hj, hb j hj, byteOf_mergeDown hw hj]
  rcases hp with ⟨rfl, hl, rfl⟩ | hl
  · rw [if_pos (by omega), if_pos (by omega), hright _ (by omega)]
    exact congrArg (s.byteAt qa) (by omega)
  · by_cases h : k + j < count
    · rw [if_neg (by omega), if_pos h, byteOf_mergeUp hw hk hj, if_pos h, hleft _ h]
    · rw [if_pos (by omega), if_neg h, hright _ (by omega)]
      exact congrArg (s.byteAt qa) (by omega)

theorem State.gpr_of_onlyGpr {s t : State} {r : Reg} {v : Dword} (h : s.onlyGpr t r v) (hr : r ≠ 0#5) : t.gpr r = v :=
  (h.1 r).trans (if_pos ⟨rfl, hr⟩)

theorem low32_sext64 (v : Word) : low32 (v.signExtend 64) = v := by
  apply BitVec.eq_of_getLsbD_eq
  intro i hi
  simp [BitVec.getElem_signExtend, hi, show i < 64 by omega]

/-- What LWR leaves in a register that is not r0, with either `P_LWR_UPPER` (45_loadstore.md R203). -/
theorem exec_lwr_gpr {s : State} {rt base : Reg} {offset : BitVec 16} {ea pa v : Word} (hrt : rt ≠ 0#5) (hs : s.silent)
    (he : s.effectiveAddress base offset = ea) (hd : isDevice s.cfg pa = false)
    (ht : translateAddress s.mmu (alignedWord ea) .load = some pa)
    (hv : lwrMerge (wordOffset ea) (s.wordAt pa) (low32 (s.gpr rt)) = v) :
    ∃ t, exec (.lwr rt offset base) s = .next t ∧ low32 (t.gpr rt) = v ∧
      (s.cfg.lwrUpper = .signExtend → t.gpr rt = sext64 v) := by
  obtain ⟨t, hexec, hsign, hdraw⟩ := exec_lwr hs he hd ht hv
  refine ⟨t, hexec, ?_, fun h => State.gpr_of_onlyGpr (hsign (.inl h)) hrt⟩
  by_cases h : s.cfg.lwrUpper = .signExtend ∨ wordOffset ea = 3
  · rw [State.gpr_of_onlyGpr (hsign h) hrt, low32_sext64]
  · obtain ⟨hupper, hk⟩ := not_or.1 h
    have hfree : s.cfg.lwrUpper = .draw := by
      cases hc : s.cfg.lwrUpper with
      | signExtend => exact absurd hc hupper
      | draw => rfl
    obtain ⟨high, hhigh⟩ := hdraw hfree hk
    rw [State.gpr_of_onlyGpr hhigh hrt]
    exact BitVec.setWidth_append_eq_right

theorem State.byteAt_congr {s t : State} (h : t.mem = s.mem) (pa : Word) (k : Nat) : t.byteAt pa k = s.byteAt pa k :=
  congrArg (Memory.read · (pa.toNat + k)) h

/-- Settles O39: byte by byte, the right load keeps what the left one has loaded and replaces the rest. -/
theorem unalignedLoadPairs : Obligations.UnalignedLoadPairs := by
  have notStore : ¬ InstrGroup.stores .load := by simp [InstrGroup.stores]
  constructor
  case left =>
    intro s t u rt base left right ea pa qa b hs hbase hrt hl hr ht hd hq hd' hb hx hy
    obtain ⟨hsilent, -, hcfg, hmmu, hmem, hgpr⟩ := exec_leaves hs hx
    have hr' := (State.effectiveAddress_congr (hgpr base fun h => hbase (Option.some.inj h)) right).trans hr
    obtain ⟨_, hx', hleft⟩ := exec_lwl (rt := rt) hs hl hd ht (lwlMerge_eq_mergeUp (wordOffset_lt ea) _ _)
    cases hx.symm.trans hx'
    have hpair : lwrMerge (wordOffset (ea + 3#32)) (t.wordAt qa) (low32 (t.gpr rt)) = b 0 ++ b 1 ++ b 2 ++ b 3 := by
      rw [lwrMerge_eq_mergeDown (wordOffset_lt _), State.gpr_of_onlyGpr hleft hrt, low32_sext64]
      exact loadPair_eq rfl (wordOffset_lt ea) (pairOffsets_word ht hq) (s.byteOf_wordAt pa)
        (fun j hj => (t.byteOf_wordAt qa j hj).trans (State.byteAt_congr (hmem notStore) qa j)) hb (byteOf_word b)
    rw [← hmmu] at hq
    rw [← hcfg] at hd' ⊢
    obtain ⟨_, hy', hlow, hsign⟩ := exec_lwr_gpr hrt hsilent hr' hd' hq hpair
    cases hy.symm.trans hy'
    exact ⟨hlow, hsign⟩
  case right =>
    intro s t u rt base left right ea pa qa b hs hbase hrt hl hr ht hd hq hd' hb hx hy
    obtain ⟨hsilent, -, hcfg, hmmu, hmem, hgpr⟩ := exec_leaves hs hx
    have hr' := (State.effectiveAddress_congr (hgpr base fun h => hbase (Option.some.inj h)) right).trans hr
    obtain ⟨_, hx', hleft⟩ :=
      exec_partialLoadDoubleword (i := .ldl rt left base) hs hl hd rfl ht
        (ldlMerge_eq_mergeUp (doublewordOffset_lt ea) _ _)
    cases hx.symm.trans hx'
    have hpair : ldrMerge (doublewordOffset (ea + 7#32)) (t.dwordAt qa) (t.gpr rt) =
        b 0 ++ b 1 ++ b 2 ++ b 3 ++ b 4 ++ b 5 ++ b 6 ++ b 7 := by
      rw [ldrMerge_eq_mergeDown (doublewordOffset_lt _), State.gpr_of_onlyGpr hleft hrt]
      exact loadPair_eq rfl (doublewordOffset_lt ea) (pairOffsets_doubleword ht hq) (s.byteOf_dwordAt pa)
        (fun j hj => (t.byteOf_dwordAt qa j hj).trans (State.byteAt_congr (hmem notStore) qa j)) hb (byteOf_dword b)
    rw [← hmmu] at hq
    rw [← hcfg] at hd'
    obtain ⟨_, hy', hright⟩ :=
      exec_partialLoadDoubleword (i := .ldr rt right base) hsilent hr' hd' rfl hq hpair
    cases hy.symm.trans hy'
    exact State.gpr_of_onlyGpr hright hrt

/-! ## A pair of stores -/

/-- The bytes from address `lo` up to `hi` are those of `r` from number `first` on, and every other byte is as it
was. -/
def Memory.spliced (m m' : Memory) (lo hi first : Nat) (r : Nat → Byte) : Prop :=
  ∀ a, m'.read a = if lo ≤ a ∧ a < hi then r (a - lo + first) else m.read a

section
variable {m m' : Memory} {pa : Word} {count : Nat}

/-- A unit written back whole, of which only a part was changed. -/
theorem Memory.spliced_of_stored {v : Dword} {lo hi first : Nat} {r : Nat → Byte} (h : m.stored m' pa count v)
    (hhi : hi ≤ count)
    (hv : ∀ j, j < count →
      byteOf count v j = if lo ≤ j ∧ j < hi then r (j - lo + first) else m.read (pa.toNat + j)) :
    m.spliced m' (pa.toNat + lo) (pa.toNat + hi) first r := by
  intro a
  by_cases hin : pa.toNat ≤ a ∧ a < pa.toNat + count
  · obtain ⟨j, rfl⟩ := Nat.exists_eq_add_of_le hin.1
    refine (h.1 j (by omega)).trans ((hv j (by omega)).trans ?_)
    by_cases hj : lo ≤ j ∧ j < hi
    · rw [if_pos hj, if_pos (by omega), Nat.add_sub_add_left]
    · rw [if_neg hj, if_neg (by omega)]
  · rw [h.2 a (by omega), if_neg (by omega)]

variable {w : Nat} {r unit : BitVec w} {k : Nat} (hw : w = 8 * count) (hle : w ≤ 64)
  (hunit : ∀ j, j < count → byteOf count unit j = m.read (pa.toNat + j))
include hw hle hunit

/-- The left store: the first bytes of the register, from offset `k` to the end of the unit. -/
theorem Memory.spliced_left (h : m.stored m' pa count ((mergeDown (8 * k) r unit).setWidth 64)) :
    m.spliced m' (pa.toNat + k) (pa.toNat + count) 0 (byteOf count r) := by
  refine Memory.spliced_of_stored h (Nat.le_refl count) fun j hj => ?_
  rw [byteOf_setWidth count _ j hle, byteOf_mergeDown hw hj, hunit j hj]
  exact if_congr (by omega) rfl rfl

/-- The right store: the last bytes of the register, from the start of the unit to offset `k`. -/
theorem Memory.spliced_right (hk : k < count)
    (h : m.stored m' pa count ((mergeUp (8 * (count - 1 - k)) r unit).setWidth 64)) :
    m.spliced m' pa.toNat (pa.toNat + (k + 1)) (count - 1 - k) (byteOf count r) := by
  refine Memory.spliced_of_stored (lo := 0) h hk fun j hj => ?_
  rw [byteOf_setWidth count _ j hle, byteOf_mergeUp hw (by omega) hj, hunit j hj]
  exact if_congr (by omega) (congrArg (byteOf count r) (by omega)) rfl

end

/-- The two parts that a pair writes are the bytes of the unaligned unit, in one unit or in two that share no byte. -/
theorem Memory.read_splicedPair {m m₁ m₂ : Memory} {pa qa : Word} {count k l : Nat} {r : Nat → Byte} {at_ : Nat → Nat}
    (hk : k < count) (hp : PairOffsets count k l pa qa)
    (hsep : qa.toNat = pa.toNat ∨ pa.toNat + count ≤ qa.toNat ∨ qa.toNat + count ≤ pa.toNat)
    (h₁ : m.spliced m₁ (pa.toNat + k) (pa.toNat + count) 0 r)
    (h₂ : m₁.spliced m₂ qa.toNat (qa.toNat + (l + 1)) (count - 1 - l) r)
    (hat : ∀ j, at_ j = if k + j < count then pa.toNat + (k + j) else qa.toNat + (k + j - count)) :
    (∀ j, j < count → m₂.read (at_ j) = r j) ∧ ∀ a, (∀ j, j < count → a ≠ at_ j) → m₂.read a = m.read a := by
  have hoffsets : (k = 0 ∧ l + 1 = count ∧ qa.toNat = pa.toNat) ∨ l + 1 = k :=
    hp.imp_left fun ⟨hk0, hl, hqa⟩ => ⟨hk0, hl, congrArg BitVec.toNat hqa⟩
  refine ⟨fun j hj => ?_, fun a ha => ?_⟩
  · rw [h₂, h₁, hat j]
    by_cases hunit : k + j < count
    · rw [if_pos hunit]
      by_cases hright : qa.toNat ≤ pa.toNat + (k + j) ∧ pa.toNat + (k + j) < qa.toNat + (l + 1)
      · rw [if_pos hright]
        exact congrArg r (by omega)
      · rw [if_neg hright, if_pos (by omega)]
        exact congrArg r (by omega)
    · rw [if_neg hunit, if_pos (by omega)]
      exact congrArg r (by omega)
  · have hright : ¬ (qa.toNat ≤ a ∧ a < qa.toNat + (l + 1)) := by
      intro h
      refine ha (a - qa.toNat + (count - 1 - l)) (by omega) ?_
      rw [hat]
      split <;> omega
    have hleft : ¬ (pa.toNat + k ≤ a ∧ a < pa.toNat + count) := by
      intro h
      refine ha (a - pa.toNat - k) (by omega) ?_
      rw [hat, if_pos (by omega)]
      omega
    rw [h₂, if_neg hright, h₁, if_neg hleft]

section
variable {s t : State} {rt base : Reg} {offset : BitVec 16} {ea pa : Word} (hs : s.silent) (hw : s.wf = true)
  (he : s.effectiveAddress base offset = ea) (hd : isDevice s.cfg pa = false)
include hs hw he hd

section
variable (ht : translateAddress s.mmu (alignedWord ea) .load = some pa)
  (ht' : translateAddress s.mmu (alignedWord ea) .store = some pa)
include ht ht'

theorem exec_swl_spliced (hexec : exec (.swl rt offset base) s = .next t) :
    s.mem.spliced t.mem (pa.toNat + wordOffset ea) (pa.toNat + 4) 0 (byteOf 4 (low32 (s.gpr rt))) := by
  obtain ⟨_, hnext, hstored, -⟩ := exec_partialStoreWord (i := .swl rt offset base) hs hw he hd hd rfl ht ht'
    (swlMerge_eq_mergeDown (wordOffset_lt ea) _ _)
  cases hexec.symm.trans hnext
  exact Memory.spliced_left rfl (by decide) (s.byteOf_wordAt pa) hstored

theorem exec_swr_spliced (hexec : exec (.swr rt offset base) s = .next t) :
    s.mem.spliced t.mem pa.toNat (pa.toNat + (wordOffset ea + 1)) (3 - wordOffset ea)
      (byteOf 4 (low32 (s.gpr rt))) := by
  obtain ⟨_, hnext, hstored, -⟩ := exec_partialStoreWord (i := .swr rt offset base) hs hw he hd hd rfl ht ht'
    (swrMerge_eq_mergeUp (wordOffset_lt ea) _ _)
  cases hexec.symm.trans hnext
  exact Memory.spliced_right rfl (by decide) (s.byteOf_wordAt pa) (wordOffset_lt ea) hstored

end

section
variable (ht : translateAddress s.mmu (alignedDoubleword ea) .load = some pa)
  (ht' : translateAddress s.mmu (alignedDoubleword ea) .store = some pa)
include ht ht'

theorem exec_sdl_spliced (hexec : exec (.sdl rt offset base) s = .next t) :
    s.mem.spliced t.mem (pa.toNat + doublewordOffset ea) (pa.toNat + 8) 0 (byteOf 8 (s.gpr rt)) := by
  obtain ⟨_, hnext, hstored, -⟩ := exec_partialStoreDoubleword (i := .sdl rt offset base) hs hw he hd hd rfl ht ht'
    (sdlMerge_eq_mergeDown (doublewordOffset_lt ea) _ _)
  cases hexec.symm.trans hnext
  rw [← BitVec.setWidth_eq (mergeDown _ _ _)] at hstored
  exact Memory.spliced_left rfl (by decide) (s.byteOf_dwordAt pa) hstored

theorem exec_sdr_spliced (hexec : exec (.sdr rt offset base) s = .next t) :
    s.mem.spliced t.mem pa.toNat (pa.toNat + (doublewordOffset ea + 1)) (7 - doublewordOffset ea)
      (byteOf 8 (s.gpr rt)) := by
  obtain ⟨_, hnext, hstored, -⟩ := exec_partialStoreDoubleword (i := .sdr rt offset base) hs hw he hd hd rfl ht ht'
    (sdrMerge_eq_mergeUp (doublewordOffset_lt ea) _ _)
  cases hexec.symm.trans hnext
  rw [← BitVec.setWidth_eq (mergeUp _ _ _)] at hstored
  exact Memory.spliced_right rfl (by decide) (s.byteOf_dwordAt pa) (doublewordOffset_lt ea) hstored

end

end

/-- Settles O43: each store of a pair writes a part of the register's bytes, and the two parts are the unaligned
unit. -/
theorem unalignedStorePairs : Obligations.UnalignedStorePairs := by
  constructor
  case left =>
    intro s t u rt base left right ea pa qa at_ hs hw hl hr ht ht' hd hq hq' hd' hat hx hy
    obtain ⟨hsilent, hwf, hcfg, hmmu, -, hgpr⟩ := exec_leaves hs hx
    have hr' := (State.effectiveAddress_congr (hgpr base nofun) right).trans hr
    have hpa := (fits_of_translate (Size.bytes_cases .b4) (alignedWord_mod ea) ht).1
    have hqa := (fits_of_translate (Size.bytes_cases .b4) (alignedWord_mod _) hq).1
    have hleft := exec_swl_spliced hs hw hl hd ht ht' hx
    have hright := exec_swr_spliced (pa := qa) hsilent (hwf hw) hr' (hcfg ▸ hd') (hmmu ▸ hq) (hmmu ▸ hq') hy
    rw [hgpr rt nofun] at hright
    simp only [Size.bytes] at hpa hqa
    exact Memory.read_splicedPair (wordOffset_lt ea) (pairOffsets_word ht hq) (by omega) hleft hright hat
  case right =>
    intro s t u rt base left right ea pa qa at_ hs hw hl hr ht ht' hd hq hq' hd' hat hx hy
    obtain ⟨hsilent, hwf, hcfg, hmmu, -, hgpr⟩ := exec_leaves hs hx
    have hr' := (State.effectiveAddress_congr (hgpr base nofun) right).trans hr
    have hpa := (fits_of_translate (Size.bytes_cases .b8) (alignedDoubleword_mod ea) ht).1
    have hqa := (fits_of_translate (Size.bytes_cases .b8) (alignedDoubleword_mod _) hq).1
    have hleft := exec_sdl_spliced hs hw hl hd ht ht' hx
    have hright := exec_sdr_spliced (pa := qa) hsilent (hwf hw) hr' (hcfg ▸ hd') (hmmu ▸ hq) (hmmu ▸ hq') hy
    rw [hgpr rt nofun] at hright
    simp only [Size.bytes] at hpa hqa
    exact Memory.read_splicedPair (doublewordOffset_lt ea) (pairOffsets_doubleword ht hq) (by omega) hleft hright hat

end Sys2Proof.Machine
end

section
/-! SUPPORT. The no-ops, SYSCALL and BREAK, and coprocessor 0 (46_system.md R228 to R255): the words of the coprocessor-0
rows, a handler that is one call in a silent environment, and the landing on the address that a collaborator writes
during ERET (60_exceptions.md R274). -/
namespace Sys2Proof.Machine

/-! ## The words of the coprocessor-0 rows (30_encoding.md R81) -/

/-- The words of a move row; bit 25 is the top bit of its sub-opcode. The row is read off the table unless it is given. -/
theorem cop0MoveWords_of_row {sub : BitVec 5} {i : Word → Instr} (hmove : sub.getLsbD 4 = false := by decide)
    (hrow : ∀ w, rsField w = sub → resolveCop0Mov w = .handler (i w) := by
      intro w hsub; simp [resolveCop0Mov, hsub]) :
    cop0MoveWords sub i := by
  intro w hop hsub
  have hbit : w.getLsbD 25 = false := by rw [← rsField_bit4, hsub, hmove]
  exact decode_of_handler ((resolve_of_cop0Mov hop hbit).trans (hrow w hsub))

/-- The words of an operation row; the row is read off the table unless it is given. -/
theorem cop0CoWords_of_row {funct : BitVec 6} {i : Instr}
    (hrow : ∀ w, functField w = funct → resolveCop0Co w = .handler i := by
      intro w hfunct; simp [resolveCop0Co, hfunct]) :
    cop0CoWords funct i :=
  fun w hop hco hfunct => decode_of_handler ((resolve_of_cop0Co hop hco).trans (hrow w hfunct))

/-! ## The no-ops (R228, R229, R232), SYSCALL and BREAK (R230, R231) -/

/-- Settles O47: each handler is `noEffect`. -/
theorem intentionalNoOps : Obligations.IntentionalNoOps := by
  refine ⟨specialWords_of_row, primaryWords_of_row, specialWords_of_row, specialWords_of_row, specialWords_of_row,
    specialWords_of_row, specialWords_of_row, specialWords_of_row, regimmWords_of_row, regimmWords_of_row,
    regimmWords_of_row, regimmWords_of_row, regimmWords_of_row, regimmWords_of_row, fun s op rs rt imm => ?_⟩
  exact ⟨rfl, rfl, rfl, rfl, rfl, rfl, rfl, rfl, rfl, rfl, rfl, rfl, rfl, rfl⟩

/-- Settles O48: each handler is one refusal, which the next step finds recorded. -/
theorem syscallAndBreakAreRefused : Obligations.SyscallAndBreakAreRefused :=
  ⟨specialWords_of_row, specialWords_of_row, fun _ _ => ⟨rfl, rfl, fun hhost => step_of_refused hhost rfl⟩⟩

/-! ## Coprocessor 0 in a silent environment (R246 to R255) -/

section
variable {s : State} (hs : s.silent)
include hs

/-- A move from coprocessor 0 is its read, then one register write. -/
theorem moveFromCop0_silent (rt rd : Reg) :
    moveFromCop0 rt rd s =
      .ok () ((s.record (.cop0Read rd)).writeGpr rt (sext64 (low32 s.nextAnswer.value))) := by
  unfold moveFromCop0
  rw [cop0Read_silent rd hs, Res.bind_ok]

theorem exec_moveFromCop0_onlyGpr {i : Instr} {rt rd : Reg} (hexec : exec i s = (moveFromCop0 rt rd s).outcome) :
    ∃ t, exec i s = .next t ∧
      (s.record (.cop0Read rd)).onlyGpr t rt (sext64 (low32 s.nextAnswer.value)) := by
  rw [hexec, moveFromCop0_silent hs]
  exact ⟨_, rfl, State.onlyGpr_writeGpr _ rt _⟩

theorem exec_moveToCop0 {i : Instr} {rt rd : Reg} (hexec : exec i s = (moveToCop0 rt rd s).outcome) :
    exec i s = .next (s.record (.cop0Write rd (low32 (s.gpr rt)))) := by
  rw [hexec, moveToCop0, cop0Write_silent _ _ hs]
  rfl

theorem exec_cop0Op {i : Instr} {funct : BitVec 6} (hexec : exec i s = (cop0Op funct s).outcome) :
    exec i s = .next (s.record (.cop0Op funct)) := by
  rw [hexec, cop0Op_silent funct hs]
  rfl

end

/-- Settles O49: each is one call, and a move from coprocessor 0 then writes one register. -/
theorem coprocessor0Moves : Obligations.Coprocessor0Moves := by
  refine ⟨cop0MoveWords_of_row, cop0MoveWords_of_row, cop0MoveWords_of_row, cop0MoveWords_of_row,
    fun s rt rd hs => ⟨?mfc0, ?dmfc0, ?mtc0, ?dmtc0⟩⟩
  case mfc0 | dmfc0 => exact exec_moveFromCop0_onlyGpr hs rfl
  case mtc0 | dmtc0 => exact exec_moveToCop0 hs rfl

/-- Settles O50: each is one call. -/
theorem coprocessor0Operations : Obligations.Coprocessor0Operations := by
  refine ⟨cop0CoWords_of_row, cop0CoWords_of_row, cop0CoWords_of_row, cop0CoWords_of_row, cop0CoWords_of_row,
    fun s hs => ⟨?tlbr, ?tlbwi, ?tlbwr, ?tlbp, ?eret⟩⟩
  case tlbr | tlbwi | tlbwr | tlbp | eret => exact exec_cop0Op hs rfl

/-! ## ERET where the collaborator writes the control surface (R255, 60_exceptions.md R274) -/

section
variable {s t : State} {a : Answer}

theorem State.nextAnswer_of_find (ha : findAnswer s.script s.calls.length = some a) : s.nextAnswer = a := by
  simp [State.nextAnswer, ha]

/-- The answers after the next one being silent, the call that takes the next one leaves a silent environment. -/
theorem State.silent_record_of_later (c : Call)
    (hlater : ∀ n b, s.calls.length < n → findAnswer s.script n = some b → b.silent) : (s.record c).silent :=
  fun n b hn hb => hlater n b hn hb

/-- ERET is its call and the actions that the script has for it. -/
theorem exec_eret_of_actions (ha : findAnswer s.script s.calls.length = some a)
    (hactions : performAllVia callCollaborator a.actions (s.record (.cop0Op 0x18#6)) = .ok () t) :
    exec .eret s = .next t := by
  show (cop0Op 0x18#6 s).outcome = _
  rw [cop0Op, callCollaborator_eq, State.nextAnswer_of_find ha, hactions]
  rfl

theorem performAllVia_cons_ok {call : Caller} {act : Action} {rest : List Action}
    (h : performVia call act s = .ok () t) : performAllVia call (act :: rest) s = performAllVia call rest t := by
  rw [performAllVia, h, Res.bind_ok]

/-- A collaborator's write of index 32 while the block runs schedules a jump (10_state.md R42). -/
theorem performVia_jump (call : Caller) (n : Width) (v : Dword) (hrun : s.running = true) :
    performVia call (.ctlWrite 32 n v) s = .ok () (s.setBranch (low32 v) .jump) := by
  rw [performVia, ctlWriteVia_pc, if_pos hrun]

/-- The end of a handler that completed with a jump scheduled: the landing, with its sync point (40_fetch_execute.md
R96, R97). -/
theorem finishHandler_landing (hs : t.silent) (hhalt : t.halt = none) (hjump : t.bstate = .jump) :
    finishHandler t =
      { countCycles t with
        pc := t.jumpTarget, bstate := .normal, syncCycles := 0#64
        calls := .cop0Read t.cfg.intRegB :: .cop0Read t.cfg.intRegA :: .timerClock (countCycles t).syncCycles ::
          t.calls } := by
  unfold finishHandler
  rw [if_neg (by simp [hhalt]), advance_jump_silent hs.countCycles hjump]
  rfl

/-- After a landing the next fetch is at the target, whether or not an external jump is pending (R88). -/
theorem nextFetchAddress_landing (hs : t.silent) (hhalt : t.halt = none) (hjump : t.bstate = .jump) :
    nextFetchAddress (finishHandler t) = t.jumpTarget := by
  rw [finishHandler_landing hs hhalt hjump]
  exact ite_self _

end

/-- Settles O51: the writes made during the call schedule the jump, and the end of the handler lands. -/
theorem exceptionReturnLandsOnTheWrittenAddress : Obligations.ExceptionReturnLandsOnTheWrittenAddress := by
  intro s a v w hrun hhalt ha hlater
  have hs := State.silent_record_of_later (.cop0Op 0x18#6) hlater
  have jump := performVia_jump (s := s.record (.cop0Op 0x18#6)) callCollaborator .w32 v hrun
  refine ⟨fun hactions => ?landing, fun hactions => ?externalJump⟩
  case landing =>
    have hland := finishHandler_landing (t := (s.record (.cop0Op 0x18#6)).setBranch (low32 v) .jump) hs hhalt rfl
    refine ⟨_, exec_eret_of_actions ha ?_, rfl, congrArg State.pc hland, congrArg State.bstate hland,
      congrArg State.syncCycles hland, nextFetchAddress_landing hs hhalt rfl⟩
    rw [hactions, performAllVia_cons_ok jump]
    rfl
  case externalJump =>
    refine ⟨_, exec_eret_of_actions ha ?_, rfl, nextFetchAddress_landing hs hhalt rfl⟩
    rw [hactions, performAllVia_cons_ok jump]
    rfl

end Sys2Proof.Machine
end

section
/-! SUPPORT. The coprocessor-1 class (46_system.md R256 to R261): the word that is forwarded is the fetched one, what the
executor goes on from after each of its operations, and its operations and its branch as the statement's words say them,
in order. -/
namespace Sys2Proof

/-! ## The forwarded word (30_encoding.md R75, R78) -/

section
variable {w : Word}

/-- An I-format word is its four fields. -/
theorem encI_fields : encI (opField w) (rsField w) (rtField w) (immField w) = w := by
  unfold encI opField rsField rtField immField
  rw [BitVec.extractLsb'_append_extractLsb'_eq_extractLsb' (by rfl),
    BitVec.extractLsb'_append_extractLsb'_eq_extractLsb' (by rfl),
    BitVec.extractLsb'_append_extractLsb'_eq_extractLsb' (by rfl)]
  exact BitVec.extractLsb'_eq_self

/-- A word with bits 25-0 whole is its two fields. -/
theorem encJ_fields : encJ (opField w) (targetField w) = w := by
  unfold encJ opField targetField
  rw [BitVec.extractLsb'_append_extractLsb'_eq_extractLsb' (by rfl)]
  exact BitVec.extractLsb'_eq_self

end

/-- What a word selects is of the coprocessor-1 class (46_system.md R257). -/
def Resolved.isCop1 (r : Resolved) : Bool :=
  match r with
  | .handler i => decide (Machine.instrGroup i = .cop1)
  | .fallback _ => false

section
variable (w : Word)

theorem resolveSpecial_isCop1 : (resolveSpecial w).isCop1 = false := by
  unfold resolveSpecial
  split <;> rfl

theorem resolveRegimm_isCop1 : (resolveRegimm w).isCop1 = false := by
  unfold resolveRegimm
  split <;> rfl

theorem resolveCop0Mov_isCop1 : (resolveCop0Mov w).isCop1 = false := by
  unfold resolveCop0Mov
  split <;> rfl

theorem resolveCop0Co_isCop1 : (resolveCop0Co w).isCop1 = false := by
  unfold resolveCop0Co
  split <;> rfl

end

/-- The class has five rows, all of the `primary` table. -/
theorem opField_of_isCop1 {w : Word} (h : (resolve w).isCop1 = true) :
    opField w ∈ [0x11#6, 0x31#6, 0x35#6, 0x39#6, 0x3D#6] := by
  by_cases hspecial : opField w = 0x00#6
  · simp [resolve_of_special hspecial, resolveSpecial_isCop1] at h
  by_cases hregimm : opField w = 0x01#6
  · simp [resolve_of_regimm hregimm, resolveRegimm_isCop1] at h
  by_cases hcop0 : opField w = 0x10#6
  · cases hco : w.getLsbD 25 with
    | false => simp [resolve_of_cop0Mov hcop0 hco, resolveCop0Mov_isCop1] at h
    | true => simp [resolve_of_cop0Co hcop0 hco, resolveCop0Co_isCop1] at h
  unfold resolve at h
  split at h <;> simp_all [Resolved.isCop1, Machine.instrGroup]

namespace Machine

/-- A word of the class has no field that its instruction does not name, so it is the word of its instruction. -/
theorem encode_of_cop1 {w : Word} {i : Instr} (hgroup : instrGroup i = .cop1) (hdecode : decode w = some i) :
    encode i = w := by
  have hop : opField w ∈ [0x11#6, 0x31#6, 0x35#6, 0x39#6, 0x3D#6] := by
    refine opField_of_isCop1 ?_
    unfold decode at hdecode
    split at hdecode
    · rename_i j hresolve
      obtain rfl := Option.some.inj hdecode
      simp [hresolve, Resolved.isCop1, hgroup]
    · cases hdecode
  have row : ∀ {op : BitVec 6} {k : Word → Instr}, primaryWords op k → opField w = op → i = k w :=
    fun hwords h => Option.some.inj (hdecode.symm.trans (hwords w h))
  simp only [List.mem_cons, List.not_mem_nil, or_false] at hop
  obtain hop | hop | hop | hop | hop := hop
  · rw [row (k := fun w => .cop1 (targetField w)) primaryWords_of_row hop, encode, ← hop, encJ_fields]
  · rw [row (k := fun w => .lwc1 (rtField w) (immField w) (rsField w)) primaryWords_of_row hop, encode, ← hop,
      encI_fields]
  · rw [row (k := fun w => .ldc1 (rtField w) (immField w) (rsField w)) primaryWords_of_row hop, encode, ← hop,
      encI_fields]
  · rw [row (k := fun w => .swc1 (rtField w) (immField w) (rsField w)) primaryWords_of_row hop, encode, ← hop,
      encI_fields]
  · rw [row (k := fun w => .sdc1 (rtField w) (immField w) (rsField w)) primaryWords_of_row hop, encode, ← hop,
      encI_fields]

/-- Every handler of the class forwards the fetched word. -/
theorem exec_cop1Class {s : State} {w : Word} {i : Instr} (hgroup : instrGroup i = .cop1) (hdecode : decode w = some i) :
    exec i s = (cop1Class w s).outcome := by
  rw [← encode_of_cop1 hgroup hdecode]
  cases i with
  | cop1 | lwc1 | ldc1 | swc1 | sdc1 => rfl
  | _ => cases hgroup

/-! ## What the executor goes on from -/

/-- The executor is under way for the word `last`: nothing is done during the calls it makes, memory and cache are
well-formed, and `last` is still the word that was fetched. -/
structure Executing (last : Word) (s : State) : Prop where
  silent : s.silent
  wf : s.wf = true
  lastInstr : s.lastInstr = last

/-- A result that is passed on leaves the state of what gave it. -/
theorem Res.state_bind_ok {α β : Type} (r : Res α) (g : α → β) : (r.bind fun a t => .ok (g a) t).state = r.state := by
  cases r <;> rfl

section
variable {s : State}

theorem ctlReadVia_lastInstr (index : Nat) (n : Width) (hs : s.silent) :
    (ctlReadVia callCollaborator index n s).state.lastInstr = s.lastInstr := by
  by_cases hinterrupts : index = 38
  · rw [hinterrupts, ctlReadVia_interrupts n hs]
    rfl
  by_cases hprobe : index = 39
  · rw [hprobe, ctlReadVia_probe, Res.state_bind_ok]
    exact (probe_quiet s.pc s.lastInstr s.jumpTarget hs).lastInstr
  unfold ctlReadVia
  split
  · rfl
  · split
    case h_5 => exact absurd rfl hinterrupts
    case h_6 => exact absurd rfl hprobe
    all_goals rfl

theorem ctlWriteVia_lastInstr (index : Nat) (n : Width) (v : Dword) (hs : s.silent) :
    (ctlWriteVia callCollaborator index n v s).state.lastInstr = s.lastInstr := by
  have forced : (s.forceBranch v).lastInstr = s.lastInstr := by
    unfold State.forceBranch
    split <;> rfl
  by_cases hcpi : index = 33
  · rw [hcpi, ctlWriteVia_cpi n v hs]
    rfl
  unfold ctlWriteVia
  split
  · rfl
  · split
    case h_1 =>
      rw [Res.state_ok]
      split <;> rfl
    case h_2 => exact absurd rfl hcpi
    case h_4 | h_5 => exact forced
    all_goals rfl

end

section
variable {last : Word} {s t : State}

theorem Executing.of_keeps (h : Executing last s) (k : Keeps s t) (hlast : t.lastInstr = s.lastInstr) :
    Executing last t :=
  ⟨k.silent h.silent, k.wf h.wf, hlast.trans h.lastInstr⟩

/-- Another agent's action among the executor's operations, its write of memory or of register 0 included. -/
theorem Executing.performVia (h : Executing last s) (a : Action) :
    Executing last (performVia callCollaborator a s).state := by
  cases a with
  | ctlRead index n =>
    rw [Machine.performVia, Res.state_bind_ok]
    exact h.of_keeps (ctlReadVia_serves callCollaborator_serves index n s).toKeeps
      (ctlReadVia_lastInstr index n h.silent)
  | ctlWrite index n v =>
    by_cases hzero : index = 0
    · subst hzero
      exact ⟨h.silent, h.wf, h.lastInstr⟩
    · exact h.of_keeps (ctlWriteVia_serves callCollaborator_serves index n v s fun _ => hzero).toKeeps
        (ctlWriteVia_lastInstr index n v h.silent)
  | memWrite pa b =>
    obtain ⟨hmem, hcache⟩ := State.wf_iff.1 h.wf
    exact ⟨h.silent, State.wf_iff.2 ⟨Memory.wf_write b pa.isLt hmem, hcache⟩, h.lastInstr⟩
  | remap windows => exact ⟨h.silent, h.wf, h.lastInstr⟩

/-- One operation of the executor. -/
theorem Executing.runCop1Op (h : Executing last s) (o : Cop1Op) : Executing last (runCop1Op o s).state := by
  have stores : InstrGroup.stores .store := .inl rfl
  have own : o.action = none → (Machine.runCop1Op o s).state.lastInstr = s.lastInstr →
      Executing last (Machine.runCop1Op o s).state := fun hown hlast =>
    h.of_keeps (runCop1Op_keeps o s (fun _ a e => nomatch hown.symm.trans e) fun _ a e => nomatch hown.symm.trans e)
      hlast
  cases o with
  | act a => exact h.performVia a
  | writeGpr r v => exact own rfl (State.writeGpr_lastInstr s r v)
  | memRead va n =>
    refine own rfl (Within.lastInstr (g := .store) (d := none) ?_)
    rw [Machine.runCop1Op]
    exact checkAligned_within stores.ends h.silent
      (Within.bind (memRead_within stores.ends va n h.silent) fun _ t _ => Within.refl t)
  | memWrite va n v =>
    refine own rfl (Within.lastInstr (g := .store) (d := none) ?_)
    rw [Machine.runCop1Op]
    exact checkAligned_within stores.ends h.silent (memWrite_within stores va n v h.silent)
  | regRead k | regWrite k v =>
    refine own rfl ?_
    rw [Machine.runCop1Op, callCollaborator_silent _ h.silent]
    rfl

/-- The executor's `BranchOp`. -/
theorem Executing.branchOp (h : Executing last s) (taken : Bool) (target : Word) (likely : Bool) (link : Option Reg) :
    Executing last (branchOp taken target likely link s).state :=
  h.of_keeps (branchOp_keeps taken target likely link s)
    (branchOp_within (g := .branch) (.inl rfl) taken target likely link h.silent).lastInstr

end

/-! ## A part of a handler that ends in `t`, or goes on from a state that `done` says -/

/-- The handler whose next part gives `r` ends there in `t`, or goes on from a state that `done` says. -/
def Res.endsIn {α : Type} (r : Res α) (t : State) (done : State → Prop) : Prop :=
  match r with
  | .ok _ v => done v
  | .stop v => t = v

section
variable {α β : Type} {r : Res α} {t : State} {done done' : State → Prop}

theorem Res.endsIn_state (r : Res α) : r.endsIn r.state fun v => r.state = v := by cases r <;> rfl

theorem Res.endsIn_stop (hstop : ∃ v, r = .stop v) (h : r.endsIn t done) : t = r.state := by
  obtain ⟨v, rfl⟩ := hstop
  exact h

theorem Res.endsIn_bind_ok {g : α → β} : (r.bind fun a v => .ok (g a) v).endsIn t done ↔ r.endsIn t done := by
  cases r <;> rfl

/-- The first of two parts, where the second takes what `done'` says to what `done` says. -/
theorem Res.endsIn.first {f : α → State → Res β} (h : (r.bind f).endsIn t done)
    (hf : ∀ a v, r = .ok a v → (f a v).endsIn t done → done' v) : r.endsIn t done' := by
  cases r with
  | ok a v => exact hf a v rfl h
  | stop v => exact h

end

/-! ## The executor's branch (R256, 44_branch.md R174) -/

section
variable {s t : State} {likely : Bool} {link : Option Reg} {done : State → Prop}

/-- A taken self-branch whose look-ahead fetch is refused ends the handler. -/
theorem branchOp_lookAheadRefused_stops (hok : s.bstate ≠ .jump ∨ s.cfg.branchInDs = .derived)
    (hrefused : (s.pc + 4#32).toNat % 4 ≠ 0 ∨
      s.silent ∧ (s.pc + 4#32).toNat % 4 = 0 ∧ translateAddress s.mmu (s.pc + 4#32) .fetch = none) :
    ∃ v, branchOp true s.pc likely link s = .stop v := by
  have probed : ∀ u : State, u.mmu = s.mmu → Keeps s u →
      ∃ v, ((probe s.pc s.lastInstr s.pc u).bind fun _ x => Res.ok () x) = .stop v := by
    intro u hmmu hkeeps
    rcases hrefused with hm | ⟨hs, hm, htr⟩
    · rw [probe_misaligned hm]
      exact ⟨_, rfl⟩
    · rw [probe_untranslated (hkeeps.silent hs) hm (by rw [hmmu, htr])]
      exact ⟨_, rfl⟩
  unfold branchOp
  rw [if_neg (State.not_branchRefused hok), if_pos rfl]
  simp only
  split
  · exact probed s rfl (Keeps.refl s)
  · exact probed _ (by simp) ((Keeps.writeLink s link).trans (Keeps.setBranch _ _ _))

/-- `BranchOp`, whatever comes after it. -/
theorem branchRuns_of_endsIn {taken : Bool} {target w : Word} {fetched : Prop} (hw : fetched → s.lastInstr = w)
    (h : (branchOp taken target likely link s).endsIn t done) :
    s.branchRuns t fetched w (taken = true) target (if likely then .jump else .delaySlot) link done := by
  refine ⟨fun hb hc => ?refused, fun hok => ⟨fun hn => ?untaken, fun ht hne => ?other, fun ht hself hf hl => ?self,
    fun ht hself => ?lookAheadRefused⟩⟩
  case refused =>
    rw [branchOp_refused hb hc] at h
    exact h
  case untaken =>
    rw [Bool.eq_false_iff.2 hn, branchOp_untaken hok] at h
    exact ⟨_, State.branched_setBranch s link _ _, h⟩
  case other =>
    rw [ht, branchOp_taken hok hne] at h
    exact ⟨_, State.branched_setBranch s link _ _, h⟩
  case self =>
    rw [ht, branchOp_probe hok (State.refusedUnwritten_of hl), Res.endsIn_bind_ok, hw hf] at h
    refine ⟨_, State.branched_setBranch s link _ _, ?_⟩
    generalize probe s.pc w target _ = r at h ⊢
    cases r <;> exact h
  case lookAheadRefused =>
    subst hself
    rw [ht] at h
    obtain ⟨u, hafter, hbefore, hmisaligned, huntranslated⟩ :=
      branchOp_lookAheadRefused (likely := likely) (link := link) hok
    refine ⟨u, hafter, hbefore, fun hm => ?_, fun hs hm htr => ?_⟩
    · exact (Res.endsIn_stop (branchOp_lookAheadRefused_stops hok (.inl hm)) h).trans (hmisaligned hm)
    · exact (Res.endsIn_stop (branchOp_lookAheadRefused_stops hok (.inr ⟨hs, hm, htr⟩)) h).trans
        (huntranslated hs hm htr)

end

/-! ## The executor's operations (R256) -/

theorem faultCode_eq (cfg : Params) (kind : AccessKind) :
    faultCode cfg kind = if kind = .store then cfg.codeAdes else cfg.codeAdel := by
  cases kind <;> rfl

section
variable {s t : State} {va pa : Word} {n : Size} {kind : AccessKind} {done : State → Prop}

/-- A memory access of the executor: its alignment check, its translation, and what it does where it has both. -/
theorem accessRuns_of_endsIn {access : State → Res Unit} {completes : Word → Prop} (hs : s.silent)
    (h : (checkAligned kind n va access s).endsIn t done)
    (hnone : translateAddress s.mmu va kind = none → access s = .stop (s.untranslated va kind))
    (hsome : va.toNat % n.bytes = 0 → ∀ pa, translateAddress s.mmu va kind = some pa → (access s).endsIn t done →
      completes pa) :
    s.accessRuns t va n kind completes := by
  have aligned : va.toNat % n.bytes = 0 → (access s).endsIn t done := fun ha => by
    rwa [checkAligned_ok (misaligned_of_mod ha)] at h
  refine ⟨fun hm hn => ?_, fun hm hn => ?_, fun ha ht => ?_, fun ha pa ht => hsome ha pa ht (aligned ha)⟩
  · rw [checkAligned_bad (misaligned_of_mod_ne hm), hn] at h
    exact h
  · rw [checkAligned_bad (misaligned_of_mod_ne hm), misalignedAccess_silent hs hn, faultCode_eq] at h
    exact h
  · have hstop := aligned ha
    rw [hnone ht] at hstop
    exact hstop

/-- A write to a device in a silent environment: the invalidation and the two calls (20_memory.md R55, R58). -/
theorem memWrite_device (v : Dword) (hs : s.silent) (hw : s.wf = true)
    (ht : translateAddress s.mmu va .store = some pa) (hd : isDevice s.cfg pa = true) :
    ∃ u, memWrite va n v s = .ok () u ∧ s.cache.invalidated s.cfg u.cache pa n.bytes ∧
      { u with cache := s.cache } =
        { s with calls := .busWrite pa n (n.clip v) :: .translate va .store :: s.calls } := by
  have hdevice : (s.record (.translate va .store)).storeBytes pa n v = s.record (.translate va .store) := if_pos hd
  refine ⟨_, memWrite_silent v hs ht, ?_, ?_⟩
  · rw [hdevice]
    exact invalidateClearsTheOverlappedEntries s.cfg s.cache pa n (State.wf_iff.1 hw).2
  · rw [hdevice]
    rfl

/-- One operation of the executor, whatever comes after it. -/
theorem opRuns_of_endsIn {o : Cop1Op} (hs : s.silent) (hw : s.wf = true) (h : (runCop1Op o s).endsIn t done) :
    s.opRuns t o done := by
  cases o with
  | writeGpr r v => exact ⟨_, State.onlyGpr_writeGpr s r v, h⟩
  | memRead va n =>
    rw [runCop1Op] at h
    refine accessRuns_of_endsIn hs h (memRead_bind_untranslated _ hs) fun _ pa ht hread => ?_
    obtain ⟨v, hv⟩ := memRead_completes (n := n) hs ht
    rw [hv] at hread
    exact hread
  | memWrite va n v =>
    rw [runCop1Op] at h
    refine accessRuns_of_endsIn hs h (memWrite_silent_none v hs) fun ha pa ht hwrite => ⟨fun hd => ?_, fun hd => ?_⟩
    · obtain ⟨u, hop, hstored⟩ := memWrite_storedOnly v hs hw ha ht hd
      rw [hop] at hwrite
      exact ⟨u, hstored, hwrite⟩
    · obtain ⟨u, hop, hcache, hframe⟩ := memWrite_device (n := n) v hs hw ht hd
      rw [hop] at hwrite
      exact ⟨u, hcache, hframe, hwrite⟩
  | regRead k | regWrite k v =>
    rw [runCop1Op, callCollaborator_silent _ hs] at h
    exact h
  | act a =>
    rw [runCop1Op] at h
    simp only [State.opRuns]
    generalize Machine.performVia callCollaborator a s = r at h ⊢
    cases r <;> exact h

/-- The operations in order, whatever comes after them. -/
theorem opsRun_of_endsIn {last : Word} {ops : List Cop1Op} {done' : State → Prop} (hexec : Executing last s)
    (h : (runCop1Ops ops s).endsIn t done) (hdone : ∀ v, Executing last v → done v → done' v) :
    s.opsRun t ops done' := by
  induction ops generalizing s with
  | nil => exact hdone s hexec h
  | cons o rest ih =>
    refine opRuns_of_endsIn hexec.silent hexec.wf (h.first fun _ u hu hrest => ih ?_ hrest)
    have hop := hexec.runCop1Op o
    rwa [hu] at hop

/-- The whole of what the executor does: its operations, and its branch with the operations after it. -/
theorem opsRun_runCop1 {w last : Word} {a : Answer} {fetched : Prop} (hexec : Executing last s)
    (hw : fetched → last = w) :
    s.opsRun (runCop1 a s).state a.cop1Ops fun v =>
      match a.cop1Branch with
      | none => (runCop1 a s).state = v
      | some b =>
        v.branchRuns (runCop1 a s).state fetched w (b.taken = true) b.target
          (if b.likely then .jump else .delaySlot) b.link
          fun v' => v'.opsRun (runCop1 a s).state b.after fun x => (runCop1 a s).state = x := by
  have hend := (runCop1 a s).endsIn_state
  generalize (runCop1 a s).state = t at hend ⊢
  refine opsRun_of_endsIn hexec (hend.first fun _ _ _ hrest => hrest) fun v hv hrest => ?_
  cases hb : a.cop1Branch with
  | none =>
    simp only [hb] at hrest
    exact hrest
  | some b =>
    simp only [hb] at hrest
    refine branchRuns_of_endsIn (fun hf => hv.lastInstr.trans (hw hf)) (hrest.first fun _ u hu hafter => ?_)
    have hbranch := hv.branchOp b.taken b.target b.likely b.link
    rw [hu] at hbranch
    exact opsRun_of_endsIn hbranch hafter fun _ _ hx => hx

end

/-! ## The class -/

section
variable {s u : State} {w : Word} {a : Answer}

theorem cop1Class_absent (w : Word) (h : s.cfg.cop1Exec = false) :
    cop1Class w s = .stop { s with halt := some (.refused .cop1Unmodelled) } := by
  simp [cop1Class, h]

theorem cop1Class_silent (w : Word) (h : s.cfg.cop1Exec = true) (hs : s.silent) :
    cop1Class w s = .ok () (s.record (.cop1Exec w s.pc)) := by
  rw [cop1Class, if_pos h, callCollaborator_silent _ hs, Res.bind_ok, runCop1_silent (State.nextAnswer_silent hs)]

theorem cop1Class_forwards (h : s.forwards u w a) : cop1Class w s = runCop1 a u := by
  rw [cop1Class, if_pos h.given, callCollaborator_eq, State.nextAnswer_of_find h.answer, h.quiet, h.called]
  rfl

theorem State.forwards.executing (h : s.forwards u w a) (hwf : s.wf = true) : Executing s.lastInstr u := by
  rw [h.called]
  exact ⟨State.silent_record_of_later (.cop1Exec w s.pc) h.later, hwf, rfl⟩

end

/-- Settles O53: the handler is refused, or makes its one call and does what the answer has the executor do. -/
theorem coprocessor1Class : Obligations.Coprocessor1Class := by
  refine ⟨primaryWords_of_row, primaryWords_of_row, primaryWords_of_row, primaryWords_of_row, primaryWords_of_row,
    fun s w rest ft base offset i hi hdecode => ?_⟩
  have hgroup : instrGroup i = .cop1 := by
    simp only [List.mem_cons, List.not_mem_nil, or_false] at hi
    obtain rfl | rfl | rfl | rfl | rfl := hi <;> rfl
  rw [exec_cop1Class hgroup hdecode]
  refine ⟨fun habsent => ?_, fun hgiven hs => ?_, fun u a hforwards hwf => ?_⟩
  · rw [cop1Class_absent w habsent]
    rfl
  · rw [cop1Class_silent w hgiven hs]
    rfl
  · rw [cop1Class_forwards hforwards]
    exact ⟨_, rfl, opsRun_runCop1 (hforwards.executing hwf) id⟩

end Machine
end Sys2Proof
end

section
/-! SUPPORT. Trap entry (60_exceptions.md R273): a call that does what its answer holds, the collaborator's two writes
that enter a trap, and the fault report and the sync point whose last call makes them. -/
namespace Sys2Proof.Machine

section
variable {s t : State} {a b c : Answer}

/-! ## One call (60_exceptions.md R269) -/

theorem callCollaborator_of_actions (call : Call) (ha : findAnswer s.script s.calls.length = some a)
    (hdone : performAllVia callCollaborator a.actions (s.record call) = .ok () t) :
    callCollaborator call s = .ok a t := by
  rw [callCollaborator_eq, State.nextAnswer_of_find ha, hdone, Res.bind_ok]

theorem callCollaborator_noActions (call : Call) (ha : findAnswer s.script s.calls.length = some a)
    (hquiet : a.actions = []) : callCollaborator call s = .ok a (s.record call) :=
  callCollaborator_of_actions call ha (by rw [hquiet]; rfl)

theorem cop0Write_of_actions (i : Reg) (v : Word) (ha : findAnswer s.script s.calls.length = some a)
    (hdone : performAllVia callCollaborator a.actions (s.record (.cop0Write i v)) = .ok () t) :
    cop0Write i v s = .ok () t := by
  rw [cop0Write, callCollaborator_of_actions _ ha hdone, Res.bind_ok]

theorem cop0Read_of_actions (i : Reg) (ha : findAnswer s.script s.calls.length = some a)
    (hdone : performAllVia callCollaborator a.actions (s.record (.cop0Read i)) = .ok () t) :
    cop0Read i s = .ok (low32 a.value) t := by
  rw [cop0Read, callCollaborator_of_actions _ ha hdone, Res.bind_ok]

/-! ## The writes that enter a trap -/

/-- What a write of a vector to index 32 and a write of index 64 leave of a running block. -/
def State.trapEntered (s : State) (vector : Word) : State := { s.setBranch vector .jump with extJump := true }

theorem performAllVia_trapEntry (call : Caller) (vector w : Dword) (hrun : s.running = true) :
    performAllVia call [.ctlWrite 32 .w32 vector, .ctlWrite 64 .w32 w] s = .ok () (s.trapEntered (low32 vector)) := by
  rw [performAllVia_cons_ok (performVia_jump call .w32 vector hrun)]
  rfl

/-- The top of the loop goes to the vector, whatever `pc` is (40_fetch_execute.md R88). -/
theorem nextFetchAddress_trapEntered (s : State) (vector : Word) :
    nextFetchAddress (s.trapEntered vector) = vector := if_pos rfl

/-! ## The report and the sync point whose last call acts (60_exceptions.md R263, 40_fetch_execute.md R97) -/

theorem raiseAddressError_of_actions {α : Type} (kind : AccessKind) (va : Word)
    (ha : findAnswer s.script s.calls.length = some a) (hquiet : a.actions = [])
    (hb : findAnswer s.script (s.calls.length + 1) = some b)
    (hdone : performAllVia callCollaborator b.actions
      ((s.record (.cop0Write s.cfg.cop0BadVAddr va)).record (.cop0Write s.cfg.cop0Exc (faultCode s.cfg kind))) =
        .ok () t) :
    (raiseAddressError kind va s : Res α) = .stop t := by
  have first : cop0Write s.cfg.cop0BadVAddr va s = .ok () (s.record (.cop0Write s.cfg.cop0BadVAddr va)) :=
    cop0Write_of_actions _ _ ha (by rw [hquiet]; rfl)
  have second := cop0Write_of_actions (s := s.record (.cop0Write s.cfg.cop0BadVAddr va)) _ _ hb hdone
  simp only [raiseAddressError, first, Res.bind_ok, State.record_cfg, second]

theorem exec_lw_misaligned {rt base : Reg} {offset : BitVec 16}
    (hmis : (s.effectiveAddress base offset).toNat % 4 ≠ 0) :
    exec (.lw rt offset base) s =
      (raiseAddressError .load (s.effectiveAddress base offset) s : Res Unit).outcome :=
  congrArg Res.outcome (loadOp_misaligned (n := .b4) sextWord rfl hmis)

/-- The sync point up to what is done during its last call. -/
def State.syncCalled (s : State) : State :=
  { s with
    syncCycles := 0#64
    calls := .cop0Read s.cfg.intRegB :: .cop0Read s.cfg.intRegA :: .timerClock s.syncCycles :: s.calls }

theorem syncPoint_of_actions (ha : findAnswer s.script s.calls.length = some a) (haquiet : a.actions = [])
    (hb : findAnswer s.script (s.calls.length + 1) = some b) (hbquiet : b.actions = [])
    (hc : findAnswer s.script (s.calls.length + 2) = some c)
    (hdone : performAllVia callCollaborator c.actions s.syncCalled = .ok () t) : syncPoint s = t := by
  have timer := callCollaborator_noActions (.timerClock s.syncCycles) ha haquiet
  have readA := cop0Read_of_actions (s := { s.record (.timerClock s.syncCycles) with syncCycles := 0#64 })
    s.cfg.intRegA hb (by rw [hbquiet]; rfl)
  have readB := cop0Read_of_actions
    (s := { (s.record (.timerClock s.syncCycles)).record (.cop0Read s.cfg.intRegA) with syncCycles := 0#64 })
    s.cfg.intRegB hc hdone
  rw [syncPoint, timer, Res.bind_ok]
  exact congrArg Res.state ((congrArg (Res.bind · fun _ u => cop0Read u.cfg.intRegB u) readA).trans readB)

end

/-- Settles O52: after the report the end of the handler lands on the vector; after the sync point, with control on the
branch's target, the external jump is pending. -/
theorem trapEntryReachesTheVector : Obligations.TrapEntryReachesTheVector := by
  refine ⟨?report, ?syncPoint⟩
  case report =>
    intro s t rt base offset a b vector w hrun hhalt hmis ha haquiet hb hbwrites hlater hexec
    have hs := State.silent_record_of_later
      (s := s.record (.cop0Write s.cfg.cop0BadVAddr (s.effectiveAddress base offset)))
      (.cop0Write s.cfg.cop0Exc (faultCode s.cfg .load)) hlater
    have hreport := raiseAddressError_of_actions (α := Unit) .load (s.effectiveAddress base offset) ha haquiet hb
      (by rw [hbwrites]; exact performAllVia_trapEntry _ vector w hrun)
    rw [exec_lw_misaligned hmis, hreport] at hexec
    obtain rfl := Host.Outcome.next.inj hexec
    exact ⟨rfl, rfl, rfl, rfl, rfl, nextFetchAddress_landing hs hhalt rfl⟩
  case syncPoint =>
    intro s a b c vector w hrun hhalt hjump ha haquiet hb hbquiet hc hcwrites
    have hfinish : finishHandler s =
        (State.syncCalled { countCycles s with pc := s.jumpTarget, bstate := .normal }).trapEntered (low32 vector) := by
      rw [finishHandler, if_neg (by simp [hhalt]), advance_jump (s := countCycles s) hjump]
      refine syncPoint_of_actions ha haquiet hb hbquiet hc ?_
      rw [hcwrites]
      exact performAllVia_trapEntry _ vector w hrun
    rw [hfinish]
    exact ⟨rfl, nextFetchAddress_trapEntered _ _⟩

end Sys2Proof.Machine
end

section
/-! SUPPORT. The state after reset, whose environment answers nothing and whose host does nothing; and the words of the
spec's examples, each the encoding of its instruction (70_reset_and_hazards.md R282, 30_encoding.md R75). -/
namespace Sys2Proof.Machine

/-! ## The state after reset (R282) -/

theorem State.findAnswer_reset (n : Nat) : findAnswer State.reset.script n = none := rfl

theorem State.reset_host : State.reset.host = [] := rfl

theorem State.find_reset_cache (i : Nat) : State.reset.cache.find i = none := rfl

theorem State.reset_coherent : State.reset.coherent := by
  simp [State.coherent, State.find_reset_cache]

theorem State.reset_noForeignWrites : State.reset.noForeignWrites := by
  simp [State.noForeignWrites, State.findAnswer_reset, State.reset_host]

theorem State.reset_noZeroWrites : State.reset.noZeroWrites := by
  simp [State.noZeroWrites, State.findAnswer_reset, State.reset_host]

theorem State.reset_silent : State.reset.silent := by
  simp [State.silent, State.findAnswer_reset]

/-- Settles O2: memory, the decode cache, the script and the host's list are empty, and a reset clears register 0. -/
theorem resetStateMeetsTheInvariants : Obligations.ResetStateMeetsTheInvariants :=
  ⟨State.wf_iff.2 ⟨rfl, Cache.wf_nil _⟩, State.reset_coherent, State.reset_noForeignWrites, State.reset_noZeroWrites,
    State.gpr_zero_afterReset _ _, State.reset_silent⟩

/-! ## The words of the spec's examples (R75) -/

/-- A word that is the encoding of a well-formed instruction decodes to it; both are computed unless they are given. -/
theorem decode_of_encode_eq {w : Word} {i : Instr} (hword : encode i = w := by decide)
    (hwf : i.wellFormed = true := by decide) : decode w = some i :=
  hword ▸ decodeOfEncode i hwf

/-- Settles O11: each word is what its instruction is encoded as. -/
theorem sampleWords : Obligations.SampleWords :=
  ⟨decode_of_encode_eq, decode_of_encode_eq, decode_of_encode_eq, decode_of_encode_eq, decode_of_encode_eq,
    decode_of_encode_eq, decode_of_encode_eq, decode_of_encode_eq, decode_of_encode_eq, decode_of_encode_eq,
    decode_of_encode_eq, decode_of_encode_eq, decode_of_encode_eq, decode_of_encode_eq, decode_of_encode_eq,
    decode_of_encode_eq⟩

end Sys2Proof.Machine
end
